-- ==== Sys2Proof/Word.lean ====
section
/-! DEFINITION. The word types of the lzmajs range_decoder core (rules R11, R12, R26 of spec/): the manual's `u8`, `u11`, `u32`,
`u64`. Arithmetic on them is Lean's `BitVec` arithmetic, which wraps modulo 2^n as rule R12 asks. -/

namespace Sys2Proof

/-- `u8`: a byte of a stream or of the dictionary (R11). -/
abbrev Byte := BitVec 8

/-- `u11`: one probability cell (R26). -/
abbrev Prob := BitVec 11

/-- `u32`: `range`, `code`, the reps, `pos`, `size`, the dictionary sizes (R21, R22, R25, R31, R34, R35). -/
abbrev Word := BitVec 32

/-- `u64`: `totalPos`, `inPos`, the unpack budget (R33, R36, R40). -/
abbrev DWord := BitVec 64

end Sys2Proof
end

