-- ==== Sys2Proof/Config.lean ====
section
/-! DEFINITION. The fixed format constants (R9), the two parameters the spec leaves open (R10: `DICT_FILL`, `DICT_CAP`), and
the one free value of the machine (R148: what an unwritten dictionary cell reads as when `DICT_FILL = none`). -/

namespace Sys2Proof.Config

/-- `kTopValue = 2^24`: below it `range` is normalised (R9, R101). -/
def kTopValue : Word := 0x01000000#32

/-- `kBitModelTotal = 2048 = 2^11` (R9). -/
def kBitModelTotal : Nat := 2048

/-- `kNumBitModelTotalBits = 11` (R9). -/
def kNumBitModelTotalBits : Nat := 11

/-- `kNumMoveBits = 5`: a probability moves by 1/32 of the residual (R9, R102). -/
def kNumMoveBits : Nat := 5

/-- `kProbInit = 1024`: the neutral probability (R9, R26). -/
def kProbInit : Prob := 1024#11

/-- `kMatchMinLen = 2` (R9, R178). -/
def kMatchMinLen : Nat := 2

/-- `kDictMin = 4096` (R9, R223). -/
def kDictMin : Word := 4096#32

/-- `kEndPosModelIndex = 14` (R9, R214). -/
def kEndPosModelIndex : Nat := 14

/-- `kNumAlignBits = 4` (R9, R215). -/
def kNumAlignBits : Nat := 4

/-- The properties byte is legal below this bound (R9, R71). -/
def kPropsBound : Nat := 225

/-- The distance that is the end marker (R80, R217). -/
def kEndMarker : Word := 0xFFFFFFFF#32

/-- The parameters the spec leaves OPEN (R10, D7, D27). They are fixed for one machine; a state carries them so that a
claim can speak of every value, and no step changes them. (DEDUCED, log entry 5.) -/
structure Params where
  /-- `DICT_FILL`: what an unwritten dictionary cell reads as; `none` (the default): an arbitrary byte at each read. -/
  dictFill : Option Byte
  /-- `DICT_CAP`: the largest window the machine can hold; `none` (the default): no limit. -/
  dictCap : Option Word
  deriving DecidableEq, Repr

/-- Both parameters at the default the spec gives (D7, D27). -/
def defaultParams : Params := { dictFill := none, dictCap := none }

/-- FREE VALUE (R148, U1): the byte the n-th read of an unwritten dictionary cell returns when `DICT_FILL = none`. It has no
body, so nothing can be proved about its values. (DESIGN CHOICE, log entry 7.) -/
opaque freeFill : Nat → Byte

end Sys2Proof.Config
end

