-- ==== Sys2Proof/Syntax.lean ====
section
/-! DEFINITION. The syntax: what the internal command bus, the stream header and the payload's decisions can say. `Instr` has
one constructor for each row of spec/opcode_table.json; the rule each row cites stands beside its constructor. -/

namespace Sys2Proof

/-- The arrays of the probability file `P` (R27). `lenX` are the members of `P.len`, `repX` those of `P.repLen`. -/
inductive ProbArr where
  | isMatch | isRep | isRepG0 | isRepG1 | isRepG2 | isRep0Long | posSlot | posSpecial | align
  | lenChoice | lenChoice2 | lenLow | lenMid | lenHigh
  | repChoice | repChoice2 | repLow | repMid | repHigh
  | lit
  deriving DecidableEq, Repr

/-- The address of one `PROB` cell: an (array, index) pair (R54). Also the base of a tree `T`, whose node `m` is the cell
`idx + m` of the array (R120). -/
structure ProbAddr where
  arr : ProbArr
  idx : BitVec 24
  deriving DecidableEq, Repr

/-- The two length decoders: `P.len` for new matches and the end marker, `P.repLen` for the long repeats (R132). -/
inductive LenInst where
  | len | rep
  deriving DecidableEq, Repr

/-- The instructions: one constructor per row of the opcode table. The operations (5-bit codes, R88) carry the operands of
R88; the four header fields carry the field's value (R71 to R74); the symbols and the length and distance codes carry no
value of their own, because the decisions that follow their selecting ones are recovered from the stream by the
range decoder while they execute (R75, R81). -/
inductive Instr where
  /-- RC.INIT (R100). -/
  | rcInit
  /-- RC.NORM (R101). -/
  | rcNorm
  /-- RC.BIT (R102). -/
  | rcBit (a : ProbAddr)
  /-- RC.DIRECT (R103). -/
  | rcDirect (n : Byte)
  /-- RC.FINOK (R104). -/
  | rcFinok
  /-- BT.FWD (R121). -/
  | btFwd (t : ProbAddr) (n : Byte)
  /-- BT.REV (R122). -/
  | btRev (t : ProbAddr) (n : Byte)
  /-- LEN.DEC (R131). -/
  | lenDec (inst : LenInst) (ps : BitVec 4)
  /-- DW.CREATE (R141). -/
  | dwCreate (n : Word)
  /-- DW.PUT (R142). -/
  | dwPut (b : Byte)
  /-- DW.GET (R143). -/
  | dwGet (dist : Word)
  /-- DW.COPY (R144). R144 bounds `len` from below alone: its 32 bits are a DESIGN CHOICE (log entry 8). -/
  | dwCopy (dist len : Word)
  /-- DW.CHK (R145). -/
  | dwChk (d : Word)
  /-- DW.EMPTY (R146). -/
  | dwEmpty
  /-- DW.FLUSH (R147). -/
  | dwFlush
  /-- ST.LIT (R161). -/
  | stLit
  /-- ST.MATCH (R162). -/
  | stMatch
  /-- ST.REP (R163). -/
  | stRep
  /-- ST.SHORTREP (R164). -/
  | stShortrep
  /-- LIT.DEC (R204). -/
  | litDec
  /-- DIST.DEC (R216). -/
  | distDec (len : BitVec 16)
  /-- HDR.PARSE (R221). -/
  | hdrParse
  /-- DEC.INIT (R225). -/
  | decInit
  /-- MAIN.STEP (R183). -/
  | mainStep
  /-- START (R220). -/
  | start
  /-- FMT.PROPS (R71). -/
  | fmtProps (d : Byte)
  /-- FMT.DICTSIZE (R72). -/
  | fmtDictSize (v : Word)
  /-- FMT.SIZE (R73). -/
  | fmtSize (v : DWord)
  /-- FMT.RCPRE (R74). -/
  | fmtRcpre (z : Byte) (c : Word)
  /-- SYM.LIT (R169). -/
  | symLit
  /-- SYM.MATCH (R171). -/
  | symMatch
  /-- SYM.EOS (R179). -/
  | symEos
  /-- SYM.SHORTREP (R173). -/
  | symShortrep
  /-- SYM.REP0 (R174). -/
  | symRep0
  /-- SYM.REP1 (R175). -/
  | symRep1
  /-- SYM.REP2 (R176). -/
  | symRep2
  /-- SYM.REP3 (R177). -/
  | symRep3
  /-- CODE.LENGTH.LOW (R78). -/
  | codeLengthLow (inst : LenInst) (ps : BitVec 4)
  /-- CODE.LENGTH.MID (R78). -/
  | codeLengthMid (inst : LenInst) (ps : BitVec 4)
  /-- CODE.LENGTH.HIGH (R78). -/
  | codeLengthHigh (inst : LenInst)
  -- CODE.DIST.SLOT0 to CODE.DIST.SLOT63: the rest of a distance code once its six slot decisions are known (R79).
  | codeDistSlot0 | codeDistSlot1 | codeDistSlot2 | codeDistSlot3
  | codeDistSlot4 | codeDistSlot5 | codeDistSlot6 | codeDistSlot7
  | codeDistSlot8 | codeDistSlot9 | codeDistSlot10 | codeDistSlot11
  | codeDistSlot12 | codeDistSlot13 | codeDistSlot14 | codeDistSlot15
  | codeDistSlot16 | codeDistSlot17 | codeDistSlot18 | codeDistSlot19
  | codeDistSlot20 | codeDistSlot21 | codeDistSlot22 | codeDistSlot23
  | codeDistSlot24 | codeDistSlot25 | codeDistSlot26 | codeDistSlot27
  | codeDistSlot28 | codeDistSlot29 | codeDistSlot30 | codeDistSlot31
  | codeDistSlot32 | codeDistSlot33 | codeDistSlot34 | codeDistSlot35
  | codeDistSlot36 | codeDistSlot37 | codeDistSlot38 | codeDistSlot39
  | codeDistSlot40 | codeDistSlot41 | codeDistSlot42 | codeDistSlot43
  | codeDistSlot44 | codeDistSlot45 | codeDistSlot46 | codeDistSlot47
  | codeDistSlot48 | codeDistSlot49 | codeDistSlot50 | codeDistSlot51
  | codeDistSlot52 | codeDistSlot53 | codeDistSlot54 | codeDistSlot55
  | codeDistSlot56 | codeDistSlot57 | codeDistSlot58 | codeDistSlot59
  | codeDistSlot60 | codeDistSlot61 | codeDistSlot62 | codeDistSlot63
  deriving DecidableEq, Repr

/-- A word of an instruction, in the format of the place it stands (E1): an operation code with its operands on the
internal command bus (R88), the bytes of a header field (R70), or a sequence of decisions in decode order (R76, R78, R79;
`true` is a decision of value 1). A length code is read in the context of its instance and its posState (R78). -/
inductive CmdWord where
  | uop (bytes : List Byte)
  | stream (bytes : List Byte)
  | symbol (ds : List Bool)
  | lengthCode (inst : LenInst) (ps : BitVec 4) (ds : List Bool)
  | distCode (ds : List Bool)
  deriving DecidableEq, Repr

/-- A whole symbol of the payload with the values its decisions carry: the listing notation of R87. `len` is the length
code (0 to 271, the match length less 2), `dist` the zero-based distance. -/
inductive Symbol where
  | lit (b : Byte)
  | newMatch (len : Fin 272) (dist : Word)
  | eos (len : Fin 272)
  | shortrep
  | rep0 (len : Fin 272)
  | rep1 (len : Fin 272)
  | rep2 (len : Fin 272)
  | rep3 (len : Fin 272)
  deriving DecidableEq, Repr

/-- The opcode-table row a symbol belongs to (R76). -/
def Symbol.row : Symbol → Instr
  | .lit _ => .symLit
  | .newMatch _ _ => .symMatch
  | .eos _ => .symEos
  | .shortrep => .symShortrep
  | .rep0 _ => .symRep0
  | .rep1 _ => .symRep1
  | .rep2 _ => .symRep2
  | .rep3 _ => .symRep3

/-- A decoded distance is a new match or, for the all-ones pattern, the end marker (R80, R171, R217). -/
def Symbol.ofMatch (len : Fin 272) (dist : Word) : Symbol :=
  if dist = Config.kEndMarker then .eos len else .newMatch len dist

end Sys2Proof
end

