-- ==== Sys2Proof/WellFormed.lean ====
section
/-! DEFINITION. Which instructions are well formed: the operand domains of the operations (R88's operand column, R103, R149, D29;
tree operands R120, R123) and the domain of a symbol (R78, R80). -/

namespace Sys2Proof

/-- The number of cells of each array of `P` (R27). `lit` has its largest size, `768 * 4096` (R29; D32 lets a stream with a
smaller `lc + lp` use a prefix of it; DESIGN CHOICE, log entry 15). -/
def ProbArr.size : ProbArr → Nat
  | .isMatch => 192
  | .isRep => 12
  | .isRepG0 => 12
  | .isRepG1 => 12
  | .isRepG2 => 12
  | .isRep0Long => 192
  | .posSlot => 256
  | .posSpecial => 115
  | .align => 16
  | .lenChoice => 1
  | .lenChoice2 => 1
  | .lenLow => 128
  | .lenMid => 128
  | .lenHigh => 256
  | .repChoice => 1
  | .repChoice2 => 1
  | .repLow => 128
  | .repMid => 128
  | .repHigh => 256
  | .lit => 3145728

/-- The cell exists. -/
def ProbAddr.wf (a : ProbAddr) : Bool :=
  decide (a.idx.toNat < a.arr.size)

/-- The cells `T[0]` to `T[2^n - 1]` of a tree of `n` bits based at `t` exist (R123). -/
def ProbAddr.treeWf (t : ProbAddr) (n : Byte) : Bool :=
  decide (t.idx.toNat + 2 ^ n.toNat ≤ t.arr.size)

/-- The operand domains that do not depend on the state. (`DW.GET` and `DW.COPY` also ask for `dist ≤ size`: R149.)
Those of trees, cells and the length code are DEDUCED (log entry 9). -/
def Instr.wf : Instr → Bool
  | .rcBit a => a.wf
  | .rcDirect n => decide (1 ≤ n.toNat ∧ n.toNat ≤ 26)
  | .btFwd t n => t.treeWf n
  | .btRev t n => t.treeWf n
  | .dwCreate n => decide (n ≠ 0#32)
  | .dwGet dist => decide (dist ≠ 0#32)
  | .dwCopy dist _ => decide (dist ≠ 0#32)
  | .distDec len => decide (len.toNat ≤ 271)
  | _ => true

/-- A symbol's distance is not the end marker's pattern (R80): that pattern is the symbol `eos`. -/
def Symbol.wf : Symbol → Bool
  | .newMatch _ dist => decide (dist ≠ Config.kEndMarker)
  | _ => true

end Sys2Proof
end

