-- ==== Sys2Proof/Decode.lean ====
section
/-! DEFINITION. The decoder (total: it answers an instruction or rejects by name) and, after it, the encoder, from the encoding
tables of spec/30_encoding.md; the byte-order and bit-order helpers both use; the codec of whole symbols (R76 to R82). -/

namespace Sys2Proof

/-- Why a word is no instruction. -/
inductive DecodeError where
  /-- An operation code 0x19 to 0x1F (R88, U12). -/
  | reservedOpcode (code : Nat)
  /-- The code byte does not fit the 5 bits of an operation code (R88). -/
  | notAnOpcode (code : Nat)
  /-- The operand bytes end too early. -/
  | missingOperand
  /-- An operand byte outside the operand's type: no such array, instance or posState (R27, R88). -/
  | badOperand (value : Nat)
  /-- No header field has this length (R70). -/
  | noSuchField (length : Nat)
  /-- The decisions end before they select a row (R76, R78, R79). -/
  | missingDecision
  deriving DecidableEq, Repr

/-! ## Byte order (R55) -/

/-- Four bytes, least significant first (R72). -/
def leWord (b0 b1 b2 b3 : Byte) : Word := b3 ++ b2 ++ b1 ++ b0

/-- Four bytes, most significant first (R74). -/
def beWord (b0 b1 b2 b3 : Byte) : Word := b0 ++ b1 ++ b2 ++ b3

/-- Eight bytes, least significant first (R73). -/
def leDWord (b0 b1 b2 b3 b4 b5 b6 b7 : Byte) : DWord :=
  b7 ++ b6 ++ b5 ++ b4 ++ b3 ++ b2 ++ b1 ++ b0

/-- The byte of `w` that holds bits `8k+7` to `8k`. -/
def byteAt (w : BitVec n) (k : Nat) : Byte := w.extractLsb' (8 * k) 8

/-- The `n` bytes of `w`, least significant first. -/
def bytesLE : Nat → Nat → List Byte
  | 0, _ => []
  | n + 1, w => BitVec.ofNat 8 w :: bytesLE n (w / 256)

/-! ## Bit order (R82): decisions to numbers and back -/

/-- `n` decisions as a number, the first one most significant (forward trees, direct bits: R121, R103). -/
def ofBitsMSB (ds : List Bool) : Nat := ds.foldl (fun acc d => 2 * acc + d.toNat) 0

/-- Decisions as a number, the first one bit 0 (reverse trees: R122). -/
def ofBitsLSB : List Bool → Nat
  | [] => 0
  | d :: ds => d.toNat + 2 * ofBitsLSB ds

/-- The low `n` bits of `v`, most significant first. -/
def bitsMSB : Nat → Nat → List Bool
  | 0, _ => []
  | n + 1, v => v.testBit n :: bitsMSB n v

/-- The low `n` bits of `v`, least significant first. -/
def bitsLSB : Nat → Nat → List Bool
  | 0, _ => []
  | n + 1, v => v.testBit 0 :: bitsLSB n (v / 2)

/-- The first `n` decisions and the rest; nothing when there are fewer. -/
def takeBits : Nat → List Bool → Option (List Bool × List Bool)
  | 0, ds => some ([], ds)
  | _ + 1, [] => none
  | n + 1, d :: ds =>
    match takeBits n ds with
    | some (front, rest) => some (d :: front, rest)
    | none => none

/-! ## Position slots (R213) -/

/-- `numDirectBits = (slot >> 1) - 1`, for slots 4 to 63; 0 for slots 0 to 3. -/
def slotDirectBits (slot : Nat) : Nat := slot / 2 - 1

/-- `base = (2 | (slot & 1)) << numDirectBits`, for slots 4 to 63; the slot itself for slots 0 to 3 (R212). -/
def slotBase (slot : Nat) : Nat :=
  if slot < 4 then slot else (2 + slot % 2) * 2 ^ slotDirectBits slot

/-- The slot of a zero-based distance: the one whose range holds it (R213). -/
def distSlot (dist : Nat) : Nat :=
  if dist < 4 then dist else 2 * Nat.log2 dist + dist / 2 ^ (Nat.log2 dist - 1) % 2

/-! ## The rows of the formats SYMBOL and CODE -/

/-- The row of each of the 64 slots (R79). -/
def slotRow (slot : Nat) : Instr :=
  match slot with
  | 0 => .codeDistSlot0
  | 1 => .codeDistSlot1
  | 2 => .codeDistSlot2
  | 3 => .codeDistSlot3
  | 4 => .codeDistSlot4
  | 5 => .codeDistSlot5
  | 6 => .codeDistSlot6
  | 7 => .codeDistSlot7
  | 8 => .codeDistSlot8
  | 9 => .codeDistSlot9
  | 10 => .codeDistSlot10
  | 11 => .codeDistSlot11
  | 12 => .codeDistSlot12
  | 13 => .codeDistSlot13
  | 14 => .codeDistSlot14
  | 15 => .codeDistSlot15
  | 16 => .codeDistSlot16
  | 17 => .codeDistSlot17
  | 18 => .codeDistSlot18
  | 19 => .codeDistSlot19
  | 20 => .codeDistSlot20
  | 21 => .codeDistSlot21
  | 22 => .codeDistSlot22
  | 23 => .codeDistSlot23
  | 24 => .codeDistSlot24
  | 25 => .codeDistSlot25
  | 26 => .codeDistSlot26
  | 27 => .codeDistSlot27
  | 28 => .codeDistSlot28
  | 29 => .codeDistSlot29
  | 30 => .codeDistSlot30
  | 31 => .codeDistSlot31
  | 32 => .codeDistSlot32
  | 33 => .codeDistSlot33
  | 34 => .codeDistSlot34
  | 35 => .codeDistSlot35
  | 36 => .codeDistSlot36
  | 37 => .codeDistSlot37
  | 38 => .codeDistSlot38
  | 39 => .codeDistSlot39
  | 40 => .codeDistSlot40
  | 41 => .codeDistSlot41
  | 42 => .codeDistSlot42
  | 43 => .codeDistSlot43
  | 44 => .codeDistSlot44
  | 45 => .codeDistSlot45
  | 46 => .codeDistSlot46
  | 47 => .codeDistSlot47
  | 48 => .codeDistSlot48
  | 49 => .codeDistSlot49
  | 50 => .codeDistSlot50
  | 51 => .codeDistSlot51
  | 52 => .codeDistSlot52
  | 53 => .codeDistSlot53
  | 54 => .codeDistSlot54
  | 55 => .codeDistSlot55
  | 56 => .codeDistSlot56
  | 57 => .codeDistSlot57
  | 58 => .codeDistSlot58
  | 59 => .codeDistSlot59
  | 60 => .codeDistSlot60
  | 61 => .codeDistSlot61
  | 62 => .codeDistSlot62
  | _ => .codeDistSlot63

/-- The slot of a row of the distance code; nothing for every other row. -/
def rowSlot : Instr → Option Nat
  | .codeDistSlot0 => some 0
  | .codeDistSlot1 => some 1
  | .codeDistSlot2 => some 2
  | .codeDistSlot3 => some 3
  | .codeDistSlot4 => some 4
  | .codeDistSlot5 => some 5
  | .codeDistSlot6 => some 6
  | .codeDistSlot7 => some 7
  | .codeDistSlot8 => some 8
  | .codeDistSlot9 => some 9
  | .codeDistSlot10 => some 10
  | .codeDistSlot11 => some 11
  | .codeDistSlot12 => some 12
  | .codeDistSlot13 => some 13
  | .codeDistSlot14 => some 14
  | .codeDistSlot15 => some 15
  | .codeDistSlot16 => some 16
  | .codeDistSlot17 => some 17
  | .codeDistSlot18 => some 18
  | .codeDistSlot19 => some 19
  | .codeDistSlot20 => some 20
  | .codeDistSlot21 => some 21
  | .codeDistSlot22 => some 22
  | .codeDistSlot23 => some 23
  | .codeDistSlot24 => some 24
  | .codeDistSlot25 => some 25
  | .codeDistSlot26 => some 26
  | .codeDistSlot27 => some 27
  | .codeDistSlot28 => some 28
  | .codeDistSlot29 => some 29
  | .codeDistSlot30 => some 30
  | .codeDistSlot31 => some 31
  | .codeDistSlot32 => some 32
  | .codeDistSlot33 => some 33
  | .codeDistSlot34 => some 34
  | .codeDistSlot35 => some 35
  | .codeDistSlot36 => some 36
  | .codeDistSlot37 => some 37
  | .codeDistSlot38 => some 38
  | .codeDistSlot39 => some 39
  | .codeDistSlot40 => some 40
  | .codeDistSlot41 => some 41
  | .codeDistSlot42 => some 42
  | .codeDistSlot43 => some 43
  | .codeDistSlot44 => some 44
  | .codeDistSlot45 => some 45
  | .codeDistSlot46 => some 46
  | .codeDistSlot47 => some 47
  | .codeDistSlot48 => some 48
  | .codeDistSlot49 => some 49
  | .codeDistSlot50 => some 50
  | .codeDistSlot51 => some 51
  | .codeDistSlot52 => some 52
  | .codeDistSlot53 => some 53
  | .codeDistSlot54 => some 54
  | .codeDistSlot55 => some 55
  | .codeDistSlot56 => some 56
  | .codeDistSlot57 => some 57
  | .codeDistSlot58 => some 58
  | .codeDistSlot59 => some 59
  | .codeDistSlot60 => some 60
  | .codeDistSlot61 => some 61
  | .codeDistSlot62 => some 62
  | .codeDistSlot63 => some 63
  | _ => none

/-- The length code at the head of a sequence of decisions: its value 0 to 271 and the decisions after it (R78). -/
def decodeLength (ds : List Bool) : Option (Nat × List Bool) :=
  match ds with
  | false :: ds => (takeBits 3 ds).map fun (v, rest) => (ofBitsMSB v, rest)
  | true :: false :: ds => (takeBits 3 ds).map fun (v, rest) => (8 + ofBitsMSB v, rest)
  | true :: true :: ds => (takeBits 8 ds).map fun (v, rest) => (16 + ofBitsMSB v, rest)
  | _ => none

/-- The distance code at the head of a sequence of decisions: the zero-based distance and the decisions after it (R79). -/
def decodeDistance (ds : List Bool) : Option (Nat × List Bool) :=
  match takeBits 6 ds with
  | none => none
  | some (s, ds) =>
    let slot := ofBitsMSB s
    if slot < 4 then some (slot, ds)
    else if slot < Config.kEndPosModelIndex then
      (takeBits (slotDirectBits slot) ds).map fun (low, rest) => (slotBase slot + ofBitsLSB low, rest)
    else
      match takeBits (slotDirectBits slot - Config.kNumAlignBits) ds with
      | none => none
      | some (hi, ds) =>
        (takeBits Config.kNumAlignBits ds).map fun (lo, rest) =>
          (slotBase slot + ofBitsMSB hi * 2 ^ Config.kNumAlignBits + ofBitsLSB lo, rest)

/-- A length code as an element of its range 0 to 271. -/
def lengthCode (v : Nat) : Fin 272 := Fin.ofNat 272 v

/-- The symbol at the head of a sequence of decisions, and the decisions after it (R76 to R80). -/
def decodeSymbol (ds : List Bool) : Option (Symbol × List Bool) :=
  match ds with
  | false :: ds => (takeBits 8 ds).map fun (b, rest) => (.lit (BitVec.ofNat 8 (ofBitsMSB b)), rest)
  | true :: false :: ds =>
    match decodeLength ds with
    | none => none
    | some (len, ds) =>
      (decodeDistance ds).map fun (dist, rest) =>
        (Symbol.ofMatch (lengthCode len) (BitVec.ofNat 32 dist), rest)
  | true :: true :: false :: false :: ds => some (.shortrep, ds)
  | true :: true :: false :: true :: ds =>
    (decodeLength ds).map fun (len, rest) => (.rep0 (lengthCode len), rest)
  | true :: true :: true :: false :: ds =>
    (decodeLength ds).map fun (len, rest) => (.rep1 (lengthCode len), rest)
  | true :: true :: true :: true :: false :: ds =>
    (decodeLength ds).map fun (len, rest) => (.rep2 (lengthCode len), rest)
  | true :: true :: true :: true :: true :: ds =>
    (decodeLength ds).map fun (len, rest) => (.rep3 (lengthCode len), rest)
  | _ => none

/-- The row that the selecting decisions of a symbol choose (R76). `SYM.MATCH` and `SYM.EOS` have the same prefix and are
told apart by the codes that follow it: a complete length and distance code of value 0xFFFFFFFF is the end marker (R80). -/
def decodeSymbolRow (ds : List Bool) : Except DecodeError Instr :=
  match ds with
  | false :: _ => .ok .symLit
  | true :: false :: _ =>
    match decodeSymbol ds with
    | some (sym, _) => .ok sym.row
    | none => .ok .symMatch
  | true :: true :: false :: false :: _ => .ok .symShortrep
  | true :: true :: false :: true :: _ => .ok .symRep0
  | true :: true :: true :: false :: _ => .ok .symRep1
  | true :: true :: true :: true :: false :: _ => .ok .symRep2
  | true :: true :: true :: true :: true :: _ => .ok .symRep3
  | _ => .error .missingDecision

/-- The row that the choice decisions of a length code select (R78). -/
def decodeLengthRow (inst : LenInst) (ps : BitVec 4) (ds : List Bool) : Except DecodeError Instr :=
  match ds with
  | false :: _ => .ok (.codeLengthLow inst ps)
  | true :: false :: _ => .ok (.codeLengthMid inst ps)
  | true :: true :: _ => .ok (.codeLengthHigh inst)
  | _ => .error .missingDecision

/-- The row that the six slot decisions of a distance code select (R79). -/
def decodeDistRow (ds : List Bool) : Except DecodeError Instr :=
  match takeBits 6 ds with
  | some (s, _) => .ok (slotRow (ofBitsMSB s))
  | none => .error .missingDecision

/-! ## The format UOP5: an operation code and its operands on the internal command bus (R88) -/

/-- The array a number names, in the order of R27 (DESIGN CHOICE, log entry 8). -/
def arrOfCode (n : Nat) : Option ProbArr :=
  match n with
  | 0 => some .isMatch
  | 1 => some .isRep
  | 2 => some .isRepG0
  | 3 => some .isRepG1
  | 4 => some .isRepG2
  | 5 => some .isRep0Long
  | 6 => some .posSlot
  | 7 => some .posSpecial
  | 8 => some .align
  | 9 => some .lenChoice
  | 10 => some .lenChoice2
  | 11 => some .lenLow
  | 12 => some .lenMid
  | 13 => some .lenHigh
  | 14 => some .repChoice
  | 15 => some .repChoice2
  | 16 => some .repLow
  | 17 => some .repMid
  | 18 => some .repHigh
  | 19 => some .lit
  | _ => none

def takeByte : List Byte → Except DecodeError (Byte × List Byte)
  | b :: bs => .ok (b, bs)
  | [] => .error .missingOperand

def takeWord : List Byte → Except DecodeError (Word × List Byte)
  | b0 :: b1 :: b2 :: b3 :: bs => .ok (leWord b0 b1 b2 b3, bs)
  | _ => .error .missingOperand

def takeHalf : List Byte → Except DecodeError (BitVec 16 × List Byte)
  | b0 :: b1 :: bs => .ok (b1 ++ b0, bs)
  | _ => .error .missingOperand

/-- A cell address: the array's number, then the index, least significant byte first (DESIGN CHOICE, log entry 8). -/
def takeAddr : List Byte → Except DecodeError (ProbAddr × List Byte)
  | arr :: b0 :: b1 :: b2 :: bs =>
    match arrOfCode arr.toNat with
    | some a => .ok (⟨a, b2 ++ b1 ++ b0⟩, bs)
    | none => .error (.badOperand arr.toNat)
  | _ => .error .missingOperand

/-- The instance (0 is LEN, 1 is REP) and the posState of `LEN.DEC`, a byte each (DESIGN CHOICE, log entry 8). -/
def takeLen : List Byte → Except DecodeError ((LenInst × BitVec 4) × List Byte)
  | i :: ps :: bs =>
    if ps.toNat < 16 then
      match i.toNat with
      | 0 => .ok ((.len, ps.setWidth 4), bs)
      | 1 => .ok ((.rep, ps.setWidth 4), bs)
      | n => .error (.badOperand n)
    else .error (.badOperand ps.toNat)
  | _ => .error .missingOperand

/-- Build an instruction from an operand and keep the bytes after it. -/
def withOperand (r : Except DecodeError (α × List Byte)) (mk : α → Instr) : Except DecodeError (Instr × List Byte) :=
  match r with
  | .ok (x, bs) => .ok (mk x, bs)
  | .error e => .error e

/-- Build an instruction from an operand and a byte after it. -/
def withOperandByte (r : Except DecodeError (α × List Byte)) (mk : α → Byte → Instr) :
    Except DecodeError (Instr × List Byte) :=
  match r with
  | .ok (x, bs) => withOperand (takeByte bs) (mk x)
  | .error e => .error e

/-- The operation of a 5-bit code, its operands read from the bytes after it, and the bytes that are left (R88). -/
def decodeUop (bs : List Byte) : Except DecodeError (Instr × List Byte) :=
  match bs with
  | [] => .error .missingOperand
  | c :: bs =>
    match c.toNat with
    | 0x00 => .ok (.rcInit, bs)
    | 0x01 => .ok (.rcNorm, bs)
    | 0x02 => withOperand (takeAddr bs) .rcBit
    | 0x03 => withOperand (takeByte bs) .rcDirect
    | 0x04 => .ok (.rcFinok, bs)
    | 0x05 => withOperandByte (takeAddr bs) .btFwd
    | 0x06 => withOperandByte (takeAddr bs) .btRev
    | 0x07 => withOperand (takeLen bs) fun (inst, ps) => .lenDec inst ps
    | 0x08 => withOperand (takeWord bs) .dwCreate
    | 0x09 => withOperand (takeByte bs) .dwPut
    | 0x0A => withOperand (takeWord bs) .dwGet
    | 0x0B =>
      match takeWord bs with
      | .ok (dist, bs) => withOperand (takeWord bs) (.dwCopy dist)
      | .error e => .error e
    | 0x0C => withOperand (takeWord bs) .dwChk
    | 0x0D => .ok (.dwEmpty, bs)
    | 0x0E => .ok (.dwFlush, bs)
    | 0x0F => .ok (.stLit, bs)
    | 0x10 => .ok (.stMatch, bs)
    | 0x11 => .ok (.stRep, bs)
    | 0x12 => .ok (.stShortrep, bs)
    | 0x13 => .ok (.litDec, bs)
    | 0x14 => withOperand (takeHalf bs) .distDec
    | 0x15 => .ok (.hdrParse, bs)
    | 0x16 => .ok (.decInit, bs)
    | 0x17 => .ok (.mainStep, bs)
    | 0x18 => .ok (.start, bs)
    | n => if n < 32 then .error (.reservedOpcode n) else .error (.notAnOpcode n)

/-! ## The format STREAM: the header fields and the preamble (R70 to R74) -/

/-- The field of a header or preamble, told by its length; the values in the byte order of R55 (DESIGN CHOICE, log entry
12). -/
def decodeField (bs : List Byte) : Except DecodeError Instr :=
  match bs with
  | [d] => .ok (.fmtProps d)
  | [b0, b1, b2, b3] => .ok (.fmtDictSize (leWord b0 b1 b2 b3))
  | [b0, b1, b2, b3, b4, b5, b6, b7] => .ok (.fmtSize (leDWord b0 b1 b2 b3 b4 b5 b6 b7))
  | [z, b0, b1, b2, b3] => .ok (.fmtRcpre z (beWord b0 b1 b2 b3))
  | _ => .error (.noSuchField bs.length)

/-- The decoder. On the command bus, bytes after the operation's own operands are no part of it
(DESIGN CHOICE, log entry 8). -/
def decode : CmdWord → Except DecodeError Instr
  | .uop bs =>
    match decodeUop bs with
    | .ok (i, _) => .ok i
    | .error e => .error e
  | .stream bs => decodeField bs
  | .symbol ds => decodeSymbolRow ds
  | .lengthCode inst ps ds => decodeLengthRow inst ps ds
  | .distCode ds => decodeDistRow ds

/-! ## The words of the opcode table -/

/-- The slot whose whole distance code, read as a number with its first decision most significant, is `w`, when the code
has its length rounded up to whole bytes equal to `nbits`. The codes of slots 0 to 63 are disjoint numbers. -/
def slotOfNumber (nbits w : Nat) : Option Nat :=
  (List.range 64).find? fun slot =>
    decide (w / 2 ^ slotDirectBits slot = slot) && decide ((6 + slotDirectBits slot + 7) / 8 * 8 = nbits)

/-- The rows of nine and ten decisions, where the number is no distance code: SYM.LIT and CODE.LENGTH.HIGH; else a header
field, or, of one byte, a word of the command bus. -/
def restOfNumber (nbits w : Nat) : CmdWord :=
  if nbits = 8 then .uop (bytesLE 9 w)
  else if nbits = 16 ∧ w < 0x100 then .symbol (bitsMSB 9 w)
  else if nbits = 16 ∧ w / 0x100 = 3 then .lengthCode .len 0#4 (bitsMSB 10 w)
  else .stream (bytesLE (nbits / 8) w)

/-- The word of a table row whose bits are the number `w` of `nbits` bits. Rows of several formats have words of the same
length and value: an operation code comes first, then SYM.REP2 and SYM.REP3 (five decisions), then the distance codes, then
the rest (DESIGN CHOICE, log entry 14). -/
def tableWord (nbits w : Nat) : CmdWord :=
  if nbits = 8 ∧ w < 0x19 then .uop (bytesLE 9 w)
  else if nbits = 8 ∧ (w = 30 ∨ w = 31) then .symbol (bitsMSB 5 w)
  else
    match slotOfNumber nbits w with
    | some slot => .distCode (bitsMSB (6 + slotDirectBits slot) w)
    | none => restOfNumber nbits w

/-- The host's question: the instruction the decoder reads from a table word. -/
def decodeTableWord (nbits w : Nat) : Option Instr :=
  match decode (tableWord nbits w) with
  | .ok i => some i
  | .error _ => none

/-! ## The encoder -/

/-- The number of an array, in the order of R27. -/
def codeOfArr : ProbArr → Byte
  | .isMatch => 0
  | .isRep => 1
  | .isRepG0 => 2
  | .isRepG1 => 3
  | .isRepG2 => 4
  | .isRep0Long => 5
  | .posSlot => 6
  | .posSpecial => 7
  | .align => 8
  | .lenChoice => 9
  | .lenChoice2 => 10
  | .lenLow => 11
  | .lenMid => 12
  | .lenHigh => 13
  | .repChoice => 14
  | .repChoice2 => 15
  | .repLow => 16
  | .repMid => 17
  | .repHigh => 18
  | .lit => 19

def bytesOfWord (w : Word) : List Byte := [byteAt w 0, byteAt w 1, byteAt w 2, byteAt w 3]

def bytesOfAddr (a : ProbAddr) : List Byte := [codeOfArr a.arr, byteAt a.idx 0, byteAt a.idx 1, byteAt a.idx 2]

def bytesOfLen (inst : LenInst) (ps : BitVec 4) : List Byte :=
  [match inst with | .len => 0 | .rep => 1, ps.setWidth 8]

/-- The decisions of a length code (R78). -/
def encodeLength (len : Nat) : List Bool :=
  if len < 8 then false :: bitsMSB 3 len
  else if len < 16 then true :: false :: bitsMSB 3 (len - 8)
  else true :: true :: bitsMSB 8 (len - 16)

/-- The decisions of a distance code (R79): six for the slot, then the low bits of the distance above the slot's base. -/
def encodeDistance (dist : Nat) : List Bool :=
  let slot := distSlot dist
  let low := dist - slotBase slot
  bitsMSB 6 slot ++
    if slot < 4 then []
    else if slot < Config.kEndPosModelIndex then bitsLSB (slotDirectBits slot) low
    else
      bitsMSB (slotDirectBits slot - Config.kNumAlignBits) (low / 2 ^ Config.kNumAlignBits) ++
        bitsLSB Config.kNumAlignBits (low % 2 ^ Config.kNumAlignBits)

/-- The decisions of a symbol (R76 to R80). -/
def encodeSymbol : Symbol → List Bool
  | .lit b => false :: bitsMSB 8 b.toNat
  | .newMatch len dist => true :: false :: (encodeLength len.val ++ encodeDistance dist.toNat)
  | .eos len => true :: false :: (encodeLength len.val ++ encodeDistance Config.kEndMarker.toNat)
  | .shortrep => [true, true, false, false]
  | .rep0 len => true :: true :: false :: true :: encodeLength len.val
  | .rep1 len => true :: true :: true :: false :: encodeLength len.val
  | .rep2 len => true :: true :: true :: true :: false :: encodeLength len.val
  | .rep3 len => true :: true :: true :: true :: true :: encodeLength len.val

/-- The word of an instruction. For a symbol and a code it is the decisions that select the row; the end marker's row is
selected by the whole marker, with length code 0 (R87). -/
def encode : Instr → CmdWord
  | .rcInit => .uop [0x00]
  | .rcNorm => .uop [0x01]
  | .rcBit a => .uop (0x02 :: bytesOfAddr a)
  | .rcDirect n => .uop [0x03, n]
  | .rcFinok => .uop [0x04]
  | .btFwd t n => .uop (0x05 :: (bytesOfAddr t ++ [n]))
  | .btRev t n => .uop (0x06 :: (bytesOfAddr t ++ [n]))
  | .lenDec inst ps => .uop (0x07 :: bytesOfLen inst ps)
  | .dwCreate n => .uop (0x08 :: bytesOfWord n)
  | .dwPut b => .uop [0x09, b]
  | .dwGet dist => .uop (0x0A :: bytesOfWord dist)
  | .dwCopy dist len => .uop (0x0B :: (bytesOfWord dist ++ bytesOfWord len))
  | .dwChk d => .uop (0x0C :: bytesOfWord d)
  | .dwEmpty => .uop [0x0D]
  | .dwFlush => .uop [0x0E]
  | .stLit => .uop [0x0F]
  | .stMatch => .uop [0x10]
  | .stRep => .uop [0x11]
  | .stShortrep => .uop [0x12]
  | .litDec => .uop [0x13]
  | .distDec len => .uop [0x14, byteAt len 0, byteAt len 1]
  | .hdrParse => .uop [0x15]
  | .decInit => .uop [0x16]
  | .mainStep => .uop [0x17]
  | .start => .uop [0x18]
  | .fmtProps d => .stream [d]
  | .fmtDictSize v => .stream (bytesOfWord v)
  | .fmtSize v => .stream [byteAt v 0, byteAt v 1, byteAt v 2, byteAt v 3, byteAt v 4, byteAt v 5, byteAt v 6, byteAt v 7]
  | .fmtRcpre z c => .stream [z, byteAt c 3, byteAt c 2, byteAt c 1, byteAt c 0]
  | .symLit => .symbol [false]
  | .symMatch => .symbol [true, false]
  | .symEos => .symbol (encodeSymbol (.eos 0))
  | .symShortrep => .symbol [true, true, false, false]
  | .symRep0 => .symbol [true, true, false, true]
  | .symRep1 => .symbol [true, true, true, false]
  | .symRep2 => .symbol [true, true, true, true, false]
  | .symRep3 => .symbol [true, true, true, true, true]
  | .codeLengthLow inst ps => .lengthCode inst ps [false]
  | .codeLengthMid inst ps => .lengthCode inst ps [true, false]
  | .codeLengthHigh inst => .lengthCode inst 0 [true, true]
  | .codeDistSlot0 => .distCode (bitsMSB 6 0)
  | .codeDistSlot1 => .distCode (bitsMSB 6 1)
  | .codeDistSlot2 => .distCode (bitsMSB 6 2)
  | .codeDistSlot3 => .distCode (bitsMSB 6 3)
  | .codeDistSlot4 => .distCode (bitsMSB 6 4)
  | .codeDistSlot5 => .distCode (bitsMSB 6 5)
  | .codeDistSlot6 => .distCode (bitsMSB 6 6)
  | .codeDistSlot7 => .distCode (bitsMSB 6 7)
  | .codeDistSlot8 => .distCode (bitsMSB 6 8)
  | .codeDistSlot9 => .distCode (bitsMSB 6 9)
  | .codeDistSlot10 => .distCode (bitsMSB 6 10)
  | .codeDistSlot11 => .distCode (bitsMSB 6 11)
  | .codeDistSlot12 => .distCode (bitsMSB 6 12)
  | .codeDistSlot13 => .distCode (bitsMSB 6 13)
  | .codeDistSlot14 => .distCode (bitsMSB 6 14)
  | .codeDistSlot15 => .distCode (bitsMSB 6 15)
  | .codeDistSlot16 => .distCode (bitsMSB 6 16)
  | .codeDistSlot17 => .distCode (bitsMSB 6 17)
  | .codeDistSlot18 => .distCode (bitsMSB 6 18)
  | .codeDistSlot19 => .distCode (bitsMSB 6 19)
  | .codeDistSlot20 => .distCode (bitsMSB 6 20)
  | .codeDistSlot21 => .distCode (bitsMSB 6 21)
  | .codeDistSlot22 => .distCode (bitsMSB 6 22)
  | .codeDistSlot23 => .distCode (bitsMSB 6 23)
  | .codeDistSlot24 => .distCode (bitsMSB 6 24)
  | .codeDistSlot25 => .distCode (bitsMSB 6 25)
  | .codeDistSlot26 => .distCode (bitsMSB 6 26)
  | .codeDistSlot27 => .distCode (bitsMSB 6 27)
  | .codeDistSlot28 => .distCode (bitsMSB 6 28)
  | .codeDistSlot29 => .distCode (bitsMSB 6 29)
  | .codeDistSlot30 => .distCode (bitsMSB 6 30)
  | .codeDistSlot31 => .distCode (bitsMSB 6 31)
  | .codeDistSlot32 => .distCode (bitsMSB 6 32)
  | .codeDistSlot33 => .distCode (bitsMSB 6 33)
  | .codeDistSlot34 => .distCode (bitsMSB 6 34)
  | .codeDistSlot35 => .distCode (bitsMSB 6 35)
  | .codeDistSlot36 => .distCode (bitsMSB 6 36)
  | .codeDistSlot37 => .distCode (bitsMSB 6 37)
  | .codeDistSlot38 => .distCode (bitsMSB 6 38)
  | .codeDistSlot39 => .distCode (bitsMSB 6 39)
  | .codeDistSlot40 => .distCode (bitsMSB 6 40)
  | .codeDistSlot41 => .distCode (bitsMSB 6 41)
  | .codeDistSlot42 => .distCode (bitsMSB 6 42)
  | .codeDistSlot43 => .distCode (bitsMSB 6 43)
  | .codeDistSlot44 => .distCode (bitsMSB 6 44)
  | .codeDistSlot45 => .distCode (bitsMSB 6 45)
  | .codeDistSlot46 => .distCode (bitsMSB 6 46)
  | .codeDistSlot47 => .distCode (bitsMSB 6 47)
  | .codeDistSlot48 => .distCode (bitsMSB 6 48)
  | .codeDistSlot49 => .distCode (bitsMSB 6 49)
  | .codeDistSlot50 => .distCode (bitsMSB 6 50)
  | .codeDistSlot51 => .distCode (bitsMSB 6 51)
  | .codeDistSlot52 => .distCode (bitsMSB 6 52)
  | .codeDistSlot53 => .distCode (bitsMSB 6 53)
  | .codeDistSlot54 => .distCode (bitsMSB 6 54)
  | .codeDistSlot55 => .distCode (bitsMSB 6 55)
  | .codeDistSlot56 => .distCode (bitsMSB 6 56)
  | .codeDistSlot57 => .distCode (bitsMSB 6 57)
  | .codeDistSlot58 => .distCode (bitsMSB 6 58)
  | .codeDistSlot59 => .distCode (bitsMSB 6 59)
  | .codeDistSlot60 => .distCode (bitsMSB 6 60)
  | .codeDistSlot61 => .distCode (bitsMSB 6 61)
  | .codeDistSlot62 => .distCode (bitsMSB 6 62)
  | .codeDistSlot63 => .distCode (bitsMSB 6 63)

end Sys2Proof
end

