-- ==== Sys2Proof/Machine/State.lean ====
section
/-! DEFINITION. The state of the core (rules R20 to R45 of spec/10_state.md), as plain data; how an operation can end (R14); the
state after power-on reset (R44, R270). -/

namespace Sys2Proof.Machine

/-- `status` (R38). -/
inductive Status where
  | idle | running | finishedWithMarker | finishedWithoutMarker | error
  deriving DecidableEq, Repr

/-- `cause` (R38, R241). `internal` is reserved: no rule raises it (R250). -/
inductive Cause where
  | none | malformedProperties | truncatedInput | budgetExhausted | badDistance | lengthOverrun
  | emptyWindowRep | badEndMarker | sizeMismatch | internal | dictTooLarge
  deriving DecidableEq, Repr

/-- `phase`, the sequencer's position (R39): `P_IDLE`, `P_HEADER`, `P_RCINIT`, `P_LOOP`, `P_SYMBOL`, `P_DONE`. -/
inductive Phase where
  | idle | header | rcInit | loop | symbol | done
  deriving DecidableEq, Repr

/-- What one iteration of the main loop says when it does not raise an error (R88, R183). -/
inductive StepOutcome where
  | continue | finished
  deriving DecidableEq, Repr

/-- The answer of the last operation on the command interface (R88's result column). MODEL'S OWN: the spec gives operations
results and no register that holds them. -/
inductive Response where
  /-- Nothing has been asked yet. -/
  | none
  /-- The operation holds at an `InByte()` (R14 b). -/
  | pending
  /-- Completed, without a result. -/
  | done
  | bit (b : Bool)
  | bool (b : Bool)
  | byte (b : Byte)
  | value (v : Word)
  | step (o : StepOutcome)
  /-- The operation raised a hard error (R240). -/
  | error
  /-- The operation was refused at the command interface: no state change, no result (R88, R149, D29). -/
  | refused
  deriving DecidableEq, Repr

/-- The dictionary memory: a list of (address, byte) pairs, addresses strictly rising. An address with no entry is a cell
nothing has written (R30; what it reads as: log entries 6 and 7). -/
abbrev DictMem := List Host.Cell

/-- The probability file: a list of (flat cell number, value) pairs, numbers strictly rising. A cell with no entry reads
1024 (R26; at power-on a DESIGN CHOICE, log entry 6), and no entry holds 1024. -/
abbrev ProbMem := List (Nat × Prob)

/-- The architectural state (R20), and beside it what the environment supplies (R43). -/
structure Arch where
  /-- R21 -/
  range : Word
  /-- R22 -/
  code : Word
  /-- R23 -/
  corrupted : Bool
  /-- R24: 0 to 11; 12 to 15 are unrepresentable (DEDUCED, log entry 23) -/
  state : Fin 12
  /-- R25 -/
  rep0 : Word
  rep1 : Word
  rep2 : Word
  rep3 : Word
  /-- R26 to R29: the probability file `P` -/
  prob : ProbMem
  /-- R30: the dictionary buffer -/
  buf : DictMem
  /-- R31 -/
  pos : Word
  /-- R34 -/
  size : Word
  /-- R32 -/
  isFull : Bool
  /-- R33 -/
  totalPos : DWord
  /-- R35: 0 to 8 -/
  lc : Fin 9
  /-- R35: 0 to 4 -/
  lp : Fin 5
  /-- R35: 0 to 4 -/
  pb : Fin 5
  /-- R35 -/
  dictSizeInProperties : Word
  /-- R35 -/
  dictSize : Word
  /-- R36 -/
  sizeDefined : Bool
  /-- R36 -/
  leftToUnpack : DWord
  /-- R36 -/
  declaredSize : DWord
  /-- R38 -/
  status : Status
  /-- R38 -/
  cause : Cause
  /-- R39 -/
  phase : Phase
  /-- R40; past 2^64 - 1 it wraps (DESIGN CHOICE, log entry 24) -/
  inPos : DWord
  /-- R41: the bytes handed to the sink, oldest first -/
  out : List Byte
  /-- R42: the hidden flush pointer (DEDUCED, log entry 2) -/
  flushedPos : DWord
  /-- ENVIRONMENT (R43, R51): the bytes the source has supplied and the core has not consumed, next first -/
  inBytes : List Byte
  /-- ENVIRONMENT (R51): the source has signalled end of input -/
  inEnd : Bool
  /-- PARAMETERS (R43): `DICT_FILL` and `DICT_CAP` -/
  params : Config.Params
  /-- MODEL'S OWN: how many arbitrary bytes the environment has supplied for reads of unwritten cells (R148) and of no cell -/
  fillReads : Nat
  /-- MODEL'S OWN: the decisions (R18) the operation in progress, or the last one, has recovered, in decode order -/
  decisions : List Bool
  deriving DecidableEq, Repr

/-- Why a step stops with no next state. -/
inductive Fault where
  /-- Raised by the sequencer in `phase = P_SYMBOL` with no operation in progress: the position inside an iteration is then
  unknown (R39). Safe: an iteration is one operation, so no decode reaches it (DEDUCED, log entry 19). -/
  | noControlPoint
  deriving DecidableEq, Repr

/-- Why a step has no meaning. -/
inductive Refusal where
  /-- Raised by `exec`'s arm of an instruction without a meaning yet. Safe. -/
  | notModelled (mnemonic : String)
  deriving DecidableEq, Repr

/-- How an operation ends when it does not complete: a hold at an `InByte()` (R14 b) or a hard error (R14 c). "There is no
other outcome" (R14). -/
inductive Stop where
  | hold
  | raise (c : Cause)
  deriving DecidableEq, Repr

/-- An operation of the core: statements in order over the architectural state (R13). A stop carries the state as the
statements before it left it (R14). -/
abbrev Op := EStateM Stop Arch

/-- An operation that holds: which one, and the architectural state it started from. MODEL'S OWN: it is the control point
that R39 lets a model keep (DESIGN CHOICE, log entry 13). -/
structure Held where
  op : Instr
  start : Arch
  deriving DecidableEq, Repr

/-- What the outside can do between two steps (R15, R67, R228, R271). As a queue: DESIGN CHOICE, log entry 10. -/
inductive Event where
  /-- A word on the command interface: the host's `START`, or an operation a test bench drives (R228). -/
  | cmd (w : CmdWord)
  /-- The source supplies the next byte (R229). -/
  | byte (b : Byte)
  /-- The source signals end of input (R229). -/
  | endOfInput
  /-- The host puts a source positioned at the first byte of a stream in the old one's place (R220, R273). -/
  | attach
  /-- Power-on reset (R270, R271). -/
  | reset
  /-- Nothing from outside: the core takes a step of its own. -/
  | pass
  deriving DecidableEq, Repr

/-- The whole machine. -/
structure State where
  arch : Arch
  /-- the operation that holds, if one does; `holding` of R228 -/
  held : Option Held
  response : Response
  /-- ENVIRONMENT: what the outside does before each coming step, oldest first -/
  events : List Event
  deriving DecidableEq, Repr

/-- R44, R270: the registers after power-on reset. The values the spec does not state are the model's: log entries 2
(`flushedPos`, DEDUCED), 3 (the model's own fields), 4 (the empty source) and 6 (what the two memories hold), DESIGN CHOICES;
the parameters are at their defaults (log entry 5). -/
def Arch.reset : Arch where
  range := 0
  code := 0
  corrupted := false
  state := 0
  rep0 := 0
  rep1 := 0
  rep2 := 0
  rep3 := 0
  prob := []
  buf := []
  pos := 0
  size := 0
  isFull := false
  totalPos := 0
  lc := 0
  lp := 0
  pb := 0
  dictSizeInProperties := 0
  dictSize := 0
  sizeDefined := false
  leftToUnpack := 0
  declaredSize := 0
  status := .idle
  cause := .none
  phase := .idle
  inPos := 0
  out := []
  flushedPos := 0
  inBytes := []
  inEnd := false
  params := Config.defaultParams
  fillReads := 0
  decisions := []

/-- The machine after power-on reset (R270): idle, with nothing supplied and nothing asked. -/
def State.reset : State where
  arch := Arch.reset
  held := none
  response := .none
  events := []

end Sys2Proof.Machine
end

