-- ==== Sys2Proof/Machine/Ops.lean ====
section
/-! DEFINITION. The named operations the meanings are made of: the memories `DICT` and `PROB` (R53, R54), the primitives `InByte` and
`OutByte` (R51, R52), raising a hard error (R240, R254) and leaving it by a new start (R220, R255), and how an instruction's
operation becomes an outcome of a step (R14). -/

namespace Sys2Proof.Machine

/-! ## DICT (R30, R53) -/

/-- The byte of a cell; nothing when nothing has written it. -/
def dictRead : DictMem → Nat → Option Byte
  | [], _ => none
  | (k, v) :: m, a => if a = k then some v else if a < k then none else dictRead m a

/-- Write a cell. -/
def dictWrite : DictMem → Nat → Byte → DictMem
  | [], a, b => [(a, b)]
  | (k, v) :: m, a, b =>
    if a = k then (a, b) :: m
    else if a < k then (a, b) :: (k, v) :: m
    else (k, v) :: dictWrite m a b

/-- Every address in the list is at least `lo`, and addresses rise strictly. -/
def dictFrom (lo : Nat) : DictMem → Bool
  | [] => true
  | (k, _) :: m => decide (lo ≤ k) && dictFrom (k + 1) m

/-- The canonical form of `DICT`: addresses strictly rising. (An unwritten cell has no value, so no entry can equal it.) -/
def DictMem.wf (m : DictMem) : Bool := dictFrom 0 m

/-! ## PROB (R26, R54) -/

/-- The value of a cell: 1024 unless the list holds another. -/
def probRead : ProbMem → Nat → Prob
  | [], _ => Config.kProbInit
  | (k, v) :: m, a => if a = k then v else if a < k then Config.kProbInit else probRead m a

/-- Write a cell; writing 1024 removes its entry. -/
def probWrite : ProbMem → Nat → Prob → ProbMem
  | [], a, p => if p = Config.kProbInit then [] else [(a, p)]
  | (k, v) :: m, a, p =>
    if a = k then (if p = Config.kProbInit then m else (a, p) :: m)
    else if a < k then (if p = Config.kProbInit then (k, v) :: m else (a, p) :: (k, v) :: m)
    else (k, v) :: probWrite m a p

/-- Every cell number in the list is at least `lo`, numbers rise strictly, and no entry holds 1024. -/
def probFrom (lo : Nat) : ProbMem → Bool
  | [] => true
  | (k, v) :: m => decide (lo ≤ k) && decide (v ≠ Config.kProbInit) && probFrom (k + 1) m

/-- The canonical form of `PROB`. -/
def ProbMem.wf (m : ProbMem) : Bool := probFrom 0 m

/-- The canonical form of both memories. -/
def Memory.wf (a : Arch) : Bool := DictMem.wf a.buf && ProbMem.wf a.prob

/-! ## Stops (R14) -/

/-- `raise c` (R13, R240): nothing after it runs. -/
def raise (c : Cause) : Op α := throw (.raise c)

/-- `if cond then raise c`. -/
def raiseIf (cond : Bool) (c : Cause) : Op Unit := if cond then raise c else pure ()

/-- Everything produced so far is with the sink (R42, R147). -/
def flushed (a : Arch) : Arch := { a with flushedPos := a.totalPos }

/-- TAKING A HARD ERROR (R240, R254): everything produced is flushed, the cause and the status are written, the sequencer
is done; all else stays as the raise found it. Nothing is saved and there is no handler. -/
def takeError (c : Cause) (a : Arch) : Arch :=
  { flushed a with cause := c, status := .error, phase := .done }

/-- THE ONLY WAY ON (R220, R255): there is no return from an error; `START` begins a new decode from a new stream. -/
def startDecode (a : Arch) : Arch :=
  { a with inPos := 0, out := [], status := .running, cause := .none, phase := .header }

/-! ## IN and OUT (R51, R52) -/

/-- `InByte()` (R51): the next byte of the stream, or a hold with no state change, or `TruncatedInput` once the source has
signalled end of input. That `inPos` wraps past 2^64 - 1 is the model's (R40 and D6 give the width alone; DESIGN CHOICE, log
entry 24). -/
def inByte : Op Byte := fun a =>
  match a.inBytes with
  | b :: bs => .ok b { a with inBytes := bs, inPos := a.inPos + 1 }
  | [] => if a.inEnd then .error (.raise .truncatedInput) a else .error .hold a

/-- `OutByte(b)` (R52), at once with the sink (R42, R63; DEDUCED, log entry 20). -/
def outByte (b : Byte) : Op Unit := modify fun a => flushed { a with out := a.out ++ [b] }

/-- `phase <- p` (R13, R39). -/
def setPhase (p : Phase) : Op Unit := modify fun a => { a with phase := p }

/-- Subtract the bytes a symbol appended from the unpack budget, when there is one (R181). -/
def spendBudget (n : Nat) : Op Unit := modify fun a =>
  if a.sizeDefined then { a with leftToUnpack := a.leftToUnpack - BitVec.ofNat 64 n } else a

/-- A declared budget is used up (R169, R171, R172, R180). -/
def budgetSpent (a : Arch) : Bool := a.sizeDefined && decide (a.leftToUnpack = 0#64)

/-! ## From an operation to a step's outcome -/

/-- The state an operation starts in: its log of decisions is empty. -/
def opStart (a : Arch) : Arch := { a with decisions := [] }

/-- Run an operation of instruction `i` to one of its outcomes (R14): completion with a response, a hold (which keeps the
state as it stands and remembers the operation: DESIGN CHOICE, log entry 13), or a hard error. -/
def runOp (i : Instr) (op : Op Response) (s : State) : Host.Outcome State Fault Refusal :=
  match op (opStart s.arch) with
  | .ok r a => .next { s with arch := a, held := none, response := r }
  | .error .hold a => .next { s with arch := a, held := some ⟨i, opStart s.arch⟩, response := .pending }
  | .error (.raise c) a => .next { s with arch := takeError c a, held := none, response := .error }

/-- A command refused at the command interface (R88, R149, D29; DEDUCED, log entry 9): no state change, no result. -/
def turnAway (s : State) : Host.Outcome State Fault Refusal := .next { s with response := .refused }

/-- A command whose operands must lie in a domain: refused outside it. -/
def inDomain (ok : Bool) (run : State → Host.Outcome State Fault Refusal) (s : State) :
    Host.Outcome State Fault Refusal :=
  if ok then run s else turnAway s

/-- An operation without a result. -/
def answerDone (op : Op Unit) : Op Response := do
  op
  pure .done

/-- An operation with a result, answered as `f` says. -/
def answer (f : α → Response) (op : Op α) : Op Response := do
  let r ← op
  pure (f r)

end Sys2Proof.Machine
end

