-- ==== Sys2Proof/Machine/Operands.lean ====
section
/-! DEFINITION. Operand forms: cells and trees of `P` (R27 to R29, R120), the effective address of a lookback (R60), the contexts
`posState` (R166), `litState` (R200) and `lenState` (R210), and the tree of a position slot (R28). -/

namespace Sys2Proof.Machine

/-- The flat number of an array's first cell: the arrays of R27 one after another, 1847 cells, then the literal table. Any
placement that keeps distinct cells distinct behaves the same (R27, R59; DESIGN CHOICE, log entry 15). -/
def arrBase : ProbArr → Nat
  | .isMatch => 0
  | .isRep => 192
  | .isRepG0 => 204
  | .isRepG1 => 216
  | .isRepG2 => 228
  | .isRep0Long => 240
  | .posSlot => 432
  | .posSpecial => 688
  | .align => 803
  | .lenChoice => 819
  | .lenChoice2 => 820
  | .lenLow => 821
  | .lenMid => 949
  | .lenHigh => 1077
  | .repChoice => 1333
  | .repChoice2 => 1334
  | .repLow => 1335
  | .repMid => 1463
  | .repHigh => 1591
  | .lit => 1847

/-- The flat number of the cell `P.arr[idx]`. -/
def cell (arr : ProbArr) (idx : Nat) : Nat := arrBase arr + idx

/-- The flat number of an operand's cell, or of a tree operand's cell 0. -/
def cellOf (a : ProbAddr) : Nat := cell a.arr a.idx.toNat

/-- `P.isMatch[s][ps]` and `P.isRep0Long[s][ps]` have flat index `(s << 4) + ps` (R27). -/
def statePos (s : Fin 12) (ps : BitVec 4) : Nat := s.val * 16 + ps.toNat

/-- The arrays of a length decoder's instance (R130, R132). -/
def choiceCell : LenInst → Nat
  | .len => cell .lenChoice 0
  | .rep => cell .repChoice 0

def choice2Cell : LenInst → Nat
  | .len => cell .lenChoice2 0
  | .rep => cell .repChoice2 0

def lowTree (inst : LenInst) (ps : BitVec 4) : Nat :=
  match inst with
  | .len => cell .lenLow (8 * ps.toNat)
  | .rep => cell .repLow (8 * ps.toNat)

def midTree (inst : LenInst) (ps : BitVec 4) : Nat :=
  match inst with
  | .len => cell .lenMid (8 * ps.toNat)
  | .rep => cell .repMid (8 * ps.toNat)

def highTree : LenInst → Nat
  | .len => cell .lenHigh 0
  | .rep => cell .repHigh 0

/-- `lenState = min(len, 3)` (R210). -/
def lenState (len : Nat) : Nat := if len < 3 then len else 3

/-- The tree of the slot under a length code (R211). -/
def slotTree (len : Nat) : Nat := cell .posSlot (64 * lenState len)

/-- The tree of the low bits of slots 4 to 13: offset `base - slot` of `P.posSpecial` (R28, R214). -/
def specialTree (slot : Nat) : Nat := cell .posSpecial (slotBase slot - slot)

/-- The align tree (R215). -/
def alignTree : Nat := cell .align 0

/-- `posState = totalPos mod 2^pb` (R166). -/
def posState (a : Arch) : BitVec 4 := BitVec.ofNat 4 (a.totalPos.toNat % 2 ^ a.pb.val)

/-- `litState = ((totalPos & (2^lp - 1)) << lc) + (prevByte >> (8 - lc))` (R200). -/
def litState (a : Arch) (prevByte : Byte) : Nat :=
  a.totalPos.toNat % 2 ^ a.lp.val * 2 ^ a.lc.val + prevByte.toNat / 2 ^ (8 - a.lc.val)

/-- `T = P.lit[litState]`, 768 cells (R200). -/
def litTable (ls : Nat) : Nat := cell .lit (0x300 * ls)

/-- The domain of a lookback operand: `1 <= dist <= size` (R149). -/
def lookbackOk (a : Arch) (dist : Nat) : Bool := decide (1 ≤ dist ∧ dist ≤ a.size.toNat)

/-- The two-case expression of a lookback's effective address (R60). -/
def lookbackIndex (a : Arch) (dist : Nat) : Nat :=
  if dist ≤ a.pos.toNat then a.pos.toNat - dist else a.size.toNat - dist + a.pos.toNat

/-- The cell a lookback names: the one at its effective address (R60). Outside the domain of R149 the spec gives a lookback no
meaning, and outside 0 to `size - 1` there is no cell (R53): it names nothing (DESIGN CHOICE, log entry 25). -/
def lookback (a : Arch) (dist : Nat) : Option Nat :=
  if lookbackOk a dist ∧ lookbackIndex a dist < a.size.toNat then some (lookbackIndex a dist) else none

end Sys2Proof.Machine
end

