-- ==== Sys2Proof/Machine/Flags.lean ====
section
/-! DEFINITION. Every flag computation of the core: `corrupted` (R23, R100, R103), `isFull` (R32, R142), the probability's move
(R102), and the predicates `RC.FINOK`, `DW.CHK`, `DW.EMPTY` (R104, R145, R146). -/

namespace Sys2Proof.Machine

/-- `corrupted` after `RC.INIT` (R100): it was cleared at the start. -/
def corruptedAtInit (b0 : Byte) (code range : Word) : Bool := decide (b0 ≠ 0#8) || decide (code = range)

/-- `corrupted` after a direct round (R103): sticky, set when `code == range`. -/
def corruptedAfterRound (old : Bool) (code range : Word) : Bool := old || decide (code = range)

/-- A decoded 0 moves a probability up by 1/32 of its distance to 2048, rounded down (R102). -/
def probUp (p : Prob) : Prob :=
  BitVec.ofNat 11 (p.toNat + (Config.kBitModelTotal - p.toNat) / 2 ^ Config.kNumMoveBits)

/-- A decoded 1 moves a probability down by 1/32 of itself, rounded down (R102). -/
def probDown (p : Prob) : Prob := BitVec.ofNat 11 (p.toNat - p.toNat / 2 ^ Config.kNumMoveBits)

/-- `bound = (range >> 11) * p` (R102); the product is below 2^32. -/
def rcBound (range : Word) (p : Prob) : Word := (range >>> Config.kNumBitModelTotalBits) * p.setWidth 32

/-- `RC.FINOK` (R104). -/
def finok (a : Arch) : Bool := decide (a.code = 0#32)

/-- `DW.CHK(d)`: `(d <= pos) or (isFull == 1)` (R145). -/
def distanceOk (a : Arch) (d : Word) : Bool := decide (d ≤ a.pos) || a.isFull

/-- `DW.EMPTY`: `(pos == 0) and (isFull == 0)` (R146). -/
def windowEmpty (a : Arch) : Bool := decide (a.pos = 0#32) && !a.isFull

end Sys2Proof.Machine
end

