-- ==== Sys2Proof/Machine/RangeDecoder.lean ====
section
/-! DEFINITION. The family range_decoder (spec/40_range_decoder.md): RC.INIT, RC.NORM, RC.BIT, RC.DIRECT, RC.FINOK, and the
preamble's format FMT.RCPRE. -/

namespace Sys2Proof.Machine

/-- `code <- (code << 8) | b`. -/
def shiftInByte (code : Word) (b : Byte) : Word := (code <<< 8) ||| b.setWidth 32

/-- `RC.NORM` (R101): one test, at most one byte; the byte is read before anything is shifted. -/
def rcNorm : Op Unit := do
  let a ← get
  if a.range < Config.kTopValue then do
    let b ← inByte
    modify fun a => { a with range := a.range <<< 8, code := shiftInByte a.code b }
  else pure ()

/-- `RC.BIT` (R102) on the cell of flat number `k`. -/
def rcBit (k : Nat) : Op Bool := do
  let a ← get
  let p := probRead a.prob k
  let bound := rcBound a.range p
  if a.code < bound then do
    set { a with prob := probWrite a.prob k (probUp p), range := bound, decisions := a.decisions ++ [false] }
    rcNorm
    pure false
  else do
    set { a with prob := probWrite a.prob k (probDown p), range := a.range - bound, code := a.code - bound,
                 decisions := a.decisions ++ [true] }
    rcNorm
    pure true

/-- The mask `t` of a direct round: all ones when bit 31 of the difference is 1, else 0 (R103). -/
def signMask (diff : Word) : Word := if diff.msb then 0xFFFFFFFF#32 else 0#32

/-- One round of `RC.DIRECT` (R103); it yields `t`. -/
def rcDirectRound : Op Word := do
  let a ← get
  let range := a.range >>> 1
  let diff := a.code - range
  let t := signMask diff
  let code := diff + (range &&& t)
  set { a with range := range, code := code, corrupted := corruptedAfterRound a.corrupted code range,
               decisions := a.decisions ++ [decide (t = 0#32)] }
  rcNorm
  pure t

/-- The rounds of `RC.DIRECT` (R103): `res <- (res << 1) + (t + 1)` after each. -/
def rcDirectRounds : Nat → Word → Op Word
  | 0, res => pure res
  | n + 1, res => do
    let t ← rcDirectRound
    rcDirectRounds n ((res <<< 1) + (t + 1#32))

/-- `RC.DIRECT` (R103). -/
def rcDirect (n : Nat) : Op Word := rcDirectRounds n 0#32

/-- The next byte of the preamble goes into the low byte of `code` (R100). -/
def rcInitByte : Op Unit := do
  let b ← inByte
  modify fun a => { a with code := shiftInByte a.code b }

/-- The flag after the five bytes of the preamble (R100, R74). -/
def rcInitFlag (b0 : Byte) : Op Unit := modify fun a =>
  { a with corrupted := corruptedAtInit b0 a.code a.range }

/-- The first lines of `RC.INIT` (R100): the flag cleared, `range` all ones, `code` zero. -/
def rcInitClear : Op Unit := modify fun a => { a with corrupted := false, range := 0xFFFFFFFF#32, code := 0#32 }

/-- `RC.INIT` (R100). -/
def rcInit : Op Unit := do
  rcInitClear
  let b0 ← inByte
  rcInitByte
  rcInitByte
  rcInitByte
  rcInitByte
  rcInitFlag b0

/-- The preamble as a field of values already read (R74): what `RC.INIT` makes of the byte `z` and the code `c`. -/
def rcPreamble (z : Byte) (c : Word) : Op Unit := do
  rcInitClear
  modify fun a => { a with code := c }
  rcInitFlag z

/-! ## The meanings -/

/-- RC.INIT (R100). -/
def execRcInit (s : State) : Host.Outcome State Fault Refusal := runOp .rcInit (answerDone rcInit) s

/-- RC.NORM (R101). -/
def execRcNorm (s : State) : Host.Outcome State Fault Refusal := runOp .rcNorm (answerDone rcNorm) s

/-- RC.BIT (R102); a cell that does not exist is outside the operand's domain. -/
def execRcBit (a : ProbAddr) (s : State) : Host.Outcome State Fault Refusal :=
  inDomain a.wf (runOp (.rcBit a) (answer .bit (rcBit (cellOf a)))) s

/-- RC.DIRECT (R103): refused for n = 0 and n > 26 (D29, U16). -/
def execRcDirect (n : Byte) (s : State) : Host.Outcome State Fault Refusal :=
  inDomain (Instr.rcDirect n).wf (runOp (.rcDirect n) (answer .value (rcDirect n.toNat))) s

/-- RC.FINOK (R104). -/
def execRcFinok (s : State) : Host.Outcome State Fault Refusal :=
  runOp .rcFinok (answer (fun a => .bool (finok a)) get) s

/-- FMT.RCPRE (R74). -/
def execFmtRcpre (z : Byte) (c : Word) (s : State) : Host.Outcome State Fault Refusal :=
  runOp (.fmtRcpre z c) (answerDone (rcPreamble z c)) s

end Sys2Proof.Machine
end

