-- ==== Sys2Proof/Machine/BitTree.lean ====
section
/-! DEFINITION. The family bit_tree_decoder (spec/41_bit_tree_decoder.md): BT.FWD and BT.REV. A tree is named by the flat number of its
cell 0; node `m` is the cell `T + m` (R120, R123). -/

namespace Sys2Proof.Machine

/-- The walk of `BT.FWD` from node `m` with `n` decisions to go; it yields the final node (R121). -/
def btWalk (T : Nat) : Nat → Nat → Op Nat
  | 0, m => pure m
  | n + 1, m => do
    let bit ← rcBit (T + m)
    btWalk T n (2 * m + bit.toNat)

/-- `BT.FWD` (R121): the final node less `2^n`. -/
def btFwd (T n : Nat) : Op Nat := do
  let m ← btWalk T n 1
  pure (m - 2 ^ n)

/-- The walk of `BT.REV` from node `m`, decision `i` next, `n` to go; `sym` is the value so far (R122). -/
def btRevWalk (T : Nat) : Nat → Nat → Nat → Nat → Op Nat
  | 0, _, _, sym => pure sym
  | n + 1, i, m, sym => do
    let bit ← rcBit (T + m)
    btRevWalk T n (i + 1) (2 * m + bit.toNat) (sym ||| (bit.toNat <<< i))

/-- `BT.REV` (R122). -/
def btRev (T n : Nat) : Op Nat := btRevWalk T n 0 1 0

/-- A number as a 32-bit result on the command interface. -/
def valueOf (n : Nat) : Response := .value (BitVec.ofNat 32 n)

/-- BT.FWD (R121); a tree with a cell that does not exist is outside the operands' domain. -/
def execBtFwd (t : ProbAddr) (n : Byte) (s : State) : Host.Outcome State Fault Refusal :=
  inDomain (t.treeWf n) (runOp (.btFwd t n) (answer valueOf (btFwd (cellOf t) n.toNat))) s

/-- BT.REV (R122). -/
def execBtRev (t : ProbAddr) (n : Byte) (s : State) : Host.Outcome State Fault Refusal :=
  inDomain (t.treeWf n) (runOp (.btRev t n) (answer valueOf (btRev (cellOf t) n.toNat))) s

end Sys2Proof.Machine
end

