-- ==== Sys2Proof/Machine/LengthDecoder.lean ====
section
/-! DEFINITION. The family length_decoder (spec/42_length_decoder.md): LEN.DEC and the three rows CODE.LENGTH.* it chooses among. -/

namespace Sys2Proof.Machine

/-- The low range: 0 to 7 (R78, R131). -/
def lengthLow (inst : LenInst) (ps : BitVec 4) : Op Nat := btFwd (lowTree inst ps) 3

/-- The mid range: 8 to 15 (R78, R131). -/
def lengthMid (inst : LenInst) (ps : BitVec 4) : Op Nat := do
  let v ← btFwd (midTree inst ps) 3
  pure (8 + v)

/-- The high range: 16 to 271; not indexed by posState (R78, R131). -/
def lengthHigh (inst : LenInst) : Op Nat := do
  let v ← btFwd (highTree inst) 8
  pure (16 + v)

/-- `LEN.DEC` (R131). -/
def lenDec (inst : LenInst) (ps : BitVec 4) : Op Nat := do
  let c ← rcBit (choiceCell inst)
  if c then do
    let c2 ← rcBit (choice2Cell inst)
    if c2 then lengthHigh inst else lengthMid inst ps
  else lengthLow inst ps

/-- LEN.DEC (R131). -/
def execLenDec (inst : LenInst) (ps : BitVec 4) (s : State) : Host.Outcome State Fault Refusal :=
  runOp (.lenDec inst ps) (answer valueOf (lenDec inst ps)) s

/-- CODE.LENGTH.LOW (R78), once `choice` has decoded 0. -/
def execCodeLengthLow (inst : LenInst) (ps : BitVec 4) (s : State) : Host.Outcome State Fault Refusal :=
  runOp (.codeLengthLow inst ps) (answer valueOf (lengthLow inst ps)) s

/-- CODE.LENGTH.MID (R78), once `choice` has decoded 1 and `choice2` 0. -/
def execCodeLengthMid (inst : LenInst) (ps : BitVec 4) (s : State) : Host.Outcome State Fault Refusal :=
  runOp (.codeLengthMid inst ps) (answer valueOf (lengthMid inst ps)) s

/-- CODE.LENGTH.HIGH (R78), once `choice` and `choice2` have decoded 1. -/
def execCodeLengthHigh (inst : LenInst) (s : State) : Host.Outcome State Fault Refusal :=
  runOp (.codeLengthHigh inst) (answer valueOf (lengthHigh inst)) s

end Sys2Proof.Machine
end

