-- ==== Sys2Proof/Machine/DictionaryWindow.lean ====
section
/-! DEFINITION. The family dictionary_window (spec/43_dictionary_window.md): DW.CREATE, DW.PUT, DW.GET, DW.COPY, DW.CHK, DW.EMPTY,
DW.FLUSH. -/

namespace Sys2Proof.Machine

/-- `n > DICT_CAP`, when the parameter is set (R141). -/
def overCap (a : Arch) (n : Word) : Bool :=
  match a.params.dictCap with
  | some c => decide (c < n)
  | none => false

/-- The window after `DW.CREATE(n)` (R141). -/
def newWindow (n : Word) (a : Arch) : Arch :=
  { a with size := n, pos := 0#32, isFull := false, totalPos := 0#64, buf := [], out := [], flushedPos := 0#64 }

/-- `DW.CREATE` (R141, D27). -/
def dwCreate (n : Word) : Op Unit := do
  let a ← get
  raiseIf (overCap a n) .dictTooLarge
  modify (newWindow n)

/-- The cursor and the wrap flag after a put (R142). -/
def advanced (a : Arch) : Arch :=
  if a.pos + 1#32 = a.size then { a with pos := 0#32, isFull := true } else { a with pos := a.pos + 1#32 }

/-- `MemWrite(DICT, pos, 1, b)` (R53, R142). With no window there is no cell at `pos`, and nothing is stored (DESIGN CHOICE,
log entry 25). -/
def storeByte (b : Byte) (a : Arch) : Arch :=
  if a.pos < a.size then { a with buf := dictWrite a.buf a.pos.toNat b } else a

/-- `DW.PUT` (R142). -/
def dwPut (b : Byte) : Op Unit := do
  modify fun a => advanced { storeByte b a with totalPos := a.totalPos + 1#64 }
  outByte b

/-- An arbitrary byte: a free value, a fresh one each time (DESIGN CHOICE, log entry 7). -/
def freeByte : Op Byte := fun a => .ok (Config.freeFill a.fillReads) { a with fillReads := a.fillReads + 1 }

/-- A read of a cell nothing has written (R148): `DICT_FILL`, or an arbitrary byte. -/
def readUnwritten : Op Byte := fun a =>
  match a.params.dictFill with
  | some v => .ok v a
  | none => freeByte a

/-- `DW.GET` (R143). A lookback that names no cell, which only an operation driven by itself can ask for, has no stated value:
an arbitrary byte (DESIGN CHOICE, log entry 25). -/
def dwGet (dist : Nat) : Op Byte := do
  let a ← get
  match lookback a dist with
  | none => freeByte
  | some i =>
    match dictRead a.buf i with
    | some b => pure b
    | none => readUnwritten

/-- `DW.COPY` (R144): `len` times a get and a put, byte by byte. -/
def dwCopy (dist : Nat) : Nat → Op Unit
  | 0 => pure ()
  | n + 1 => do
    let b ← dwGet dist
    dwPut b
    dwCopy dist n

/-- `DW.FLUSH` (R147): every produced byte is with the sink. `DW.PUT` already does it, so nothing is left to do. -/
def dwFlush : Op Unit := modify flushed

/-! ## The meanings -/

/-- DW.CREATE (R141): refused for n = 0 (R149, D29). -/
def execDwCreate (n : Word) (s : State) : Host.Outcome State Fault Refusal :=
  inDomain (Instr.dwCreate n).wf (runOp (.dwCreate n) (answerDone (dwCreate n))) s

/-- DW.PUT (R142). -/
def execDwPut (b : Byte) (s : State) : Host.Outcome State Fault Refusal := runOp (.dwPut b) (answerDone (dwPut b)) s

/-- DW.GET (R143): refused unless 1 <= dist <= size (R149). -/
def execDwGet (dist : Word) (s : State) : Host.Outcome State Fault Refusal :=
  inDomain (lookbackOk s.arch dist.toNat) (runOp (.dwGet dist) (answer .byte (dwGet dist.toNat))) s

/-- DW.COPY (R144): refused unless 1 <= dist <= size (R149). Its length operand is 32 bits wide (DESIGN CHOICE, log entry 8). -/
def execDwCopy (dist len : Word) (s : State) : Host.Outcome State Fault Refusal :=
  inDomain (lookbackOk s.arch dist.toNat) (runOp (.dwCopy dist len) (answerDone (dwCopy dist.toNat len.toNat))) s

/-- DW.CHK (R145). -/
def execDwChk (d : Word) (s : State) : Host.Outcome State Fault Refusal :=
  runOp (.dwChk d) (answer (fun a => .bool (distanceOk a d)) get) s

/-- DW.EMPTY (R146). -/
def execDwEmpty (s : State) : Host.Outcome State Fault Refusal :=
  runOp .dwEmpty (answer (fun a => .bool (windowEmpty a)) get) s

/-- DW.FLUSH (R147). -/
def execDwFlush (s : State) : Host.Outcome State Fault Refusal := runOp .dwFlush (answerDone dwFlush) s

end Sys2Proof.Machine
end

