-- ==== Sys2Proof/Machine/Literal.lean ====
section
/-! DEFINITION. LIT.DEC (spec/45_literal_decoding.md), plain and matched mode. -/

namespace Sys2Proof.Machine

/-- The byte appended last, or 0 when the window is empty (R201). -/
def prevByte : Op Byte := do
  let a ← get
  if windowEmpty a then pure 0#8 else dwGet 1

/-- Plain mode (R202) from node `sym` with `n` bits to go: the walk of a forward tree. It yields `sym` with all 8 bits. -/
def litPlain (T n sym : Nat) : Op Nat := btWalk T n sym

/-- The index of a matched decision: `((1 + matchBit) << 8) + sym` (R203). -/
def matchedIndex (matchBit : Bool) (sym : Nat) : Nat := (1 + matchBit.toNat) * 0x100 + sym

/-- Matched mode (R203) from node `sym` with `n` bits to go; `mb` holds the bits of the match byte not yet used, next one
at bit 7. After a mismatch the rest is plain. -/
def litMatched (T : Nat) : Nat → Byte → Nat → Op Nat
  | 0, _, sym => pure sym
  | n + 1, mb, sym => do
    let bit ← rcBit (T + matchedIndex mb.msb sym)
    if mb.msb = bit then litMatched T n (mb <<< 1) (2 * sym + bit.toNat)
    else litPlain T n (2 * sym + bit.toNat)

/-- The eight decisions of a literal in the table `T` (R204): matched when `state >= 7`. -/
def litSymbol (T : Nat) : Op Nat := do
  let a ← get
  if 7 ≤ a.state.val then do
    let mb ← dwGet (a.rep0.toNat + 1)
    litMatched T 8 mb 1
  else litPlain T 8 1

/-- `LIT.DEC` (R204): it yields the byte it appends. -/
def litDec : Op Byte := do
  let pb ← prevByte
  let a ← get
  let sym ← litSymbol (litTable (litState a pb))
  dwPut (BitVec.ofNat 8 (sym - 0x100))
  pure (BitVec.ofNat 8 (sym - 0x100))

/-- LIT.DEC (R204). -/
def execLitDec (s : State) : Host.Outcome State Fault Refusal := runOp .litDec (answer .byte litDec) s

end Sys2Proof.Machine
end

