-- ==== Sys2Proof/Machine/Distance.lean ====
section
/-! DEFINITION. DIST.DEC (spec/46_distance_decoding.md) and the 64 rows CODE.DIST.SLOT* it chooses among. -/

namespace Sys2Proof.Machine

/-- The rest of a distance code once its slot is known (R79, R212 to R215). -/
def distTail (slot : Nat) : Op Nat :=
  if slot < 4 then pure slot
  else if slot < Config.kEndPosModelIndex then do
    let low ← btRev (specialTree slot) (slotDirectBits slot)
    pure (slotBase slot + low)
  else do
    let hi ← rcDirect (slotDirectBits slot - Config.kNumAlignBits)
    let lo ← btRev alignTree Config.kNumAlignBits
    pure (slotBase slot + hi.toNat * 2 ^ Config.kNumAlignBits + lo)

/-- `DIST.DEC` (R216). -/
def distDec (len : Nat) : Op Word := do
  let slot ← btFwd (slotTree len) 6
  let dist ← distTail slot
  pure (BitVec.ofNat 32 dist)

/-- DIST.DEC (R216); its operand is a length code, 0 to 271 (R88). -/
def execDistDec (len : BitVec 16) (s : State) : Host.Outcome State Fault Refusal :=
  inDomain (Instr.distDec len).wf (runOp (.distDec len) (answer .value (distDec len.toNat))) s

/-- The rest of the distance code of one slot as an instruction. -/
def execSlot (slot : Nat) (s : State) : Host.Outcome State Fault Refusal :=
  runOp (slotRow slot) (answer valueOf (distTail slot)) s

/-! CODE.DIST.SLOT0 to CODE.DIST.SLOT63 (R79, R212 to R215). -/

def execCodeDistSlot0 (s : State) : Host.Outcome State Fault Refusal := execSlot 0 s
def execCodeDistSlot1 (s : State) : Host.Outcome State Fault Refusal := execSlot 1 s
def execCodeDistSlot2 (s : State) : Host.Outcome State Fault Refusal := execSlot 2 s
def execCodeDistSlot3 (s : State) : Host.Outcome State Fault Refusal := execSlot 3 s
def execCodeDistSlot4 (s : State) : Host.Outcome State Fault Refusal := execSlot 4 s
def execCodeDistSlot5 (s : State) : Host.Outcome State Fault Refusal := execSlot 5 s
def execCodeDistSlot6 (s : State) : Host.Outcome State Fault Refusal := execSlot 6 s
def execCodeDistSlot7 (s : State) : Host.Outcome State Fault Refusal := execSlot 7 s
def execCodeDistSlot8 (s : State) : Host.Outcome State Fault Refusal := execSlot 8 s
def execCodeDistSlot9 (s : State) : Host.Outcome State Fault Refusal := execSlot 9 s
def execCodeDistSlot10 (s : State) : Host.Outcome State Fault Refusal := execSlot 10 s
def execCodeDistSlot11 (s : State) : Host.Outcome State Fault Refusal := execSlot 11 s
def execCodeDistSlot12 (s : State) : Host.Outcome State Fault Refusal := execSlot 12 s
def execCodeDistSlot13 (s : State) : Host.Outcome State Fault Refusal := execSlot 13 s
def execCodeDistSlot14 (s : State) : Host.Outcome State Fault Refusal := execSlot 14 s
def execCodeDistSlot15 (s : State) : Host.Outcome State Fault Refusal := execSlot 15 s
def execCodeDistSlot16 (s : State) : Host.Outcome State Fault Refusal := execSlot 16 s
def execCodeDistSlot17 (s : State) : Host.Outcome State Fault Refusal := execSlot 17 s
def execCodeDistSlot18 (s : State) : Host.Outcome State Fault Refusal := execSlot 18 s
def execCodeDistSlot19 (s : State) : Host.Outcome State Fault Refusal := execSlot 19 s
def execCodeDistSlot20 (s : State) : Host.Outcome State Fault Refusal := execSlot 20 s
def execCodeDistSlot21 (s : State) : Host.Outcome State Fault Refusal := execSlot 21 s
def execCodeDistSlot22 (s : State) : Host.Outcome State Fault Refusal := execSlot 22 s
def execCodeDistSlot23 (s : State) : Host.Outcome State Fault Refusal := execSlot 23 s
def execCodeDistSlot24 (s : State) : Host.Outcome State Fault Refusal := execSlot 24 s
def execCodeDistSlot25 (s : State) : Host.Outcome State Fault Refusal := execSlot 25 s
def execCodeDistSlot26 (s : State) : Host.Outcome State Fault Refusal := execSlot 26 s
def execCodeDistSlot27 (s : State) : Host.Outcome State Fault Refusal := execSlot 27 s
def execCodeDistSlot28 (s : State) : Host.Outcome State Fault Refusal := execSlot 28 s
def execCodeDistSlot29 (s : State) : Host.Outcome State Fault Refusal := execSlot 29 s
def execCodeDistSlot30 (s : State) : Host.Outcome State Fault Refusal := execSlot 30 s
def execCodeDistSlot31 (s : State) : Host.Outcome State Fault Refusal := execSlot 31 s
def execCodeDistSlot32 (s : State) : Host.Outcome State Fault Refusal := execSlot 32 s
def execCodeDistSlot33 (s : State) : Host.Outcome State Fault Refusal := execSlot 33 s
def execCodeDistSlot34 (s : State) : Host.Outcome State Fault Refusal := execSlot 34 s
def execCodeDistSlot35 (s : State) : Host.Outcome State Fault Refusal := execSlot 35 s
def execCodeDistSlot36 (s : State) : Host.Outcome State Fault Refusal := execSlot 36 s
def execCodeDistSlot37 (s : State) : Host.Outcome State Fault Refusal := execSlot 37 s
def execCodeDistSlot38 (s : State) : Host.Outcome State Fault Refusal := execSlot 38 s
def execCodeDistSlot39 (s : State) : Host.Outcome State Fault Refusal := execSlot 39 s
def execCodeDistSlot40 (s : State) : Host.Outcome State Fault Refusal := execSlot 40 s
def execCodeDistSlot41 (s : State) : Host.Outcome State Fault Refusal := execSlot 41 s
def execCodeDistSlot42 (s : State) : Host.Outcome State Fault Refusal := execSlot 42 s
def execCodeDistSlot43 (s : State) : Host.Outcome State Fault Refusal := execSlot 43 s
def execCodeDistSlot44 (s : State) : Host.Outcome State Fault Refusal := execSlot 44 s
def execCodeDistSlot45 (s : State) : Host.Outcome State Fault Refusal := execSlot 45 s
def execCodeDistSlot46 (s : State) : Host.Outcome State Fault Refusal := execSlot 46 s
def execCodeDistSlot47 (s : State) : Host.Outcome State Fault Refusal := execSlot 47 s
def execCodeDistSlot48 (s : State) : Host.Outcome State Fault Refusal := execSlot 48 s
def execCodeDistSlot49 (s : State) : Host.Outcome State Fault Refusal := execSlot 49 s
def execCodeDistSlot50 (s : State) : Host.Outcome State Fault Refusal := execSlot 50 s
def execCodeDistSlot51 (s : State) : Host.Outcome State Fault Refusal := execSlot 51 s
def execCodeDistSlot52 (s : State) : Host.Outcome State Fault Refusal := execSlot 52 s
def execCodeDistSlot53 (s : State) : Host.Outcome State Fault Refusal := execSlot 53 s
def execCodeDistSlot54 (s : State) : Host.Outcome State Fault Refusal := execSlot 54 s
def execCodeDistSlot55 (s : State) : Host.Outcome State Fault Refusal := execSlot 55 s
def execCodeDistSlot56 (s : State) : Host.Outcome State Fault Refusal := execSlot 56 s
def execCodeDistSlot57 (s : State) : Host.Outcome State Fault Refusal := execSlot 57 s
def execCodeDistSlot58 (s : State) : Host.Outcome State Fault Refusal := execSlot 58 s
def execCodeDistSlot59 (s : State) : Host.Outcome State Fault Refusal := execSlot 59 s
def execCodeDistSlot60 (s : State) : Host.Outcome State Fault Refusal := execSlot 60 s
def execCodeDistSlot61 (s : State) : Host.Outcome State Fault Refusal := execSlot 61 s
def execCodeDistSlot62 (s : State) : Host.Outcome State Fault Refusal := execSlot 62 s
def execCodeDistSlot63 (s : State) : Host.Outcome State Fault Refusal := execSlot 63 s

end Sys2Proof.Machine
end

