-- ==== Sys2Proof/Machine/StateMachine.lean ====
section
/-! DEFINITION. The family lzma_state_machine (spec/44_lzma_state_machine.md): the four transitions ST.*, the symbols SYM.*, and
MAIN.STEP. A symbol's meaning is its rule from the point where its selecting decisions are known (R167); MAIN.STEP recovers
those decisions and calls it. So a row of the repeat family run by itself starts behind the guards of R172, which stand before
its last selecting decisions (DESIGN CHOICE, log entry 11). -/

namespace Sys2Proof.Machine

/-! ## The transitions (R161 to R165) -/

/-- After a literal (R161). -/
def stateAfterLit (s : Fin 12) : Fin 12 :=
  if s.val < 4 then 0
  else if s.val < 10 then ⟨s.val - 3, by omega⟩
  else ⟨s.val - 6, by omega⟩

/-- After a new match (R162). -/
def stateAfterMatch (s : Fin 12) : Fin 12 := if s.val < 7 then 7 else 10

/-- After a long repeat (R163). -/
def stateAfterRep (s : Fin 12) : Fin 12 := if s.val < 7 then 8 else 11

/-- After a short repeat (R164). -/
def stateAfterShortrep (s : Fin 12) : Fin 12 := if s.val < 7 then 9 else 11

def stLit : Op Unit := modify fun a => { a with state := stateAfterLit a.state }

def stMatch : Op Unit := modify fun a => { a with state := stateAfterMatch a.state }

def stRep : Op Unit := modify fun a => { a with state := stateAfterRep a.state }

def stShortrep : Op Unit := modify fun a => { a with state := stateAfterShortrep a.state }

/-! ## The symbols -/

/-- `finish X` (R183): flush, write the status, the sequencer is done. -/
def finish (st : Status) : Op StepOutcome := do
  dwFlush
  modify fun a => { a with status := st, phase := .done }
  pure .finished

/-- The budget guard (R169, R171, R172, R244). -/
def budgetGuard : Op Unit := do
  let a ← get
  raiseIf (budgetSpent a) .budgetExhausted

/-- The declared budget is smaller than the length (R178). -/
def overruns (a : Arch) (len : Nat) : Bool := a.sizeDefined && decide (a.leftToUnpack.toNat < len)

/-- The bytes a copy of `len` bytes may produce: `len`, clamped to the budget (R178). -/
def clamped (a : Arch) (len : Nat) : Nat := if overruns a len then a.leftToUnpack.toNat else len

/-- The copy tail (R178) of a match length, the minimum already added: clamped to the budget, and the overrun is raised after
the clamped copy. -/
def copyRun (len : Nat) : Op StepOutcome := do
  let a ← get
  dwCopy (a.rep0.toNat + 1) (clamped a len)
  spendBudget (clamped a len)
  raiseIf (overruns a len) .lengthOverrun
  pure .continue

/-- The copy tail of a decoded length code: 2 is added (R178). -/
def copyTail (len : Nat) : Op StepOutcome := copyRun (len + Config.kMatchMinLen)

/-- `SYM.LIT` (R169). -/
def symLit : Op StepOutcome := do
  budgetGuard
  let _ ← litDec
  stLit
  spendBudget 1
  pure .continue

/-- `SYM.EOS` (R179). -/
def symEos : Op StepOutcome := do
  let a ← get
  raiseIf (!finok a) .badEndMarker
  raiseIf (a.sizeDefined && decide (a.leftToUnpack ≠ 0#64)) .sizeMismatch
  finish .finishedWithMarker

/-- A new distance is usable (R171, R245). -/
def newDistanceOk (a : Arch) : Bool := decide (a.rep0 < a.dictSize) && distanceOk a a.rep0

/-- `rep3 <- rep2; rep2 <- rep1; rep1 <- rep0` (R171). -/
def rotateReps : Op Unit := modify fun a => { a with rep3 := a.rep2, rep2 := a.rep1, rep1 := a.rep0 }

/-- `rep0 <- d`. -/
def setRep0 (d : Word) : Op Unit := modify fun a => { a with rep0 := d }

/-- The end of R171, once `rep0` holds the decoded distance: the marker, or the guards and the copy. -/
def matchTail (len : Nat) : Op StepOutcome := do
  let a ← get
  if a.rep0 = Config.kEndMarker then symEos
  else do
    budgetGuard
    raiseIf (!newDistanceOk a) .badDistance
    copyTail len

/-- `SYM.MATCH`, and the recognition of `SYM.EOS` (R171). -/
def symMatch (ps : BitVec 4) : Op StepOutcome := do
  rotateReps
  let len ← lenDec .len ps
  stMatch
  let d ← distDec len
  setRep0 d
  matchTail len

/-- `SYM.SHORTREP` (R173). -/
def symShortrep : Op StepOutcome := do
  stShortrep
  let a ← get
  let b ← dwGet (a.rep0.toNat + 1)
  dwPut b
  spendBudget 1
  pure .continue

/-- The end of the four long repeats (R174 to R177), once the reps are in order. -/
def repTail (ps : BitVec 4) : Op StepOutcome := do
  let len ← lenDec .rep ps
  stRep
  copyTail len

/-- `SYM.REP0` (R174): the reps stay. -/
def symRep0 (ps : BitVec 4) : Op StepOutcome := repTail ps

/-- `SYM.REP1` (R175): rep1 to the front. -/
def symRep1 (ps : BitVec 4) : Op StepOutcome := do
  modify fun a => { a with rep1 := a.rep0, rep0 := a.rep1 }
  repTail ps

/-- `SYM.REP2` (R176): rep2 to the front. -/
def symRep2 (ps : BitVec 4) : Op StepOutcome := do
  modify fun a => { a with rep2 := a.rep1, rep1 := a.rep0, rep0 := a.rep2 }
  repTail ps

/-- `SYM.REP3` (R177): rep3 to the front. -/
def symRep3 (ps : BitVec 4) : Op StepOutcome := do
  modify fun a => { a with rep3 := a.rep2, rep2 := a.rep1, rep1 := a.rep0, rep0 := a.rep3 }
  repTail ps

/-! ## The main loop (R166 to R183) -/

/-- The end test at the top of the loop succeeds (R180): the budget is used up and `code == 0`. -/
def finishesWithoutMarker (a : Arch) : Bool := budgetSpent a && finok a

/-- The guards of the repeat family (R172). -/
def repGuards : Op Unit := do
  budgetGuard
  let a ← get
  raiseIf (windowEmpty a) .emptyWindowRep

/-- The repeat family (R172 to R177): guards, then the decisions that select the symbol. -/
def repFamily (s : Fin 12) (ps : BitVec 4) : Op StepOutcome := do
  repGuards
  let g0 ← rcBit (cell .isRepG0 s.val)
  if g0 then do
    let g1 ← rcBit (cell .isRepG1 s.val)
    if g1 then do
      let g2 ← rcBit (cell .isRepG2 s.val)
      if g2 then symRep3 ps else symRep2 ps
    else symRep1 ps
  else do
    let l ← rcBit (cell .isRep0Long (statePos s ps))
    if l then symRep0 ps else symShortrep

/-- The symbol of one iteration (R167 to R177): `s` and `ps` are those of its start. -/
def decodeIteration (s : Fin 12) (ps : BitVec 4) : Op StepOutcome := do
  let m ← rcBit (cell .isMatch (statePos s ps))
  if m then do
    let r ← rcBit (cell .isRep s.val)
    if r then repFamily s ps else symMatch ps
  else symLit

/-- The end of an iteration: `continue` puts the sequencer back to the top of the loop (R183). -/
def endIteration (o : StepOutcome) : Op StepOutcome :=
  match o with
  | .continue => do
    setPhase .loop
    pure .continue
  | .finished => pure .finished

/-- The flush that precedes the end test's `RC.FINOK` when the budget is used up (R180). -/
def endTestFlush (a : Arch) : Op Unit := if budgetSpent a then dwFlush else pure ()

/-- `MAIN.STEP` (R183). -/
def mainStep : Op StepOutcome := do
  setPhase .symbol
  let a ← get
  endTestFlush a
  if finishesWithoutMarker a then finish .finishedWithoutMarker
  else do
    let o ← decodeIteration a.state (posState a)
    endIteration o

/-! ## The meanings -/

/-- ST.LIT (R161). -/
def execStLit (s : State) : Host.Outcome State Fault Refusal := runOp .stLit (answerDone stLit) s

/-- ST.MATCH (R162). -/
def execStMatch (s : State) : Host.Outcome State Fault Refusal := runOp .stMatch (answerDone stMatch) s

/-- ST.REP (R163). -/
def execStRep (s : State) : Host.Outcome State Fault Refusal := runOp .stRep (answerDone stRep) s

/-- ST.SHORTREP (R164). -/
def execStShortrep (s : State) : Host.Outcome State Fault Refusal := runOp .stShortrep (answerDone stShortrep) s

/-- SYM.LIT (R169). -/
def execSymLit (s : State) : Host.Outcome State Fault Refusal := runOp .symLit (answer .step symLit) s

/-- SYM.MATCH (R171). -/
def execSymMatch (s : State) : Host.Outcome State Fault Refusal :=
  runOp .symMatch (answer .step (symMatch (posState s.arch))) s

/-- SYM.EOS (R179). -/
def execSymEos (s : State) : Host.Outcome State Fault Refusal := runOp .symEos (answer .step symEos) s

/-- SYM.SHORTREP (R173), from behind R172's guards: run by itself with a budget of 0 it wraps the budget (DESIGN CHOICE, log
entry 11). -/
def execSymShortrep (s : State) : Host.Outcome State Fault Refusal := runOp .symShortrep (answer .step symShortrep) s

/-- SYM.REP0 (R174), from behind R172's guards (DESIGN CHOICE, log entry 11). -/
def execSymRep0 (s : State) : Host.Outcome State Fault Refusal :=
  runOp .symRep0 (answer .step (symRep0 (posState s.arch))) s

/-- SYM.REP1 (R175), from behind R172's guards (DESIGN CHOICE, log entry 11). -/
def execSymRep1 (s : State) : Host.Outcome State Fault Refusal :=
  runOp .symRep1 (answer .step (symRep1 (posState s.arch))) s

/-- SYM.REP2 (R176), from behind R172's guards (DESIGN CHOICE, log entry 11). -/
def execSymRep2 (s : State) : Host.Outcome State Fault Refusal :=
  runOp .symRep2 (answer .step (symRep2 (posState s.arch))) s

/-- SYM.REP3 (R177), from behind R172's guards (DESIGN CHOICE, log entry 11). -/
def execSymRep3 (s : State) : Host.Outcome State Fault Refusal :=
  runOp .symRep3 (answer .step (symRep3 (posState s.arch))) s

/-- MAIN.STEP (R183). -/
def execMainStep (s : State) : Host.Outcome State Fault Refusal := runOp .mainStep (answer .step mainStep) s

end Sys2Proof.Machine
end

