-- ==== Sys2Proof/Machine/Header.lean ====
section
/-! DEFINITION. Starting a decode (spec/47_header_and_init.md): START, HDR.PARSE with its fields FMT.PROPS, FMT.DICTSIZE, FMT.SIZE, and
DEC.INIT. -/

namespace Sys2Proof.Machine

/-- `max(dictSizeInProperties, 4096)` (R72, R223). -/
def effectiveDictSize (v : Word) : Word := if v < Config.kDictMin then Config.kDictMin else v

/-- `lc = d % 9` (R71, R222). -/
def propsLc (d : Byte) : Fin 9 := Fin.ofNat 9 d.toNat

/-- `lp = (d / 9) % 5` (R71, R222). -/
def propsLp (d : Byte) : Fin 5 := Fin.ofNat 5 (d.toNat / 9)

/-- `pb = d / 45` (R71, R222); below 5 because `d < 225`. -/
def propsPb (d : Byte) : Fin 5 := Fin.ofNat 5 (d.toNat / 9 / 5)

/-- `FMT.PROPS` (R71, R221, R227): illegal from 225 on, tested before any register is written. -/
def hdrProps (d : Byte) : Op Unit := do
  raiseIf (decide (Config.kPropsBound ≤ d.toNat)) .malformedProperties
  modify fun a => { a with lc := propsLc d, lp := propsLp d, pb := propsPb d }

/-- `FMT.DICTSIZE` (R72, R221). -/
def hdrDictSize (v : Word) : Op Unit := modify fun a =>
  { a with dictSizeInProperties := v, dictSize := effectiveDictSize v }

/-- `FMT.SIZE` (R73, R221, R224): all ones is "undefined", and then the budget register is not written. -/
def hdrSize (v : DWord) : Op Unit := modify fun a =>
  if v = 0xFFFFFFFFFFFFFFFF#64 then { a with declaredSize := v, sizeDefined := false }
  else { a with declaredSize := v, sizeDefined := true, leftToUnpack := v }

/-- The four bytes of `dictSizeInProperties`, little-endian (R55, R221). -/
def inWordLE : Op Word := do
  let b0 ← inByte
  let b1 ← inByte
  let b2 ← inByte
  let b3 ← inByte
  pure (leWord b0 b1 b2 b3)

/-- The eight bytes of the declared size, little-endian (R55, R221). -/
def inDWordLE : Op DWord := do
  let b0 ← inByte
  let b1 ← inByte
  let b2 ← inByte
  let b3 ← inByte
  let b4 ← inByte
  let b5 ← inByte
  let b6 ← inByte
  let b7 ← inByte
  pure (leDWord b0 b1 b2 b3 b4 b5 b6 b7)

/-- `HDR.PARSE` (R221). -/
def hdrParse : Op Unit := do
  let d ← inByte
  hdrProps d
  let v ← inWordLE
  hdrDictSize v
  let sz ← inDWordLE
  hdrSize sz
  setPhase .rcInit

/-- The registers `DEC.INIT` writes after `DW.CREATE` (R225): every cell of `P` to 1024, `state` and the reps to 0. -/
def freshDecoder (a : Arch) : Arch :=
  { a with prob := [], state := 0, rep0 := 0#32, rep1 := 0#32, rep2 := 0#32, rep3 := 0#32, phase := .loop }

/-- `DEC.INIT` (R225). -/
def decInit : Op Unit := do
  let a ← get
  dwCreate a.dictSize
  modify freshDecoder

/-! ## The meanings -/

/-- START (R220): accepted in every phase; a decode in progress is abandoned. -/
def execStart (s : State) : Host.Outcome State Fault Refusal := runOp .start (answerDone (modify startDecode)) s

/-- HDR.PARSE (R221). -/
def execHdrParse (s : State) : Host.Outcome State Fault Refusal := runOp .hdrParse (answerDone hdrParse) s

/-- DEC.INIT (R225). Before any header has been parsed `dictSize` is 0, and `DW.CREATE(0)` is refused (R149, D29). -/
def execDecInit (s : State) : Host.Outcome State Fault Refusal :=
  inDomain (decide (s.arch.dictSize ≠ 0#32)) (runOp .decInit (answerDone decInit)) s

/-- FMT.PROPS (R71). -/
def execFmtProps (d : Byte) (s : State) : Host.Outcome State Fault Refusal :=
  runOp (.fmtProps d) (answerDone (hdrProps d)) s

/-- FMT.DICTSIZE (R72). -/
def execFmtDictSize (v : Word) (s : State) : Host.Outcome State Fault Refusal :=
  runOp (.fmtDictSize v) (answerDone (hdrDictSize v)) s

/-- FMT.SIZE (R73). -/
def execFmtSize (v : DWord) (s : State) : Host.Outcome State Fault Refusal :=
  runOp (.fmtSize v) (answerDone (hdrSize v)) s

end Sys2Proof.Machine
end

