-- ==== Sys2Proof/Machine/Dispatch.lean ====
section
/-! DEFINITION. Which meaning each instruction has: one arm per constructor. -/

namespace Sys2Proof.Machine

/-- Execute one instruction (R88, R70 to R80). -/
def exec (i : Instr) (s : State) : Host.Outcome State Fault Refusal :=
  match i with
  | .rcInit => Sys2Proof.Machine.execRcInit s
  | .rcNorm => Sys2Proof.Machine.execRcNorm s
  | .rcBit a => Sys2Proof.Machine.execRcBit a s
  | .rcDirect n => Sys2Proof.Machine.execRcDirect n s
  | .rcFinok => Sys2Proof.Machine.execRcFinok s
  | .btFwd t n => Sys2Proof.Machine.execBtFwd t n s
  | .btRev t n => Sys2Proof.Machine.execBtRev t n s
  | .lenDec inst ps => Sys2Proof.Machine.execLenDec inst ps s
  | .dwCreate n => Sys2Proof.Machine.execDwCreate n s
  | .dwPut b => Sys2Proof.Machine.execDwPut b s
  | .dwGet dist => Sys2Proof.Machine.execDwGet dist s
  | .dwCopy dist len => Sys2Proof.Machine.execDwCopy dist len s
  | .dwChk d => Sys2Proof.Machine.execDwChk d s
  | .dwEmpty => Sys2Proof.Machine.execDwEmpty s
  | .dwFlush => Sys2Proof.Machine.execDwFlush s
  | .stLit => Sys2Proof.Machine.execStLit s
  | .stMatch => Sys2Proof.Machine.execStMatch s
  | .stRep => Sys2Proof.Machine.execStRep s
  | .stShortrep => Sys2Proof.Machine.execStShortrep s
  | .litDec => Sys2Proof.Machine.execLitDec s
  | .distDec len => Sys2Proof.Machine.execDistDec len s
  | .hdrParse => Sys2Proof.Machine.execHdrParse s
  | .decInit => Sys2Proof.Machine.execDecInit s
  | .mainStep => Sys2Proof.Machine.execMainStep s
  | .start => Sys2Proof.Machine.execStart s
  | .fmtProps d => Sys2Proof.Machine.execFmtProps d s
  | .fmtDictSize v => Sys2Proof.Machine.execFmtDictSize v s
  | .fmtSize v => Sys2Proof.Machine.execFmtSize v s
  | .fmtRcpre z c => Sys2Proof.Machine.execFmtRcpre z c s
  | .symLit => Sys2Proof.Machine.execSymLit s
  | .symMatch => Sys2Proof.Machine.execSymMatch s
  | .symEos => Sys2Proof.Machine.execSymEos s
  | .symShortrep => Sys2Proof.Machine.execSymShortrep s
  | .symRep0 => Sys2Proof.Machine.execSymRep0 s
  | .symRep1 => Sys2Proof.Machine.execSymRep1 s
  | .symRep2 => Sys2Proof.Machine.execSymRep2 s
  | .symRep3 => Sys2Proof.Machine.execSymRep3 s
  | .codeLengthLow inst ps => Sys2Proof.Machine.execCodeLengthLow inst ps s
  | .codeLengthMid inst ps => Sys2Proof.Machine.execCodeLengthMid inst ps s
  | .codeLengthHigh inst => Sys2Proof.Machine.execCodeLengthHigh inst s
  | .codeDistSlot0 => Sys2Proof.Machine.execCodeDistSlot0 s
  | .codeDistSlot1 => Sys2Proof.Machine.execCodeDistSlot1 s
  | .codeDistSlot2 => Sys2Proof.Machine.execCodeDistSlot2 s
  | .codeDistSlot3 => Sys2Proof.Machine.execCodeDistSlot3 s
  | .codeDistSlot4 => Sys2Proof.Machine.execCodeDistSlot4 s
  | .codeDistSlot5 => Sys2Proof.Machine.execCodeDistSlot5 s
  | .codeDistSlot6 => Sys2Proof.Machine.execCodeDistSlot6 s
  | .codeDistSlot7 => Sys2Proof.Machine.execCodeDistSlot7 s
  | .codeDistSlot8 => Sys2Proof.Machine.execCodeDistSlot8 s
  | .codeDistSlot9 => Sys2Proof.Machine.execCodeDistSlot9 s
  | .codeDistSlot10 => Sys2Proof.Machine.execCodeDistSlot10 s
  | .codeDistSlot11 => Sys2Proof.Machine.execCodeDistSlot11 s
  | .codeDistSlot12 => Sys2Proof.Machine.execCodeDistSlot12 s
  | .codeDistSlot13 => Sys2Proof.Machine.execCodeDistSlot13 s
  | .codeDistSlot14 => Sys2Proof.Machine.execCodeDistSlot14 s
  | .codeDistSlot15 => Sys2Proof.Machine.execCodeDistSlot15 s
  | .codeDistSlot16 => Sys2Proof.Machine.execCodeDistSlot16 s
  | .codeDistSlot17 => Sys2Proof.Machine.execCodeDistSlot17 s
  | .codeDistSlot18 => Sys2Proof.Machine.execCodeDistSlot18 s
  | .codeDistSlot19 => Sys2Proof.Machine.execCodeDistSlot19 s
  | .codeDistSlot20 => Sys2Proof.Machine.execCodeDistSlot20 s
  | .codeDistSlot21 => Sys2Proof.Machine.execCodeDistSlot21 s
  | .codeDistSlot22 => Sys2Proof.Machine.execCodeDistSlot22 s
  | .codeDistSlot23 => Sys2Proof.Machine.execCodeDistSlot23 s
  | .codeDistSlot24 => Sys2Proof.Machine.execCodeDistSlot24 s
  | .codeDistSlot25 => Sys2Proof.Machine.execCodeDistSlot25 s
  | .codeDistSlot26 => Sys2Proof.Machine.execCodeDistSlot26 s
  | .codeDistSlot27 => Sys2Proof.Machine.execCodeDistSlot27 s
  | .codeDistSlot28 => Sys2Proof.Machine.execCodeDistSlot28 s
  | .codeDistSlot29 => Sys2Proof.Machine.execCodeDistSlot29 s
  | .codeDistSlot30 => Sys2Proof.Machine.execCodeDistSlot30 s
  | .codeDistSlot31 => Sys2Proof.Machine.execCodeDistSlot31 s
  | .codeDistSlot32 => Sys2Proof.Machine.execCodeDistSlot32 s
  | .codeDistSlot33 => Sys2Proof.Machine.execCodeDistSlot33 s
  | .codeDistSlot34 => Sys2Proof.Machine.execCodeDistSlot34 s
  | .codeDistSlot35 => Sys2Proof.Machine.execCodeDistSlot35 s
  | .codeDistSlot36 => Sys2Proof.Machine.execCodeDistSlot36 s
  | .codeDistSlot37 => Sys2Proof.Machine.execCodeDistSlot37 s
  | .codeDistSlot38 => Sys2Proof.Machine.execCodeDistSlot38 s
  | .codeDistSlot39 => Sys2Proof.Machine.execCodeDistSlot39 s
  | .codeDistSlot40 => Sys2Proof.Machine.execCodeDistSlot40 s
  | .codeDistSlot41 => Sys2Proof.Machine.execCodeDistSlot41 s
  | .codeDistSlot42 => Sys2Proof.Machine.execCodeDistSlot42 s
  | .codeDistSlot43 => Sys2Proof.Machine.execCodeDistSlot43 s
  | .codeDistSlot44 => Sys2Proof.Machine.execCodeDistSlot44 s
  | .codeDistSlot45 => Sys2Proof.Machine.execCodeDistSlot45 s
  | .codeDistSlot46 => Sys2Proof.Machine.execCodeDistSlot46 s
  | .codeDistSlot47 => Sys2Proof.Machine.execCodeDistSlot47 s
  | .codeDistSlot48 => Sys2Proof.Machine.execCodeDistSlot48 s
  | .codeDistSlot49 => Sys2Proof.Machine.execCodeDistSlot49 s
  | .codeDistSlot50 => Sys2Proof.Machine.execCodeDistSlot50 s
  | .codeDistSlot51 => Sys2Proof.Machine.execCodeDistSlot51 s
  | .codeDistSlot52 => Sys2Proof.Machine.execCodeDistSlot52 s
  | .codeDistSlot53 => Sys2Proof.Machine.execCodeDistSlot53 s
  | .codeDistSlot54 => Sys2Proof.Machine.execCodeDistSlot54 s
  | .codeDistSlot55 => Sys2Proof.Machine.execCodeDistSlot55 s
  | .codeDistSlot56 => Sys2Proof.Machine.execCodeDistSlot56 s
  | .codeDistSlot57 => Sys2Proof.Machine.execCodeDistSlot57 s
  | .codeDistSlot58 => Sys2Proof.Machine.execCodeDistSlot58 s
  | .codeDistSlot59 => Sys2Proof.Machine.execCodeDistSlot59 s
  | .codeDistSlot60 => Sys2Proof.Machine.execCodeDistSlot60 s
  | .codeDistSlot61 => Sys2Proof.Machine.execCodeDistSlot61 s
  | .codeDistSlot62 => Sys2Proof.Machine.execCodeDistSlot62 s
  | .codeDistSlot63 => Sys2Proof.Machine.execCodeDistSlot63 s

end Sys2Proof.Machine
end

