-- ==== Sys2Proof/Machine/HostInterface.lean ====
section
/-! DEFINITION. What the host reads (R228) and the codes it reads it in (R89, R90). -/

namespace Sys2Proof.Machine

/-- R90: codes 5 to 7 are never produced. -/
def Status.code : Status → BitVec 3
  | .idle => 0
  | .running => 1
  | .finishedWithMarker => 2
  | .finishedWithoutMarker => 3
  | .error => 4

/-- R90, R241: codes 11 to 15 are never produced. -/
def Cause.code : Cause → BitVec 4
  | .none => 0
  | .malformedProperties => 1
  | .truncatedInput => 2
  | .budgetExhausted => 3
  | .badDistance => 4
  | .lengthOverrun => 5
  | .emptyWindowRep => 6
  | .badEndMarker => 7
  | .sizeMismatch => 8
  | .internal => 9
  | .dictTooLarge => 10

/-- R89: the state's number in 4 bits. -/
def stateCode (s : Fin 12) : BitVec 4 := BitVec.ofNat 4 s.val

/-- `holding` (R228): the core waits at an `InByte()`. -/
def holding (s : State) : Bool := s.held.isSome

/-- `done` (R228, R256): a level, 1 while `phase = P_DONE`. -/
def done (s : State) : Bool := decide (s.arch.phase = .done)

/-- "Not yet complete" (R38, R182): `RUNNING` observed while the core holds. -/
def notYetComplete (s : State) : Bool := decide (s.arch.status = .running) && holding s

/-- The host's read-only items (R228). The properties mean something once `phase` has left `P_HEADER` without error. -/
structure HostView where
  status : BitVec 3
  cause : BitVec 4
  corrupted : Bool
  totalPos : DWord
  inPos : DWord
  lc : Fin 9
  lp : Fin 5
  pb : Fin 5
  dictSize : Word
  sizeDefined : Bool
  declaredSize : DWord
  holding : Bool
  done : Bool
  deriving DecidableEq, Repr

/-- What the host reads (R228). -/
def hostView (s : State) : HostView where
  status := s.arch.status.code
  cause := s.arch.cause.code
  corrupted := s.arch.corrupted
  totalPos := s.arch.totalPos
  inPos := s.arch.inPos
  lc := s.arch.lc
  lp := s.arch.lp
  pb := s.arch.pb
  dictSize := s.arch.dictSize
  sizeDefined := s.arch.sizeDefined
  declaredSize := s.arch.declaredSize
  holding := holding s
  done := done s

end Sys2Proof.Machine
end

