-- ==== Sys2Proof/Machine/Sequencer.lean ====
section
/-! DEFINITION. The sequencer: what the core does next by itself (R39, R226), how an operation that holds goes on (R14, R182, R229),
and what the outside can do between two steps (R15, R67, R220, R228, R271). -/

namespace Sys2Proof.Machine

/-! ## The core's own step -/

/-- The operation the sequencer issues next (R39, R226): none while idle or done. Inside `P_RCINIT` the preamble comes
first, then `DEC.INIT` once all 18 leading bytes are consumed (DEDUCED, log entry 21). `P_SYMBOL` is inside an iteration, never between two. -/
def nextOperation (a : Arch) : Option Instr :=
  match a.phase with
  | .idle => none
  | .header => some .hdrParse
  | .rcInit => if a.inPos < 18#64 then some .rcInit else some .decInit
  | .loop => some .mainStep
  | .symbol => none
  | .done => none

/-- The architectural state in which an operation that holds is run again: the state it started from, with the bytes
that have arrived since behind those it had, and the source's end-of-input level as it is now. An operation is a
deterministic function of that state, so the run repeats what was done before the hold and goes on from there (R14 b;
DESIGN CHOICE, log entry 13). -/
def replayFrom (start now : Arch) : Arch := { start with inBytes := start.inBytes ++ now.inBytes, inEnd := now.inEnd }

/-- A held `InByte()` completes by itself when a byte arrives (R229): the operation goes on. -/
def resume (h : Held) (s : State) : Host.Outcome State Fault Refusal :=
  exec h.op { s with arch := replayFrom h.start s.arch, held := none }

/-- A step of the core alone: go on with the operation that holds, or issue the next one, or stay idle or done. -/
def coreStep (s : State) : Host.Outcome State Fault Refusal :=
  match s.held with
  | some h => resume h s
  | none =>
    match nextOperation s.arch with
    | some i => exec i s
    | none => if s.arch.phase = .symbol then .fault .noControlPoint else .next s

/-! ## The outside -/

/-- While an operation holds, the internal command bus is taken: only the host's `START` is accepted, in every phase (R220;
DESIGN CHOICE, log entries 10 and 22). -/
def accepts (s : State) (i : Instr) : Bool := s.held.isNone || decide (i = .start)

/-- A word on the command interface: refused when it is no instruction (R88), else executed. -/
def runWord (w : CmdWord) (s : State) : Host.Outcome State Fault Refusal :=
  match decode w with
  | .ok i => if accepts s i then exec i s else turnAway s
  | .error _ => turnAway s

/-- The source supplies a byte (R229). None follows once end of input has been signalled (R228; DEDUCED, log
entry 18). -/
def supplyByte (b : Byte) (a : Arch) : Arch := if a.inEnd then a else { a with inBytes := a.inBytes ++ [b] }

/-- The source signals end of input (R229). -/
def signalEnd (a : Arch) : Arch := { a with inEnd := true }

/-- A new source, positioned at the first byte of a stream, of which nothing has been supplied yet (R220, R273). -/
def attachSource (a : Arch) : Arch := { a with inBytes := [], inEnd := false }

/-- Reset asserted (R270, R271). The parameters, the source and the environment's supply of arbitrary bytes are not the
core's state (R43) and stay (DESIGN CHOICE, log entry 17). -/
def resetArch (a : Arch) : Arch :=
  { Arch.reset with params := a.params, inBytes := a.inBytes, inEnd := a.inEnd, fillReads := a.fillReads }

/-- The machine after reset; a decode in progress is abandoned (R271). -/
def resetState (s : State) : State := { s with arch := resetArch s.arch, held := none, response := .none }

/-- One thing from outside happens; `s` is the state with that event already taken from the queue. -/
def deliver (e : Event) (s : State) : Host.Outcome State Fault Refusal :=
  match e with
  | .cmd w => runWord w s
  | .byte b => .next { s with arch := supplyByte b s.arch }
  | .endOfInput => .next { s with arch := signalEnd s.arch }
  | .attach => .next { s with arch := attachSource s.arch }
  | .reset => .next (resetState s)
  | .pass => coreStep s

/-- One step: the next event, or, when nothing comes from outside, a step of the core alone. -/
def stepOnce (s : State) : Host.Outcome State Fault Refusal :=
  match s.events with
  | e :: es => deliver e { s with events := es }
  | [] => coreStep s

/-- A word placed so that the very next step runs it: at the head of the queue, with nothing in its way (DESIGN CHOICE, log
entry 1). -/
def placeWord (s : State) (w : CmdWord) : State := { s with held := none, events := .cmd w :: s.events }

end Sys2Proof.Machine
end

