-- ==== Sys2Proof/Safety.lean ====
section
/-! DEFINITION. What a safe state and a safe run are, in the terms the claims use: the invariants of the state, the ends of an operation,
what an instruction may write, the effect of a symbol, and the relations between two runs. -/

namespace Sys2Proof.Machine

/-! ## How an operation ends (R14) -/

/-- It completed, left `a` and answers `r`. -/
def completed (s : State) (a : Arch) (r : Response) : State := { s with arch := a, held := none, response := r }

/-- It raised `c` in `a`. -/
def failed (s : State) (c : Cause) (a : Arch) : State := completed s (takeError c a) .error

/-- It holds in `a` at an `InByte()`; it started in `s`. -/
def heldAt (i : Instr) (s : State) (a : Arch) : State :=
  { s with arch := a, held := some ⟨i, { s.arch with decisions := [] }⟩, response := .pending }

/-- An `InByte()` found no byte in `a` (R51): a hold, or `TruncatedInput` once end of input is signalled. -/
def starved (i : Instr) (s : State) (a : Arch) : State :=
  if a.inEnd then failed s .truncatedInput a else heldAt i s a

/-- A normalisation of `a` needs a byte that is not there (R101). -/
def needsByte (a : Arch) : Prop := a.range < 0x01000000#32 ∧ a.inBytes = []

/-- `a` after a normalisation whose byte, if it needs one, is there (R101). -/
def normalised (a : Arch) : Arch :=
  match a.inBytes with
  | b :: rest =>
    if a.range < 0x01000000#32 then
      { a with range := a.range <<< 8, code := (a.code <<< 8) ||| b.setWidth 32, inBytes := rest, inPos := a.inPos + 1#64 }
    else a
  | [] => a

/-! ## Invariants of every state (R26, R30, R31, R39, R42) -/

/-- Every cell with an entry is in 31 to 2017 (R26); the others hold 1024. -/
def ProbMem.inRange (m : ProbMem) : Bool := m.all fun e => decide (31 ≤ e.2.toNat ∧ e.2.toNat ≤ 2017)

/-- Every written cell is a cell of the window (R30). -/
def DictMem.below (n : Nat) (m : DictMem) : Bool := m.all fun e => decide (e.1 < n)

/-- The cursor is inside the window (R31), or there is no window yet. -/
def cursorOk (a : Arch) : Bool := decide (a.pos < a.size) || decide (a.size = 0#32)

/-- Both memories are in canonical form, every `PROB` cell is in its range, the written `DICT` cells and the cursor are
inside the window, and everything produced is with the sink (R42). -/
def Arch.ok (a : Arch) : Bool :=
  Memory.wf a && a.prob.inRange && DictMem.below a.size.toNat a.buf && cursorOk a && decide (a.flushedPos = a.totalPos)

/-- The state and the snapshot of an operation that holds are `ok`, and `phase` is `P_SYMBOL` only while one holds (R39). -/
def State.ok (s : State) : Bool :=
  s.arch.ok && (s.arch.phase != .symbol || s.held.isSome) &&
    (match s.held with
     | some h => h.start.ok && h.start.phase != .symbol
     | none => true)

/-! ## Invariants of a decode (R45, R140, R149) -/

/-- R45 at the top of the main loop, its clauses (a) to (g) as written. -/
def loopInv (a : Arch) : Prop :=
  0x01000000#32 ≤ a.range ∧
  (∀ k, 31 ≤ (probRead a.prob k).toNat ∧ (probRead a.prob k).toNat ≤ 2017) ∧
  (a.pos < a.size ∧ (a.isFull = false → a.pos.toNat = a.totalPos.toNat) ∧
    (a.isFull = true → a.size.toNat ≤ a.totalPos.toNat)) ∧
  a.state.val ≤ 11 ∧
  a.out.length = a.totalPos.toNat ∧
  (a.sizeDefined = true → a.leftToUnpack.toNat + a.totalPos.toNat = a.declaredSize.toNat) ∧
  18 ≤ a.inPos.toNat

/-- The window is the end of the output (R59, R140, R150): the cursor and the wrap flag follow the count of bytes produced,
cell `j mod size` holds byte `j` while `j` is among the last `size` bytes, and every other cell is unwritten. -/
def windowInv (a : Arch) : Prop :=
  a.size ≠ 0#32 ∧
  a.totalPos = BitVec.ofNat 64 a.out.length ∧
  a.pos.toNat = a.out.length % a.size.toNat ∧
  a.isFull = decide (a.size.toNat ≤ a.out.length) ∧
  (∀ j, j < a.out.length → a.out.length ≤ j + a.size.toNat → dictRead a.buf (j % a.size.toNat) = a.out[j]?) ∧
  (∀ k, a.out.length ≤ k → k < a.size.toNat → dictRead a.buf k = none)

/-- What the sequencer's next operation relies on (R149): in the main loop a window of `dictSize` cells and four lookbacks
inside it; before it, a size to create the window with. -/
def decodeOk (a : Arch) : Bool :=
  match a.phase with
  | .rcInit => decide (a.dictSize ≠ 0#32)
  | .loop =>
    decide (a.size = a.dictSize) && decide (a.pos < a.size) && decide (a.rep0 < a.size) && decide (a.rep1 < a.size) &&
      decide (a.rep2 < a.size) && decide (a.rep3 < a.size)
  | .symbol => false
  | _ => true

/-- A state of a machine that only its host drives (R228): what holds is what the sequencer issued. -/
def State.decodeOk (s : State) : Bool :=
  match s.held with
  | some h => Machine.decodeOk h.start && decide (nextOperation h.start = some h.op)
  | none => Machine.decodeOk s.arch

/-- The coming event is one the host, the source or the reset can cause (R228): no operation of the internal bus. -/
def hostDriven (s : State) : Prop :=
  ∀ w es, s.events = .cmd w :: es → ∀ i, decode w = .ok i → i = .start

/-! ## What an instruction may write -/

/-- The cells 1 to `2^n - 1` of the tree of `n` bits based at `T` (R120, R123). -/
def inTree (T n k : Nat) : Prop := T < k ∧ k < T + 2 ^ n

/-- The cells a length code can visit: the two choices of its instance, the low and mid trees of its posState, and the high
tree (R130, R131). -/
def lengthCells (inst : LenInst) (ps : BitVec 4) (k : Nat) : Prop :=
  k = choiceCell inst ∨ k = choice2Cell inst ∨ inTree (lowTree inst ps) 3 k ∨ inTree (midTree inst ps) 3 k ∨
    inTree (highTree inst) 8 k

/-- The cells below a slot of a distance code: none for slots 0 to 3, the slot's own tree for 4 to 13, the align tree from 14
on (R212, R214, R215). -/
def slotLowCells (slot k : Nat) : Prop :=
  4 ≤ slot ∧ if slot < Config.kEndPosModelIndex then inTree (specialTree slot) (slotDirectBits slot) k else inTree alignTree 4 k

/-- The cells a distance code under a length code can visit: the slot tree of that length, and the cells below a slot (R216). -/
def distCells (len k : Nat) : Prop := inTree (slotTree len) 6 k ∨ ∃ slot, slotLowCells slot k

/-- What a lookback can read as: the byte of a written cell, `DICT_FILL` for an unwritten one, and any byte where that is open
or there is no such cell (R143, R148). -/
def readsAs (a : Arch) (dist : Nat) (b : Byte) : Prop :=
  ∀ x, lookback a dist = some x →
    (∀ v, dictRead a.buf x = some v → b = v) ∧ (dictRead a.buf x = none → ∀ v, a.params.dictFill = some v → b = v)

/-- What the previous byte can be: 0 on an empty window, the byte at lookback 1 otherwise (R201). -/
def previousByte (a : Arch) (b : Byte) : Prop :=
  if a.pos = 0#32 ∧ a.isFull = false then b = 0#8 else readsAs a 1 b

/-- The cells a literal can visit: those of its context's table (R200, R202, R203). -/
def literalCells (a : Arch) (k : Nat) : Prop :=
  ∃ b, previousByte a b ∧ litTable (litState a b) < k ∧ k < litTable (litState a b) + 0x300

/-- The cells an iteration of the main loop can visit: those of its selecting decisions, all indexed by the state register
and the posState of its start (R76, R167), and those of the symbol. -/
def iterationCells (a : Arch) (k : Nat) : Prop :=
  k = cell .isMatch (statePos a.state (posState a)) ∨ k = cell .isRep a.state.val ∨ k = cell .isRepG0 a.state.val ∨
    k = cell .isRepG1 a.state.val ∨ k = cell .isRepG2 a.state.val ∨ k = cell .isRep0Long (statePos a.state (posState a)) ∨
    literalCells a k ∨ lengthCells .len (posState a) k ∨ lengthCells .rep (posState a) k ∨ ∃ len, distCells len k

/-- The `PROB` cells an instruction may write when it starts in `a` (R54, R124, R132). -/
def mayAdapt (i : Instr) (a : Arch) (k : Nat) : Prop :=
  match i with
  | .rcBit c => k = cellOf c
  | .btFwd t n => inTree (cellOf t) n.toNat k
  | .btRev t n => inTree (cellOf t) n.toNat k
  | .lenDec inst ps => lengthCells inst ps k
  | .codeLengthLow inst ps => inTree (lowTree inst ps) 3 k
  | .codeLengthMid inst ps => inTree (midTree inst ps) 3 k
  | .codeLengthHigh inst => inTree (highTree inst) 8 k
  | .distDec len => distCells len.toNat k
  | .litDec => literalCells a k
  | .symLit => literalCells a k
  | .symMatch => lengthCells .len (posState a) k ∨ ∃ len, distCells len k
  | .symRep0 => lengthCells .rep (posState a) k
  | .symRep1 => lengthCells .rep (posState a) k
  | .symRep2 => lengthCells .rep (posState a) k
  | .symRep3 => lengthCells .rep (posState a) k
  | .mainStep => iterationCells a k
  | .decInit => True
  | i => ∃ slot, rowSlot i = some slot ∧ slotLowCells slot k

/-- The operations that only decode: the range decoder, the trees, the length and distance codes. They touch no register
but the range decoder's, no memory but `PROB`, and the input. -/
def decodesOnly (i : Instr) : Bool :=
  match i with
  | .rcInit | .rcNorm | .rcBit _ | .rcDirect _ | .rcFinok | .btFwd _ _ | .btRev _ _ | .lenDec _ _ | .distDec _
  | .codeLengthLow _ _ | .codeLengthMid _ _ | .codeLengthHigh _ | .fmtRcpre _ _ => true
  | i => (rowSlot i).isSome

/-- The operations that can set or clear `corrupted` (R23). -/
def touchesCorrupted (i : Instr) : Bool :=
  match i with
  | .rcInit | .rcDirect _ | .distDec _ | .fmtRcpre _ _ => true
  | i => (rowSlot i).isSome

/-- The operations that begin a new window or a new output; every other one only appends. -/
def beginsAnew (i : Instr) : Bool :=
  match i with
  | .start | .dwCreate _ | .decInit => true
  | _ => false

/-! ## Selecting a symbol (R76, R167) -/

/-- The decisions that select a symbol's row in state `st` under `posState = ps`, with their cells, in decode order (R76). -/
def selectors (st : Fin 12) (ps : BitVec 4) (i : Instr) : List (ProbAddr × Bool) :=
  let isMatch : ProbAddr := ⟨.isMatch, BitVec.ofNat 24 (st.val * 16 + ps.toNat)⟩
  let isRep : ProbAddr := ⟨.isRep, BitVec.ofNat 24 st.val⟩
  let isRepG0 : ProbAddr := ⟨.isRepG0, BitVec.ofNat 24 st.val⟩
  let isRepG1 : ProbAddr := ⟨.isRepG1, BitVec.ofNat 24 st.val⟩
  let isRepG2 : ProbAddr := ⟨.isRepG2, BitVec.ofNat 24 st.val⟩
  let isRep0Long : ProbAddr := ⟨.isRep0Long, BitVec.ofNat 24 (st.val * 16 + ps.toNat)⟩
  match i with
  | .symLit => [(isMatch, false)]
  | .symMatch => [(isMatch, true), (isRep, false)]
  | .symShortrep => [(isMatch, true), (isRep, true), (isRepG0, false), (isRep0Long, false)]
  | .symRep0 => [(isMatch, true), (isRep, true), (isRepG0, false), (isRep0Long, true)]
  | .symRep1 => [(isMatch, true), (isRep, true), (isRepG0, true), (isRepG1, false)]
  | .symRep2 => [(isMatch, true), (isRep, true), (isRepG0, true), (isRepG1, true), (isRepG2, false)]
  | .symRep3 => [(isMatch, true), (isRep, true), (isRepG0, true), (isRepG1, true), (isRepG2, true)]
  | _ => []

/-- From `s`, one RC.BIT after another on the listed cells completes with the listed values and leaves `t`. -/
def decides : List (ProbAddr × Bool) → State → State → Prop
  | [], s, t => t = s
  | (a, b) :: rest, s, t => ∃ u, exec (.rcBit a) s = .next u ∧ u.response = .bit b ∧ decides rest u t

/-- A symbol of the repeat family (R172). -/
def inRepeatFamily (i : Instr) : Bool :=
  match i with
  | .symShortrep | .symRep0 | .symRep1 | .symRep2 | .symRep3 => true
  | _ => false

/-! ## The effect of a symbol -/

/-- A symbol that copies `n` bytes from lookback `dist`, seen on the output alone (R62, R144, R150): `n` bytes are appended,
and each one that has a byte `dist` places before it, in the output and in the window, equals that byte. -/
def copies (a b : Arch) (dist n : Nat) : Prop :=
  a.out <+: b.out ∧ b.out.length = a.out.length + n ∧
    ∀ j, a.out.length ≤ j → j < b.out.length → dist ≤ j → dist ≤ a.size.toNat → b.out[j]? = b.out[j - dist]?

/-- A symbol that produces `n` bytes takes them off the budget, when there is one, and there are that many left (R178, R181). -/
def spends (a b : Arch) (n : Nat) : Prop :=
  b.leftToUnpack = (if a.sizeDefined then a.leftToUnpack - BitVec.ofNat 64 n else a.leftToUnpack) ∧
    (a.sizeDefined = true → n ≤ a.leftToUnpack.toNat)

/-- What a completed iteration does, told by its symbol (R161 to R164, R169 to R179, R181): the state register, the reps,
the bytes appended, the budget, and where the sequencer stands. The marker is a new match of distance all ones that produces
nothing and finds a declared budget used up (R171, R179). -/
def symbolEffect (sym : Symbol) (a b : Arch) : Prop :=
  match sym with
  | .lit v =>
    b.state = stateAfterLit a.state ∧ (b.rep0 = a.rep0 ∧ b.rep1 = a.rep1 ∧ b.rep2 = a.rep2 ∧ b.rep3 = a.rep3) ∧
      b.out = a.out ++ [v] ∧ spends a b 1 ∧ b.phase = .loop ∧ b.status = a.status
  | .newMatch len d =>
    b.state = stateAfterMatch a.state ∧ (b.rep0 = d ∧ b.rep1 = a.rep0 ∧ b.rep2 = a.rep1 ∧ b.rep3 = a.rep2) ∧
      (d < a.dictSize ∧ (d ≤ a.pos ∨ a.isFull = true)) ∧ copies a b (d.toNat + 1) (len.val + 2) ∧
      spends a b (len.val + 2) ∧ b.phase = .loop ∧ b.status = a.status
  | .eos _ =>
    b.state = stateAfterMatch a.state ∧
      (b.rep0 = 0xFFFFFFFF#32 ∧ b.rep1 = a.rep0 ∧ b.rep2 = a.rep1 ∧ b.rep3 = a.rep2) ∧ b.code = 0#32 ∧ b.out = a.out ∧
      (a.sizeDefined = true → a.leftToUnpack = 0#64) ∧ b.leftToUnpack = a.leftToUnpack ∧ b.phase = .done ∧
      b.status = .finishedWithMarker
  | .shortrep =>
    b.state = stateAfterShortrep a.state ∧ (b.rep0 = a.rep0 ∧ b.rep1 = a.rep1 ∧ b.rep2 = a.rep2 ∧ b.rep3 = a.rep3) ∧
      copies a b (a.rep0.toNat + 1) 1 ∧ spends a b 1 ∧ b.phase = .loop ∧ b.status = a.status
  | .rep0 len =>
    b.state = stateAfterRep a.state ∧ (b.rep0 = a.rep0 ∧ b.rep1 = a.rep1 ∧ b.rep2 = a.rep2 ∧ b.rep3 = a.rep3) ∧
      copies a b (a.rep0.toNat + 1) (len.val + 2) ∧ spends a b (len.val + 2) ∧ b.phase = .loop ∧ b.status = a.status
  | .rep1 len =>
    b.state = stateAfterRep a.state ∧ (b.rep0 = a.rep1 ∧ b.rep1 = a.rep0 ∧ b.rep2 = a.rep2 ∧ b.rep3 = a.rep3) ∧
      copies a b (a.rep1.toNat + 1) (len.val + 2) ∧ spends a b (len.val + 2) ∧ b.phase = .loop ∧ b.status = a.status
  | .rep2 len =>
    b.state = stateAfterRep a.state ∧ (b.rep0 = a.rep2 ∧ b.rep1 = a.rep0 ∧ b.rep2 = a.rep1 ∧ b.rep3 = a.rep3) ∧
      copies a b (a.rep2.toNat + 1) (len.val + 2) ∧ spends a b (len.val + 2) ∧ b.phase = .loop ∧ b.status = a.status
  | .rep3 len =>
    b.state = stateAfterRep a.state ∧ (b.rep0 = a.rep3 ∧ b.rep1 = a.rep0 ∧ b.rep2 = a.rep1 ∧ b.rep3 = a.rep2) ∧
      copies a b (a.rep3.toNat + 1) (len.val + 2) ∧ spends a b (len.val + 2) ∧ b.phase = .loop ∧ b.status = a.status

/-- The index, inside a literal context's 768 cells, of the cell of decision `j` of the byte `b` (R202, R203): in matched
mode while every earlier bit equals the match byte's, plain otherwise. -/
def literalIndex (matched : Bool) (mb b : Byte) (j : Nat) : Nat :=
  let node := (0x100 + b.toNat) / 2 ^ (8 - j)
  if matched ∧ mb.toNat / 2 ^ (8 - j) = b.toNat / 2 ^ (8 - j) then
    (1 + mb.toNat / 2 ^ (7 - j) % 2) * 0x100 + node
  else node

/-! ## Two runs compared -/

/-- The state without the advisory flag. -/
def Arch.dropCorrupted (a : Arch) : Arch := { a with corrupted := false }

def State.dropCorrupted (s : State) : State :=
  { s with arch := s.arch.dropCorrupted, held := s.held.map fun h => ⟨h.op, h.start.dropCorrupted⟩ }

/-- The state without the budget register where it has no meaning (R36). -/
def Arch.dropBudget (a : Arch) : Arch := if a.sizeDefined then a else { a with leftToUnpack := 0#64 }

def State.dropBudget (s : State) : State :=
  { s with arch := s.arch.dropBudget, held := s.held.map fun h => ⟨h.op, h.start.dropBudget⟩ }

/-- Two outcomes are the same once `f` has forgotten a part of the states. -/
def sameUpTo (f : State → State) : Host.Outcome State Fault Refusal → Host.Outcome State Fault Refusal → Prop
  | .next s, .next t => f s = f t
  | .fault r, .fault q => r = q
  | .refused r, .refused q => r = q
  | _, _ => False

end Sys2Proof.Machine
end

