-- ==== Sys2Proof/Certificates/Slice0/Obligations.lean ====
section
/-! DEFINITION. The statements for the provers. -/

open Sys2Proof Sys2Proof.Machine

/-! ## The step and the words -/

/-- R14, R88, R228: a word on the command interface that decodes runs as its instruction, on the state with that event
taken; while an operation holds only START does; a word that decodes to nothing changes no register. Without an event the
core runs the operation that `phase` issues next (R226). THE MODEL'S CHOICES in it: that every word that decodes to nothing
is refused, not only the reserved codes of R88 (log entry 9, DEDUCED), the queue of events (10), commands in any phase (22),
the test `inPos < 18` inside `P_RCINIT` (21). -/
def Obligations.StepRunsDecodedInstruction : Prop :=
  (∀ (s : State) (w : CmdWord) (es : List Event) (i : Instr), s.events = .cmd w :: es → decode w = .ok i →
    (s.held = none ∨ i = .start) → step s = exec i { s with events := es }) ∧
  (∀ (s : State) (w : CmdWord) (es : List Event), s.events = .cmd w :: es →
    ((∃ e, decode w = .error e) ∨ (s.held ≠ none ∧ decode w ≠ .ok .start)) →
    step s = .next { s with events := es, response := .refused }) ∧
  (∀ s : State, s.held = none → s.events = [] →
    (s.arch.phase = .header → step s = exec .hdrParse s) ∧
    (s.arch.phase = .rcInit → s.arch.inPos < 18#64 → step s = exec .rcInit s) ∧
    (s.arch.phase = .rcInit → ¬ s.arch.inPos < 18#64 → step s = exec .decInit s) ∧
    (s.arch.phase = .loop → step s = exec .mainStep s) ∧
    (s.arch.phase = .idle → step s = .next s) ∧
    (s.arch.phase = .done → step s = .next s))

/-- Words written out from the encoding tables (R71 to R74, R76, R78, R79, R88), one or more for each format. How the operand
bytes of an operation follow its code is the model's choice (log entry 8), as is giving a row's operands beside its
decisions (log entry 11). -/
def Obligations.SpecWordsDecode : Prop :=
  decode (.uop [0x00]) = .ok .rcInit ∧
  decode (.uop [0x02, 0x00, 0x25, 0x00, 0x00]) = .ok (.rcBit ⟨.isMatch, 0x25#24⟩) ∧
  decode (.uop [0x0B, 0x04, 0x00, 0x00, 0x00, 0x11, 0x01, 0x00, 0x00]) = .ok (.dwCopy 4#32 273#32) ∧
  decode (.uop [0x18]) = .ok .start ∧
  decode (.stream [0x5D]) = .ok (.fmtProps 0x5D#8) ∧
  decode (.stream [0x00, 0x00, 0x80, 0x00]) = .ok (.fmtDictSize 0x00800000#32) ∧
  decode (.stream [0x05, 0, 0, 0, 0, 0, 0, 0]) = .ok (.fmtSize 5#64) ∧
  decode (.stream [0x00, 0x30, 0xC1, 0xFB, 0xFF]) = .ok (.fmtRcpre 0#8 0x30C1FBFF#32) ∧
  decode (.symbol [false]) = .ok .symLit ∧
  decode (.symbol [true, true, true, true, false]) = .ok .symRep2 ∧
  decode (.lengthCode .rep 5#4 [true, false]) = .ok (.codeLengthMid .rep 5#4) ∧
  decode (.distCode [true, true, true, true, true, true]) = .ok .codeDistSlot63

/-- R88: the codes 0x19 to 0x1F are reserved: refused, no operation, no state change, whatever bytes follow. -/
def Obligations.ReservedCodesAreRefused : Prop :=
  ∀ (s : State) (c : Byte) (operands : List Byte) (es : List Event), 0x19 ≤ c.toNat → c.toNat ≤ 0x1F →
    s.events = .cmd (.uop (c :: operands)) :: es →
    step s = .next { s with events := es, response := .refused }

/-- R103, R149, D29: an operand outside its domain is refused, with no state change and no result; inside it, none of these
operations is refused. That an operand naming no cell or no tree, a length code above 271 and DEC.INIT before any header are
treated the same way is the model's inference (log entry 9, DEDUCED). -/
def Obligations.OperandDomainsAreGuarded : Prop :=
  ∀ s : State,
    (∀ dist : Word, ¬ (1 ≤ dist.toNat ∧ dist.toNat ≤ s.arch.size.toNat) →
      exec (.dwGet dist) s = .next { s with response := .refused } ∧
      ∀ len, exec (.dwCopy dist len) s = .next { s with response := .refused }) ∧
    exec (.dwCreate 0#32) s = .next { s with response := .refused } ∧
    (∀ n : Byte, (n = 0#8 ∨ 26 < n.toNat) → exec (.rcDirect n) s = .next { s with response := .refused }) ∧
    (∀ i t, exec i s = .next t → t.response = .refused →
      (∃ dist, (i = .dwGet dist ∨ ∃ len, i = .dwCopy dist len) ∧ ¬ (1 ≤ dist.toNat ∧ dist.toNat ≤ s.arch.size.toNat)) ∨
      (i = .decInit ∧ s.arch.dictSize = 0#32) ∨ i.wf = false)

/-- R270, R271: the registers after power-on reset, and after a reset asserted in any state, whatever was in progress. That a
reset leaves the source and the parameters is the model's choice (log entry 17). -/
def Obligations.ResetSetsRegisters : Prop :=
  (∀ a : Arch, (a = State.reset.arch ∨ ∃ (s t : State) (es : List Event), s.events = .reset :: es ∧ step s = .next t ∧
      a = t.arch) →
    a.phase = .idle ∧ a.status = .idle ∧ a.cause = .none ∧ a.inPos = 0#64 ∧ a.out = [] ∧ a.corrupted = false ∧
    a.range = 0#32 ∧ a.code = 0#32 ∧ a.state = 0 ∧ (a.rep0 = 0#32 ∧ a.rep1 = 0#32 ∧ a.rep2 = 0#32 ∧ a.rep3 = 0#32) ∧
    a.pos = 0#32 ∧ a.isFull = false ∧ a.totalPos = 0#64 ∧ a.size = 0#32 ∧
    (a.lc = 0 ∧ a.lp = 0 ∧ a.pb = 0 ∧ a.dictSizeInProperties = 0#32 ∧ a.dictSize = 0#32) ∧
    (a.sizeDefined = false ∧ a.leftToUnpack = 0#64 ∧ a.declaredSize = 0#64)) ∧
  (∀ (s : State) (es : List Event), s.events = .reset :: es →
    ∃ t, step s = .next t ∧ t.held = none ∧ t.events = es ∧ t.arch.params = s.arch.params ∧
      t.arch.inBytes = s.arch.inBytes ∧ t.arch.inEnd = s.arch.inEnd)

/-! ## The range decoder -/

/-- R100: the five bytes of the preamble, the flag after them, and where fewer than five leave the decoder. -/
def Obligations.RcInitReadsPreamble : Prop :=
  ∀ s : State,
    (∀ b0 b1 b2 b3 b4 rest, s.arch.inBytes = b0 :: b1 :: b2 :: b3 :: b4 :: rest →
      exec .rcInit s = .next (completed s { s.arch with
        decisions := [], range := 0xFFFFFFFF#32, code := b1 ++ b2 ++ b3 ++ b4,
        corrupted := decide (b0 ≠ 0#8 ∨ b1 ++ b2 ++ b3 ++ b4 = 0xFFFFFFFF#32),
        inBytes := rest, inPos := s.arch.inPos + 5#64 } .done)) ∧
    (s.arch.inBytes.length < 5 →
      exec .rcInit s = .next (starved .rcInit s { s.arch with
        decisions := [], range := 0xFFFFFFFF#32, corrupted := false,
        code := (s.arch.inBytes.drop 1).foldl (fun c b => (c <<< 8) ||| b.setWidth 32) 0#32,
        inBytes := [], inPos := s.arch.inPos + BitVec.ofNat 64 s.arch.inBytes.length }))

/-- R101: one test, at most one byte, which is read before anything is shifted. -/
def Obligations.RcNormShiftsOneByte : Prop :=
  ∀ s : State,
    (¬ s.arch.range < 0x01000000#32 → exec .rcNorm s = .next (completed s { s.arch with decisions := [] } .done)) ∧
    (s.arch.range < 0x01000000#32 → ∀ b rest, s.arch.inBytes = b :: rest →
      exec .rcNorm s = .next (completed s { s.arch with
        decisions := [], range := s.arch.range <<< 8, code := (s.arch.code <<< 8) ||| b.setWidth 32,
        inBytes := rest, inPos := s.arch.inPos + 1#64 } .done)) ∧
    (s.arch.range < 0x01000000#32 → s.arch.inBytes = [] →
      exec .rcNorm s = .next (starved .rcNorm s { s.arch with decisions := [] }))

/-- R102: the bound, the strict compare, the cell's move, the new interval; then RC.NORM, which may hold or find the input
at its end. -/
def Obligations.RcBitDecodesAndAdapts : Prop :=
  ∀ (a : ProbAddr) (s : State) (p : Nat) (bound : Word) (bit : Bool) (m : Arch), a.wf = true →
    p = (probRead s.arch.prob (cellOf a)).toNat →
    bound = (s.arch.range >>> 11) * BitVec.ofNat 32 p →
    bit = !decide (s.arch.code < bound) →
    m = { s.arch with
      decisions := [bit],
      prob := probWrite s.arch.prob (cellOf a) (BitVec.ofNat 11 (if bit then p - p / 32 else p + (2048 - p) / 32)),
      range := if bit then s.arch.range - bound else bound,
      code := if bit then s.arch.code - bound else s.arch.code } →
    (¬ needsByte m → exec (.rcBit a) s = .next (completed s (normalised m) (.bit bit))) ∧
    (needsByte m → exec (.rcBit a) s = .next (starved (.rcBit a) s m))

/-- R103: one round by the sign bit of the wrapped difference; n rounds one after another, the first most significant. -/
def Obligations.RcDirectRounds : Prop :=
  (∀ (s : State) (half diff t code : Word) (m : Arch),
    half = s.arch.range >>> 1 → diff = s.arch.code - half → t = (if diff.msb then 0xFFFFFFFF#32 else 0#32) →
    code = diff + (half &&& t) →
    m = { s.arch with
      decisions := [!diff.msb], range := half, code := code,
      corrupted := s.arch.corrupted || decide (code = half) } →
    (¬ needsByte m → exec (.rcDirect 1#8) s = .next (completed s (normalised m) (.value (t + 1#32)))) ∧
    (needsByte m → exec (.rcDirect 1#8) s = .next (starved (.rcDirect 1#8) s m))) ∧
  (∀ (n : Byte) (s t u : State) (r v : Word), 1 ≤ n.toNat → n.toNat < 26 →
    exec (.rcDirect 1#8) s = .next t → t.response = .value r →
    exec (.rcDirect n) t = .next u → u.response = .value v →
    exec (.rcDirect (n + 1#8)) s = .next { u with
      arch := { u.arch with decisions := t.arch.decisions ++ u.arch.decisions },
      response := .value ((r <<< n.toNat) + v) })

/-- R106: `corrupted = 0` implies `code < range`; RC.INIT establishes it when it completes, and every instruction keeps it,
however it ends. (Derived in the spec.) -/
def Obligations.CodeStaysBelowRange : Prop :=
  (∀ s t : State, exec .rcInit s = .next t → (t.arch.corrupted = false → t.arch.code < t.arch.range)) ∧
  (∀ (i : Instr) (s t : State), (s.arch.corrupted = false → s.arch.code < s.arch.range) → exec i s = .next t →
    (t.arch.corrupted = false → t.arch.code < t.arch.range))

/-- R105: with every cell in 31 to 2017, an instruction that completes leaves `range` at 2^24 or above if it was. (Derived in
the spec; the cells' range is an invariant, StepKeepsStateOk.) -/
def Obligations.RangeStaysNormalised : Prop :=
  ∀ (i : Instr) (s t : State), s.arch.prob.inRange = true → 0x01000000#32 ≤ s.arch.range → exec i s = .next t →
    t.held = none → t.response ≠ .error → 0x01000000#32 ≤ t.arch.range

/-! ## Trees and codes -/

/-- R120, R121: a forward tree of n bits, with n bytes at hand: the value's bits are the decisions, first one most
significant; each visited node is the leading 1 followed by the decisions so far and moves by its decision (R102); no other
cell changes. -/
def Obligations.BtFwdWalksTree : Prop :=
  ∀ (T : ProbAddr) (n : Byte) (s : State), T.treeWf n = true → n.toNat ≤ s.arch.inBytes.length →
    Memory.wf s.arch = true →
    ∃ (t : State) (v : Nat), exec (.btFwd T n) s = .next t ∧ t.held = none ∧ t.response = .value (BitVec.ofNat 32 v) ∧
      v < 2 ^ n.toNat ∧ t.arch.decisions = bitsMSB n.toNat v ∧
      (∀ j, j < n.toNat → probRead t.arch.prob (cellOf T + (2 ^ j + v / 2 ^ (n.toNat - j))) =
        (let p := (probRead s.arch.prob (cellOf T + (2 ^ j + v / 2 ^ (n.toNat - j)))).toNat
         BitVec.ofNat 11 (if v.testBit (n.toNat - 1 - j) then p - p / 32 else p + (2048 - p) / 32))) ∧
      (∀ k, (∀ j, j < n.toNat → k ≠ cellOf T + (2 ^ j + v / 2 ^ (n.toNat - j))) →
        probRead t.arch.prob k = probRead s.arch.prob k)

/-- R122: the reverse decode visits the cells the forward decode visits, in the same state of everything, and its value is
the n-bit reversal. -/
def Obligations.BtRevReversesBtFwd : Prop :=
  ∀ (T : ProbAddr) (n : Byte) (s : State), T.treeWf n = true → n.toNat ≤ s.arch.inBytes.length →
    ∃ (t : State) (v : Nat), exec (.btFwd T n) s = .next t ∧ t.response = .value (BitVec.ofNat 32 v) ∧
      v < 2 ^ n.toNat ∧
      exec (.btRev T n) s = .next { t with response := .value (BitVec.ofNat 32 (ofBitsLSB (bitsMSB n.toNat v))) }

/-- R78, R130, R131: with its input at hand, each of the three rows is its tree with its offset, and LEN.DEC is the choice
decisions and then the row they select; its value is 0 to 271 and its decisions are that value's code. R131's operand is a
posState below 2^pb: that every posState 0 to 15 is accepted is the model's inference (log entry 16, DEDUCED), and what a row
does by itself is its choice (log entry 11). -/
def Obligations.LengthCodeSelectsRow : Prop :=
  ∀ (inst : LenInst) (ps : BitVec 4) (s : State),
    let low : ProbAddr := ⟨match inst with | .len => .lenLow | .rep => .repLow, BitVec.ofNat 24 (8 * ps.toNat)⟩
    let mid : ProbAddr := ⟨match inst with | .len => .lenMid | .rep => .repMid, BitVec.ofNat 24 (8 * ps.toNat)⟩
    let high : ProbAddr := ⟨match inst with | .len => .lenHigh | .rep => .repHigh, 0#24⟩
    let choice : ProbAddr := ⟨match inst with | .len => .lenChoice | .rep => .repChoice, 0#24⟩
    let choice2 : ProbAddr := ⟨match inst with | .len => .lenChoice2 | .rep => .repChoice2, 0#24⟩
    (3 ≤ s.arch.inBytes.length → ∃ (t : State) (v : Nat), v < 8 ∧ exec (.btFwd low 3#8) s = .next t ∧
      t.response = .value (BitVec.ofNat 32 v) ∧ exec (.codeLengthLow inst ps) s = .next t) ∧
    (3 ≤ s.arch.inBytes.length → ∃ (t : State) (v : Nat), v < 8 ∧ exec (.btFwd mid 3#8) s = .next t ∧
      t.response = .value (BitVec.ofNat 32 v) ∧
      exec (.codeLengthMid inst ps) s = .next { t with response := .value (BitVec.ofNat 32 (8 + v)) }) ∧
    (8 ≤ s.arch.inBytes.length → ∃ (t : State) (v : Nat), v < 256 ∧ exec (.btFwd high 8#8) s = .next t ∧
      t.response = .value (BitVec.ofNat 32 v) ∧
      exec (.codeLengthHigh inst) s = .next { t with response := .value (BitVec.ofNat 32 (16 + v)) }) ∧
    (10 ≤ s.arch.inBytes.length → ∃ (t : State) (len : Nat), exec (.lenDec inst ps) s = .next t ∧ t.held = none ∧
      len ≤ 271 ∧ t.response = .value (BitVec.ofNat 32 len) ∧ t.arch.decisions = encodeLength len) ∧
    (∀ t u : State, exec (.rcBit choice) s = .next t → t.response = .bit false →
      exec (.codeLengthLow inst ps) t = .next u → u.held = none → u.response ≠ .error →
      exec (.lenDec inst ps) s = .next { u with arch := { u.arch with decisions := false :: u.arch.decisions } }) ∧
    (∀ t t' u : State, exec (.rcBit choice) s = .next t → t.response = .bit true →
      exec (.rcBit choice2) t = .next t' → t'.response = .bit false →
      exec (.codeLengthMid inst ps) t' = .next u → u.held = none → u.response ≠ .error →
      exec (.lenDec inst ps) s =
        .next { u with arch := { u.arch with decisions := true :: false :: u.arch.decisions } }) ∧
    (∀ t t' u : State, exec (.rcBit choice) s = .next t → t.response = .bit true →
      exec (.rcBit choice2) t = .next t' → t'.response = .bit true →
      exec (.codeLengthHigh inst) t' = .next u → u.held = none → u.response ≠ .error →
      exec (.lenDec inst ps) s =
        .next { u with arch := { u.arch with decisions := true :: true :: u.arch.decisions } })

/-- R79, R212 to R215: the row of each slot, with 30 bytes at hand: the slot itself below 4; base plus a reverse tree of
`P.posSpecial` below 14; base plus direct bits and the align tree from 14 on. -/
def Obligations.SlotRowsDecodeLowBits : Prop :=
  ∀ (slot : Nat) (s : State) (n base : Nat), slot < 64 → 30 ≤ s.arch.inBytes.length →
    n = slot / 2 - 1 → base = (2 + slot % 2) * 2 ^ n →
    (slot < 4 → exec (slotRow slot) s =
      .next (completed s { s.arch with decisions := [] } (.value (BitVec.ofNat 32 slot)))) ∧
    (4 ≤ slot → slot < 14 → ∃ (t : State) (v : Nat), v < 2 ^ n ∧
      exec (.btRev ⟨.posSpecial, BitVec.ofNat 24 (base - slot)⟩ (BitVec.ofNat 8 n)) s = .next t ∧
      t.response = .value (BitVec.ofNat 32 v) ∧
      exec (slotRow slot) s = .next { t with response := .value (BitVec.ofNat 32 (base + v)) }) ∧
    (14 ≤ slot → ∃ (t u : State) (hi lo : Nat), hi < 2 ^ (n - 4) ∧ lo < 16 ∧
      exec (.rcDirect (BitVec.ofNat 8 (n - 4))) s = .next t ∧ t.response = .value (BitVec.ofNat 32 hi) ∧
      exec (.btRev ⟨.align, 0#24⟩ 4#8) t = .next u ∧ u.response = .value (BitVec.ofNat 32 lo) ∧
      base + hi * 16 + lo < 2 ^ 32 ∧
      exec (slotRow slot) s = .next { u with
        arch := { u.arch with decisions := t.arch.decisions ++ u.arch.decisions },
        response := .value (BitVec.ofNat 32 (base + hi * 16 + lo)) })

/-- R210, R211, R216: DIST.DEC, with 36 bytes at hand: the slot by the tree of `min(len, 3)`, then that slot's row; its
decisions are the code of its value. -/
def Obligations.DistDecIsSlotThenRow : Prop :=
  ∀ (len : BitVec 16) (s : State), len.toNat ≤ 271 → 36 ≤ s.arch.inBytes.length →
    ∃ (t u : State) (slot : Nat) (d : Word), slot < 64 ∧
      exec (.btFwd ⟨.posSlot, BitVec.ofNat 24 (64 * min len.toNat 3)⟩ 6#8) s = .next t ∧
      t.response = .value (BitVec.ofNat 32 slot) ∧
      exec (slotRow slot) t = .next u ∧ u.held = none ∧ u.response = .value d ∧
      exec (.distDec len) s = .next { u with
        arch := { u.arch with decisions := t.arch.decisions ++ u.arch.decisions } } ∧
      t.arch.decisions ++ u.arch.decisions = encodeDistance d.toNat

/-! ## Frames -/

/-- R54, R124, R132: however an instruction ends, it leaves every `PROB` cell but those its rule can visit from the state it
starts in: its cell, its tree, the two choices and the three trees of one instance and one posState, the slot tree of one
length and the trees below the slots, the table of one literal context, and in an iteration those beside the cells of the
selecting decisions at one state and one posState. Only DEC.INIT writes them all (R225). What a row does by itself is the
model's choice (log entry 11). -/
def Obligations.ProbFrame : Prop :=
  ∀ (i : Instr) (s t : State) (k : Nat), Memory.wf s.arch = true → exec i s = .next t → ¬ mayAdapt i s.arch k →
    probRead t.arch.prob k = probRead s.arch.prob k

/-- The operations that only decode (R23, R102, R103, R121, R131, R216): the range decoder's registers, the probability
file and the input move; on a hard error also what taking it writes; `corrupted` only where R23 allows; nothing else. -/
def Obligations.DecodeFrame : Prop :=
  ∀ (i : Instr) (s t : State), decodesOnly i = true → exec i s = .next t →
    t.arch = { s.arch with
      range := t.arch.range, code := t.arch.code, corrupted := t.arch.corrupted, prob := t.arch.prob,
      inPos := t.arch.inPos, inBytes := t.arch.inBytes, decisions := t.arch.decisions,
      flushedPos := t.arch.flushedPos, status := t.arch.status, cause := t.arch.cause, phase := t.arch.phase } ∧
    (t.response ≠ .error → t.arch.flushedPos = s.arch.flushedPos ∧ t.arch.status = s.arch.status ∧
      t.arch.cause = s.arch.cause ∧ t.arch.phase = s.arch.phase) ∧
    (touchesCorrupted i = false → t.arch.corrupted = s.arch.corrupted) ∧
    t.events = s.events

/-- R30, R41, R53: every instruction but START, DW.CREATE and DEC.INIT only appends to the output, stores one `DICT` cell
for each byte it appends, at the cursor and on from it around the window, and leaves every other cell. (The premise is R31:
the cursor is inside the window, or there is none; StepKeepsStateOk.) -/
def Obligations.DictFrame : Prop :=
  ∀ (i : Instr) (s t : State), cursorOk s.arch = true → beginsAnew i = false → exec i s = .next t →
    s.arch.out <+: t.arch.out ∧
    ∀ x, (∀ j, j < t.arch.out.length - s.arch.out.length → x ≠ (s.arch.pos.toNat + j) % s.arch.size.toNat) →
      dictRead t.arch.buf x = dictRead s.arch.buf x

/-- R23, R35, R36: the symbols and MAIN.STEP leave the properties, the window's size, the declared size and the parameters;
a literal, a short repeat and a repeat of rep0 leave the reps; `corrupted` moves only in a new match. -/
def Obligations.SymbolFrame : Prop :=
  ∀ (i : Instr) (s t : State),
    (i = .symLit ∨ i = .symMatch ∨ i = .symEos ∨ i = .symShortrep ∨ i = .symRep0 ∨ i = .symRep1 ∨ i = .symRep2 ∨
      i = .symRep3 ∨ i = .litDec ∨ i = .mainStep) → exec i s = .next t →
    (t.arch.lc = s.arch.lc ∧ t.arch.lp = s.arch.lp ∧ t.arch.pb = s.arch.pb ∧
      t.arch.dictSizeInProperties = s.arch.dictSizeInProperties ∧ t.arch.dictSize = s.arch.dictSize ∧
      t.arch.size = s.arch.size ∧ t.arch.sizeDefined = s.arch.sizeDefined ∧
      t.arch.declaredSize = s.arch.declaredSize ∧ t.arch.params = s.arch.params ∧ t.arch.inEnd = s.arch.inEnd) ∧
    (i = .symLit ∨ i = .litDec ∨ i = .symEos ∨ i = .symShortrep ∨ i = .symRep0 →
      t.arch.rep0 = s.arch.rep0 ∧ t.arch.rep1 = s.arch.rep1 ∧ t.arch.rep2 = s.arch.rep2 ∧
      t.arch.rep3 = s.arch.rep3) ∧
    (i = .litDec ∨ i = .symEos → t.arch.state = s.arch.state) ∧
    (i ≠ .symMatch → i ≠ .mainStep → t.arch.corrupted = s.arch.corrupted)

/-! ## The dictionary window -/

/-- R141, R251, D27: a new window, or `DICT_TOO_LARGE` above a limit that is set. -/
def Obligations.DwCreateMakesEmptyWindow : Prop :=
  ∀ (n : Word) (s : State), n ≠ 0#32 →
    ((∀ c, s.arch.params.dictCap = some c → n ≤ c) →
      exec (.dwCreate n) s = .next (completed s { s.arch with
        decisions := [], size := n, pos := 0#32, isFull := false, totalPos := 0#64, buf := [], out := [],
        flushedPos := 0#64 } .done)) ∧
    (∀ c, s.arch.params.dictCap = some c → c < n →
      exec (.dwCreate n) s = .next (failed s .dictTooLarge { s.arch with decisions := [] }))

/-- R142: the byte, the counter, the cursor's wrap, the flag, the sink, in every state; the byte is stored where the window
has a cell at the cursor. That nothing is stored where it has none is the model's choice (log entry 25). -/
def Obligations.DwPutAppendsByte : Prop :=
  ∀ (b : Byte) (s : State) (buf : DictMem),
    buf = (if s.arch.pos < s.arch.size then dictWrite s.arch.buf s.arch.pos.toNat b else s.arch.buf) →
    exec (.dwPut b) s = .next (completed s { s.arch with
      decisions := [], totalPos := s.arch.totalPos + 1#64, buf := buf,
      pos := if s.arch.pos + 1#32 = s.arch.size then 0#32 else s.arch.pos + 1#32,
      isFull := if s.arch.pos + 1#32 = s.arch.size then true else s.arch.isFull,
      out := s.arch.out ++ [b], flushedPos := s.arch.totalPos + 1#64 } .done) ∧
    (s.arch.pos < s.arch.size → dictRead buf s.arch.pos.toNat = some b ∧
      ∀ x, x ≠ s.arch.pos.toNat → dictRead buf x = dictRead s.arch.buf x)

/-- R60, R143, R148: the address of a lookback, the byte of a written cell, and for an unwritten one `DICT_FILL` or, when
that is open, the environment's next byte, about which nothing is said. -/
def Obligations.DwGetReadsLookback : Prop :=
  ∀ (dist : Word) (s : State) (x : Nat), 1 ≤ dist.toNat → dist.toNat ≤ s.arch.size.toNat → s.arch.pos < s.arch.size →
    x = (if dist.toNat ≤ s.arch.pos.toNat then s.arch.pos.toNat - dist.toNat
         else s.arch.size.toNat - dist.toNat + s.arch.pos.toNat) →
    x < s.arch.size.toNat ∧
    (∀ b, dictRead s.arch.buf x = some b →
      exec (.dwGet dist) s = .next (completed s { s.arch with decisions := [] } (.byte b))) ∧
    (dictRead s.arch.buf x = none → ∀ v, s.arch.params.dictFill = some v →
      exec (.dwGet dist) s = .next (completed s { s.arch with decisions := [] } (.byte v))) ∧
    (dictRead s.arch.buf x = none → s.arch.params.dictFill = none →
      ∃ v, exec (.dwGet dist) s = .next (completed s { s.arch with
        decisions := [], fillReads := s.arch.fillReads + 1 } (.byte v)))

/-- R62, R144: a copy is `len` gets and puts, one after another, byte by byte. -/
def Obligations.DwCopyIsGetThenPut : Prop :=
  (∀ (dist : Word) (s : State), 1 ≤ dist.toNat → dist.toNat ≤ s.arch.size.toNat →
    exec (.dwCopy dist 0#32) s = .next (completed s { s.arch with decisions := [] } .done)) ∧
  (∀ (dist len : Word) (s t u : State) (b : Byte), len ≠ 0xFFFFFFFF#32 →
    exec (.dwGet dist) s = .next t → t.response = .byte b →
    exec (.dwPut b) t = .next u → u.response = .done →
    exec (.dwCopy dist (len + 1#32)) s = exec (.dwCopy dist len) u)

/-- R144: every copy inside the domain completes, appends `len` bytes, and byte `j` of the run, from `dist` on, equals byte
`j - dist`: an overlapping copy reads the bytes it has just produced. -/
def Obligations.DwCopyIsPeriodic : Prop :=
  ∀ (dist len : Word) (s : State), 1 ≤ dist.toNat → dist.toNat ≤ s.arch.size.toNat → s.arch.pos < s.arch.size →
    ∃ (t : State) (run : List Byte), exec (.dwCopy dist len) s = .next t ∧ t.held = none ∧ t.response = .done ∧
      t.arch.out = s.arch.out ++ run ∧ run.length = len.toNat ∧
      t.arch.totalPos = s.arch.totalPos + BitVec.ofNat 64 len.toNat ∧
      (∀ j, dist.toNat ≤ j → j < len.toNat → run[j]? = run[j - dist.toNat]?)

/-- R104, R145, R146, R147: the terminal test of the range decoder, the two predicates of the window, and the flush, which
changes nothing but the hidden pointer (log entry 2, DEDUCED). -/
def Obligations.TestsAnswerAndChangeNothing : Prop :=
  ∀ s : State,
    exec .rcFinok s = .next (completed s { s.arch with decisions := [] } (.bool (decide (s.arch.code = 0#32)))) ∧
    (∀ d : Word, exec (.dwChk d) s = .next (completed s { s.arch with decisions := [] }
      (.bool (decide (d ≤ s.arch.pos ∨ s.arch.isFull = true))))) ∧
    exec .dwEmpty s = .next (completed s { s.arch with decisions := [] }
      (.bool (decide (s.arch.pos = 0#32 ∧ s.arch.isFull = false)))) ∧
    exec .dwFlush s = .next (completed s { s.arch with decisions := [], flushedPos := s.arch.totalPos } .done)

/-- R59, R140, R150: a new window satisfies the window invariant, every put keeps it, and under it a lookback that stays
within the output and the window reads the output itself. (Derived in the spec.) -/
def Obligations.LookbackReadsOutput : Prop :=
  (∀ (n : Word) (s t : State), n ≠ 0#32 → exec (.dwCreate n) s = .next t → t.response = .done → windowInv t.arch) ∧
  (∀ (b : Byte) (s : State), windowInv s.arch → ∃ t, exec (.dwPut b) s = .next t ∧ windowInv t.arch) ∧
  (∀ (dist : Word) (s : State), windowInv s.arch → 1 ≤ dist.toNat → dist.toNat ≤ s.arch.size.toNat →
    dist.toNat ≤ s.arch.out.length →
    ∃ b, s.arch.out[s.arch.out.length - dist.toNat]? = some b ∧
      exec (.dwGet dist) s = .next (completed s { s.arch with decisions := [] } (.byte b)))

/-! ## The state register and the literal -/

/-- R161 to R164: the four transitions, and nothing else moves. -/
def Obligations.StateTransitions : Prop :=
  ∀ (s : State) (q : Fin 12), s.arch.state = q →
    (∃ r : Fin 12, exec .stLit s = .next (completed s { s.arch with decisions := [], state := r } .done) ∧
      r.val = if q.val < 4 then 0 else if q.val < 10 then q.val - 3 else q.val - 6) ∧
    exec .stMatch s = .next (completed s { s.arch with decisions := [], state := if q.val < 7 then 7 else 10 } .done) ∧
    exec .stRep s = .next (completed s { s.arch with decisions := [], state := if q.val < 7 then 8 else 11 } .done) ∧
    exec .stShortrep s = .next (completed s { s.arch with decisions := [], state := if q.val < 7 then 9 else 11 } .done)

/-- R200 to R204: with eight bytes at hand LIT.DEC completes: eight decisions, the byte's bits first one most significant;
that byte appended, and stored at the cursor where the window has a cell there; `state` and the reps as they were. -/
def Obligations.LitDecAppendsLiteral : Prop :=
  ∀ s : State, 8 ≤ s.arch.inBytes.length →
    ∃ (t : State) (b : Byte), exec .litDec s = .next t ∧ t.held = none ∧ t.response = .byte b ∧
      t.arch.decisions = bitsMSB 8 b.toNat ∧ t.arch.out = s.arch.out ++ [b] ∧
      (s.arch.pos < s.arch.size → dictRead t.arch.buf s.arch.pos.toNat = some b) ∧
      t.arch.totalPos = s.arch.totalPos + 1#64 ∧
      t.arch.pos = (if s.arch.pos + 1#32 = s.arch.size then 0#32 else s.arch.pos + 1#32) ∧
      t.arch.state = s.arch.state ∧
      (t.arch.rep0 = s.arch.rep0 ∧ t.arch.rep1 = s.arch.rep1 ∧ t.arch.rep2 = s.arch.rep2 ∧ t.arch.rep3 = s.arch.rep3)

/-- R200, R201, R202, R203: which eight cells a literal adapts. The context comes from the previous byte and `totalPos`; in
state 7 and above the cell of each bit is in the third of the match byte's bit while all earlier bits agreed with it, plain
afterwards; each adapts by its bit (R102), and no other cell changes. A byte read where nothing is written is any byte
(R148), and so is one read where there is no cell (log entry 25). -/
def Obligations.LiteralAdaptsItsCells : Prop :=
  ∀ (s t : State) (b : Byte), Memory.wf s.arch = true → exec .litDec s = .next t → t.response = .byte b →
    ∃ prev mb : Byte, previousByte s.arch prev ∧ (7 ≤ s.arch.state.val → readsAs s.arch (s.arch.rep0.toNat + 1) mb) ∧
      let litState := s.arch.totalPos.toNat % 2 ^ s.arch.lp.val * 2 ^ s.arch.lc.val +
        prev.toNat / 2 ^ (8 - s.arch.lc.val)
      let index := fun j => cell .lit (768 * litState + literalIndex (decide (7 ≤ s.arch.state.val)) mb b j)
      (∀ j, j < 8 → probRead t.arch.prob (index j) =
        (let p := (probRead s.arch.prob (index j)).toNat
         BitVec.ofNat 11 (if b.toNat.testBit (7 - j) then p - p / 32 else p + (2048 - p) / 32))) ∧
      (∀ k, (∀ j, j < 8 → k ≠ index j) → probRead t.arch.prob k = probRead s.arch.prob k)

/-! ## Starting a decode -/

/-- R71, R222, R227: a legal properties byte is the mixed-radix number `lc + 9*lp + 45*pb`; from 225 on it is a hard error
that writes no property register. That the row by itself takes the field's value as its operand is the model's choice (log
entry 12). -/
def Obligations.FmtPropsUnpacks : Prop :=
  ∀ s : State,
    (∀ (lc : Fin 9) (lp pb : Fin 5),
      exec (.fmtProps (BitVec.ofNat 8 (lc.val + 9 * lp.val + 45 * pb.val))) s =
        .next (completed s { s.arch with decisions := [], lc := lc, lp := lp, pb := pb } .done)) ∧
    (∀ d : Byte, d.toNat < 225 → ∃ (lc : Fin 9) (lp pb : Fin 5), d.toNat = lc.val + 9 * lp.val + 45 * pb.val ∧
      lc.val = d.toNat % 9 ∧ lp.val = d.toNat / 9 % 5 ∧ pb.val = d.toNat / 45) ∧
    (∀ d : Byte, 225 ≤ d.toNat →
      exec (.fmtProps d) s = .next (failed s .malformedProperties { s.arch with decisions := [] }))

/-- R72, R73, R74: the effective dictionary size is never below 4096; all ones is "undefined" and writes no budget, every
other size is declared; the preamble's two fields start the range decoder, and a non-zero first byte or an initial code of
all ones sets the flag and stops nothing. That each row by itself takes the field's value is the model's choice (log entry
12). -/
def Obligations.HeaderFieldsSetRegisters : Prop :=
  ∀ s : State,
    (∀ v : Word, ∃ d : Word, d.toNat = max v.toNat 4096 ∧
      exec (.fmtDictSize v) s = .next (completed s { s.arch with
        decisions := [], dictSizeInProperties := v, dictSize := d } .done)) ∧
    exec (.fmtSize 0xFFFFFFFFFFFFFFFF#64) s = .next (completed s { s.arch with
      decisions := [], declaredSize := 0xFFFFFFFFFFFFFFFF#64, sizeDefined := false } .done) ∧
    (∀ v : DWord, v ≠ 0xFFFFFFFFFFFFFFFF#64 →
      exec (.fmtSize v) s = .next (completed s { s.arch with
        decisions := [], declaredSize := v, sizeDefined := true, leftToUnpack := v } .done)) ∧
    (∀ (z : Byte) (c : Word),
      exec (.fmtRcpre z c) s = .next (completed s { s.arch with
        decisions := [], range := 0xFFFFFFFF#32, code := c,
        corrupted := decide (z ≠ 0#8 ∨ c = 0xFFFFFFFF#32) } .done))

/-- R221, R227, R242, R243: thirteen bytes into the property and budget registers; a malformed first byte stops at once, with
one byte read and no property written; a header that is cut short holds or is truncated, with every byte read and nothing
produced. -/
def Obligations.HdrParseReadsHeader : Prop :=
  ∀ s : State,
    (∀ d b1 b2 b3 b4 c0 c1 c2 c3 c4 c5 c6 c7 rest,
      s.arch.inBytes = d :: b1 :: b2 :: b3 :: b4 :: c0 :: c1 :: c2 :: c3 :: c4 :: c5 :: c6 :: c7 :: rest →
      d.toNat < 225 →
      ∃ (lc : Fin 9) (lp pb : Fin 5) (dict : Word),
        d.toNat = lc.val + 9 * lp.val + 45 * pb.val ∧ dict.toNat = max (b4 ++ b3 ++ b2 ++ b1).toNat 4096 ∧
        exec .hdrParse s = .next (completed s { s.arch with
          decisions := [], lc := lc, lp := lp, pb := pb,
          dictSizeInProperties := b4 ++ b3 ++ b2 ++ b1, dictSize := dict,
          declaredSize := c7 ++ c6 ++ c5 ++ c4 ++ c3 ++ c2 ++ c1 ++ c0,
          sizeDefined := decide (c7 ++ c6 ++ c5 ++ c4 ++ c3 ++ c2 ++ c1 ++ c0 ≠ 0xFFFFFFFFFFFFFFFF#64),
          leftToUnpack := if c7 ++ c6 ++ c5 ++ c4 ++ c3 ++ c2 ++ c1 ++ c0 = 0xFFFFFFFFFFFFFFFF#64
            then s.arch.leftToUnpack else c7 ++ c6 ++ c5 ++ c4 ++ c3 ++ c2 ++ c1 ++ c0,
          phase := .rcInit, inBytes := rest, inPos := s.arch.inPos + 13#64 } .done)) ∧
    (∀ d rest, s.arch.inBytes = d :: rest → 225 ≤ d.toNat →
      exec .hdrParse s = .next (failed s .malformedProperties { s.arch with
        decisions := [], inBytes := rest, inPos := s.arch.inPos + 1#64 })) ∧
    (s.arch.inBytes.length < 13 → (∀ d, s.arch.inBytes[0]? = some d → d.toNat < 225) →
      ∃ m : Arch, exec .hdrParse s = .next (starved .hdrParse s m) ∧ m.inBytes = [] ∧
        m.inPos = s.arch.inPos + BitVec.ofNat 64 s.arch.inBytes.length ∧ m.out = s.arch.out ∧
        m.inEnd = s.arch.inEnd ∧ m.phase = s.arch.phase)

/-- R225, R251: the window, every cell of `P`, the state register and the reps, together; above a limit that is set, the
stream is refused before any of it. The hidden flush pointer's value is the model's choice (log entry 2). -/
def Obligations.DecInitResetsDecoder : Prop :=
  ∀ s : State, s.arch.dictSize ≠ 0#32 →
    ((∀ c, s.arch.params.dictCap = some c → s.arch.dictSize ≤ c) →
      ∃ t, exec .decInit s = .next t ∧ t.held = none ∧ t.response = .done ∧
        t.arch = { s.arch with
          decisions := [], size := s.arch.dictSize, pos := 0#32, isFull := false, totalPos := 0#64, buf := [], out := [],
          flushedPos := 0#64, prob := t.arch.prob, state := 0, rep0 := 0#32, rep1 := 0#32, rep2 := 0#32,
          rep3 := 0#32, phase := .loop } ∧
        ∀ k, probRead t.arch.prob k = 1024#11) ∧
    (∀ c, s.arch.params.dictCap = some c → c < s.arch.dictSize →
      exec .decInit s = .next (failed s .dictTooLarge { s.arch with decisions := [] }))

/-- R220: START in every phase, also while an operation holds, which is then abandoned; the step that takes it from the
command interface runs it. -/
def Obligations.StartBeginsDecode : Prop :=
  (∀ s : State, exec .start s = .next (completed s { s.arch with
    decisions := [], inPos := 0#64, out := [], status := .running, cause := .none, phase := .header } .done)) ∧
  (∀ (s : State) (es : List Event), s.events = .cmd (.uop [0x18]) :: es →
    step s = exec .start { s with events := es })

/-- R44, R226: from any state, with the 18 leading bytes of a stream at hand, START and the three operations after it reach
the top of the main loop with the registers of the right-hand column of R44. -/
def Obligations.StartSequenceReachesLoop : Prop :=
  ∀ (s : State) (d b1 b2 b3 b4 c0 c1 c2 c3 c4 c5 c6 c7 z p1 p2 p3 p4 : Byte) (rest : List Byte),
    s.events = [.cmd (.uop [0x18])] →
    s.arch.inBytes = d :: b1 :: b2 :: b3 :: b4 :: c0 :: c1 :: c2 :: c3 :: c4 :: c5 :: c6 :: c7 :: z :: p1 :: p2 :: p3 ::
      p4 :: rest →
    d.toNat < 225 → s.arch.params.dictCap = none →
    ∃ t, Host.Core.run Sys2Proof.core 4 s = .next t ∧ t.held = none ∧
      t.arch.range = 0xFFFFFFFF#32 ∧ t.arch.code = p1 ++ p2 ++ p3 ++ p4 ∧
      t.arch.corrupted = decide (z ≠ 0#8 ∨ p1 ++ p2 ++ p3 ++ p4 = 0xFFFFFFFF#32) ∧
      t.arch.state = 0 ∧ (t.arch.rep0 = 0#32 ∧ t.arch.rep1 = 0#32 ∧ t.arch.rep2 = 0#32 ∧ t.arch.rep3 = 0#32) ∧
      (∀ k, probRead t.arch.prob k = 1024#11) ∧ (∀ k, dictRead t.arch.buf k = none) ∧
      t.arch.pos = 0#32 ∧ t.arch.isFull = false ∧ t.arch.totalPos = 0#64 ∧ t.arch.size = t.arch.dictSize ∧
      d.toNat = t.arch.lc.val + 9 * t.arch.lp.val + 45 * t.arch.pb.val ∧
      t.arch.dictSizeInProperties = b4 ++ b3 ++ b2 ++ b1 ∧
      t.arch.dictSize.toNat = max (b4 ++ b3 ++ b2 ++ b1).toNat 4096 ∧
      t.arch.declaredSize = c7 ++ c6 ++ c5 ++ c4 ++ c3 ++ c2 ++ c1 ++ c0 ∧
      t.arch.sizeDefined = decide (t.arch.declaredSize ≠ 0xFFFFFFFFFFFFFFFF#64) ∧
      (t.arch.sizeDefined = true → t.arch.leftToUnpack = t.arch.declaredSize) ∧
      t.arch.status = .running ∧ t.arch.cause = .none ∧ t.arch.phase = .loop ∧ t.arch.inPos = 18#64 ∧
      t.arch.out = [] ∧ t.arch.inBytes = rest

/-- R272: what came before START does not matter. Two machines with the same source, parameters and supply of arbitrary
bytes, however else they differ, agree after START and `k` more steps, for every `k`, once the leading bytes are accepted:
in every register and memory but the budget where its size is undefined (R36). (Derived in the spec.) -/
def Obligations.StartForgetsThePast : Prop :=
  ∀ (s1 s2 : State) (k : Nat), s1.events = [.cmd (.uop [0x18])] → s2.events = [.cmd (.uop [0x18])] →
    s1.arch.inBytes = s2.arch.inBytes → s1.arch.inEnd = s2.arch.inEnd → s1.arch.params = s2.arch.params →
    s1.arch.fillReads = s2.arch.fillReads →
    (∃ t, Host.Core.run Sys2Proof.core 4 s1 = .next t ∧ t.arch.phase = .loop) →
    sameUpTo State.dropBudget (Host.Core.run Sys2Proof.core (4 + k) s1) (Host.Core.run Sys2Proof.core (4 + k) s2)

/-! ## The symbols and the main loop -/

/-- R169, R244: a literal with the budget used up is a hard error that produces nothing; otherwise LIT.DEC, ST.LIT and one
byte off the budget. -/
def Obligations.SymLitDecodesLiteral : Prop :=
  ∀ s : State,
    (s.arch.sizeDefined = true → s.arch.leftToUnpack = 0#64 →
      exec .symLit s = .next (failed s .budgetExhausted { s.arch with decisions := [] })) ∧
    (¬ (s.arch.sizeDefined = true ∧ s.arch.leftToUnpack = 0#64) → ∀ (t u : State) (b : Byte),
      exec .litDec s = .next t → t.response = .byte b → exec .stLit t = .next u →
      exec .symLit s = .next { u with
        arch := { u.arch with
          decisions := t.arch.decisions,
          leftToUnpack := if s.arch.sizeDefined then s.arch.leftToUnpack - 1#64 else s.arch.leftToUnpack },
        response := .step .continue })

/-- R171, R178, R179, R245, R246, R248, R249: a new match, from the length code and the distance its decisions give: the
marker and its two tests; the budget; the distance checks; the copy, clamped to the budget, and the overrun after it. -/
def Obligations.SymMatchFollowsItsRule : Prop :=
  ∀ (s t u : State) (len : Nat) (d : Word) (m : Arch), len ≤ 271 →
    exec (.lenDec .len (posState s.arch)) s = .next t → t.response = .value (BitVec.ofNat 32 len) →
    exec (.distDec (BitVec.ofNat 16 len)) t = .next u → u.response = .value d →
    m = { u.arch with
      decisions := t.arch.decisions ++ u.arch.decisions, rep3 := s.arch.rep2, rep2 := s.arch.rep1, rep1 := s.arch.rep0,
      rep0 := d, state := if s.arch.state.val < 7 then 7 else 10 } →
    (d = 0xFFFFFFFF#32 →
      (m.code ≠ 0#32 → exec .symMatch s = .next (failed s .badEndMarker m)) ∧
      (m.code = 0#32 → m.sizeDefined = true → m.leftToUnpack ≠ 0#64 →
        exec .symMatch s = .next (failed s .sizeMismatch m)) ∧
      (m.code = 0#32 → (m.sizeDefined = true → m.leftToUnpack = 0#64) →
        exec .symMatch s = .next (completed s { m with
          flushedPos := m.totalPos, status := .finishedWithMarker, phase := .done } (.step .finished)))) ∧
    (d ≠ 0xFFFFFFFF#32 → m.sizeDefined = true → m.leftToUnpack = 0#64 →
      exec .symMatch s = .next (failed s .budgetExhausted m)) ∧
    (d ≠ 0xFFFFFFFF#32 → ¬ (m.sizeDefined = true ∧ m.leftToUnpack = 0#64) →
      (¬ (d < m.dictSize ∧ (d ≤ m.pos ∨ m.isFull = true)) → exec .symMatch s = .next (failed s .badDistance m)) ∧
      (d < m.dictSize ∧ (d ≤ m.pos ∨ m.isFull = true) → ∀ (overrun : Bool) (n : Nat) (v : State),
        overrun = (m.sizeDefined && decide (m.leftToUnpack.toNat < len + 2)) →
        n = (if overrun then m.leftToUnpack.toNat else len + 2) →
        exec (.dwCopy (d + 1#32) (BitVec.ofNat 32 n)) { s with arch := m } = .next v → v.response = .done →
        let after : Arch := { v.arch with
          decisions := m.decisions,
          leftToUnpack := if m.sizeDefined then m.leftToUnpack - BitVec.ofNat 64 n else m.leftToUnpack }
        (overrun = false → exec .symMatch s = .next (completed s after (.step .continue))) ∧
        (overrun = true → exec .symMatch s = .next (failed s .lengthOverrun after))))

/-- R179: the end marker by itself. -/
def Obligations.SymEosEndsDecode : Prop :=
  ∀ s : State,
    (s.arch.code ≠ 0#32 → exec .symEos s = .next (failed s .badEndMarker { s.arch with decisions := [] })) ∧
    (s.arch.code = 0#32 → s.arch.sizeDefined = true → s.arch.leftToUnpack ≠ 0#64 →
      exec .symEos s = .next (failed s .sizeMismatch { s.arch with decisions := [] })) ∧
    (s.arch.code = 0#32 → (s.arch.sizeDefined = true → s.arch.leftToUnpack = 0#64) →
      exec .symEos s = .next (completed s { s.arch with
        decisions := [], flushedPos := s.arch.totalPos, status := .finishedWithMarker, phase := .done }
        (.step .finished)))

/-- R164, R173: a short repeat is ST.SHORTREP, one get from `rep0 + 1`, one put, one byte off the budget. By itself the row
starts behind R172's guards, so a budget of 0 wraps: the model's choice (log entry 11). -/
def Obligations.SymShortrepCopiesOneByte : Prop :=
  ∀ (s t u v : State) (b : Byte), exec .stShortrep s = .next t → exec (.dwGet (s.arch.rep0 + 1#32)) t = .next u →
    u.response = .byte b → exec (.dwPut b) u = .next v → v.response = .done →
    exec .symShortrep s = .next { v with
      arch := { v.arch with
        leftToUnpack := if s.arch.sizeDefined then s.arch.leftToUnpack - 1#64 else s.arch.leftToUnpack },
      response := .step .continue }

/-- R174 to R178: the four long repeats: the chosen rep to the front and those ahead of it one place back; the length by
`P.repLen`; the copy, clamped to the budget, and the overrun after it. By itself a row starts behind R172's guards: the
model's choice (log entry 11). -/
def Obligations.LongRepeatsRotateAndCopy : Prop :=
  ∀ (i : Instr) (s t : State) (m0 m : Arch) (len : Nat),
    ((i = .symRep0 ∧ m0 = s.arch) ∨
     (i = .symRep1 ∧ m0 = { s.arch with rep0 := s.arch.rep1, rep1 := s.arch.rep0 }) ∨
     (i = .symRep2 ∧ m0 = { s.arch with rep0 := s.arch.rep2, rep1 := s.arch.rep0, rep2 := s.arch.rep1 }) ∨
     (i = .symRep3 ∧ m0 = { s.arch with
       rep0 := s.arch.rep3, rep1 := s.arch.rep0, rep2 := s.arch.rep1, rep3 := s.arch.rep2 })) →
    len ≤ 271 → exec (.lenDec .rep (posState s.arch)) { s with arch := m0 } = .next t →
    t.response = .value (BitVec.ofNat 32 len) →
    m = { t.arch with state := if s.arch.state.val < 7 then 8 else 11 } →
    ∀ (overrun : Bool) (n : Nat) (v : State),
      overrun = (m.sizeDefined && decide (m.leftToUnpack.toNat < len + 2)) →
      n = (if overrun then m.leftToUnpack.toNat else len + 2) →
      exec (.dwCopy (m.rep0 + 1#32) (BitVec.ofNat 32 n)) { s with arch := m } = .next v → v.response = .done →
      let after : Arch := { v.arch with
        decisions := m.decisions,
        leftToUnpack := if m.sizeDefined then m.leftToUnpack - BitVec.ofNat 64 n else m.leftToUnpack }
      (overrun = false → exec i s = .next (completed s after (.step .continue))) ∧
      (overrun = true → exec i s = .next (failed s .lengthOverrun after))

/-- R180: the end test at the top of the loop, in every state that meets it. -/
def Obligations.BudgetEndsDecode : Prop :=
  ∀ s : State, s.arch.sizeDefined = true → s.arch.leftToUnpack = 0#64 → s.arch.code = 0#32 →
    exec .mainStep s = .next (completed s { s.arch with
      decisions := [], flushedPos := s.arch.totalPos, status := .finishedWithoutMarker, phase := .done }
      (.step .finished))

/-- R76, R167, R168, R170, R183: an iteration that does not end at once takes the decisions that select a symbol (R76) and then
does that symbol; for the repeat family the two guards of R172 stand between. -/
def Obligations.MainStepRunsSelectedSymbol : Prop :=
  ∀ (i : Instr) (s t u : State),
    (i = .symLit ∨ i = .symMatch ∨ inRepeatFamily i = true) →
    ¬ (s.arch.sizeDefined = true ∧ s.arch.leftToUnpack = 0#64 ∧ s.arch.code = 0#32) →
    (inRepeatFamily i = true → ¬ (s.arch.sizeDefined = true ∧ s.arch.leftToUnpack = 0#64) ∧
      ¬ (s.arch.pos = 0#32 ∧ s.arch.isFull = false)) →
    decides (selectors s.arch.state (posState s.arch) i) { s with arch := { s.arch with phase := .symbol } } t →
    exec i t = .next u →
    let log := (selectors s.arch.state (posState s.arch) i).map (·.2) ++ u.arch.decisions
    (u.response = .step .continue →
      exec .mainStep s = .next { u with arch := { u.arch with phase := .loop, decisions := log } }) ∧
    (u.response = .step .finished ∨ u.response = .error →
      exec .mainStep s = .next { u with arch := { u.arch with decisions := log } })

/-- R172, R244, R247, R253: a repeat selected with the budget used up, or else on an empty window, is a hard error before the
`isRepG0` decision, and produces nothing. -/
def Obligations.RepeatGuardsRaise : Prop :=
  ∀ s t : State, ¬ (s.arch.sizeDefined = true ∧ s.arch.leftToUnpack = 0#64 ∧ s.arch.code = 0#32) →
    decides [(⟨.isMatch, BitVec.ofNat 24 (s.arch.state.val * 16 + (posState s.arch).toNat)⟩, true),
      (⟨.isRep, BitVec.ofNat 24 s.arch.state.val⟩, true)]
      { s with arch := { s.arch with phase := .symbol } } t →
    (s.arch.sizeDefined = true → s.arch.leftToUnpack = 0#64 →
      exec .mainStep s = .next (failed s .budgetExhausted { t.arch with decisions := [true, true] })) ∧
    (¬ (s.arch.sizeDefined = true ∧ s.arch.leftToUnpack = 0#64) → s.arch.pos = 0#32 → s.arch.isFull = false →
      exec .mainStep s = .next (failed s .emptyWindowRep { t.arch with decisions := [true, true] }))

/-- R76 to R82, R167 to R183: whatever the stream holds, an iteration that completes, and does not end at the end test, has
decoded exactly one symbol: its decisions are the code of one symbol, and its effect on the state register, the reps, the
output, the budget, the phase and the status is that symbol's, the copies seen on the output alone. -/
def Obligations.OneIterationIsOneSymbol : Prop :=
  ∀ s t : State, windowInv s.arch →
    ¬ (s.arch.sizeDefined = true ∧ s.arch.leftToUnpack = 0#64 ∧ s.arch.code = 0#32) →
    exec .mainStep s = .next t → (t.response = .step .continue ∨ t.response = .step .finished) →
    ∃ sym : Symbol, sym.wf = true ∧ t.arch.decisions = encodeSymbol sym ∧ symbolEffect sym s.arch t.arch

/-- R14, R81, R108: with the input a symbol can need at hand, no symbol holds: a literal, a short repeat and the long repeats,
with the budget undefined or large enough, complete and go on; a new match on a full window of 2^32 - 1 bytes does too,
unless its distance is the marker; and an iteration of the main loop ends. What a row does by itself is the model's choice
(log entry 11). -/
def Obligations.SymbolsCompleteOnInput : Prop :=
  (∀ s : State, (s.arch.sizeDefined = true → 273 ≤ s.arch.leftToUnpack.toNat) →
    (8 ≤ s.arch.inBytes.length → ∃ t, exec .symLit s = .next t ∧ t.response = .step .continue) ∧
    (∃ t, exec .symShortrep s = .next t ∧ t.response = .step .continue) ∧
    (10 ≤ s.arch.inBytes.length → ∀ i, (i = .symRep0 ∨ i = .symRep1 ∨ i = .symRep2 ∨ i = .symRep3) →
      ∃ t, exec i s = .next t ∧ t.response = .step .continue) ∧
    (46 ≤ s.arch.inBytes.length → s.arch.isFull = true → s.arch.dictSize = 0xFFFFFFFF#32 →
      ∃ t, exec .symMatch s = .next t ∧ (t.response = .step .continue ∨ t.arch.rep0 = 0xFFFFFFFF#32))) ∧
  (∀ s : State, 48 ≤ s.arch.inBytes.length →
    ∃ t, exec .mainStep s = .next t ∧ t.held = none ∧
      (t.response = .step .continue ∨ t.response = .step .finished ∨
        (t.response = .error ∧ t.arch.cause ≠ .truncatedInput)))

/-- R185: however an iteration ends, it takes at most 48 decisions and 48 bytes, appends at most 273 bytes and changes at most
23 `PROB` cells. (Derived in the spec.) -/
def Obligations.IterationIsBounded : Prop :=
  ∀ s t : State, Memory.wf s.arch = true → exec .mainStep s = .next t →
    t.arch.decisions.length ≤ 48 ∧
    (∃ n, n ≤ 48 ∧ t.arch.inPos = s.arch.inPos + BitVec.ofNat 64 n ∧ t.arch.inBytes = s.arch.inBytes.drop n) ∧
    t.arch.out.length ≤ s.arch.out.length + 273 ∧
    ∃ cells : List Nat, cells.length ≤ 23 ∧ ∀ k, k ∉ cells → probRead t.arch.prob k = probRead s.arch.prob k

/-! ## Errors, the flag, holds -/

/-- R240, R250, R254: what every hard error leaves, whichever instruction raised it; and no instruction reports `INTERNAL`. -/
def Obligations.HardErrorIsTerminal : Prop :=
  ∀ (i : Instr) (s t : State), exec i s = .next t →
    (t.response = .error → t.arch.status = .error ∧ t.arch.phase = .done ∧ t.arch.cause ≠ .none ∧
      t.arch.cause ≠ .internal ∧ t.arch.flushedPos = t.arch.totalPos ∧ t.held = none) ∧
    (t.arch.cause = .internal → s.arch.cause = .internal) ∧
    (t.arch.status = .error → s.arch.status ≠ .error → t.response = .error)

/-- R255: after `P_DONE` the core does nothing until START: its own step and everything from the source leave every register
and memory as they were. -/
def Obligations.DoneUntilStart : Prop :=
  ∀ (s : State) (e : Event) (es : List Event), s.held = none → s.arch.phase = .done →
    (e = .pass ∨ e = .endOfInput ∨ e = .attach ∨ ∃ b, e = .byte b) →
    (s.events = [] → step s = .next s) ∧
    (s.events = e :: es → ∃ t, step s = .next t ∧ t.held = none ∧ t.events = es ∧
      t.arch = { s.arch with inBytes := t.arch.inBytes, inEnd := t.arch.inEnd })

/-- R252: the advisory flag changes nothing else: two machines that differ in it alone take the same step, up to the flag. -/
def Obligations.CorruptedFlagIsAdvisory : Prop :=
  ∀ s1 s2 : State, s1.dropCorrupted = s2.dropCorrupted → sameUpTo State.dropCorrupted (step s1) (step s2)

/-- R14, R229: an operation that holds goes on, when the next byte arrives, to exactly what it would have been had the byte
been there from the start. How a hold goes on, by replaying the operation, is the model's choice (log entry 13). -/
def Obligations.HeldOperationGoesOn : Prop :=
  ∀ (i : Instr) (s t : State) (b : Byte) (es : List Event), s.held = none → exec i s = .next t → t.held ≠ none →
    ∃ t', step { t with events := .byte b :: es } = .next t' ∧ t'.events = es ∧
      coreStep t' = exec i { s with
        arch := { s.arch with decisions := [], inBytes := s.arch.inBytes ++ [b] },
        response := .pending, events := es }

/-- R14, R51, R229, R243: end of input signalled while an operation holds turns the hold into `TruncatedInput`, in exactly the
state the hold had left. -/
def Obligations.EndOfInputTruncatesHold : Prop :=
  ∀ (i : Instr) (s t : State) (es : List Event), s.held = none → exec i s = .next t → t.held ≠ none →
    ∃ t', step { t with events := .endOfInput :: es } = .next t' ∧
      coreStep t' = .next { t with
        arch := takeError .truncatedInput { t.arch with inEnd := true }, held := none, response := .error, events := es }

/-! ## Invariants -/

/-- R26, R30, R31, R39, R42: every step, from every state that meets it, keeps the invariant: both memories in canonical form,
every `PROB` cell in 31 to 2017, the written `DICT` cells and the cursor inside the window, the flush pointer at
`totalPos`, `P_SYMBOL` only while an operation holds. After a reset R26 and R270 leave both memories unspecified: that the
invariant holds of them then rests on the model's choice (log entry 6), as the flush pointer does on log entry 2. -/
def Obligations.StepKeepsStateOk : Prop :=
  ∀ s t : State, s.ok = true → step s = .next t → t.ok = true

/-- The invariants hold at reset. R44 and R270 give the registers; that `PROB` and `DICT` meet theirs is the model's choice (log
entry 6, DESIGN CHOICE), and so are the flush pointer (log entry 2, DEDUCED) and that nothing is held (log entry 3). -/
def Obligations.ResetIsOk : Prop :=
  State.reset.ok = true ∧ State.reset.decodeOk = true

/-- R45: the invariants of the top of the main loop. The start sequence establishes them, and every iteration that goes on
keeps them while the 64-bit counters do not wrap (D5). (Derived in the spec.) -/
def Obligations.LoopInvariantHolds : Prop :=
  (∀ s t : State, 0x01000000#32 ≤ s.arch.range → 18 ≤ s.arch.inPos.toNat →
    (s.arch.sizeDefined = true → s.arch.leftToUnpack = s.arch.declaredSize) →
    exec .decInit s = .next t → t.response = .done → loopInv t.arch) ∧
  (∀ s t : State, Memory.wf s.arch = true → loopInv s.arch → s.arch.totalPos.toNat + 273 < 2 ^ 64 →
    s.arch.inPos.toNat + 48 < 2 ^ 64 → exec .mainStep s = .next t → t.response = .step .continue → loopInv t.arch)

/-- R14: every instruction answers a next state in every state: it completes, holds, raises a hard error, or is turned away.
R149, R184, R261: and a machine that only its host drives never faults and never stops: every step answers a next state
and keeps what the sequencer relies on, among it that in the main loop all four lookbacks are inside the window. -/
def Obligations.DecodeNeverFaults : Prop :=
  (∀ (i : Instr) (s : State), ∃ t, exec i s = .next t) ∧
  (∀ s : State, s.decodeOk = true → hostDriven s → ∃ t, step s = .next t ∧ t.decodeOk = true)

/-! ## Encodings -/

/-- Decode and encode agree: every instruction's word decodes to it, every operand at every value (R71 to R80, R88). The layout
of operands on the command interface is the model's choice (log entries 8 and 11). -/
def Obligations.InstructionRoundTrip : Prop :=
  ∀ i : Instr, decode (encode i) = .ok i

/-- R76 to R82: the symbol code is complete and prefix-free on its own words: a sequence of decisions starts with a symbol
exactly when it starts with that symbol's code. -/
def Obligations.SymbolCodeIsExact : Prop :=
  ∀ (ds rest : List Bool) (sym : Symbol),
    decodeSymbol ds = some (sym, rest) ↔ sym.wf = true ∧ ds = encodeSymbol sym ++ rest

/-! ## The host's side -/

/-- R89, R90: the codes of `state`, `status` and `cause`; and what the host reads is the registers, the level `holding`
and the level `done` (R228, R256). -/
def Obligations.HostReadsRegistersAndLevels : Prop :=
  (∀ q : Fin 12, (stateCode q).toNat = q.val) ∧
  (Status.idle.code = 0#3 ∧ Status.running.code = 1#3 ∧ Status.finishedWithMarker.code = 2#3 ∧
    Status.finishedWithoutMarker.code = 3#3 ∧ Status.error.code = 4#3 ∧ ∀ x : Status, x.code.toNat ≤ 4) ∧
  (Cause.none.code = 0#4 ∧ Cause.malformedProperties.code = 1#4 ∧ Cause.truncatedInput.code = 2#4 ∧
    Cause.budgetExhausted.code = 3#4 ∧ Cause.badDistance.code = 4#4 ∧ Cause.lengthOverrun.code = 5#4 ∧
    Cause.emptyWindowRep.code = 6#4 ∧ Cause.badEndMarker.code = 7#4 ∧ Cause.sizeMismatch.code = 8#4 ∧
    Cause.internal.code = 9#4 ∧ Cause.dictTooLarge.code = 10#4 ∧ ∀ x : Cause, x.code.toNat ≤ 10) ∧
  (∀ s : State,
    ((hostView s).status = s.arch.status.code ∧ (hostView s).cause = s.arch.cause.code ∧
      (hostView s).corrupted = s.arch.corrupted ∧ (hostView s).totalPos = s.arch.totalPos ∧
      (hostView s).inPos = s.arch.inPos ∧ (hostView s).lc = s.arch.lc ∧ (hostView s).lp = s.arch.lp ∧
      (hostView s).pb = s.arch.pb ∧ (hostView s).dictSize = s.arch.dictSize ∧
      (hostView s).sizeDefined = s.arch.sizeDefined ∧ (hostView s).declaredSize = s.arch.declaredSize) ∧
    ((hostView s).holding = true ↔ s.held ≠ none) ∧ ((hostView s).done = true ↔ s.arch.phase = .done))
end

