-- ==== Sys2Proof/Laws/State.lean ====
section
/-! SUPPORT. One lemma per field per named update of the architectural state, each true by rfl: later proofs never unfold an update. -/

namespace Sys2Proof.Machine

/-! `opStart` -/

@[simp] theorem opStart_range (a : Arch) : (opStart a).range = a.range := rfl
@[simp] theorem opStart_code (a : Arch) : (opStart a).code = a.code := rfl
@[simp] theorem opStart_corrupted (a : Arch) : (opStart a).corrupted = a.corrupted := rfl
@[simp] theorem opStart_state (a : Arch) : (opStart a).state = a.state := rfl
@[simp] theorem opStart_rep0 (a : Arch) : (opStart a).rep0 = a.rep0 := rfl
@[simp] theorem opStart_rep1 (a : Arch) : (opStart a).rep1 = a.rep1 := rfl
@[simp] theorem opStart_rep2 (a : Arch) : (opStart a).rep2 = a.rep2 := rfl
@[simp] theorem opStart_rep3 (a : Arch) : (opStart a).rep3 = a.rep3 := rfl
@[simp] theorem opStart_prob (a : Arch) : (opStart a).prob = a.prob := rfl
@[simp] theorem opStart_buf (a : Arch) : (opStart a).buf = a.buf := rfl
@[simp] theorem opStart_pos (a : Arch) : (opStart a).pos = a.pos := rfl
@[simp] theorem opStart_size (a : Arch) : (opStart a).size = a.size := rfl
@[simp] theorem opStart_isFull (a : Arch) : (opStart a).isFull = a.isFull := rfl
@[simp] theorem opStart_totalPos (a : Arch) : (opStart a).totalPos = a.totalPos := rfl
@[simp] theorem opStart_lc (a : Arch) : (opStart a).lc = a.lc := rfl
@[simp] theorem opStart_lp (a : Arch) : (opStart a).lp = a.lp := rfl
@[simp] theorem opStart_pb (a : Arch) : (opStart a).pb = a.pb := rfl
@[simp] theorem opStart_dictSizeInProperties (a : Arch) : (opStart a).dictSizeInProperties = a.dictSizeInProperties := rfl
@[simp] theorem opStart_dictSize (a : Arch) : (opStart a).dictSize = a.dictSize := rfl
@[simp] theorem opStart_sizeDefined (a : Arch) : (opStart a).sizeDefined = a.sizeDefined := rfl
@[simp] theorem opStart_leftToUnpack (a : Arch) : (opStart a).leftToUnpack = a.leftToUnpack := rfl
@[simp] theorem opStart_declaredSize (a : Arch) : (opStart a).declaredSize = a.declaredSize := rfl
@[simp] theorem opStart_status (a : Arch) : (opStart a).status = a.status := rfl
@[simp] theorem opStart_cause (a : Arch) : (opStart a).cause = a.cause := rfl
@[simp] theorem opStart_phase (a : Arch) : (opStart a).phase = a.phase := rfl
@[simp] theorem opStart_inPos (a : Arch) : (opStart a).inPos = a.inPos := rfl
@[simp] theorem opStart_out (a : Arch) : (opStart a).out = a.out := rfl
@[simp] theorem opStart_flushedPos (a : Arch) : (opStart a).flushedPos = a.flushedPos := rfl
@[simp] theorem opStart_inBytes (a : Arch) : (opStart a).inBytes = a.inBytes := rfl
@[simp] theorem opStart_inEnd (a : Arch) : (opStart a).inEnd = a.inEnd := rfl
@[simp] theorem opStart_params (a : Arch) : (opStart a).params = a.params := rfl
@[simp] theorem opStart_fillReads (a : Arch) : (opStart a).fillReads = a.fillReads := rfl
@[simp] theorem opStart_decisions (a : Arch) : (opStart a).decisions = [] := rfl

/-! `flushed` -/

@[simp] theorem flushed_range (a : Arch) : (flushed a).range = a.range := rfl
@[simp] theorem flushed_code (a : Arch) : (flushed a).code = a.code := rfl
@[simp] theorem flushed_corrupted (a : Arch) : (flushed a).corrupted = a.corrupted := rfl
@[simp] theorem flushed_state (a : Arch) : (flushed a).state = a.state := rfl
@[simp] theorem flushed_rep0 (a : Arch) : (flushed a).rep0 = a.rep0 := rfl
@[simp] theorem flushed_rep1 (a : Arch) : (flushed a).rep1 = a.rep1 := rfl
@[simp] theorem flushed_rep2 (a : Arch) : (flushed a).rep2 = a.rep2 := rfl
@[simp] theorem flushed_rep3 (a : Arch) : (flushed a).rep3 = a.rep3 := rfl
@[simp] theorem flushed_prob (a : Arch) : (flushed a).prob = a.prob := rfl
@[simp] theorem flushed_buf (a : Arch) : (flushed a).buf = a.buf := rfl
@[simp] theorem flushed_pos (a : Arch) : (flushed a).pos = a.pos := rfl
@[simp] theorem flushed_size (a : Arch) : (flushed a).size = a.size := rfl
@[simp] theorem flushed_isFull (a : Arch) : (flushed a).isFull = a.isFull := rfl
@[simp] theorem flushed_totalPos (a : Arch) : (flushed a).totalPos = a.totalPos := rfl
@[simp] theorem flushed_lc (a : Arch) : (flushed a).lc = a.lc := rfl
@[simp] theorem flushed_lp (a : Arch) : (flushed a).lp = a.lp := rfl
@[simp] theorem flushed_pb (a : Arch) : (flushed a).pb = a.pb := rfl
@[simp] theorem flushed_dictSizeInProperties (a : Arch) : (flushed a).dictSizeInProperties = a.dictSizeInProperties := rfl
@[simp] theorem flushed_dictSize (a : Arch) : (flushed a).dictSize = a.dictSize := rfl
@[simp] theorem flushed_sizeDefined (a : Arch) : (flushed a).sizeDefined = a.sizeDefined := rfl
@[simp] theorem flushed_leftToUnpack (a : Arch) : (flushed a).leftToUnpack = a.leftToUnpack := rfl
@[simp] theorem flushed_declaredSize (a : Arch) : (flushed a).declaredSize = a.declaredSize := rfl
@[simp] theorem flushed_status (a : Arch) : (flushed a).status = a.status := rfl
@[simp] theorem flushed_cause (a : Arch) : (flushed a).cause = a.cause := rfl
@[simp] theorem flushed_phase (a : Arch) : (flushed a).phase = a.phase := rfl
@[simp] theorem flushed_inPos (a : Arch) : (flushed a).inPos = a.inPos := rfl
@[simp] theorem flushed_out (a : Arch) : (flushed a).out = a.out := rfl
@[simp] theorem flushed_flushedPos (a : Arch) : (flushed a).flushedPos = a.totalPos := rfl
@[simp] theorem flushed_inBytes (a : Arch) : (flushed a).inBytes = a.inBytes := rfl
@[simp] theorem flushed_inEnd (a : Arch) : (flushed a).inEnd = a.inEnd := rfl
@[simp] theorem flushed_params (a : Arch) : (flushed a).params = a.params := rfl
@[simp] theorem flushed_fillReads (a : Arch) : (flushed a).fillReads = a.fillReads := rfl
@[simp] theorem flushed_decisions (a : Arch) : (flushed a).decisions = a.decisions := rfl

/-! `takeError` -/

@[simp] theorem takeError_range (c : Cause) (a : Arch) : (takeError c a).range = a.range := rfl
@[simp] theorem takeError_code (c : Cause) (a : Arch) : (takeError c a).code = a.code := rfl
@[simp] theorem takeError_corrupted (c : Cause) (a : Arch) : (takeError c a).corrupted = a.corrupted := rfl
@[simp] theorem takeError_state (c : Cause) (a : Arch) : (takeError c a).state = a.state := rfl
@[simp] theorem takeError_rep0 (c : Cause) (a : Arch) : (takeError c a).rep0 = a.rep0 := rfl
@[simp] theorem takeError_rep1 (c : Cause) (a : Arch) : (takeError c a).rep1 = a.rep1 := rfl
@[simp] theorem takeError_rep2 (c : Cause) (a : Arch) : (takeError c a).rep2 = a.rep2 := rfl
@[simp] theorem takeError_rep3 (c : Cause) (a : Arch) : (takeError c a).rep3 = a.rep3 := rfl
@[simp] theorem takeError_prob (c : Cause) (a : Arch) : (takeError c a).prob = a.prob := rfl
@[simp] theorem takeError_buf (c : Cause) (a : Arch) : (takeError c a).buf = a.buf := rfl
@[simp] theorem takeError_pos (c : Cause) (a : Arch) : (takeError c a).pos = a.pos := rfl
@[simp] theorem takeError_size (c : Cause) (a : Arch) : (takeError c a).size = a.size := rfl
@[simp] theorem takeError_isFull (c : Cause) (a : Arch) : (takeError c a).isFull = a.isFull := rfl
@[simp] theorem takeError_totalPos (c : Cause) (a : Arch) : (takeError c a).totalPos = a.totalPos := rfl
@[simp] theorem takeError_lc (c : Cause) (a : Arch) : (takeError c a).lc = a.lc := rfl
@[simp] theorem takeError_lp (c : Cause) (a : Arch) : (takeError c a).lp = a.lp := rfl
@[simp] theorem takeError_pb (c : Cause) (a : Arch) : (takeError c a).pb = a.pb := rfl
@[simp] theorem takeError_dictSizeInProperties (c : Cause) (a : Arch) : (takeError c a).dictSizeInProperties = a.dictSizeInProperties := rfl
@[simp] theorem takeError_dictSize (c : Cause) (a : Arch) : (takeError c a).dictSize = a.dictSize := rfl
@[simp] theorem takeError_sizeDefined (c : Cause) (a : Arch) : (takeError c a).sizeDefined = a.sizeDefined := rfl
@[simp] theorem takeError_leftToUnpack (c : Cause) (a : Arch) : (takeError c a).leftToUnpack = a.leftToUnpack := rfl
@[simp] theorem takeError_declaredSize (c : Cause) (a : Arch) : (takeError c a).declaredSize = a.declaredSize := rfl
@[simp] theorem takeError_status (c : Cause) (a : Arch) : (takeError c a).status = .error := rfl
@[simp] theorem takeError_cause (c : Cause) (a : Arch) : (takeError c a).cause = c := rfl
@[simp] theorem takeError_phase (c : Cause) (a : Arch) : (takeError c a).phase = .done := rfl
@[simp] theorem takeError_inPos (c : Cause) (a : Arch) : (takeError c a).inPos = a.inPos := rfl
@[simp] theorem takeError_out (c : Cause) (a : Arch) : (takeError c a).out = a.out := rfl
@[simp] theorem takeError_flushedPos (c : Cause) (a : Arch) : (takeError c a).flushedPos = a.totalPos := rfl
@[simp] theorem takeError_inBytes (c : Cause) (a : Arch) : (takeError c a).inBytes = a.inBytes := rfl
@[simp] theorem takeError_inEnd (c : Cause) (a : Arch) : (takeError c a).inEnd = a.inEnd := rfl
@[simp] theorem takeError_params (c : Cause) (a : Arch) : (takeError c a).params = a.params := rfl
@[simp] theorem takeError_fillReads (c : Cause) (a : Arch) : (takeError c a).fillReads = a.fillReads := rfl
@[simp] theorem takeError_decisions (c : Cause) (a : Arch) : (takeError c a).decisions = a.decisions := rfl

/-! `startDecode` -/

@[simp] theorem startDecode_range (a : Arch) : (startDecode a).range = a.range := rfl
@[simp] theorem startDecode_code (a : Arch) : (startDecode a).code = a.code := rfl
@[simp] theorem startDecode_corrupted (a : Arch) : (startDecode a).corrupted = a.corrupted := rfl
@[simp] theorem startDecode_state (a : Arch) : (startDecode a).state = a.state := rfl
@[simp] theorem startDecode_rep0 (a : Arch) : (startDecode a).rep0 = a.rep0 := rfl
@[simp] theorem startDecode_rep1 (a : Arch) : (startDecode a).rep1 = a.rep1 := rfl
@[simp] theorem startDecode_rep2 (a : Arch) : (startDecode a).rep2 = a.rep2 := rfl
@[simp] theorem startDecode_rep3 (a : Arch) : (startDecode a).rep3 = a.rep3 := rfl
@[simp] theorem startDecode_prob (a : Arch) : (startDecode a).prob = a.prob := rfl
@[simp] theorem startDecode_buf (a : Arch) : (startDecode a).buf = a.buf := rfl
@[simp] theorem startDecode_pos (a : Arch) : (startDecode a).pos = a.pos := rfl
@[simp] theorem startDecode_size (a : Arch) : (startDecode a).size = a.size := rfl
@[simp] theorem startDecode_isFull (a : Arch) : (startDecode a).isFull = a.isFull := rfl
@[simp] theorem startDecode_totalPos (a : Arch) : (startDecode a).totalPos = a.totalPos := rfl
@[simp] theorem startDecode_lc (a : Arch) : (startDecode a).lc = a.lc := rfl
@[simp] theorem startDecode_lp (a : Arch) : (startDecode a).lp = a.lp := rfl
@[simp] theorem startDecode_pb (a : Arch) : (startDecode a).pb = a.pb := rfl
@[simp] theorem startDecode_dictSizeInProperties (a : Arch) : (startDecode a).dictSizeInProperties = a.dictSizeInProperties := rfl
@[simp] theorem startDecode_dictSize (a : Arch) : (startDecode a).dictSize = a.dictSize := rfl
@[simp] theorem startDecode_sizeDefined (a : Arch) : (startDecode a).sizeDefined = a.sizeDefined := rfl
@[simp] theorem startDecode_leftToUnpack (a : Arch) : (startDecode a).leftToUnpack = a.leftToUnpack := rfl
@[simp] theorem startDecode_declaredSize (a : Arch) : (startDecode a).declaredSize = a.declaredSize := rfl
@[simp] theorem startDecode_status (a : Arch) : (startDecode a).status = .running := rfl
@[simp] theorem startDecode_cause (a : Arch) : (startDecode a).cause = .none := rfl
@[simp] theorem startDecode_phase (a : Arch) : (startDecode a).phase = .header := rfl
@[simp] theorem startDecode_inPos (a : Arch) : (startDecode a).inPos = 0 := rfl
@[simp] theorem startDecode_out (a : Arch) : (startDecode a).out = [] := rfl
@[simp] theorem startDecode_flushedPos (a : Arch) : (startDecode a).flushedPos = a.flushedPos := rfl
@[simp] theorem startDecode_inBytes (a : Arch) : (startDecode a).inBytes = a.inBytes := rfl
@[simp] theorem startDecode_inEnd (a : Arch) : (startDecode a).inEnd = a.inEnd := rfl
@[simp] theorem startDecode_params (a : Arch) : (startDecode a).params = a.params := rfl
@[simp] theorem startDecode_fillReads (a : Arch) : (startDecode a).fillReads = a.fillReads := rfl
@[simp] theorem startDecode_decisions (a : Arch) : (startDecode a).decisions = a.decisions := rfl

/-! `newWindow` -/

@[simp] theorem newWindow_range (n : Word) (a : Arch) : (newWindow n a).range = a.range := rfl
@[simp] theorem newWindow_code (n : Word) (a : Arch) : (newWindow n a).code = a.code := rfl
@[simp] theorem newWindow_corrupted (n : Word) (a : Arch) : (newWindow n a).corrupted = a.corrupted := rfl
@[simp] theorem newWindow_state (n : Word) (a : Arch) : (newWindow n a).state = a.state := rfl
@[simp] theorem newWindow_rep0 (n : Word) (a : Arch) : (newWindow n a).rep0 = a.rep0 := rfl
@[simp] theorem newWindow_rep1 (n : Word) (a : Arch) : (newWindow n a).rep1 = a.rep1 := rfl
@[simp] theorem newWindow_rep2 (n : Word) (a : Arch) : (newWindow n a).rep2 = a.rep2 := rfl
@[simp] theorem newWindow_rep3 (n : Word) (a : Arch) : (newWindow n a).rep3 = a.rep3 := rfl
@[simp] theorem newWindow_prob (n : Word) (a : Arch) : (newWindow n a).prob = a.prob := rfl
@[simp] theorem newWindow_buf (n : Word) (a : Arch) : (newWindow n a).buf = [] := rfl
@[simp] theorem newWindow_pos (n : Word) (a : Arch) : (newWindow n a).pos = 0#32 := rfl
@[simp] theorem newWindow_size (n : Word) (a : Arch) : (newWindow n a).size = n := rfl
@[simp] theorem newWindow_isFull (n : Word) (a : Arch) : (newWindow n a).isFull = false := rfl
@[simp] theorem newWindow_totalPos (n : Word) (a : Arch) : (newWindow n a).totalPos = 0#64 := rfl
@[simp] theorem newWindow_lc (n : Word) (a : Arch) : (newWindow n a).lc = a.lc := rfl
@[simp] theorem newWindow_lp (n : Word) (a : Arch) : (newWindow n a).lp = a.lp := rfl
@[simp] theorem newWindow_pb (n : Word) (a : Arch) : (newWindow n a).pb = a.pb := rfl
@[simp] theorem newWindow_dictSizeInProperties (n : Word) (a : Arch) : (newWindow n a).dictSizeInProperties = a.dictSizeInProperties := rfl
@[simp] theorem newWindow_dictSize (n : Word) (a : Arch) : (newWindow n a).dictSize = a.dictSize := rfl
@[simp] theorem newWindow_sizeDefined (n : Word) (a : Arch) : (newWindow n a).sizeDefined = a.sizeDefined := rfl
@[simp] theorem newWindow_leftToUnpack (n : Word) (a : Arch) : (newWindow n a).leftToUnpack = a.leftToUnpack := rfl
@[simp] theorem newWindow_declaredSize (n : Word) (a : Arch) : (newWindow n a).declaredSize = a.declaredSize := rfl
@[simp] theorem newWindow_status (n : Word) (a : Arch) : (newWindow n a).status = a.status := rfl
@[simp] theorem newWindow_cause (n : Word) (a : Arch) : (newWindow n a).cause = a.cause := rfl
@[simp] theorem newWindow_phase (n : Word) (a : Arch) : (newWindow n a).phase = a.phase := rfl
@[simp] theorem newWindow_inPos (n : Word) (a : Arch) : (newWindow n a).inPos = a.inPos := rfl
@[simp] theorem newWindow_out (n : Word) (a : Arch) : (newWindow n a).out = [] := rfl
@[simp] theorem newWindow_flushedPos (n : Word) (a : Arch) : (newWindow n a).flushedPos = 0#64 := rfl
@[simp] theorem newWindow_inBytes (n : Word) (a : Arch) : (newWindow n a).inBytes = a.inBytes := rfl
@[simp] theorem newWindow_inEnd (n : Word) (a : Arch) : (newWindow n a).inEnd = a.inEnd := rfl
@[simp] theorem newWindow_params (n : Word) (a : Arch) : (newWindow n a).params = a.params := rfl
@[simp] theorem newWindow_fillReads (n : Word) (a : Arch) : (newWindow n a).fillReads = a.fillReads := rfl
@[simp] theorem newWindow_decisions (n : Word) (a : Arch) : (newWindow n a).decisions = a.decisions := rfl

/-! `freshDecoder` -/

@[simp] theorem freshDecoder_range (a : Arch) : (freshDecoder a).range = a.range := rfl
@[simp] theorem freshDecoder_code (a : Arch) : (freshDecoder a).code = a.code := rfl
@[simp] theorem freshDecoder_corrupted (a : Arch) : (freshDecoder a).corrupted = a.corrupted := rfl
@[simp] theorem freshDecoder_state (a : Arch) : (freshDecoder a).state = 0 := rfl
@[simp] theorem freshDecoder_rep0 (a : Arch) : (freshDecoder a).rep0 = 0#32 := rfl
@[simp] theorem freshDecoder_rep1 (a : Arch) : (freshDecoder a).rep1 = 0#32 := rfl
@[simp] theorem freshDecoder_rep2 (a : Arch) : (freshDecoder a).rep2 = 0#32 := rfl
@[simp] theorem freshDecoder_rep3 (a : Arch) : (freshDecoder a).rep3 = 0#32 := rfl
@[simp] theorem freshDecoder_prob (a : Arch) : (freshDecoder a).prob = [] := rfl
@[simp] theorem freshDecoder_buf (a : Arch) : (freshDecoder a).buf = a.buf := rfl
@[simp] theorem freshDecoder_pos (a : Arch) : (freshDecoder a).pos = a.pos := rfl
@[simp] theorem freshDecoder_size (a : Arch) : (freshDecoder a).size = a.size := rfl
@[simp] theorem freshDecoder_isFull (a : Arch) : (freshDecoder a).isFull = a.isFull := rfl
@[simp] theorem freshDecoder_totalPos (a : Arch) : (freshDecoder a).totalPos = a.totalPos := rfl
@[simp] theorem freshDecoder_lc (a : Arch) : (freshDecoder a).lc = a.lc := rfl
@[simp] theorem freshDecoder_lp (a : Arch) : (freshDecoder a).lp = a.lp := rfl
@[simp] theorem freshDecoder_pb (a : Arch) : (freshDecoder a).pb = a.pb := rfl
@[simp] theorem freshDecoder_dictSizeInProperties (a : Arch) : (freshDecoder a).dictSizeInProperties = a.dictSizeInProperties := rfl
@[simp] theorem freshDecoder_dictSize (a : Arch) : (freshDecoder a).dictSize = a.dictSize := rfl
@[simp] theorem freshDecoder_sizeDefined (a : Arch) : (freshDecoder a).sizeDefined = a.sizeDefined := rfl
@[simp] theorem freshDecoder_leftToUnpack (a : Arch) : (freshDecoder a).leftToUnpack = a.leftToUnpack := rfl
@[simp] theorem freshDecoder_declaredSize (a : Arch) : (freshDecoder a).declaredSize = a.declaredSize := rfl
@[simp] theorem freshDecoder_status (a : Arch) : (freshDecoder a).status = a.status := rfl
@[simp] theorem freshDecoder_cause (a : Arch) : (freshDecoder a).cause = a.cause := rfl
@[simp] theorem freshDecoder_phase (a : Arch) : (freshDecoder a).phase = .loop := rfl
@[simp] theorem freshDecoder_inPos (a : Arch) : (freshDecoder a).inPos = a.inPos := rfl
@[simp] theorem freshDecoder_out (a : Arch) : (freshDecoder a).out = a.out := rfl
@[simp] theorem freshDecoder_flushedPos (a : Arch) : (freshDecoder a).flushedPos = a.flushedPos := rfl
@[simp] theorem freshDecoder_inBytes (a : Arch) : (freshDecoder a).inBytes = a.inBytes := rfl
@[simp] theorem freshDecoder_inEnd (a : Arch) : (freshDecoder a).inEnd = a.inEnd := rfl
@[simp] theorem freshDecoder_params (a : Arch) : (freshDecoder a).params = a.params := rfl
@[simp] theorem freshDecoder_fillReads (a : Arch) : (freshDecoder a).fillReads = a.fillReads := rfl
@[simp] theorem freshDecoder_decisions (a : Arch) : (freshDecoder a).decisions = a.decisions := rfl

/-! `replayFrom` -/

@[simp] theorem replayFrom_range (now : Arch) (a : Arch) : (replayFrom a now).range = a.range := rfl
@[simp] theorem replayFrom_code (now : Arch) (a : Arch) : (replayFrom a now).code = a.code := rfl
@[simp] theorem replayFrom_corrupted (now : Arch) (a : Arch) : (replayFrom a now).corrupted = a.corrupted := rfl
@[simp] theorem replayFrom_state (now : Arch) (a : Arch) : (replayFrom a now).state = a.state := rfl
@[simp] theorem replayFrom_rep0 (now : Arch) (a : Arch) : (replayFrom a now).rep0 = a.rep0 := rfl
@[simp] theorem replayFrom_rep1 (now : Arch) (a : Arch) : (replayFrom a now).rep1 = a.rep1 := rfl
@[simp] theorem replayFrom_rep2 (now : Arch) (a : Arch) : (replayFrom a now).rep2 = a.rep2 := rfl
@[simp] theorem replayFrom_rep3 (now : Arch) (a : Arch) : (replayFrom a now).rep3 = a.rep3 := rfl
@[simp] theorem replayFrom_prob (now : Arch) (a : Arch) : (replayFrom a now).prob = a.prob := rfl
@[simp] theorem replayFrom_buf (now : Arch) (a : Arch) : (replayFrom a now).buf = a.buf := rfl
@[simp] theorem replayFrom_pos (now : Arch) (a : Arch) : (replayFrom a now).pos = a.pos := rfl
@[simp] theorem replayFrom_size (now : Arch) (a : Arch) : (replayFrom a now).size = a.size := rfl
@[simp] theorem replayFrom_isFull (now : Arch) (a : Arch) : (replayFrom a now).isFull = a.isFull := rfl
@[simp] theorem replayFrom_totalPos (now : Arch) (a : Arch) : (replayFrom a now).totalPos = a.totalPos := rfl
@[simp] theorem replayFrom_lc (now : Arch) (a : Arch) : (replayFrom a now).lc = a.lc := rfl
@[simp] theorem replayFrom_lp (now : Arch) (a : Arch) : (replayFrom a now).lp = a.lp := rfl
@[simp] theorem replayFrom_pb (now : Arch) (a : Arch) : (replayFrom a now).pb = a.pb := rfl
@[simp] theorem replayFrom_dictSizeInProperties (now : Arch) (a : Arch) : (replayFrom a now).dictSizeInProperties = a.dictSizeInProperties := rfl
@[simp] theorem replayFrom_dictSize (now : Arch) (a : Arch) : (replayFrom a now).dictSize = a.dictSize := rfl
@[simp] theorem replayFrom_sizeDefined (now : Arch) (a : Arch) : (replayFrom a now).sizeDefined = a.sizeDefined := rfl
@[simp] theorem replayFrom_leftToUnpack (now : Arch) (a : Arch) : (replayFrom a now).leftToUnpack = a.leftToUnpack := rfl
@[simp] theorem replayFrom_declaredSize (now : Arch) (a : Arch) : (replayFrom a now).declaredSize = a.declaredSize := rfl
@[simp] theorem replayFrom_status (now : Arch) (a : Arch) : (replayFrom a now).status = a.status := rfl
@[simp] theorem replayFrom_cause (now : Arch) (a : Arch) : (replayFrom a now).cause = a.cause := rfl
@[simp] theorem replayFrom_phase (now : Arch) (a : Arch) : (replayFrom a now).phase = a.phase := rfl
@[simp] theorem replayFrom_inPos (now : Arch) (a : Arch) : (replayFrom a now).inPos = a.inPos := rfl
@[simp] theorem replayFrom_out (now : Arch) (a : Arch) : (replayFrom a now).out = a.out := rfl
@[simp] theorem replayFrom_flushedPos (now : Arch) (a : Arch) : (replayFrom a now).flushedPos = a.flushedPos := rfl
@[simp] theorem replayFrom_inBytes (now : Arch) (a : Arch) : (replayFrom a now).inBytes = a.inBytes ++ now.inBytes := rfl
@[simp] theorem replayFrom_inEnd (now : Arch) (a : Arch) : (replayFrom a now).inEnd = now.inEnd := rfl
@[simp] theorem replayFrom_params (now : Arch) (a : Arch) : (replayFrom a now).params = a.params := rfl
@[simp] theorem replayFrom_fillReads (now : Arch) (a : Arch) : (replayFrom a now).fillReads = a.fillReads := rfl
@[simp] theorem replayFrom_decisions (now : Arch) (a : Arch) : (replayFrom a now).decisions = a.decisions := rfl

/-! `resetArch` -/

@[simp] theorem resetArch_range (a : Arch) : (resetArch a).range = Arch.reset.range := rfl
@[simp] theorem resetArch_code (a : Arch) : (resetArch a).code = Arch.reset.code := rfl
@[simp] theorem resetArch_corrupted (a : Arch) : (resetArch a).corrupted = Arch.reset.corrupted := rfl
@[simp] theorem resetArch_state (a : Arch) : (resetArch a).state = Arch.reset.state := rfl
@[simp] theorem resetArch_rep0 (a : Arch) : (resetArch a).rep0 = Arch.reset.rep0 := rfl
@[simp] theorem resetArch_rep1 (a : Arch) : (resetArch a).rep1 = Arch.reset.rep1 := rfl
@[simp] theorem resetArch_rep2 (a : Arch) : (resetArch a).rep2 = Arch.reset.rep2 := rfl
@[simp] theorem resetArch_rep3 (a : Arch) : (resetArch a).rep3 = Arch.reset.rep3 := rfl
@[simp] theorem resetArch_prob (a : Arch) : (resetArch a).prob = Arch.reset.prob := rfl
@[simp] theorem resetArch_buf (a : Arch) : (resetArch a).buf = Arch.reset.buf := rfl
@[simp] theorem resetArch_pos (a : Arch) : (resetArch a).pos = Arch.reset.pos := rfl
@[simp] theorem resetArch_size (a : Arch) : (resetArch a).size = Arch.reset.size := rfl
@[simp] theorem resetArch_isFull (a : Arch) : (resetArch a).isFull = Arch.reset.isFull := rfl
@[simp] theorem resetArch_totalPos (a : Arch) : (resetArch a).totalPos = Arch.reset.totalPos := rfl
@[simp] theorem resetArch_lc (a : Arch) : (resetArch a).lc = Arch.reset.lc := rfl
@[simp] theorem resetArch_lp (a : Arch) : (resetArch a).lp = Arch.reset.lp := rfl
@[simp] theorem resetArch_pb (a : Arch) : (resetArch a).pb = Arch.reset.pb := rfl
@[simp] theorem resetArch_dictSizeInProperties (a : Arch) : (resetArch a).dictSizeInProperties = Arch.reset.dictSizeInProperties := rfl
@[simp] theorem resetArch_dictSize (a : Arch) : (resetArch a).dictSize = Arch.reset.dictSize := rfl
@[simp] theorem resetArch_sizeDefined (a : Arch) : (resetArch a).sizeDefined = Arch.reset.sizeDefined := rfl
@[simp] theorem resetArch_leftToUnpack (a : Arch) : (resetArch a).leftToUnpack = Arch.reset.leftToUnpack := rfl
@[simp] theorem resetArch_declaredSize (a : Arch) : (resetArch a).declaredSize = Arch.reset.declaredSize := rfl
@[simp] theorem resetArch_status (a : Arch) : (resetArch a).status = Arch.reset.status := rfl
@[simp] theorem resetArch_cause (a : Arch) : (resetArch a).cause = Arch.reset.cause := rfl
@[simp] theorem resetArch_phase (a : Arch) : (resetArch a).phase = Arch.reset.phase := rfl
@[simp] theorem resetArch_inPos (a : Arch) : (resetArch a).inPos = Arch.reset.inPos := rfl
@[simp] theorem resetArch_out (a : Arch) : (resetArch a).out = Arch.reset.out := rfl
@[simp] theorem resetArch_flushedPos (a : Arch) : (resetArch a).flushedPos = Arch.reset.flushedPos := rfl
@[simp] theorem resetArch_inBytes (a : Arch) : (resetArch a).inBytes = a.inBytes := rfl
@[simp] theorem resetArch_inEnd (a : Arch) : (resetArch a).inEnd = a.inEnd := rfl
@[simp] theorem resetArch_params (a : Arch) : (resetArch a).params = a.params := rfl
@[simp] theorem resetArch_fillReads (a : Arch) : (resetArch a).fillReads = a.fillReads := rfl
@[simp] theorem resetArch_decisions (a : Arch) : (resetArch a).decisions = Arch.reset.decisions := rfl

/-! `advanced`: only the cursor and the wrap flag move (R142). -/

@[simp] theorem advanced_range (a : Arch) : (advanced a).range = a.range := by unfold advanced; split <;> rfl
@[simp] theorem advanced_code (a : Arch) : (advanced a).code = a.code := by unfold advanced; split <;> rfl
@[simp] theorem advanced_corrupted (a : Arch) : (advanced a).corrupted = a.corrupted := by unfold advanced; split <;> rfl
@[simp] theorem advanced_state (a : Arch) : (advanced a).state = a.state := by unfold advanced; split <;> rfl
@[simp] theorem advanced_rep0 (a : Arch) : (advanced a).rep0 = a.rep0 := by unfold advanced; split <;> rfl
@[simp] theorem advanced_rep1 (a : Arch) : (advanced a).rep1 = a.rep1 := by unfold advanced; split <;> rfl
@[simp] theorem advanced_rep2 (a : Arch) : (advanced a).rep2 = a.rep2 := by unfold advanced; split <;> rfl
@[simp] theorem advanced_rep3 (a : Arch) : (advanced a).rep3 = a.rep3 := by unfold advanced; split <;> rfl
@[simp] theorem advanced_prob (a : Arch) : (advanced a).prob = a.prob := by unfold advanced; split <;> rfl
@[simp] theorem advanced_buf (a : Arch) : (advanced a).buf = a.buf := by unfold advanced; split <;> rfl
@[simp] theorem advanced_size (a : Arch) : (advanced a).size = a.size := by unfold advanced; split <;> rfl
@[simp] theorem advanced_totalPos (a : Arch) : (advanced a).totalPos = a.totalPos := by unfold advanced; split <;> rfl
@[simp] theorem advanced_lc (a : Arch) : (advanced a).lc = a.lc := by unfold advanced; split <;> rfl
@[simp] theorem advanced_lp (a : Arch) : (advanced a).lp = a.lp := by unfold advanced; split <;> rfl
@[simp] theorem advanced_pb (a : Arch) : (advanced a).pb = a.pb := by unfold advanced; split <;> rfl
@[simp] theorem advanced_dictSizeInProperties (a : Arch) : (advanced a).dictSizeInProperties = a.dictSizeInProperties := by unfold advanced; split <;> rfl
@[simp] theorem advanced_dictSize (a : Arch) : (advanced a).dictSize = a.dictSize := by unfold advanced; split <;> rfl
@[simp] theorem advanced_sizeDefined (a : Arch) : (advanced a).sizeDefined = a.sizeDefined := by unfold advanced; split <;> rfl
@[simp] theorem advanced_leftToUnpack (a : Arch) : (advanced a).leftToUnpack = a.leftToUnpack := by unfold advanced; split <;> rfl
@[simp] theorem advanced_declaredSize (a : Arch) : (advanced a).declaredSize = a.declaredSize := by unfold advanced; split <;> rfl
@[simp] theorem advanced_status (a : Arch) : (advanced a).status = a.status := by unfold advanced; split <;> rfl
@[simp] theorem advanced_cause (a : Arch) : (advanced a).cause = a.cause := by unfold advanced; split <;> rfl
@[simp] theorem advanced_phase (a : Arch) : (advanced a).phase = a.phase := by unfold advanced; split <;> rfl
@[simp] theorem advanced_inPos (a : Arch) : (advanced a).inPos = a.inPos := by unfold advanced; split <;> rfl
@[simp] theorem advanced_out (a : Arch) : (advanced a).out = a.out := by unfold advanced; split <;> rfl
@[simp] theorem advanced_flushedPos (a : Arch) : (advanced a).flushedPos = a.flushedPos := by unfold advanced; split <;> rfl
@[simp] theorem advanced_inBytes (a : Arch) : (advanced a).inBytes = a.inBytes := by unfold advanced; split <;> rfl
@[simp] theorem advanced_inEnd (a : Arch) : (advanced a).inEnd = a.inEnd := by unfold advanced; split <;> rfl
@[simp] theorem advanced_params (a : Arch) : (advanced a).params = a.params := by unfold advanced; split <;> rfl
@[simp] theorem advanced_fillReads (a : Arch) : (advanced a).fillReads = a.fillReads := by unfold advanced; split <;> rfl
@[simp] theorem advanced_decisions (a : Arch) : (advanced a).decisions = a.decisions := by unfold advanced; split <;> rfl

theorem advanced_pos (a : Arch) : (advanced a).pos = if a.pos + 1#32 = a.size then 0#32 else a.pos + 1#32 := by
  unfold advanced; split <;> rfl

theorem advanced_isFull (a : Arch) : (advanced a).isFull = (decide (a.pos + 1#32 = a.size) || a.isFull) := by
  unfold advanced; split <;> simp_all

@[simp] theorem opStart_opStart (a : Arch) : opStart (opStart a) = opStart a := rfl

/-! `State`: the four parts under the named ends of a step. -/

@[simp] theorem placeWord_arch (s : State) (w : CmdWord) : (placeWord s w).arch = s.arch := rfl
@[simp] theorem placeWord_held (s : State) (w : CmdWord) : (placeWord s w).held = none := rfl
@[simp] theorem placeWord_response (s : State) (w : CmdWord) : (placeWord s w).response = s.response := rfl
@[simp] theorem placeWord_events (s : State) (w : CmdWord) : (placeWord s w).events = .cmd w :: s.events := rfl
@[simp] theorem resetState_arch (s : State) : (resetState s).arch = resetArch s.arch := rfl
@[simp] theorem resetState_held (s : State) : (resetState s).held = none := rfl
@[simp] theorem resetState_response (s : State) : (resetState s).response = .none := rfl
@[simp] theorem resetState_events (s : State) : (resetState s).events = s.events := rfl

end Sys2Proof.Machine
end

