-- ==== Sys2Proof/Laws/Op.lean ====
section
/-! SUPPORT. How operations compose (R13, R14): running a sequence, and three properties that pass from the parts of a sequence to the
whole: what an operation keeps, what it does not depend on, and how much input it needs. -/

namespace Sys2Proof.Machine

/-- An outcome of an operation. -/
abbrev Ended (α : Type) := EStateM.Result Stop Arch α

/-- The state an outcome leaves. -/
def endState : Ended α → Arch
  | .ok _ a => a
  | .error _ a => a

/-- The outcome with its state changed. -/
def mapState (σ : Arch → Arch) : Ended α → Ended α
  | .ok r a => .ok r (σ a)
  | .error e a => .error e (σ a)

@[simp] theorem endState_ok (r : α) (a : Arch) : endState (.ok r a) = a := rfl
@[simp] theorem endState_error (e : Stop) (a : Arch) : endState (.error e a : Ended α) = a := rfl
@[simp] theorem mapState_ok (σ : Arch → Arch) (r : α) (a : Arch) : mapState σ (.ok r a) = .ok r (σ a) := rfl
@[simp] theorem mapState_error (σ : Arch → Arch) (e : Stop) (a : Arch) :
    mapState σ (.error e a : Ended α) = .error e (σ a) := rfl
@[simp] theorem endState_mapState (σ : Arch → Arch) (o : Ended α) : endState (mapState σ o) = σ (endState o) := by
  cases o <;> rfl

/-! ## Running -/

@[simp] theorem run_pure (r : α) (a : Arch) : (pure r : Op α) a = .ok r a := rfl
@[simp] theorem run_get (a : Arch) : (get : Op Arch) a = .ok a a := rfl
@[simp] theorem run_set (b a : Arch) : (set b : Op PUnit) a = .ok () b := rfl
@[simp] theorem run_modify (f : Arch → Arch) (a : Arch) : (modify f : Op PUnit) a = .ok () (f a) := rfl
@[simp] theorem run_throw (e : Stop) (a : Arch) : (throw e : Op α) a = .error e a := rfl
@[simp] theorem run_raise (c : Cause) (a : Arch) : (raise c : Op α) a = .error (.raise c) a := rfl

theorem run_bind (x : Op α) (f : α → Op β) (a : Arch) :
    (x >>= f) a = match x a with
      | .ok r b => f r b
      | .error e b => .error e b := by
  show EStateM.bind x f a = _
  unfold EStateM.bind
  cases x a <;> rfl

/-- The outcome with its result changed. -/
def mapValue (f : α → β) : Ended α → Ended β
  | .ok r a => .ok (f r) a
  | .error e a => .error e a

@[simp] theorem mapValue_ok (f : α → β) (r : α) (a : Arch) : mapValue f (.ok r a) = .ok (f r) a := rfl
@[simp] theorem mapValue_error (f : α → β) (e : Stop) (a : Arch) :
    mapValue f (.error e a : Ended α) = .error e a := rfl
@[simp] theorem endState_mapValue (f : α → β) (o : Ended α) : endState (mapValue f o) = endState o := by
  cases o <;> rfl

/-- An operation and then a function of its result. -/
theorem run_bind_pure (x : Op α) (f : α → β) (a : Arch) : (x >>= fun r => pure (f r)) a = mapValue f (x a) := by
  rw [run_bind]
  cases x a <;> rfl

theorem run_bind_ok {x : Op α} {f : α → Op β} {a b : Arch} {r : α} (h : x a = .ok r b) : (x >>= f) a = f r b := by
  rw [run_bind, h]

theorem run_bind_error {x : Op α} {f : α → Op β} {a b : Arch} {e : Stop} (h : x a = .error e b) :
    (x >>= f) a = .error e b := by
  rw [run_bind, h]

@[simp] theorem run_get_bind (f : Arch → Op β) (a : Arch) : (get >>= f) a = f a a := rfl
@[simp] theorem run_set_bind (b : Arch) (f : PUnit → Op β) (a : Arch) : (set b >>= f) a = f () b := rfl
@[simp] theorem run_modify_bind (g : Arch → Arch) (f : PUnit → Op β) (a : Arch) : (modify g >>= f) a = f () (g a) := rfl

theorem run_raiseIf (p : Bool) (c : Cause) (a : Arch) :
    raiseIf p c a = if p then .error (.raise c) a else .ok () a := by
  cases p <;> rfl

/-- A sequence completes exactly when its two parts do. -/
theorem bind_ok_iff {x : Op α} {f : α → Op β} {a c : Arch} {r : β} :
    (x >>= f) a = .ok r c ↔ ∃ q b, x a = .ok q b ∧ f q b = .ok r c := by
  rw [run_bind]
  constructor
  · intro h
    split at h
    · exact ⟨_, _, by assumption, h⟩
    · cases h
  · rintro ⟨q, b, h, h'⟩
    rw [h]
    exact h'

/-- A sequence stops in its first part or, after that completed, in its second. -/
theorem bind_error_iff {x : Op α} {f : α → Op β} {a c : Arch} {e : Stop} :
    (x >>= f) a = .error e c ↔ x a = .error e c ∨ ∃ q b, x a = .ok q b ∧ f q b = .error e c := by
  rw [run_bind]
  cases h : x a with
  | ok q b =>
    constructor
    · intro h'
      exact .inr ⟨q, b, rfl, h'⟩
    · rintro (h' | ⟨_, _, h', h''⟩)
      · cases h'
      · cases h'
        exact h''
  | error e' b => simp

/-! ## What an operation keeps -/

/-- However it ends, the operation leaves `g` of the state as it was. -/
def Keeps (g : Arch → γ) (op : Op α) : Prop := ∀ a, g (endState (op a)) = g a

theorem Keeps.pure {g : Arch → γ} (r : α) : Keeps g (pure r : Op α) := fun _ => rfl
theorem Keeps.get {g : Arch → γ} : Keeps g (MonadState.get : Op Arch) := fun _ => rfl
theorem Keeps.throw {g : Arch → γ} (e : Stop) : Keeps g (throw e : Op α) := fun _ => rfl

theorem Keeps.raiseIf {g : Arch → γ} (p : Bool) (c : Cause) : Keeps g (raiseIf p c) := by
  intro a
  rw [run_raiseIf]
  cases p <;> rfl

theorem Keeps.modify {g : Arch → γ} {f : Arch → Arch} (h : ∀ a, g (f a) = g a) : Keeps g (modify f : Op PUnit) := h

theorem Keeps.bind {g : Arch → γ} {x : Op α} {f : α → Op β} (hx : Keeps g x) (hf : ∀ r, Keeps g (f r)) :
    Keeps g (x >>= f) := by
  intro a
  have h := hx a
  rw [run_bind]
  cases hr : x a with
  | ok r b => rw [hr] at h; exact (hf r b).trans h
  | error e b => rw [hr] at h; exact h

theorem Keeps.get_bind {g : Arch → γ} {f : Arch → Op β} (hf : ∀ a, g (endState (f a a)) = g a) :
    Keeps g (MonadState.get >>= f) := hf

theorem Keeps.ite {g : Arch → γ} {p : Prop} [Decidable p] {x y : Op α} (hx : Keeps g x) (hy : Keeps g y) :
    Keeps g (if p then x else y) := by
  split
  · exact hx
  · exact hy

/-- What is kept under `g` is kept under every function of `g`. -/
theorem Keeps.comp {g : Arch → γ} {op : Op α} (k : γ → δ) (h : Keeps g op) : Keeps (fun a => k (g a)) op :=
  fun a => congrArg k (h a)

/-! ## What an operation keeps true -/

/-- However it ends, the operation leaves `P` true if it was. -/
def Preserves (P : Arch → Prop) (op : Op α) : Prop := ∀ a, P a → P (endState (op a))

theorem Preserves.pure {P : Arch → Prop} (r : α) : Preserves P (pure r : Op α) := fun _ h => h
theorem Preserves.get {P : Arch → Prop} : Preserves P (MonadState.get : Op Arch) := fun _ h => h
theorem Preserves.throw {P : Arch → Prop} (e : Stop) : Preserves P (throw e : Op α) := fun _ h => h

theorem Preserves.raiseIf {P : Arch → Prop} (p : Bool) (c : Cause) : Preserves P (raiseIf p c) := by
  intro a h
  rw [run_raiseIf]
  cases p <;> exact h

theorem Preserves.modify {P : Arch → Prop} {f : Arch → Arch} (h : ∀ a, P a → P (f a)) :
    Preserves P (modify f : Op PUnit) := h

theorem Preserves.bind {P : Arch → Prop} {x : Op α} {f : α → Op β} (hx : Preserves P x) (hf : ∀ r, Preserves P (f r)) :
    Preserves P (x >>= f) := by
  intro a ha
  have h := hx a ha
  rw [run_bind]
  cases hr : x a with
  | ok r b => rw [hr] at h; exact hf r b h
  | error e b => rw [hr] at h; exact h

theorem Preserves.ite {P : Arch → Prop} {p : Prop} [Decidable p] {x y : Op α} (hx : Preserves P x) (hy : Preserves P y) :
    Preserves P (if p then x else y) := by
  split
  · exact hx
  · exact hy

theorem Keeps.preserves {g : Arch → γ} {op : Op α} (h : Keeps g op) (Q : γ → Prop) : Preserves (fun a => Q (g a)) op := by
  intro a ha
  show Q (g (endState (op a)))
  rw [h a]
  exact ha

/-! ## What an operation does not depend on -/

/-- Running after `σ` is running and then `σ`: the operation neither reads nor overwrites what `σ` changes. -/
def Commutes (σ : Arch → Arch) (op : Op α) : Prop := ∀ a, op (σ a) = mapState σ (op a)

theorem Commutes.pure {σ : Arch → Arch} (r : α) : Commutes σ (pure r : Op α) := fun _ => rfl
theorem Commutes.throw {σ : Arch → Arch} (e : Stop) : Commutes σ (throw e : Op α) := fun _ => rfl

theorem Commutes.modify {σ f : Arch → Arch} (h : ∀ a, f (σ a) = σ (f a)) : Commutes σ (modify f : Op PUnit) :=
  fun a => congrArg (EStateM.Result.ok ()) (h a)

theorem Commutes.bind {σ : Arch → Arch} {x : Op α} {f : α → Op β} (hx : Commutes σ x) (hf : ∀ r, Commutes σ (f r)) :
    Commutes σ (x >>= f) := by
  intro a
  rw [run_bind, hx a, run_bind]
  cases hr : x a with
  | ok r b => exact hf r b
  | error e b => rfl

/-- A read of the state commutes when what is done with it does. -/
theorem Commutes.get_bind {σ : Arch → Arch} {f : Arch → Op β} (hf : ∀ a, f (σ a) (σ a) = mapState σ (f a a)) :
    Commutes σ (get >>= f) := hf

theorem Commutes.ite {σ : Arch → Arch} {p : Prop} [Decidable p] {x y : Op α} (hx : Commutes σ x) (hy : Commutes σ y) :
    Commutes σ (if p then x else y) := by
  split
  · exact hx
  · exact hy

/-! ## How much input an operation needs -/

/-- From `a` with `n` bytes at hand the operation completes, uses at most `n` of them, and `Q` holds of its result and
the state it leaves. -/
def Completes (n : Nat) (op : Op α) (a : Arch) (Q : α → Arch → Prop) : Prop :=
  n ≤ a.inBytes.length → ∃ r b, op a = .ok r b ∧ a.inBytes.length ≤ b.inBytes.length + n ∧ Q r b

theorem Completes.of_ok {op : Op α} {a b : Arch} {r : α} {Q : α → Arch → Prop} (h : op a = .ok r b)
    (hb : b.inBytes = a.inBytes) (hQ : Q r b) : Completes 0 op a Q :=
  fun _ => ⟨r, b, h, by rw [hb]; omega, hQ⟩

theorem Completes.bind {m n : Nat} {x : Op α} {f : α → Op β} {a : Arch} {S : α → Arch → Prop} {Q : β → Arch → Prop}
    (hx : Completes m x a S) (hf : ∀ r b, S r b → Completes n (f r) b Q) : Completes (m + n) (x >>= f) a Q := by
  intro hn
  obtain ⟨q, b, hq, hlen, hs⟩ := hx (by omega)
  obtain ⟨r, c, hr, hlen', ht⟩ := hf q b hs (by omega)
  exact ⟨r, c, by rw [run_bind_ok hq]; exact hr, by omega, ht⟩

theorem Completes.weaken {n m : Nat} {op : Op α} {a : Arch} {Q Q' : α → Arch → Prop} (h : Completes n op a Q)
    (hn : n ≤ m) (hQ : ∀ r b, Q r b → Q' r b) : Completes m op a Q' := by
  intro hm
  obtain ⟨r, b, hr, hlen, hq⟩ := h (by omega)
  exact ⟨r, b, hr, by omega, hQ r b hq⟩

end Sys2Proof.Machine
end

