-- ==== Sys2Proof/Laws/Closure.lean ====
section
/-! SUPPORT. A property that passes through sequences passes from the primitive operations to every composite one: one lemma per
composite operation, for all properties of that kind at once. -/

namespace Sys2Proof.Machine

/-- The property holds of an operation that only answers, and of a sequence when it holds of the parts. -/
structure Closed (Q : ∀ {α : Type}, Op α → Prop) : Prop where
  pure : ∀ {α : Type} (r : α), Q (pure r : Op α)
  bind : ∀ {α β : Type} {x : Op α} {f : α → Op β}, Q x → (∀ r, Q (f r)) → Q (x >>= f)

/-- The part of the state that a composite operation reads by itself (to guard, to select, to form an address): everything
but the advisory flag, the log, the input, the output, the count of free values, and a budget that is not defined. -/
def view (a : Arch) : Arch :=
  { a with
    corrupted := false, decisions := [], inBytes := [], inEnd := false, inPos := 0#64, out := [], fillReads := 0,
    leftToUnpack := if a.sizeDefined then a.leftToUnpack else 0#64 }

/-- What is done with a read of the state depends on its view alone. -/
def Reads (f : Arch → γ) : Prop := ∀ a b, view a = view b → f a = f b

/-- The property also passes through such a read, and through a stop that the operation decides on. -/
structure ClosedGet (Q : ∀ {α : Type}, Op α → Prop) : Prop extends Closed Q where
  getBind : ∀ {β : Type} {f : Arch → Op β}, Reads f → (∀ a, Q (f a)) → Q (get >>= f)
  raise : ∀ {α : Type} (c : Cause), c ≠ .truncatedInput → c ≠ .none → c ≠ .internal → Q (raise c : Op α)

theorem keeps_closed (g : Arch → γ) : ClosedGet (fun {_} op => Keeps g op) where
  pure := Keeps.pure
  bind := Keeps.bind
  getBind _ hf := Keeps.bind Keeps.get hf
  raise _ _ _ _ := Keeps.throw _

theorem preserves_closed (P : Arch → Prop) : ClosedGet (fun {_} op => Preserves P op) where
  pure := Preserves.pure
  bind := Preserves.bind
  getBind _ hf := Preserves.bind Preserves.get hf
  raise _ _ _ _ := Preserves.throw _

/-! ## What the view determines -/

section

variable {a b : Arch} (h : view a = view b)
include h

theorem view_code : a.code = b.code := (congrArg Arch.code h : (view a).code = (view b).code)
theorem view_state : a.state = b.state := (congrArg Arch.state h : (view a).state = (view b).state)
theorem view_rep0 : a.rep0 = b.rep0 := (congrArg Arch.rep0 h : (view a).rep0 = (view b).rep0)
theorem view_pos : a.pos = b.pos := (congrArg Arch.pos h : (view a).pos = (view b).pos)
theorem view_size : a.size = b.size := (congrArg Arch.size h : (view a).size = (view b).size)
theorem view_isFull : a.isFull = b.isFull := (congrArg Arch.isFull h : (view a).isFull = (view b).isFull)
theorem view_totalPos : a.totalPos = b.totalPos := (congrArg Arch.totalPos h : (view a).totalPos = (view b).totalPos)
theorem view_lc : a.lc = b.lc := (congrArg Arch.lc h : (view a).lc = (view b).lc)
theorem view_lp : a.lp = b.lp := (congrArg Arch.lp h : (view a).lp = (view b).lp)
theorem view_pb : a.pb = b.pb := (congrArg Arch.pb h : (view a).pb = (view b).pb)
theorem view_dictSize : a.dictSize = b.dictSize := (congrArg Arch.dictSize h : (view a).dictSize = (view b).dictSize)
theorem view_sizeDefined : a.sizeDefined = b.sizeDefined := (congrArg Arch.sizeDefined h : (view a).sizeDefined = (view b).sizeDefined)
theorem view_params : a.params = b.params := (congrArg Arch.params h : (view a).params = (view b).params)

theorem view_left (hd : a.sizeDefined = true) : a.leftToUnpack = b.leftToUnpack := by
  have hb : b.sizeDefined = true := (view_sizeDefined h).symm.trans hd
  have hl := (congrArg Arch.leftToUnpack h : (view a).leftToUnpack = (view b).leftToUnpack)
  simpa [view, hd, hb] using hl

theorem view_budgetSpent : budgetSpent a = budgetSpent b := by
  unfold budgetSpent
  rw [← view_sizeDefined h]
  cases hd : a.sizeDefined
  · rfl
  · rw [view_left h hd]

theorem view_overruns (n : Nat) : overruns a n = overruns b n := by
  unfold overruns
  rw [← view_sizeDefined h]
  cases hd : a.sizeDefined
  · rfl
  · rw [view_left h hd]

theorem view_finok : finok a = finok b := by unfold finok; rw [view_code h]

theorem view_windowEmpty : windowEmpty a = windowEmpty b := by
  unfold windowEmpty
  rw [view_pos h, view_isFull h]

theorem view_distanceOk (d : Word) : distanceOk a d = distanceOk b d := by
  unfold distanceOk
  rw [view_pos h, view_isFull h]

theorem view_newDistanceOk : newDistanceOk a = newDistanceOk b := by
  unfold newDistanceOk
  rw [view_rep0 h, view_dictSize h, view_distanceOk h]

theorem view_posState : posState a = posState b := by
  unfold posState
  rw [view_totalPos h, view_pb h]

theorem view_litState (p : Byte) : litState a p = litState b p := by
  unfold litState
  rw [view_totalPos h, view_lp h, view_lc h]

theorem view_finishesWithoutMarker : finishesWithoutMarker a = finishesWithoutMarker b := by
  unfold finishesWithoutMarker
  rw [view_budgetSpent h, view_finok h]

theorem view_endTestFlush : endTestFlush a = endTestFlush b := by
  unfold endTestFlush
  rw [view_budgetSpent h]

theorem view_lookback (d : Nat) : lookback a d = lookback b d := by
  unfold lookback lookbackOk lookbackIndex
  rw [view_pos h, view_size h]

theorem view_overCap (n : Word) : overCap a n = overCap b n := by
  unfold overCap
  rw [view_params h]

theorem view_sizeMismatch :
    (a.sizeDefined && decide (a.leftToUnpack ≠ 0#64)) = (b.sizeDefined && decide (b.leftToUnpack ≠ 0#64)) := by
  rw [← view_sizeDefined h]
  cases hd : a.sizeDefined
  · rfl
  · rw [view_left h hd]

theorem view_clamped (n : Nat) : clamped a n = clamped b n := by
  unfold clamped
  rw [← view_overruns h]
  cases ho : overruns a n
  · rfl
  · have hd : a.sizeDefined = true := by
      simp only [overruns, Bool.and_eq_true] at ho
      exact ho.1
    rw [view_left h hd]

end

theorem commutes_closed (σ : Arch → Arch) : Closed (fun {_} op => Commutes σ op) where
  pure := Commutes.pure
  bind := Commutes.bind

variable {Q : ∀ {α : Type}, Op α → Prop}

theorem ClosedGet.raiseIf (c : ClosedGet Q) (p : Bool) {cause : Cause} (h1 : cause ≠ .truncatedInput := by decide)
    (h2 : cause ≠ .none := by decide) (h3 : cause ≠ .internal := by decide) : Q (raiseIf p cause) := by
  cases p
  · exact c.pure ()
  · exact c.raise _ h1 h2 h3

/-! ## Trees, codes and direct bits -/

/-- The cells a walk of `n` decisions from node `m` can visit. -/
theorem btWalk_closed (c : Closed Q) {T : Nat} (n m : Nat)
    (h : ∀ k, T + m ≤ k → k < T + (m + 1) * 2 ^ (n - 1) → Q (rcBit k)) : Q (btWalk T n m) := by
  induction n generalizing m with
  | zero => exact c.pure m
  | succ n ih =>
    rw [Nat.add_sub_cancel] at h
    have hp : m + 1 ≤ (m + 1) * 2 ^ n := Nat.le_mul_of_pos_right _ (Nat.two_pow_pos n)
    refine c.bind (h _ (Nat.le_refl _) (by omega)) fun bit => ?_
    cases n with
    | zero => exact c.pure _
    | succ n =>
      refine ih (2 * m + bit.toNat) fun k h1 h2 => h k (by omega) ?_
      have hb : bit.toNat ≤ 1 := Bool.toNat_le bit
      rw [Nat.add_sub_cancel] at h2
      have : (2 * m + bit.toNat + 1) * 2 ^ n ≤ (m + 1) * 2 ^ (n + 1) := by
        rw [Nat.pow_succ, Nat.mul_comm (2 ^ n) 2, ← Nat.mul_assoc]
        exact Nat.mul_le_mul_right _ (by omega)
      omega

/-- A forward tree of `n` bits visits its own cells 1 to `2^n - 1` (R121, R124). -/
theorem btFwd_closed (c : Closed Q) {T n : Nat} (h : ∀ k, T < k → k < T + 2 ^ n → Q (rcBit k)) : Q (btFwd T n) := by
  refine c.bind ?_ fun m => c.pure _
  cases n with
  | zero => exact c.pure _
  | succ n =>
    refine btWalk_closed c _ _ fun k h1 h2 => h k (by omega) ?_
    rw [Nat.add_sub_cancel] at h2
    rw [Nat.pow_succ]
    omega

theorem btRevWalk_closed (c : Closed Q) {T : Nat} (n i m sym : Nat)
    (h : ∀ k, T + m ≤ k → k < T + (m + 1) * 2 ^ (n - 1) → Q (rcBit k)) : Q (btRevWalk T n i m sym) := by
  induction n generalizing i m sym with
  | zero => exact c.pure sym
  | succ n ih =>
    rw [Nat.add_sub_cancel] at h
    have hp : m + 1 ≤ (m + 1) * 2 ^ n := Nat.le_mul_of_pos_right _ (Nat.two_pow_pos n)
    refine c.bind (h _ (Nat.le_refl _) (by omega)) fun bit => ?_
    cases n with
    | zero => exact c.pure _
    | succ n =>
      refine ih _ (2 * m + bit.toNat) _ fun k h1 h2 => h k (by omega) ?_
      have hb : bit.toNat ≤ 1 := Bool.toNat_le bit
      rw [Nat.add_sub_cancel] at h2
      have : (2 * m + bit.toNat + 1) * 2 ^ n ≤ (m + 1) * 2 ^ (n + 1) := by
        rw [Nat.pow_succ, Nat.mul_comm (2 ^ n) 2, ← Nat.mul_assoc]
        exact Nat.mul_le_mul_right _ (by omega)
      omega

/-- A reverse tree visits the same cells (R122). -/
theorem btRev_closed (c : Closed Q) {T n : Nat} (h : ∀ k, T < k → k < T + 2 ^ n → Q (rcBit k)) : Q (btRev T n) := by
  unfold btRev
  cases n with
  | zero => exact c.pure _
  | succ n =>
    refine btRevWalk_closed c _ _ _ _ fun k h1 h2 => h k (by omega) ?_
    rw [Nat.add_sub_cancel] at h2
    rw [Nat.pow_succ]
    omega

theorem rcDirectRounds_closed (c : Closed Q) (h : Q rcDirectRound) (n : Nat) (res : Word) : Q (rcDirectRounds n res) := by
  induction n generalizing res with
  | zero => exact c.pure res
  | succ n ih => exact c.bind h fun t => ih _

theorem rcDirect_closed (c : Closed Q) (h : Q rcDirectRound) (n : Nat) : Q (rcDirect n) :=
  rcDirectRounds_closed c h n 0#32

/-! ## Length and distance codes -/

theorem lengthLow_closed (c : Closed Q) {inst : LenInst} {ps : BitVec 4} (h : ∀ k, inTree (lowTree inst ps) 3 k → Q (rcBit k)) :
    Q (lengthLow inst ps) :=
  btFwd_closed c fun k h1 h2 => h k ⟨h1, h2⟩

theorem lengthMid_closed (c : Closed Q) {inst : LenInst} {ps : BitVec 4} (h : ∀ k, inTree (midTree inst ps) 3 k → Q (rcBit k)) :
    Q (lengthMid inst ps) :=
  c.bind (btFwd_closed c fun k h1 h2 => h k ⟨h1, h2⟩) fun _ => c.pure _

theorem lengthHigh_closed (c : Closed Q) {inst : LenInst} (h : ∀ k, inTree (highTree inst) 8 k → Q (rcBit k)) :
    Q (lengthHigh inst) :=
  c.bind (btFwd_closed c fun k h1 h2 => h k ⟨h1, h2⟩) fun _ => c.pure _

/-- A length code visits cells of its own instance and posState alone (R131, R132). -/
theorem lenDec_closed (c : Closed Q) {inst : LenInst} {ps : BitVec 4} (h : ∀ k, lengthCells inst ps k → Q (rcBit k)) :
    Q (lenDec inst ps) := by
  refine c.bind (h _ (.inl rfl)) fun b => ?_
  cases b
  · exact lengthLow_closed c fun k hk => h k (.inr (.inr (.inl hk)))
  · refine c.bind (h _ (.inr (.inl rfl))) fun b => ?_
    cases b
    · exact lengthMid_closed c fun k hk => h k (.inr (.inr (.inr (.inl hk))))
    · exact lengthHigh_closed c fun k hk => h k (.inr (.inr (.inr (.inr hk))))

/-- The ten trees of slots 4 to 13 stay inside `P.posSpecial` (R28). -/
theorem specialTree_bound {slot : Nat} (h1 : 4 ≤ slot) (h2 : slot < 14) :
    cell .posSpecial 0 ≤ specialTree slot ∧ specialTree slot + 2 ^ slotDirectBits slot ≤ cell .posSpecial 0 + 115 := by
  have h : slot = 4 ∨ slot = 5 ∨ slot = 6 ∨ slot = 7 ∨ slot = 8 ∨ slot = 9 ∨ slot = 10 ∨ slot = 11 ∨ slot = 12 ∨
      slot = 13 := by omega
  rcases h with rfl | rfl | rfl | rfl | rfl | rfl | rfl | rfl | rfl | rfl <;> decide

theorem distTail_closed (c : Closed Q) {slot : Nat} (h : ∀ k, slotLowCells slot k → Q (rcBit k)) (hd : Q rcDirectRound) :
    Q (distTail slot) := by
  unfold distTail
  split
  · exact c.pure _
  · have h1 : 4 ≤ slot := Nat.not_lt.mp ‹_›
    split
    · refine c.bind (btRev_closed c fun k h3 h4 => h k ⟨h1, ?_⟩) fun low => c.pure _
      rw [if_pos ‹_›]
      exact ⟨h3, h4⟩
    · refine c.bind (rcDirect_closed c hd _) fun hi => c.bind (btRev_closed c fun k h3 h4 => h k ⟨h1, ?_⟩) fun lo => c.pure _
      rw [if_neg ‹_›]
      exact ⟨h3, h4⟩

/-- A distance code visits the slot tree of its length and the cells below the slot it decodes (R216). -/
theorem distDec_closed (c : Closed Q) {len : Nat} (h : ∀ k, distCells len k → Q (rcBit k)) (hd : Q rcDirectRound) :
    Q (distDec len) :=
  c.bind (btFwd_closed c fun k h1 h2 => h k (.inl ⟨h1, h2⟩)) fun slot =>
    c.bind (distTail_closed c (fun k hk => h k (.inr ⟨slot, hk⟩)) hd) fun _ => c.pure _

/-! ## The window and the literal -/

theorem dwCopy_closed (c : Closed Q) {dist : Nat} (hg : Q (dwGet dist)) (hp : ∀ b, Q (dwPut b)) (n : Nat) :
    Q (dwCopy dist n) := by
  induction n with
  | zero => exact c.pure ()
  | succ n ih => exact c.bind hg fun b => c.bind (hp b) fun _ => ih

/-- A literal's walk stays inside the first 256 cells of its context (R202). -/
theorem litPlain_closed (c : Closed Q) {T n sym : Nat} (h1 : 1 ≤ sym) (h2 : (sym + 1) * 2 ^ (n - 1) ≤ 256)
    (h : ∀ k, T < k → k < T + 0x300 → Q (rcBit k)) : Q (litPlain T n sym) :=
  btWalk_closed c n sym fun k h3 h4 => h k (by omega) (by omega)

/-- Matched mode stays inside the 768 cells of the context (R203). -/
theorem litMatched_closed (c : Closed Q) {T : Nat} (n : Nat) (mb : Byte) (sym : Nat) (h1 : 1 ≤ sym)
    (h2 : (sym + 1) * 2 ^ (n - 1) ≤ 256) (h : ∀ k, T < k → k < T + 0x300 → Q (rcBit k)) :
    Q (litMatched T n mb sym) := by
  induction n generalizing mb sym with
  | zero => exact c.pure sym
  | succ n ih =>
    rw [Nat.add_sub_cancel] at h2
    have hp : sym + 1 ≤ (sym + 1) * 2 ^ n := Nat.le_mul_of_pos_right _ (Nat.two_pow_pos n)
    have hm : (mb.msb).toNat ≤ 1 := Bool.toNat_le _
    refine c.bind (h _ (by unfold matchedIndex; omega) (by unfold matchedIndex; omega)) fun bit => ?_
    have hb : bit.toNat ≤ 1 := Bool.toNat_le bit
    have h2' : (2 * sym + bit.toNat + 1) * 2 ^ (n - 1) ≤ 256 ∨ n = 0 := by
      cases n with
      | zero => exact .inr rfl
      | succ n =>
        left
        rw [Nat.add_sub_cancel]
        have : (2 * sym + bit.toNat + 1) * 2 ^ n ≤ (sym + 1) * 2 ^ (n + 1) := by
          rw [Nat.pow_succ, Nat.mul_comm (2 ^ n) 2, ← Nat.mul_assoc]
          exact Nat.mul_le_mul_right _ (by omega)
        omega
    rcases h2' with h2' | rfl
    · split
      · exact ih _ _ (by omega) h2'
      · exact litPlain_closed c (by omega) h2' h
    · split <;> exact c.pure _

end Sys2Proof.Machine
end

