-- ==== Sys2Proof/Laws/Memory.lean ====
section
/-! SUPPORT. The two memories: a read after a write, the frame of a write, and that every memory operation keeps the canonical form
and the bounds of the entries. -/

namespace Sys2Proof.Machine

/-! ## DICT -/

@[simp] theorem dictRead_dictWrite_same (m : DictMem) (a : Nat) (b : Byte) : dictRead (dictWrite m a b) a = some b := by
  induction m with
  | nil => simp [dictWrite, dictRead]
  | cons e m ih =>
    obtain ⟨k, v⟩ := e
    unfold dictWrite
    split
    · simp [dictRead]
    · split
      · simp [dictRead]
      · simp [dictRead, *]

theorem dictRead_of_lt {lo : Nat} {m : DictMem} (h : dictFrom lo m = true) {a : Nat} (ha : a < lo) :
    dictRead m a = none := by
  cases m with
  | nil => rfl
  | cons e m =>
    obtain ⟨k, v⟩ := e
    simp only [dictFrom, Bool.and_eq_true, decide_eq_true_eq] at h
    unfold dictRead
    rw [if_neg (by omega), if_pos (by omega)]

/-- A write changes no other cell. No canonical form is needed: the list is searched the same way it was written. -/
theorem dictRead_dictWrite_other (m : DictMem) {a x : Nat} (h : x ≠ a) (b : Byte) :
    dictRead (dictWrite m a b) x = dictRead m x := by
  induction m with
  | nil => simp [dictWrite, dictRead, h]
  | cons e m ih =>
    obtain ⟨k, v⟩ := e
    unfold dictWrite
    split
    · subst_vars
      simp [dictRead, h]
    · split
      · by_cases hx : x < a
        · have h1 : x ≠ k := by omega
          have h2 : x < k := by omega
          simp [dictRead, h, hx, h1, h2]
        · simp [dictRead, h, hx]
      · unfold dictRead
        rw [ih]

theorem dictFrom_mono {lo lo' : Nat} {m : DictMem} (h : dictFrom lo m = true) (hl : lo' ≤ lo) : dictFrom lo' m = true := by
  cases m with
  | nil => rfl
  | cons e m =>
    obtain ⟨k, v⟩ := e
    simp only [dictFrom, Bool.and_eq_true, decide_eq_true_eq] at h ⊢
    exact ⟨by omega, h.2⟩

theorem dictFrom_dictWrite {lo : Nat} {m : DictMem} (h : dictFrom lo m = true) {a : Nat} (ha : lo ≤ a) (b : Byte) :
    dictFrom lo (dictWrite m a b) = true := by
  induction m generalizing lo with
  | nil => simp [dictWrite, dictFrom, ha]
  | cons e m ih =>
    obtain ⟨k, v⟩ := e
    simp only [dictFrom, Bool.and_eq_true, decide_eq_true_eq] at h
    unfold dictWrite
    split
    · subst_vars
      simp [dictFrom, ha, h.2]
    · split
      · simp only [dictFrom, Bool.and_eq_true, decide_eq_true_eq]
        exact ⟨ha, by omega, h.2⟩
      · simp only [dictFrom, Bool.and_eq_true, decide_eq_true_eq]
        exact ⟨h.1, ih h.2 (by omega)⟩

/-- Writing a cell of `DICT` keeps its canonical form. -/
theorem dictWrite_wf {m : DictMem} (h : DictMem.wf m = true) (a : Nat) (b : Byte) : DictMem.wf (dictWrite m a b) = true :=
  dictFrom_dictWrite h (Nat.zero_le a) b

/-- Writing a cell below `n` keeps every written cell below `n`. -/
theorem dictWrite_below {n : Nat} {m : DictMem} (h : DictMem.below n m = true) {a : Nat} (ha : a < n) (b : Byte) :
    DictMem.below n (dictWrite m a b) = true := by
  induction m with
  | nil => simp [dictWrite, DictMem.below, ha]
  | cons e m ih =>
    obtain ⟨k, v⟩ := e
    simp only [DictMem.below, List.all_cons, Bool.and_eq_true, decide_eq_true_eq] at h ih ⊢
    unfold dictWrite
    split
    · simp [ha, h.2]
    · split
      · simp [ha, h.1, h.2]
      · simp only [List.all_cons, Bool.and_eq_true, decide_eq_true_eq]
        exact ⟨h.1, ih h.2⟩

/-! ## PROB -/

@[simp] theorem probRead_nil (k : Nat) : probRead [] k = 1024#11 := rfl

theorem probRead_of_lt {lo : Nat} {m : ProbMem} (h : probFrom lo m = true) {a : Nat} (ha : a < lo) :
    probRead m a = Config.kProbInit := by
  cases m with
  | nil => rfl
  | cons e m =>
    obtain ⟨k, v⟩ := e
    simp only [probFrom, Bool.and_eq_true, decide_eq_true_eq] at h
    unfold probRead
    rw [if_neg (by omega), if_pos (by omega)]

/-- A write is read back; on a list that is in canonical form. -/
theorem probRead_probWrite_from {lo : Nat} {m : ProbMem} (h : probFrom lo m = true) (a : Nat) (p : Prob) :
    probRead (probWrite m a p) a = p := by
  induction m generalizing lo with
  | nil =>
    unfold probWrite
    split
    · simp_all [probRead]
    · simp [probRead]
  | cons e m ih =>
    obtain ⟨k, v⟩ := e
    simp only [probFrom, Bool.and_eq_true, decide_eq_true_eq] at h
    unfold probWrite
    split
    · subst_vars
      split
      · rw [probRead_of_lt h.2 (Nat.lt_succ_self _)]
        exact Eq.symm (by assumption)
      · simp [probRead]
    · split
      · split
        · subst_vars
          unfold probRead
          rw [if_neg (by omega), if_pos (by omega)]
        · simp [probRead]
      · simp [probRead, ih h.2, *]

theorem probRead_probWrite_same {m : ProbMem} (h : ProbMem.wf m = true) (a : Nat) (p : Prob) :
    probRead (probWrite m a p) a = p :=
  probRead_probWrite_from h a p

/-- A write changes no other cell; on a list that is in canonical form (removing an entry uncovers what is behind it). -/
theorem probRead_probWrite_from_other {lo : Nat} {m : ProbMem} (h : probFrom lo m = true) {a x : Nat} (hx : x ≠ a)
    (p : Prob) : probRead (probWrite m a p) x = probRead m x := by
  induction m generalizing lo with
  | nil =>
    unfold probWrite
    split
    · rfl
    · simp [probRead, hx]
  | cons e m ih =>
    obtain ⟨k, v⟩ := e
    simp only [probFrom, Bool.and_eq_true, decide_eq_true_eq] at h
    unfold probWrite
    split
    · subst_vars
      split
      · by_cases hlt : x < k
        · rw [probRead_of_lt h.2 (by omega)]
          simp [probRead, hx, hlt]
        · simp [probRead, hx, hlt]
      · simp [probRead, hx]
    · split
      · split
        · rfl
        · by_cases hlt : x < a
          · have h1 : x ≠ k := by omega
            have h2 : x < k := by omega
            simp [probRead, hx, hlt, h1, h2]
          · simp [probRead, hx, hlt]
      · unfold probRead
        rw [ih h.2]

theorem probRead_probWrite_other {m : ProbMem} (h : ProbMem.wf m = true) {a x : Nat} (hx : x ≠ a) (p : Prob) :
    probRead (probWrite m a p) x = probRead m x :=
  probRead_probWrite_from_other h hx p

theorem probFrom_mono {lo lo' : Nat} {m : ProbMem} (h : probFrom lo m = true) (hl : lo' ≤ lo) : probFrom lo' m = true := by
  cases m with
  | nil => rfl
  | cons e m =>
    obtain ⟨k, v⟩ := e
    simp only [probFrom, Bool.and_eq_true, decide_eq_true_eq] at h ⊢
    exact ⟨⟨by omega, h.1.2⟩, h.2⟩

theorem probFrom_probWrite {lo : Nat} {m : ProbMem} (h : probFrom lo m = true) {a : Nat} (ha : lo ≤ a) (p : Prob) :
    probFrom lo (probWrite m a p) = true := by
  induction m generalizing lo with
  | nil =>
    unfold probWrite
    split
    · rfl
    · simp [probFrom, *]
  | cons e m ih =>
    obtain ⟨k, v⟩ := e
    simp only [probFrom, Bool.and_eq_true, decide_eq_true_eq] at h
    unfold probWrite
    split
    · subst_vars
      split
      · exact probFrom_mono h.2 (by omega)
      · simp [probFrom, *]
    · split
      · split
        · simp [probFrom, h.1.1, h.1.2, h.2]
        · simp only [probFrom, Bool.and_eq_true, decide_eq_true_eq]
          exact ⟨⟨ha, by assumption⟩, ⟨by omega, h.1.2⟩, h.2⟩
      · simp only [probFrom, Bool.and_eq_true, decide_eq_true_eq]
        exact ⟨h.1, ih h.2 (by omega)⟩

/-- Writing a cell of `PROB` keeps its canonical form. -/
theorem probWrite_wf {m : ProbMem} (h : ProbMem.wf m = true) (a : Nat) (p : Prob) : ProbMem.wf (probWrite m a p) = true :=
  probFrom_probWrite h (Nat.zero_le a) p

/-- In a memory whose entries are in 31 to 2017 every cell is (R26). -/
theorem probRead_inRange {m : ProbMem} (h : m.inRange = true) (k : Nat) :
    31 ≤ (probRead m k).toNat ∧ (probRead m k).toNat ≤ 2017 := by
  induction m with
  | nil =>
    rw [probRead_nil]
    decide
  | cons e m ih =>
    obtain ⟨j, v⟩ := e
    simp only [ProbMem.inRange, List.all_cons, Bool.and_eq_true, decide_eq_true_eq] at h ih
    unfold probRead
    split
    · exact h.1
    · split
      · decide
      · exact ih h.2

theorem probWrite_inRange {m : ProbMem} (h : m.inRange = true) (a : Nat) {p : Prob}
    (hp : 31 ≤ p.toNat ∧ p.toNat ≤ 2017) : (probWrite m a p).inRange = true := by
  induction m with
  | nil =>
    unfold probWrite
    split
    · rfl
    · simp [ProbMem.inRange, hp]
  | cons e m ih =>
    obtain ⟨k, v⟩ := e
    simp only [ProbMem.inRange, List.all_cons, Bool.and_eq_true, decide_eq_true_eq] at h ih ⊢
    unfold probWrite
    split
    · split
      · exact h.2
      · simp only [List.all_cons, Bool.and_eq_true, decide_eq_true_eq]
        exact ⟨hp, h.2⟩
    · split
      · split
        · simp only [List.all_cons, Bool.and_eq_true, decide_eq_true_eq]
          exact h
        · simp only [List.all_cons, Bool.and_eq_true, decide_eq_true_eq]
          exact ⟨hp, h⟩
      · simp only [List.all_cons, Bool.and_eq_true, decide_eq_true_eq]
        exact ⟨h.1, ih h.2⟩

/-- Both updates keep a probability in 31 to 2017 (R26, R102). -/
theorem probUp_inRange {p : Prob} (h : 31 ≤ p.toNat ∧ p.toNat ≤ 2017) :
    31 ≤ (probUp p).toNat ∧ (probUp p).toNat ≤ 2017 := by
  simp only [probUp, Config.kBitModelTotal, Config.kNumMoveBits, BitVec.toNat_ofNat, Nat.reducePow]
  have hq : p.toNat + (2048 - p.toNat) / 32 ≤ 2017 := by
    rcases Nat.eq_zero_or_pos ((2048 - p.toNat) / 32) with hz | hz <;> omega
  rw [Nat.mod_eq_of_lt (by omega)]
  omega

theorem probDown_inRange {p : Prob} (h : 31 ≤ p.toNat ∧ p.toNat ≤ 2017) :
    31 ≤ (probDown p).toNat ∧ (probDown p).toNat ≤ 2017 := by
  simp only [probDown, Config.kNumMoveBits, BitVec.toNat_ofNat, Nat.reducePow]
  have hq : 31 ≤ p.toNat - p.toNat / 32 := by
    rcases Nat.eq_zero_or_pos (p.toNat / 32) with hz | hz <;> omega
  rw [Nat.mod_eq_of_lt (by omega)]
  omega

/-! ## Reset -/

/-- The memories at reset are in canonical form. -/
theorem reset_memory_wf : Memory.wf State.reset.arch = true := by decide

end Sys2Proof.Machine
end

