-- ==== Sys2Proof/Laws/RangeDecoder.lean ====
section
/-! SUPPORT. What the primitive operations of the range decoder can do, said once each (R51, R101, R102, R103), and what an
operation's end makes of a step (R14). -/

namespace Sys2Proof.Machine

/-! ## From an operation's end to the step's outcome -/

theorem runOp_ok {i : Instr} {op : Op Response} {s : State} {r : Response} {b : Arch}
    (h : op (opStart s.arch) = .ok r b) : runOp i op s = .next (completed s b r) := by
  unfold runOp
  rw [h]
  rfl

theorem runOp_raise {i : Instr} {op : Op Response} {s : State} {c : Cause} {b : Arch}
    (h : op (opStart s.arch) = .error (.raise c) b) : runOp i op s = .next (failed s c b) := by
  unfold runOp
  rw [h]
  rfl

theorem runOp_hold {i : Instr} {op : Op Response} {s : State} {b : Arch}
    (h : op (opStart s.arch) = .error .hold b) : runOp i op s = .next (heldAt i s b) := by
  unfold runOp
  rw [h]
  rfl

/-- An operation answers a next state: it completed, held, or raised a hard error (R14). -/
theorem runOp_ends (i : Instr) (op : Op Response) (s : State) :
    (∃ r b, op (opStart s.arch) = .ok r b ∧ runOp i op s = .next (completed s b r)) ∨
    (∃ b, op (opStart s.arch) = .error .hold b ∧ runOp i op s = .next (heldAt i s b)) ∨
    (∃ c b, op (opStart s.arch) = .error (.raise c) b ∧ runOp i op s = .next (failed s c b)) := by
  cases h : op (opStart s.arch) with
  | ok r b => exact .inl ⟨r, b, rfl, runOp_ok h⟩
  | error e b =>
    cases e with
    | hold => exact .inr (.inl ⟨b, rfl, runOp_hold h⟩)
    | raise c => exact .inr (.inr ⟨c, b, rfl, runOp_raise h⟩)

/-- What a next state is, told by how the operation ended. -/
theorem runOp_next_cases {i : Instr} {op : Op Response} {s t : State} (h : runOp i op s = .next t) :
    (∃ r b, op (opStart s.arch) = .ok r b ∧ t = completed s b r) ∨
    (∃ b, op (opStart s.arch) = .error .hold b ∧ t = heldAt i s b) ∨
    (∃ c b, op (opStart s.arch) = .error (.raise c) b ∧ t = failed s c b) := by
  rcases runOp_ends i op s with ⟨r, b, ho, hn⟩ | ⟨b, ho, hn⟩ | ⟨c, b, ho, hn⟩ <;> rw [hn] at h <;> cases h
  · exact .inl ⟨r, b, ho, rfl⟩
  · exact .inr (.inl ⟨b, ho, rfl⟩)
  · exact .inr (.inr ⟨c, b, ho, rfl⟩)

/-- How a read that finds no byte ends (R51). -/
def starvedStop (a : Arch) : Stop := if a.inEnd then .raise .truncatedInput else .hold

theorem runOp_starved {i : Instr} {op : Op Response} {s : State} {b : Arch}
    (h : op (opStart s.arch) = .error (starvedStop b) b) : runOp i op s = .next (starved i s b) := by
  unfold starvedStop at h
  unfold starved
  cases hb : b.inEnd <;> rw [hb] at h
  · exact runOp_hold h
  · exact runOp_raise h

theorem run_answerDone (op : Op Unit) (a : Arch) : answerDone op a = mapValue (fun _ => .done) (op a) :=
  run_bind_pure op _ a

theorem run_answer (f : α → Response) (op : Op α) (a : Arch) : answer f op a = mapValue f (op a) :=
  run_bind_pure op f a

/-! ## InByte and RC.NORM -/

theorem inByte_cons {a : Arch} {b : Byte} {bs : List Byte} (h : a.inBytes = b :: bs) :
    inByte a = .ok b { a with inBytes := bs, inPos := a.inPos + 1 } := by
  unfold inByte
  rw [h]

theorem inByte_nil {a : Arch} (h : a.inBytes = []) : inByte a = .error (starvedStop a) a := by
  unfold inByte starvedStop
  rw [h]
  cases a.inEnd <;> rfl

theorem normalised_of_le {a : Arch} (h : ¬ a.range < 0x01000000#32) : normalised a = a := by
  unfold normalised
  split
  · rw [if_neg h]
  · rfl

theorem rcNorm_ok {a : Arch} (h : ¬ needsByte a) : rcNorm a = .ok () (normalised a) := by
  unfold rcNorm
  rw [run_get_bind]
  by_cases hr : a.range < 0x01000000#32
  · rw [if_pos (by exact hr)]
    cases hb : a.inBytes with
    | nil => exact absurd ⟨hr, hb⟩ h
    | cons b bs =>
      rw [run_bind_ok (inByte_cons hb), run_modify]
      simp [normalised, hb, hr, shiftInByte]
  · rw [if_neg (by exact hr), normalised_of_le hr]
    rfl

theorem rcNorm_stop {a : Arch} (h : needsByte a) : rcNorm a = .error (starvedStop a) a := by
  unfold rcNorm
  rw [run_get_bind, if_pos (by exact h.1), run_bind_error (inByte_nil h.2)]

/-! ## RC.BIT -/

/-- The decision that `RC.BIT` reads from cell `k` (R102). -/
def bitOf (k : Nat) (a : Arch) : Bool := !decide (a.code < rcBound a.range (probRead a.prob k))

/-- The state after that decision and before the normalisation (R102). -/
def bitStep (k : Nat) (a : Arch) : Arch :=
  { a with
    decisions := a.decisions ++ [bitOf k a],
    prob := probWrite a.prob k (if bitOf k a then probDown (probRead a.prob k) else probUp (probRead a.prob k)),
    range := if bitOf k a then a.range - rcBound a.range (probRead a.prob k) else rcBound a.range (probRead a.prob k),
    code := if bitOf k a then a.code - rcBound a.range (probRead a.prob k) else a.code }

/-- `RC.BIT` is its decision, then the normalisation. -/
theorem rcBit_run (k : Nat) (a : Arch) : rcBit k a = mapValue (fun _ => bitOf k a) (rcNorm (bitStep k a)) := by
  unfold rcBit
  rw [run_get_bind]
  by_cases h : a.code < rcBound a.range (probRead a.prob k)
  · rw [if_pos h, run_set_bind, run_bind_pure]
    simp [bitStep, bitOf, h]
  · rw [if_neg h, run_set_bind, run_bind_pure]
    simp [bitStep, bitOf, h]

theorem rcBit_ok {k : Nat} {a : Arch} (h : ¬ needsByte (bitStep k a)) :
    rcBit k a = .ok (bitOf k a) (normalised (bitStep k a)) := by
  rw [rcBit_run, rcNorm_ok h]
  rfl

theorem rcBit_stop {k : Nat} {a : Arch} (h : needsByte (bitStep k a)) :
    rcBit k a = .error (starvedStop a) (bitStep k a) := by
  rw [rcBit_run, rcNorm_stop h]
  rfl

/-! ## A round of RC.DIRECT -/

/-- Bit 31 of the wrapped difference of a round (R103). -/
def directSign (a : Arch) : Bool := (a.code - a.range >>> 1).msb

/-- The state after a direct round and before its normalisation (R103). -/
def directStep (a : Arch) : Arch :=
  let code := (a.code - a.range >>> 1) + ((a.range >>> 1) &&& signMask (a.code - a.range >>> 1))
  { a with
    range := a.range >>> 1, code := code, corrupted := corruptedAfterRound a.corrupted code (a.range >>> 1),
    decisions := a.decisions ++ [!directSign a] }

theorem rcDirectRound_run (a : Arch) :
    rcDirectRound a = mapValue (fun _ => signMask (a.code - a.range >>> 1)) (rcNorm (directStep a)) := by
  have hd : decide (signMask (a.code - a.range >>> 1) = 0#32) = !directSign a := by
    unfold signMask directSign
    cases (a.code - a.range >>> 1).msb <;> decide
  unfold rcDirectRound
  rw [run_get_bind, run_set_bind, run_bind_pure]
  simp only [hd]
  rfl

theorem rcDirectRound_ok {a : Arch} (h : ¬ needsByte (directStep a)) :
    rcDirectRound a = .ok (signMask (a.code - a.range >>> 1)) (normalised (directStep a)) := by
  rw [rcDirectRound_run, rcNorm_ok h]
  rfl

theorem rcDirectRound_stop {a : Arch} (h : needsByte (directStep a)) :
    rcDirectRound a = .error (starvedStop a) (directStep a) := by
  rw [rcDirectRound_run, rcNorm_stop h]
  rfl

/-! ## Keeping and preserving through the primitives -/

/-- What a normalisation keeps: anything that does not look at `range`, `code` or the input. -/
theorem rcNorm_keeps {g : Arch → γ}
    (h : ∀ a r c bs p, g { a with range := r, code := c, inBytes := bs, inPos := p } = g a) : Keeps g rcNorm := by
  intro a
  by_cases hn : needsByte a
  · rw [rcNorm_stop hn]
    rfl
  · rw [rcNorm_ok hn, endState_ok]
    unfold normalised
    split
    · split
      · exact h a _ _ _ _
      · rfl
    · rfl

/-- What `RC.BIT` keeps: anything that does not look at the range decoder, the input, the log or cell `k`. -/
theorem rcBit_keeps {g : Arch → γ} {k : Nat}
    (h : ∀ a r c bs p ds, g { a with range := r, code := c, inBytes := bs, inPos := p, decisions := ds } = g a)
    (hp : ∀ a v, g { a with prob := probWrite a.prob k v } = g a) : Keeps g (rcBit k) := by
  intro a
  have hs : g (bitStep k a) = g a := (h { a with prob := _ } _ _ a.inBytes a.inPos _).trans (hp a _)
  have hk := rcNorm_keeps (g := g) (fun a r c bs p => h a r c bs p a.decisions) (bitStep k a)
  rw [rcBit_run]
  cases hr : rcNorm (bitStep k a) <;> rw [hr] at hk <;> exact hk.trans hs

theorem rcDirectRound_keeps {g : Arch → γ}
    (h : ∀ a r c bs p ds co,
      g { a with range := r, code := c, inBytes := bs, inPos := p, decisions := ds, corrupted := co } = g a) :
    Keeps g rcDirectRound := by
  intro a
  have hs : g (directStep a) = g a := h a _ _ a.inBytes a.inPos _ _
  have hk := rcNorm_keeps (g := g) (fun a r c bs p => h a r c bs p a.decisions a.corrupted) (directStep a)
  rw [rcDirectRound_run]
  cases hr : rcNorm (directStep a) <;> rw [hr] at hk <;> exact hk.trans hs

theorem inByte_keeps {g : Arch → γ} (h : ∀ a bs p, g { a with inBytes := bs, inPos := p } = g a) : Keeps g inByte := by
  intro a
  cases hb : a.inBytes with
  | nil => rw [inByte_nil hb]; rfl
  | cons b bs => rw [inByte_cons hb]; exact h a _ _

theorem rcBit_preserves {P : Arch → Prop} {k : Nat} (hs : ∀ a, P a → P (bitStep k a)) (hn : ∀ a, P a → P (normalised a)) :
    Preserves P (rcBit k) := by
  intro a ha
  by_cases h : needsByte (bitStep k a)
  · rw [rcBit_stop h]; exact hs a ha
  · rw [rcBit_ok h]; exact hn _ (hs a ha)

theorem rcDirectRound_preserves {P : Arch → Prop} (hs : ∀ a, P a → P (directStep a)) (hn : ∀ a, P a → P (normalised a)) :
    Preserves P rcDirectRound := by
  intro a ha
  by_cases h : needsByte (directStep a)
  · rw [rcDirectRound_stop h]; exact hs a ha
  · rw [rcDirectRound_ok h]; exact hn _ (hs a ha)

/-! ## Input -/

theorem normalised_length {a : Arch} : a.inBytes.length ≤ (normalised a).inBytes.length + 1 := by
  unfold normalised
  split
  · split <;> simp_all
  · omega

/-- With one byte at hand a decision completes and uses at most that byte (R108). -/
theorem rcBit_completes (k : Nat) (a : Arch) :
    Completes 1 (rcBit k) a fun r b => r = bitOf k a ∧ b = normalised (bitStep k a) := by
  intro hn
  have hb : ¬ needsByte (bitStep k a) := by
    rintro ⟨_, h⟩
    have h : a.inBytes = [] := h
    rw [h] at hn
    exact absurd hn (by decide)
  exact ⟨_, _, rcBit_ok hb, normalised_length (a := bitStep k a), rfl, rfl⟩

theorem rcDirectRound_completes (a : Arch) :
    Completes 1 rcDirectRound a fun r b =>
      r = signMask (a.code - a.range >>> 1) ∧ b = normalised (directStep a) := by
  intro hn
  have hb : ¬ needsByte (directStep a) := by
    rintro ⟨_, h⟩
    have h : a.inBytes = [] := h
    rw [h] at hn
    exact absurd hn (by decide)
  exact ⟨_, _, rcDirectRound_ok hb, normalised_length (a := directStep a), rfl, rfl⟩

end Sys2Proof.Machine
end

