-- ==== Sys2Proof/Laws/Window.lean ====
section
/-! SUPPORT. What the primitive operations of the dictionary window can do, said once each (R60, R142, R143, R148), and the copy. -/

namespace Sys2Proof.Machine

/-! ## DW.PUT -/

/-- The state after `DW.PUT` (R142). -/
def putStep (b : Byte) (a : Arch) : Arch :=
  { advanced { storeByte b a with totalPos := a.totalPos + 1#64 } with
    out := a.out ++ [b], flushedPos := a.totalPos + 1#64 }

/-- What a put stores: the byte at the cursor, or nothing where there is no window. -/
def storedBuf (b : Byte) (a : Arch) : DictMem := if a.pos < a.size then dictWrite a.buf a.pos.toNat b else a.buf

theorem storeByte_eq (b : Byte) (a : Arch) : storeByte b a = { a with buf := storedBuf b a } := by
  unfold storeByte storedBuf
  split <;> rfl

/-- `DW.PUT` completes in every state. -/
theorem dwPut_ok (b : Byte) (a : Arch) : dwPut b a = .ok () (putStep b a) := by
  unfold dwPut
  rw [run_modify_bind]
  simp only [outByte, run_modify]
  congr 1
  unfold flushed putStep
  simp [storeByte_eq]

@[simp] theorem putStep_out (b : Byte) (a : Arch) : (putStep b a).out = a.out ++ [b] := rfl
@[simp] theorem putStep_size (b : Byte) (a : Arch) : (putStep b a).size = a.size := by simp [putStep, storeByte_eq]
@[simp] theorem putStep_totalPos (b : Byte) (a : Arch) : (putStep b a).totalPos = a.totalPos + 1#64 := by simp [putStep]
@[simp] theorem putStep_buf (b : Byte) (a : Arch) : (putStep b a).buf = storedBuf b a := by simp [putStep, storeByte_eq]

theorem storedBuf_pos {b : Byte} {a : Arch} (h : a.pos < a.size) : storedBuf b a = dictWrite a.buf a.pos.toNat b := if_pos h
@[simp] theorem putStep_inBytes (b : Byte) (a : Arch) : (putStep b a).inBytes = a.inBytes := by simp [putStep, storeByte_eq]

theorem putStep_pos (b : Byte) (a : Arch) :
    (putStep b a).pos = if a.pos + 1#32 = a.size then 0#32 else a.pos + 1#32 := by
  simp [putStep, advanced_pos, storeByte_eq]

theorem putStep_isFull (b : Byte) (a : Arch) :
    (putStep b a).isFull = (decide (a.pos + 1#32 = a.size) || a.isFull) := by
  simp [putStep, advanced_isFull, storeByte_eq]

/-- The cursor as a number: one further, around the end of the window. -/
theorem putStep_pos_toNat {b : Byte} {a : Arch} (h : a.pos < a.size) :
    (putStep b a).pos.toNat = (a.pos.toNat + 1) % a.size.toNat ∧ (putStep b a).pos < (putStep b a).size := by
  have hs := a.size.isLt
  have hp : a.pos.toNat < a.size.toNat := h
  have h1 : (a.pos + 1#32).toNat = a.pos.toNat + 1 := by
    rw [BitVec.toNat_add]
    exact Nat.mod_eq_of_lt (by simp only [BitVec.toNat_ofNat]; omega)
  rw [putStep_pos, putStep_size]
  by_cases he : a.pos + 1#32 = a.size
  · rw [if_pos he]
    have : a.pos.toNat + 1 = a.size.toNat := by rw [← h1, he]
    refine ⟨?_, ?_⟩
    · rw [this, Nat.mod_self]; rfl
    · show (0#32).toNat < a.size.toNat
      simp only [BitVec.toNat_ofNat]
      omega
  · rw [if_neg he]
    have hne : a.pos.toNat + 1 ≠ a.size.toNat := fun hh => he (BitVec.eq_of_toNat_eq (by rw [h1, hh]))
    refine ⟨?_, ?_⟩
    · rw [h1, Nat.mod_eq_of_lt (by omega)]
    · show (a.pos + 1#32).toNat < a.size.toNat
      omega

theorem dwPut_completes (b : Byte) (a : Arch) : Completes 0 (dwPut b) a fun _ c => c = putStep b a :=
  Completes.of_ok (dwPut_ok b a) (putStep_inBytes b a) rfl

/-- The seven fields a put writes, and no other. -/
theorem putStep_eq (b : Byte) (a : Arch) : putStep b a = { a with
    totalPos := a.totalPos + 1#64, buf := storedBuf b a, pos := (putStep b a).pos, isFull := (putStep b a).isFull,
    out := a.out ++ [b], flushedPos := a.totalPos + 1#64 } := by
  unfold putStep advanced
  rw [storeByte_eq]
  split <;> rfl

theorem dwPut_keeps {g : Arch → γ}
    (h : ∀ a tp buf pos full out fp, g { a with
      totalPos := tp, buf := buf, pos := pos, isFull := full, out := out, flushedPos := fp } = g a)
    (b : Byte) : Keeps g (dwPut b) := by
  intro a
  rw [dwPut_ok, endState_ok, putStep_eq]
  exact h a _ _ _ _ _ _

/-! ## DW.GET -/

/-- The address of a lookback (R60) is in the window whenever the lookback is at most the window's size. -/
theorem lookback_some {a : Arch} {dist : Nat} (h1 : 1 ≤ dist) (h2 : dist ≤ a.size.toNat) (h : a.pos < a.size) :
    lookback a dist = some (if dist ≤ a.pos.toNat then a.pos.toNat - dist else a.size.toNat - dist + a.pos.toNat) := by
  have hp : a.pos.toNat < a.size.toNat := h
  refine if_pos ⟨decide_eq_true ⟨h1, h2⟩, ?_⟩
  unfold lookbackIndex
  split <;> omega

theorem lookback_lt {a : Arch} {dist x : Nat} (h : lookback a dist = some x) : x < a.size.toNat := by
  unfold lookback at h
  split at h
  · next hc => cases h; exact hc.2
  · cases h

/-- The address of a lookback inside the window, modulo its size. -/
theorem lookback_mod {a : Arch} {dist : Nat} (h1 : 1 ≤ dist) (h2 : dist ≤ a.size.toNat) (h : a.pos < a.size) :
    lookback a dist = some ((a.pos.toNat + (a.size.toNat - dist)) % a.size.toNat) := by
  have hp : a.pos.toNat < a.size.toNat := h
  rw [lookback_some h1 h2 h]
  congr 1
  by_cases hd : dist ≤ a.pos.toNat
  · rw [if_pos hd, show a.pos.toNat + (a.size.toNat - dist) = (a.pos.toNat - dist) + a.size.toNat by omega,
      Nat.add_mod_right, Nat.mod_eq_of_lt (by omega)]
  · rw [if_neg hd, Nat.mod_eq_of_lt (by omega)]
    omega

/-- What `DW.GET` can do: answer a written cell's byte, answer the fill value, or answer a free value and note that one was
taken (R143, R148). -/
theorem dwGet_cases (dist : Nat) (a : Arch) :
    (∃ x b, lookback a dist = some x ∧ dictRead a.buf x = some b ∧ dwGet dist a = .ok b a) ∨
    (∃ x v, lookback a dist = some x ∧ dictRead a.buf x = none ∧ a.params.dictFill = some v ∧ dwGet dist a = .ok v a) ∨
    ((∀ x, lookback a dist = some x → dictRead a.buf x = none ∧ a.params.dictFill = none) ∧
      dwGet dist a = .ok (Config.freeFill a.fillReads) { a with fillReads := a.fillReads + 1 }) := by
  cases hl : lookback a dist with
  | none => exact .inr (.inr ⟨fun _ h => (by cases h), by simp only [dwGet, run_get_bind, hl, freeByte]⟩)
  | some x =>
    cases hd : dictRead a.buf x with
    | some b => exact .inl ⟨x, b, rfl, hd, by simp only [dwGet, run_get_bind, hl, hd, run_pure]⟩
    | none =>
      cases hf : a.params.dictFill with
      | some v => exact .inr (.inl ⟨x, v, rfl, hd, rfl, by simp only [dwGet, run_get_bind, hl, hd, readUnwritten, hf]⟩)
      | none =>
        refine .inr (.inr ⟨fun y hy => ?_, by simp only [dwGet, run_get_bind, hl, hd, readUnwritten, hf, freeByte]⟩)
        cases hy
        exact ⟨hd, rfl⟩

/-- `DW.GET` completes in every state with a byte the lookback can read as, and only the count of free values may move. -/
theorem dwGet_ok (dist : Nat) (a : Arch) : ∃ b n, dwGet dist a = .ok b { a with fillReads := n } ∧ readsAs a dist b := by
  rcases dwGet_cases dist a with ⟨x, b, hl, hd, hr⟩ | ⟨x, v, hl, hd, hf, hr⟩ | ⟨hn, hr⟩
  · refine ⟨b, a.fillReads, hr, fun y hy => ?_⟩
    cases hl.symm.trans hy
    exact ⟨fun v hv => (by cases hd.symm.trans hv; rfl), fun h => (by rw [hd] at h; cases h)⟩
  · refine ⟨v, a.fillReads, hr, fun y hy => ?_⟩
    cases hl.symm.trans hy
    exact ⟨fun w hw => (by rw [hd] at hw; cases hw), fun _ w hw => (by cases hf.symm.trans hw; rfl)⟩
  · refine ⟨_, _, hr, fun y hy => ?_⟩
    obtain ⟨hd, hf⟩ := hn y hy
    exact ⟨fun w hw => (by rw [hd] at hw; cases hw), fun _ w hw => (by rw [hf] at hw; cases hw)⟩

theorem dwGet_completes (dist : Nat) (a : Arch) :
    Completes 0 (dwGet dist) a fun b c => readsAs a dist b ∧ ∃ n, c = { a with fillReads := n } := by
  obtain ⟨b, n, hr, hb⟩ := dwGet_ok dist a
  exact Completes.of_ok hr rfl ⟨hb, n, rfl⟩

theorem dwGet_keeps {g : Arch → γ} (h : ∀ a n, g { a with fillReads := n } = g a) (dist : Nat) : Keeps g (dwGet dist) := by
  intro a
  obtain ⟨b, n, hr, _⟩ := dwGet_ok dist a
  rw [hr]
  exact h a n

/-- The previous byte of a literal (R201): it completes in every state, with a byte it can be. -/
theorem prevByte_ok (a : Arch) : ∃ b n, prevByte a = .ok b { a with fillReads := n } ∧ previousByte a b := by
  unfold prevByte
  rw [run_get_bind]
  by_cases he : a.pos = 0#32 ∧ a.isFull = false
  · refine ⟨0#8, a.fillReads, ?_, by rw [previousByte, if_pos he]⟩
    rw [if_pos (by simp [windowEmpty, he.1, he.2])]
    rfl
  · obtain ⟨b, n, hr, hb⟩ := dwGet_ok 1 a
    refine ⟨b, n, ?_, by rw [previousByte, if_neg he]; exact hb⟩
    rw [if_neg (by simpa [windowEmpty] using he)]
    exact hr

/-! ## DW.COPY -/

/-- Every copy completes, and what it writes is the window, the output and the count of free values. -/
theorem dwCopy_completes (dist n : Nat) (a : Arch) :
    Completes 0 (dwCopy dist n) a fun _ c => c.size = a.size ∧ (a.pos < a.size → c.pos < c.size) ∧
      c.totalPos = a.totalPos + BitVec.ofNat 64 n ∧ ∃ run : List Byte, run.length = n ∧ c.out = a.out ++ run := by
  induction n generalizing a with
  | zero => exact Completes.of_ok rfl rfl ⟨rfl, id, by simp, [], rfl, by simp⟩
  | succ n ih =>
    obtain ⟨b, m, hg, _⟩ := dwGet_ok dist a
    have hput := dwPut_ok b { a with fillReads := m }
    intro hn
    obtain ⟨r, c, hr, hlen, hs, hc, ht, run, hrun, hout⟩ := ih (putStep b { a with fillReads := m }) (Nat.zero_le _)
    refine ⟨r, c, ?_, by simpa using hlen, by simpa using hs, fun hp => hc ?_, ?_, b :: run, by simp [hrun], ?_⟩
    · show (dwGet dist >>= fun b => dwPut b >>= fun _ => dwCopy dist n) a = _
      rw [run_bind_ok hg, run_bind_ok hput, hr]
    · exact (putStep_pos_toNat (b := b) (show ({ a with fillReads := m } : Arch).pos < _ from hp)).2
    · rw [ht, putStep_totalPos, BitVec.add_assoc, BitVec.ofNat_add]
      congr 1
      exact BitVec.add_comm _ _
    · rw [hout, putStep_out]
      simp

end Sys2Proof.Machine
end

