-- ==== Sys2Proof/Laws/Instr.lean ====
section
/-! SUPPORT. Every instruction as one operation and one condition on its operands: what holds of all of them is proved of the
operations, once. -/

namespace Sys2Proof.Machine

/-- The condition under which the command interface accepts the instruction's operands (R88, R149, D29). -/
def allowed (i : Instr) (a : Arch) : Bool :=
  match i with
  | .rcBit c => c.wf
  | .rcDirect n => (Instr.rcDirect n).wf
  | .btFwd t n => t.treeWf n
  | .btRev t n => t.treeWf n
  | .dwCreate n => (Instr.dwCreate n).wf
  | .dwGet dist => lookbackOk a dist.toNat
  | .dwCopy dist _ => lookbackOk a dist.toNat
  | .distDec len => (Instr.distDec len).wf
  | .decInit => decide (a.dictSize ≠ 0#32)
  | _ => true

/-- The operation of the instruction, in the state it starts from. -/
def opOf (i : Instr) (a : Arch) : Op Response :=
  match i with
  | .rcInit => answerDone rcInit
  | .rcNorm => answerDone rcNorm
  | .rcBit c => answer .bit (rcBit (cellOf c))
  | .rcDirect n => answer .value (rcDirect n.toNat)
  | .rcFinok => answer (fun a => .bool (finok a)) get
  | .btFwd t n => answer valueOf (btFwd (cellOf t) n.toNat)
  | .btRev t n => answer valueOf (btRev (cellOf t) n.toNat)
  | .lenDec inst ps => answer valueOf (lenDec inst ps)
  | .dwCreate n => answerDone (dwCreate n)
  | .dwPut b => answerDone (dwPut b)
  | .dwGet dist => answer .byte (dwGet dist.toNat)
  | .dwCopy dist len => answerDone (dwCopy dist.toNat len.toNat)
  | .dwChk d => answer (fun a => .bool (distanceOk a d)) get
  | .dwEmpty => answer (fun a => .bool (windowEmpty a)) get
  | .dwFlush => answerDone dwFlush
  | .stLit => answerDone stLit
  | .stMatch => answerDone stMatch
  | .stRep => answerDone stRep
  | .stShortrep => answerDone stShortrep
  | .litDec => answer .byte litDec
  | .distDec len => answer .value (distDec len.toNat)
  | .hdrParse => answerDone hdrParse
  | .decInit => answerDone decInit
  | .mainStep => answer .step mainStep
  | .start => answerDone (modify startDecode)
  | .fmtProps d => answerDone (hdrProps d)
  | .fmtDictSize v => answerDone (hdrDictSize v)
  | .fmtSize v => answerDone (hdrSize v)
  | .fmtRcpre z c => answerDone (rcPreamble z c)
  | .symLit => answer .step symLit
  | .symMatch => answer .step (symMatch (posState a))
  | .symEos => answer .step symEos
  | .symShortrep => answer .step symShortrep
  | .symRep0 => answer .step (symRep0 (posState a))
  | .symRep1 => answer .step (symRep1 (posState a))
  | .symRep2 => answer .step (symRep2 (posState a))
  | .symRep3 => answer .step (symRep3 (posState a))
  | .codeLengthLow inst ps => answer valueOf (lengthLow inst ps)
  | .codeLengthMid inst ps => answer valueOf (lengthMid inst ps)
  | .codeLengthHigh inst => answer valueOf (lengthHigh inst)
  | i => answer valueOf (distTail ((rowSlot i).getD 0))

/-- Executing an instruction is running its operation, when its operands are accepted. -/
theorem exec_eq (i : Instr) (s : State) :
    exec i s = if allowed i s.arch then runOp i (opOf i s.arch) s else turnAway s := by
  cases i <;> rfl

theorem exec_of_allowed {i : Instr} {s : State} (h : allowed i s.arch = true) : exec i s = runOp i (opOf i s.arch) s := by
  rw [exec_eq, if_pos h]

theorem exec_of_not_allowed {i : Instr} {s : State} (h : allowed i s.arch = false) : exec i s = turnAway s := by
  rw [exec_eq, h]
  rfl

/-- What a next state is: a command turned away, or one of the ends of the instruction's operation. -/
theorem exec_next_cases {i : Instr} {s t : State} (h : exec i s = .next t) :
    (allowed i s.arch = false ∧ t = { s with response := .refused }) ∨
    (allowed i s.arch = true ∧
      ((∃ r b, opOf i s.arch (opStart s.arch) = .ok r b ∧ t = completed s b r) ∨
       (∃ b, opOf i s.arch (opStart s.arch) = .error .hold b ∧ t = heldAt i s b) ∨
       (∃ c b, opOf i s.arch (opStart s.arch) = .error (.raise c) b ∧ t = failed s c b))) := by
  cases ha : allowed i s.arch with
  | false =>
    rw [exec_of_not_allowed ha] at h
    cases h
    exact .inl ⟨rfl, rfl⟩
  | true =>
    rw [exec_of_allowed ha] at h
    exact .inr ⟨rfl, runOp_next_cases h⟩

theorem rowSlot_slotRow {slot : Nat} (h : slot < 64) : rowSlot (slotRow slot) = some slot :=
  (show ∀ k : Fin 64, rowSlot (slotRow k.val) = some k.val by decide) ⟨slot, h⟩

theorem op_of_rowSlot {i : Instr} {slot : Nat} (h : rowSlot i = some slot) (a : Arch) :
    allowed i a = true ∧ opOf i a = answer valueOf (distTail slot) := by
  cases i <;> cases h <;> exact ⟨rfl, rfl⟩

/-- The row of a slot runs that slot's operation. -/
theorem exec_slotRow {slot : Nat} (h : slot < 64) (s : State) :
    exec (slotRow slot) s = runOp (slotRow slot) (answer valueOf (distTail slot)) s := by
  obtain ⟨ha, ho⟩ := op_of_rowSlot (rowSlot_slotRow h) s.arch
  rw [exec_of_allowed ha, ho]

end Sys2Proof.Machine
end

