-- ==== Sys2Proof/Laws/AllInstr.lean ====
section
/-! SUPPORT. From the primitive operations to every instruction: a property that passes through sequences and reads of the state holds of
every instruction's operation once it holds of the primitive ones. -/

namespace Sys2Proof.Machine

variable {Q : ∀ {α : Type}, Op α → Prop}

/-- The property holds of every primitive operation. -/
structure Primitives (Q : ∀ {α : Type}, Op α → Prop) : Prop where
  inByte : Q inByte
  rcNorm : Q rcNorm
  rcBit : ∀ k, Q (rcBit k)
  directRound : Q rcDirectRound
  rcInitClear : Q rcInitClear
  shiftIn : ∀ b, Q (modify fun a => { a with code := shiftInByte a.code b })
  rcInitFlag : ∀ b, Q (rcInitFlag b)
  setCode : ∀ c, Q (modify fun a => { a with code := c })
  dwPut : ∀ b, Q (dwPut b)
  dwGet : ∀ d, Q (dwGet d)
  dwFlush : Q dwFlush
  newWindow : ∀ n, Q (modify (newWindow n))
  stLit : Q stLit
  stMatch : Q stMatch
  stRep : Q stRep
  stShortrep : Q stShortrep
  rotateReps : Q rotateReps
  setRep0 : ∀ d, Q (setRep0 d)
  toFront1 : Q (modify fun a => { a with rep1 := a.rep0, rep0 := a.rep1 })
  toFront2 : Q (modify fun a => { a with rep2 := a.rep1, rep1 := a.rep0, rep0 := a.rep2 })
  toFront3 : Q (modify fun a => { a with rep3 := a.rep2, rep2 := a.rep1, rep1 := a.rep0, rep0 := a.rep3 })
  spendBudget : ∀ n, Q (spendBudget n)
  endLoop : ∀ st, Q (modify fun a => { a with status := st, phase := .done })
  setPhase : ∀ p, Q (setPhase p)
  setProps : ∀ lc lp pb, Q (modify fun a => { a with lc := lc, lp := lp, pb := pb })
  hdrDictSize : ∀ v, Q (hdrDictSize v)
  hdrSize : ∀ v, Q (hdrSize v)
  freshDecoder : Q (modify freshDecoder)
  startDecode : Q (modify startDecode)

/-! ## The composite operations -/

theorem rcInit_closed (c : Closed Q) (hin : Q inByte) (hc : Q rcInitClear)
    (hs : ∀ b, Q (modify fun a => { a with code := shiftInByte a.code b })) (hf : ∀ b, Q (rcInitFlag b)) : Q rcInit := by
  have hb : Q rcInitByte := c.bind hin hs
  exact c.bind hc fun _ => c.bind hin fun b0 => c.bind hb fun _ => c.bind hb fun _ => c.bind hb fun _ =>
    c.bind hb fun _ => hf b0

theorem rcPreamble_closed (c : Closed Q) (hc : Q rcInitClear) (hs : ∀ v, Q (modify fun a => { a with code := v }))
    (hf : ∀ b, Q (rcInitFlag b)) (z : Byte) (v : Word) : Q (rcPreamble z v) :=
  c.bind hc fun _ => c.bind (hs v) fun _ => hf z

theorem hdrProps_closed (c : ClosedGet Q) (h : ∀ lc lp pb, Q (modify fun a => { a with lc := lc, lp := lp, pb := pb }))
    (d : Byte) : Q (hdrProps d) :=
  c.bind (c.raiseIf _) fun _ => h _ _ _

theorem inWordLE_closed (c : Closed Q) (hin : Q inByte) : Q inWordLE :=
  c.bind hin fun _ => c.bind hin fun _ => c.bind hin fun _ => c.bind hin fun _ => c.pure _

theorem inDWordLE_closed (c : Closed Q) (hin : Q inByte) : Q inDWordLE :=
  c.bind hin fun _ => c.bind hin fun _ => c.bind hin fun _ => c.bind hin fun _ => c.bind hin fun _ =>
    c.bind hin fun _ => c.bind hin fun _ => c.bind hin fun _ => c.pure _

theorem hdrParse_closed (c : ClosedGet Q) (hin : Q inByte)
    (hp : ∀ lc lp pb, Q (modify fun a => { a with lc := lc, lp := lp, pb := pb })) (hd : ∀ v, Q (hdrDictSize v))
    (hs : ∀ v, Q (hdrSize v)) (hph : ∀ p, Q (setPhase p)) : Q hdrParse :=
  c.bind hin fun d => c.bind (hdrProps_closed c hp d) fun _ => c.bind (inWordLE_closed c.toClosed hin) fun v =>
    c.bind (hd v) fun _ => c.bind (inDWordLE_closed c.toClosed hin) fun sz => c.bind (hs sz) fun _ => hph _

/-- The eight decisions of a literal visit cells of their own context alone (R200, R202, R203). -/
theorem litSymbol_closed (c : ClosedGet Q) {T : Nat} (hb : ∀ k, T < k → k < T + 0x300 → Q (rcBit k)) (hg : ∀ d, Q (dwGet d)) :
    Q (litSymbol T) := by
  refine c.getBind (fun a b h => by rw [view_state h, view_rep0 h]) fun a => ?_
  split
  · exact c.bind (hg _) fun mb => litMatched_closed c.toClosed 8 mb 1 (by omega) (by decide) hb
  · exact litPlain_closed c.toClosed (by omega) (by decide) hb

theorem litDec_closed (c : ClosedGet Q) (hb : ∀ k, cell .lit 0 ≤ k → Q (rcBit k)) (hg : ∀ d, Q (dwGet d))
    (hp : ∀ b, Q (dwPut b)) : Q litDec := by
  refine c.bind (c.getBind (fun a b h => by rw [view_windowEmpty h]) fun a => ?_) fun pb =>
    c.getBind (fun a b h => by rw [view_litState h]) fun a =>
    c.bind (litSymbol_closed c (fun k h1 _ => hb k (by simp only [litTable, cell, arrBase] at *; omega)) hg) fun sym =>
    c.bind (hp _) fun _ => c.pure _
  split
  · exact c.pure _
  · exact hg _

theorem finish_closed (c : Closed Q) (hfl : Q dwFlush) (he : ∀ st, Q (modify fun a => { a with status := st, phase := .done }))
    (st : Status) : Q (finish st) :=
  c.bind hfl fun _ => c.bind (he st) fun _ => c.pure _

theorem budgetGuard_closed (c : ClosedGet Q) : Q budgetGuard :=
  c.getBind (fun a b h => by rw [view_budgetSpent h]) fun _ => c.raiseIf _

theorem copyTail_closed (c : ClosedGet Q) (hg : ∀ d, Q (dwGet d)) (hp : ∀ b, Q (dwPut b)) (hs : ∀ n, Q (spendBudget n))
    (len : Nat) : Q (copyTail len) :=
  c.getBind (fun a b h => by rw [view_rep0 h, view_clamped h, view_overruns h]) fun _ =>
    c.bind (dwCopy_closed c.toClosed (hg _) hp _) fun _ => c.bind (hs _) fun _ =>
    c.bind (c.raiseIf _) fun _ => c.pure _

theorem symLit_closed (c : ClosedGet Q) (hl : Q litDec) (ht : Q stLit) (hs : ∀ n, Q (spendBudget n)) : Q symLit :=
  c.bind (budgetGuard_closed c) fun _ => c.bind hl fun _ => c.bind ht fun _ => c.bind (hs 1) fun _ => c.pure _

theorem symEos_closed (c : ClosedGet Q) (hf : ∀ st, Q (finish st)) : Q symEos :=
  c.getBind (fun a b h => by rw [view_finok h, view_sizeMismatch h]) fun _ =>
    c.bind (c.raiseIf _) fun _ => c.bind (c.raiseIf _) fun _ => hf _

theorem matchTail_closed (c : ClosedGet Q) (hf : ∀ st, Q (finish st)) (ht : ∀ n, Q (copyTail n)) (len : Nat) :
    Q (matchTail len) := by
  refine c.getBind (fun a b h => by rw [view_rep0 h, view_newDistanceOk h]) fun a => ?_
  split
  · exact symEos_closed c hf
  · exact c.bind (budgetGuard_closed c) fun _ => c.bind (c.raiseIf _) fun _ => ht len

theorem symMatch_closed (c : ClosedGet Q) (hr : Q rotateReps) (hl : ∀ ps, Q (lenDec .len ps)) (hm : Q stMatch)
    (hd : ∀ len, Q (distDec len)) (h0 : ∀ d, Q (setRep0 d)) (ht : ∀ len, Q (matchTail len)) (ps : BitVec 4) :
    Q (symMatch ps) :=
  c.bind hr fun _ => c.bind (hl ps) fun len => c.bind hm fun _ => c.bind (hd len) fun d => c.bind (h0 d) fun _ => ht len

theorem symShortrep_closed (c : ClosedGet Q) (ht : Q stShortrep) (hg : ∀ d, Q (dwGet d)) (hp : ∀ b, Q (dwPut b))
    (hs : ∀ n, Q (spendBudget n)) : Q symShortrep :=
  c.bind ht fun _ => c.getBind (fun a b h => by rw [view_rep0 h]) fun _ => c.bind (hg _) fun b => c.bind (hp b) fun _ => c.bind (hs 1) fun _ => c.pure _

theorem repTail_closed (c : ClosedGet Q) (hl : ∀ ps, Q (lenDec .rep ps)) (hr : Q stRep) (ht : ∀ n, Q (copyTail n))
    (ps : BitVec 4) : Q (repTail ps) :=
  c.bind (hl ps) fun len => c.bind hr fun _ => ht len

theorem repGuards_closed (c : ClosedGet Q) : Q repGuards :=
  c.bind (budgetGuard_closed c) fun _ => c.getBind (fun a b h => by rw [view_windowEmpty h]) fun _ => c.raiseIf _

theorem repFamily_closed (c : ClosedGet Q) (hb : ∀ k, Q (rcBit k)) (ps : BitVec 4) (h0 : Q (symRep0 ps))
    (h1 : Q (symRep1 ps)) (h2 : Q (symRep2 ps)) (h3 : Q (symRep3 ps)) (hs : Q symShortrep) (st : Fin 12) :
    Q (repFamily st ps) := by
  refine c.bind (repGuards_closed c) fun _ => c.bind (hb _) fun g0 => ?_
  cases g0
  · refine c.bind (hb _) fun l => ?_
    cases l
    · exact hs
    · exact h0
  · refine c.bind (hb _) fun g1 => ?_
    cases g1
    · exact h1
    · refine c.bind (hb _) fun g2 => ?_
      cases g2
      · exact h2
      · exact h3

theorem mainStep_closed (c : ClosedGet Q) (hb : ∀ k, Q (rcBit k)) (hph : ∀ p, Q (setPhase p)) (hfl : Q dwFlush)
    (hf : ∀ st, Q (finish st)) (hl : Q symLit) (hm : ∀ ps, Q (symMatch ps)) (hr : ∀ st ps, Q (repFamily st ps)) :
    Q mainStep := by
  refine c.bind (hph _) fun _ => c.getBind (fun a b h => ?_) fun a => c.bind ?_ fun _ => ?_
  · rw [view_endTestFlush h, view_finishesWithoutMarker h, view_state h, view_posState h]
  · unfold endTestFlush
    split
    · exact hfl
    · exact c.pure _
  · split
    · exact hf _
    · refine c.bind (c.bind (hb _) fun m => ?_) fun o => ?_
      · cases m
        · exact hl
        · refine c.bind (hb _) fun r => ?_
          cases r
          · exact hm _
          · exact hr _ _
      · cases o
        · exact c.bind (hph _) fun _ => c.pure _
        · exact c.pure _

theorem dwCreate_closed (c : ClosedGet Q) {n : Word} (h : Q (modify (newWindow n))) : Q (dwCreate n) :=
  c.getBind (fun a b h => by rw [view_overCap h]) fun _ => c.bind (c.raiseIf _) fun _ => h

theorem decInit_closed (c : ClosedGet Q) (h : ∀ n, Q (modify (newWindow n))) (hf : Q (modify freshDecoder)) : Q decInit :=
  c.getBind (fun a b h => by rw [view_dictSize h]) fun _ => c.bind (dwCreate_closed c (h _)) fun _ => hf

/-! ## Every instruction -/

/-- What holds of the primitives holds of every instruction. -/
theorem opOf_closed (c : ClosedGet Q) (p : Primitives Q) (i : Instr) (a : Arch) : Q (opOf i a) := by
  have k := c.toClosed
  have done : ∀ {op : Op Unit}, Q op → Q (answerDone op) := fun h => c.bind h fun _ => c.pure _
  have ans : ∀ {α : Type} {op : Op α} (f : α → Response), Q op → Q (answer f op) := fun f h => c.bind h fun _ => c.pure _
  have hget : ∀ {f : Arch → Response}, Reads f → Q (answer f get) := fun hf =>
    c.getBind (fun a b h => by rw [hf a b h]) fun _ => c.pure _
  have hbit : ∀ k, Q (rcBit k) := p.rcBit
  have hlit : Q litDec := litDec_closed c (fun k _ => hbit k) p.dwGet p.dwPut
  have hlen : ∀ inst ps, Q (lenDec inst ps) := fun _ _ => lenDec_closed k fun k _ => hbit k
  have hdist : ∀ len, Q (distDec len) := fun _ => distDec_closed k (fun k _ => hbit k) p.directRound
  have hfin : ∀ st, Q (finish st) := finish_closed k p.dwFlush p.endLoop
  have hcopy : ∀ n, Q (copyTail n) := copyTail_closed c p.dwGet p.dwPut p.spendBudget
  have hsl : Q symLit := symLit_closed c hlit p.stLit p.spendBudget
  have hsm : ∀ ps, Q (symMatch ps) := symMatch_closed c p.rotateReps (hlen .len) p.stMatch hdist p.setRep0
    (matchTail_closed c hfin hcopy)
  have hss : Q symShortrep := symShortrep_closed c p.stShortrep p.dwGet p.dwPut p.spendBudget
  have hrt : ∀ ps, Q (repTail ps) := repTail_closed c (hlen .rep) p.stRep hcopy
  have h1 : ∀ ps, Q (symRep1 ps) := fun ps => c.bind p.toFront1 fun _ => hrt ps
  have h2 : ∀ ps, Q (symRep2 ps) := fun ps => c.bind p.toFront2 fun _ => hrt ps
  have h3 : ∀ ps, Q (symRep3 ps) := fun ps => c.bind p.toFront3 fun _ => hrt ps
  have hms : Q mainStep := mainStep_closed c hbit p.setPhase p.dwFlush hfin hsl hsm
    fun st ps => repFamily_closed c hbit ps (hrt ps) (h1 ps) (h2 ps) (h3 ps) hss st
  have hslot : ∀ {i : Instr} {slot : Nat}, rowSlot i = some slot → Q (opOf i a) := fun h => by
    rw [(op_of_rowSlot h a).2]
    exact ans _ (distTail_closed k (fun k _ => hbit k) p.directRound)
  cases i
  case rcInit => exact done (rcInit_closed k p.inByte p.rcInitClear p.shiftIn p.rcInitFlag)
  case rcNorm => exact done p.rcNorm
  case rcBit => exact ans _ (hbit _)
  case rcDirect => exact ans _ (rcDirect_closed k p.directRound _)
  case rcFinok => exact hget fun a b h => by rw [view_finok h]
  case btFwd => exact ans _ (btFwd_closed k fun k _ _ => hbit k)
  case btRev => exact ans _ (btRev_closed k fun k _ _ => hbit k)
  case lenDec => exact ans _ (hlen _ _)
  case dwCreate n => exact done (dwCreate_closed c (p.newWindow n))
  case dwPut b => exact done (p.dwPut b)
  case dwGet => exact ans _ (p.dwGet _)
  case dwCopy => exact done (dwCopy_closed k (p.dwGet _) p.dwPut _)
  case dwChk => exact hget fun a b h => by rw [view_distanceOk h]
  case dwEmpty => exact hget fun a b h => by rw [view_windowEmpty h]
  case dwFlush => exact done p.dwFlush
  case stLit => exact done p.stLit
  case stMatch => exact done p.stMatch
  case stRep => exact done p.stRep
  case stShortrep => exact done p.stShortrep
  case litDec => exact ans _ hlit
  case distDec => exact ans _ (hdist _)
  case hdrParse => exact done (hdrParse_closed c p.inByte p.setProps p.hdrDictSize p.hdrSize p.setPhase)
  case decInit => exact done (decInit_closed c p.newWindow p.freshDecoder)
  case mainStep => exact ans _ hms
  case start => exact done p.startDecode
  case fmtProps => exact done (hdrProps_closed c p.setProps _)
  case fmtDictSize => exact done (p.hdrDictSize _)
  case fmtSize => exact done (p.hdrSize _)
  case fmtRcpre => exact done (rcPreamble_closed k p.rcInitClear p.setCode p.rcInitFlag _ _)
  case symLit => exact ans _ hsl
  case symMatch => exact ans _ (hsm _)
  case symEos => exact ans _ (symEos_closed c hfin)
  case symShortrep => exact ans _ hss
  case symRep0 => exact ans _ (hrt _)
  case symRep1 => exact ans _ (h1 _)
  case symRep2 => exact ans _ (h2 _)
  case symRep3 => exact ans _ (h3 _)
  case codeLengthLow => exact ans _ (lengthLow_closed k fun k _ => hbit k)
  case codeLengthMid => exact ans _ (lengthMid_closed k fun k _ => hbit k)
  case codeLengthHigh => exact ans _ (lengthHigh_closed k fun k _ => hbit k)
  all_goals exact hslot rfl

end Sys2Proof.Machine
end

