-- ==== Sys2Proof/Tests/Slice0.lean ====
section
/-! SUPPORT. The model's own tests: ill-formed terms refused, words written out from the spec's encodings, single steps with the values
of the spec's examples and test vectors (spec/95_test_vectors.md), and a witness for the hypotheses of every statement. -/

namespace Sys2Proof.Machine.Tests

-- Many small kernel evaluations: one after another, so that they do not each take a thread.
set_option Elab.async false

/-! ## Helpers -/

/-- A core that has just been reset, with `DICT_FILL = some 0xEE` so that no test meets a free value. -/
def base : Arch := { Arch.reset with params := ⟨some 0xEE, none⟩ }

/-- Nothing held, nothing asked, nothing coming. -/
def st (a : Arch) : State := ⟨a, none, .none, []⟩

/-- The range decoder's two registers and the bytes at hand. -/
def rc (range code : Word) (bytes : List Byte) : Arch := { base with range := range, code := code, inBytes := bytes }

/-- A window of `size` cells that holds `out` from its start and has not wrapped. -/
def win (size : Word) (out : List Byte) : Arch :=
  { base with
    size := size, dictSize := size, pos := BitVec.ofNat 32 out.length, totalPos := BitVec.ofNat 64 out.length,
    flushedPos := BitVec.ofNat 64 out.length, buf := (List.range out.length).zip out, out := out }

/-- What is seen of the next state; nothing for a fault or a refusal. -/
def see (o : Host.Outcome State Fault Refusal) (f : State → α) : Option α :=
  match o with
  | .next s => some (f s)
  | .fault _ => none
  | .refused _ => none

/-- The word decodes to the instruction. -/
def reads (w : CmdWord) (i : Instr) : Bool :=
  match decode w with
  | .ok j => decide (j = i)
  | .error _ => false

/-- The word is refused with this reason. -/
def rejects (w : CmdWord) (e : DecodeError) : Bool :=
  match decode w with
  | .ok _ => false
  | .error d => decide (d = e)

/-! ## Ill-formed terms are refused (WellFormed) -/

theorem test_wf_rcBit_cell : (Instr.rcBit ⟨.isRep, 12#24⟩).wf = false ∧ (Instr.rcBit ⟨.isRep, 11#24⟩).wf = true := by decide
theorem test_wf_rcDirect_zero : (Instr.rcDirect 0#8).wf = false ∧ (Instr.rcDirect 1#8).wf = true := by decide
theorem test_wf_rcDirect_27 : (Instr.rcDirect 27#8).wf = false ∧ (Instr.rcDirect 26#8).wf = true := by decide
theorem test_wf_btFwd_tree :
    (Instr.btFwd ⟨.lenLow, 121#24⟩ 3#8).wf = false ∧ (Instr.btFwd ⟨.lenLow, 120#24⟩ 3#8).wf = true := by decide
theorem test_wf_btRev_tree :
    (Instr.btRev ⟨.align, 0#24⟩ 5#8).wf = false ∧ (Instr.btRev ⟨.align, 0#24⟩ 4#8).wf = true := by decide
theorem test_wf_dwCreate_zero : (Instr.dwCreate 0#32).wf = false ∧ (Instr.dwCreate 1#32).wf = true := by decide
theorem test_wf_dwGet_zero : (Instr.dwGet 0#32).wf = false := by decide
theorem test_wf_dwCopy_zero : (Instr.dwCopy 0#32 5#32).wf = false := by decide
theorem test_wf_distDec_272 : (Instr.distDec 272#16).wf = false ∧ (Instr.distDec 271#16).wf = true := by decide
theorem test_wf_symbol_marker :
    (Symbol.newMatch 0 0xFFFFFFFF#32).wf = false ∧ (Symbol.newMatch 0 0xFFFFFFFE#32).wf = true := by decide

/-! ## Words written out from the spec decode to their instruction -/

/-- UOP5: the code column of R88; operands as log entry 8 lays them out. -/
theorem test_decode_uop_low :
    reads (.uop [0x00]) .rcInit ∧ reads (.uop [0x01]) .rcNorm ∧
    reads (.uop [0x02, 0x13, 0xFF, 0xFF, 0x2F]) (.rcBit ⟨.lit, 0x2FFFFF#24⟩) ∧ reads (.uop [0x03, 0x1A]) (.rcDirect 26#8) ∧
    reads (.uop [0x04]) .rcFinok ∧ reads (.uop [0x05, 0x06, 0x40, 0x00, 0x00, 0x06]) (.btFwd ⟨.posSlot, 64#24⟩ 6#8) ∧
    reads (.uop [0x06, 0x08, 0x00, 0x00, 0x00, 0x04]) (.btRev ⟨.align, 0#24⟩ 4#8) ∧
    reads (.uop [0x07, 0x01, 0x0F]) (.lenDec .rep 15#4) ∧
    reads (.uop [0x08, 0x00, 0x10, 0x00, 0x00]) (.dwCreate 4096#32) ∧ reads (.uop [0x09, 0x41]) (.dwPut 0x41#8) ∧
    reads (.uop [0x0A, 0x01, 0x00, 0x00, 0x80]) (.dwGet 0x80000001#32) ∧
    reads (.uop [0x0B, 0x03, 0x00, 0x00, 0x00, 0x07, 0x00, 0x00, 0x00]) (.dwCopy 3#32 7#32) ∧
    reads (.uop [0x0C, 0xFE, 0xFF, 0xFF, 0xFF]) (.dwChk 0xFFFFFFFE#32) := by decide

theorem test_decode_uop_high :
    reads (.uop [0x0D]) .dwEmpty ∧ reads (.uop [0x0E]) .dwFlush ∧ reads (.uop [0x0F]) .stLit ∧
    reads (.uop [0x10]) .stMatch ∧ reads (.uop [0x11]) .stRep ∧ reads (.uop [0x12]) .stShortrep ∧
    reads (.uop [0x13]) .litDec ∧ reads (.uop [0x14, 0x0F, 0x01]) (.distDec 271#16) ∧ reads (.uop [0x15]) .hdrParse ∧
    reads (.uop [0x16]) .decInit ∧ reads (.uop [0x17]) .mainStep ∧ reads (.uop [0x18]) .start := by decide

/-- R88: reserved codes, a byte that is no 5-bit code, a missing and a bad operand. -/
theorem test_decode_uop_refused :
    rejects (.uop [0x19]) (.reservedOpcode 25) ∧ rejects (.uop [0x1F, 0x00]) (.reservedOpcode 31) ∧
    rejects (.uop [0x20]) (.notAnOpcode 32) ∧ rejects (.uop []) .missingOperand ∧ rejects (.uop [0x09]) .missingOperand ∧
    rejects (.uop [0x02, 0x14, 0x00, 0x00, 0x00]) (.badOperand 20) ∧ rejects (.uop [0x07, 0x02, 0x00]) (.badOperand 2) ∧
    rejects (.uop [0x07, 0x00, 0x10]) (.badOperand 16) := by decide

/-- R71 to R74; the header of V-HDR-7 and the preamble of V-RC-1. -/
theorem test_decode_stream :
    reads (.stream [0x5E]) (.fmtProps 0x5E#8) ∧ reads (.stream [0x78, 0x56, 0x34, 0x12]) (.fmtDictSize 0x12345678#32) ∧
    reads (.stream [0x00, 0x01, 0, 0, 0, 0, 0, 0]) (.fmtSize 256#64) ∧
    reads (.stream [0x00, 0x30, 0xC1, 0xFB, 0xFF]) (.fmtRcpre 0#8 0x30C1FBFF#32) ∧
    rejects (.stream [0x00, 0x00]) (.noSuchField 2) := by decide

/-- R76: the selecting decisions; the end marker whole (R80): length code 0, slot 63, 26 direct and 4 align decisions of 1. -/
theorem test_decode_symbol :
    reads (.symbol [false]) .symLit ∧ reads (.symbol [true, false]) .symMatch ∧
    reads (.symbol ([true, false] ++ [false, false, false, false] ++ List.replicate 36 true)) .symEos ∧
    reads (.symbol ([true, false] ++ [false, false, false, false] ++ List.replicate 35 true ++ [false])) .symMatch ∧
    reads (.symbol [true, true, false, false]) .symShortrep ∧ reads (.symbol [true, true, false, true]) .symRep0 ∧
    reads (.symbol [true, true, true, false]) .symRep1 ∧ reads (.symbol [true, true, true, true, false]) .symRep2 ∧
    reads (.symbol [true, true, true, true, true]) .symRep3 ∧
    rejects (.symbol [true, true, true]) .missingDecision := by decide

/-- R78. -/
theorem test_decode_length :
    reads (.lengthCode .len 2#4 [false, true, true, true]) (.codeLengthLow .len 2#4) ∧
    reads (.lengthCode .rep 2#4 [true, false, true, false, true]) (.codeLengthMid .rep 2#4) ∧
    reads (.lengthCode .len 2#4 [true, true]) (.codeLengthHigh .len) ∧
    rejects (.lengthCode .len 2#4 [true]) .missingDecision := by decide

/-- R79: the six slot decisions, first one most significant: slots 0 to 15. -/
theorem test_decode_slots_0 :
    reads (.distCode [false, false, false, false, false, false]) .codeDistSlot0 ∧
    reads (.distCode [false, false, false, false, false, true]) .codeDistSlot1 ∧
    reads (.distCode [false, false, false, false, true, false]) .codeDistSlot2 ∧
    reads (.distCode [false, false, false, false, true, true]) .codeDistSlot3 ∧
    reads (.distCode [false, false, false, true, false, false]) .codeDistSlot4 ∧
    reads (.distCode [false, false, false, true, false, true]) .codeDistSlot5 ∧
    reads (.distCode [false, false, false, true, true, false]) .codeDistSlot6 ∧
    reads (.distCode [false, false, false, true, true, true]) .codeDistSlot7 ∧
    reads (.distCode [false, false, true, false, false, false]) .codeDistSlot8 ∧
    reads (.distCode [false, false, true, false, false, true]) .codeDistSlot9 ∧
    reads (.distCode [false, false, true, false, true, false]) .codeDistSlot10 ∧
    reads (.distCode [false, false, true, false, true, true]) .codeDistSlot11 ∧
    reads (.distCode [false, false, true, true, false, false]) .codeDistSlot12 ∧
    reads (.distCode [false, false, true, true, false, true]) .codeDistSlot13 ∧
    reads (.distCode [false, false, true, true, true, false]) .codeDistSlot14 ∧
    reads (.distCode [false, false, true, true, true, true]) .codeDistSlot15 := by decide

/-- R79: the six slot decisions, first one most significant: slots 16 to 31. -/
theorem test_decode_slots_16 :
    reads (.distCode [false, true, false, false, false, false]) .codeDistSlot16 ∧
    reads (.distCode [false, true, false, false, false, true]) .codeDistSlot17 ∧
    reads (.distCode [false, true, false, false, true, false]) .codeDistSlot18 ∧
    reads (.distCode [false, true, false, false, true, true]) .codeDistSlot19 ∧
    reads (.distCode [false, true, false, true, false, false]) .codeDistSlot20 ∧
    reads (.distCode [false, true, false, true, false, true]) .codeDistSlot21 ∧
    reads (.distCode [false, true, false, true, true, false]) .codeDistSlot22 ∧
    reads (.distCode [false, true, false, true, true, true]) .codeDistSlot23 ∧
    reads (.distCode [false, true, true, false, false, false]) .codeDistSlot24 ∧
    reads (.distCode [false, true, true, false, false, true]) .codeDistSlot25 ∧
    reads (.distCode [false, true, true, false, true, false]) .codeDistSlot26 ∧
    reads (.distCode [false, true, true, false, true, true]) .codeDistSlot27 ∧
    reads (.distCode [false, true, true, true, false, false]) .codeDistSlot28 ∧
    reads (.distCode [false, true, true, true, false, true]) .codeDistSlot29 ∧
    reads (.distCode [false, true, true, true, true, false]) .codeDistSlot30 ∧
    reads (.distCode [false, true, true, true, true, true]) .codeDistSlot31 := by decide

/-- R79: the six slot decisions, first one most significant: slots 32 to 47. -/
theorem test_decode_slots_32 :
    reads (.distCode [true, false, false, false, false, false]) .codeDistSlot32 ∧
    reads (.distCode [true, false, false, false, false, true]) .codeDistSlot33 ∧
    reads (.distCode [true, false, false, false, true, false]) .codeDistSlot34 ∧
    reads (.distCode [true, false, false, false, true, true]) .codeDistSlot35 ∧
    reads (.distCode [true, false, false, true, false, false]) .codeDistSlot36 ∧
    reads (.distCode [true, false, false, true, false, true]) .codeDistSlot37 ∧
    reads (.distCode [true, false, false, true, true, false]) .codeDistSlot38 ∧
    reads (.distCode [true, false, false, true, true, true]) .codeDistSlot39 ∧
    reads (.distCode [true, false, true, false, false, false]) .codeDistSlot40 ∧
    reads (.distCode [true, false, true, false, false, true]) .codeDistSlot41 ∧
    reads (.distCode [true, false, true, false, true, false]) .codeDistSlot42 ∧
    reads (.distCode [true, false, true, false, true, true]) .codeDistSlot43 ∧
    reads (.distCode [true, false, true, true, false, false]) .codeDistSlot44 ∧
    reads (.distCode [true, false, true, true, false, true]) .codeDistSlot45 ∧
    reads (.distCode [true, false, true, true, true, false]) .codeDistSlot46 ∧
    reads (.distCode [true, false, true, true, true, true]) .codeDistSlot47 := by decide

/-- R79: the six slot decisions, first one most significant: slots 48 to 63. -/
theorem test_decode_slots_48 :
    reads (.distCode [true, true, false, false, false, false]) .codeDistSlot48 ∧
    reads (.distCode [true, true, false, false, false, true]) .codeDistSlot49 ∧
    reads (.distCode [true, true, false, false, true, false]) .codeDistSlot50 ∧
    reads (.distCode [true, true, false, false, true, true]) .codeDistSlot51 ∧
    reads (.distCode [true, true, false, true, false, false]) .codeDistSlot52 ∧
    reads (.distCode [true, true, false, true, false, true]) .codeDistSlot53 ∧
    reads (.distCode [true, true, false, true, true, false]) .codeDistSlot54 ∧
    reads (.distCode [true, true, false, true, true, true]) .codeDistSlot55 ∧
    reads (.distCode [true, true, true, false, false, false]) .codeDistSlot56 ∧
    reads (.distCode [true, true, true, false, false, true]) .codeDistSlot57 ∧
    reads (.distCode [true, true, true, false, true, false]) .codeDistSlot58 ∧
    reads (.distCode [true, true, true, false, true, true]) .codeDistSlot59 ∧
    reads (.distCode [true, true, true, true, false, false]) .codeDistSlot60 ∧
    reads (.distCode [true, true, true, true, false, true]) .codeDistSlot61 ∧
    reads (.distCode [true, true, true, true, true, false]) .codeDistSlot62 ∧
    reads (.distCode [true, true, true, true, true, true]) .codeDistSlot63 := by decide

/-- A slot needs all six decisions. -/
theorem test_decode_slot_refused : rejects (.distCode [true, true, true, true, true]) .missingDecision := by decide

/-! ## Table words and the first step after reset -/

/-- `START` (code 0x18) placed as the host places it is what the next step runs. -/
theorem test_fetch_start :
    decodeTableWord 8 0x18 = some .start ∧
    see (step (State.reset.withFetchWord 8 0x18)) (fun s => (s.arch.phase, s.arch.status)) =
      some (.header, .running) := by decide +kernel

/-- Table words of the rows made of decisions: 11110; 0 and eight 0s; 11 and eight 0s; slot 14. -/
theorem test_table_words :
    decodeTableWord 8 30 = some .symRep2 ∧ decodeTableWord 16 0 = some .symLit ∧ decodeTableWord 16 0x300 = some (.codeLengthHigh .len) ∧
    decodeTableWord 16 0x380 = some .codeDistSlot14 ∧ decodeTableWord 8 28 = some .codeDistSlot7 := by decide +kernel

/-- `DW.CREATE` (code 0x08) with operand bytes of zeros is refused (R149). -/
theorem test_fetch_dwCreate :
    decodeTableWord 8 0x08 = some (.dwCreate 0#32) ∧
    see (step (State.reset.withFetchWord 8 0x08)) (fun s => s.response) = some .refused := by decide +kernel

/-- A symbol's decisions on the command interface run that symbol: SYM.SHORTREP. -/
theorem test_step_symbol :
    see (step { st { win 8 [0x61] with range := 0x80000000 } with events := [.cmd (.symbol [true, true, false, false])] })
      (fun s => (s.arch.out, s.arch.state.val, s.events)) = some ([0x61, 0x61], 9, []) := by decide +kernel

/-! ## The range decoder (spec/95_test_vectors.md section 2) -/

/-- V-RC-2: a non-zero first byte sets the flag only. -/
theorem test_rcInit_flag :
    see (exec .rcInit (st (rc 0 0 [0x01, 0x30, 0xC1, 0xFB, 0xFF]))) (fun s =>
      (s.arch.range, s.arch.code, s.arch.corrupted, s.arch.inPos)) =
      some (0xFFFFFFFF, 0x30C1FBFF, true, 5) := by decide +kernel

/-- V-RC-4t: `TruncatedInput` after four bytes. -/
theorem test_rcInit_truncated :
    see (exec .rcInit (st { rc 0 0 [0x00, 0x12, 0x34, 0x56] with inEnd := true })) (fun s =>
      (s.arch.status, s.arch.cause, s.arch.inPos)) = some (.error, .truncatedInput, 4) := by decide +kernel

/-- The example of R101. -/
theorem test_rcNorm_shifts :
    see (exec .rcNorm (st (rc 0x00800000 0x00123456 [0xAB]))) (fun s => (s.arch.range, s.arch.code)) =
      some (0x80000000, 0x123456AB) := by decide +kernel

/-- R101: `range = 2^24` does not normalise. -/
theorem test_rcNorm_boundary :
    see (exec .rcNorm (st (rc 0x01000000 7 [0xAB]))) (fun s => (s.arch.range, s.arch.code, s.arch.inPos)) =
      some (0x01000000, 7, 0) := by decide +kernel

/-- V-RC-7: `code == bound` decodes 1. -/
theorem test_rcBit_strict :
    see (exec (.rcBit ⟨.isMatch, 0⟩) (st (rc 0x80000000 0x40000000 []))) (fun s =>
      (s.response, s.arch.range, s.arch.code, probRead s.arch.prob 0)) =
      some (.bit true, 0x40000000, 0, 992) := by decide +kernel

/-- V-RC-14: no byte for the normalisation: the cell and `range` have moved, nothing is shifted. -/
theorem test_rcBit_truncated :
    see (exec (.rcBit ⟨.isMatch, 0⟩) (st { rc 0x01000000 0 [] with inEnd := true })) (fun s =>
      (s.arch.cause, s.arch.range, s.arch.code, probRead s.arch.prob 0)) =
      some (.truncatedInput, 0x00800000, 0, 1056) := by decide +kernel

/-- V-RC-20, the example of R103. -/
theorem test_rcDirect_example :
    see (exec (.rcDirect 4) (st (rc 0x80000000 0x12345678 []))) (fun s =>
      (s.response, s.arch.range, s.arch.code, s.arch.corrupted)) =
      some (.value 2, 0x08000000, 0x02345678, false) := by decide +kernel

/-- V-RC-27: the sign bit, not a comparison, decides; V-RC-26 is the other side. -/
theorem test_rcDirect_sign :
    see (exec (.rcDirect 1) (st (rc 0xFFFFFFFF 0xFFFFFFFF []))) (fun s => (s.response, s.arch.code, s.arch.corrupted)) =
      some (.value 0, 0xFFFFFFFF, false) ∧
    see (exec (.rcDirect 1) (st (rc 0xFFFFFFFF 0xFFFFFFFE []))) (fun s => (s.response, s.arch.code, s.arch.corrupted)) =
      some (.value 1, 0x7FFFFFFF, true) := by decide +kernel

/-- V-RC-30. -/
theorem test_rcFinok :
    see (exec .rcFinok (st (rc 0 0 []))) (·.response) = some (.bool true) ∧
    see (exec .rcFinok (st (rc 0 0x80000000 []))) (·.response) = some (.bool false) := by decide +kernel

/-- V-RC-3 as a field: `code == range` at initialisation. -/
theorem test_fmtRcpre_flag :
    see (exec (.fmtRcpre 0 0xFFFFFFFF) (st base)) (fun s => (s.arch.range, s.arch.code, s.arch.corrupted)) =
      some (0xFFFFFFFF, 0xFFFFFFFF, true) := by decide +kernel

/-! ## Trees, lengths, distances (sections 3, 4 and 8) -/

/-- The tree of V-BT-1, first call: decisions 1, 1, 0 through cells 1, 3, 7. -/
theorem test_btFwd :
    see (exec (.btFwd ⟨.lenLow, 0⟩ 3) (st (rc 0xFFFFFFFF 0xD801B800 []))) (fun s =>
      (s.response, s.arch.range, s.arch.code, s.arch.prob)) =
      some (.value 6, 0x20000000, 0x1801BC00, [(822, 992), (824, 992), (828, 1056)]) := by decide +kernel

/-- V-BT-2: decisions 1, 1, 0, 1, bit 0 first. -/
theorem test_btRev :
    see (exec (.btRev ⟨.align, 0⟩ 4) (st (rc 0xFFFFFFFF 0xCFFFFC00 []))) (fun s =>
      (s.response, s.arch.range, s.arch.code)) = some (.value 11, 0x10000000, 0) := by decide +kernel

/-- V-LEN-1, first call. -/
theorem test_lenDec_low :
    see (exec (.lenDec .len 2) (st (rc 0xFFFFFFFF 0x07CDA8F7 []))) (fun s =>
      (s.response, s.arch.range, probRead s.arch.prob (cell .lenChoice 0))) = some (.value 0, 0x0FFFFC00, 1056) := by decide +kernel

/-- R131: `choice = 1`, `choice2 = 1` and the 8-bit tree (all ones by `code = range - 1`): 271. -/
theorem test_lenDec_high :
    see (exec (.lenDec .rep 0) (st (rc 0x80000000 0x7FFFFFFF [0xFF]))) (fun s => (s.response, s.arch.decisions.length)) =
      some (.value 271, 10) := by decide +kernel

theorem test_codeLengthLow :
    see (exec (.codeLengthLow .len 2) (st (rc 0x80000000 0 []))) (·.response) = some (.value 0) := by decide +kernel
theorem test_codeLengthMid :
    see (exec (.codeLengthMid .len 2) (st (rc 0x80000000 0x7FFFFFFF []))) (·.response) = some (.value 15) := by decide +kernel
theorem test_codeLengthHigh :
    see (exec (.codeLengthHigh .rep) (st (rc 0x80000000 0 [0]))) (·.response) = some (.value 16) := by decide +kernel

/-- V-DIST-1, first call: slot 0. -/
theorem test_distDec_zero :
    see (exec (.distDec 0) (st (rc 0xFFFFFFFF 0x00310184 []))) (·.response) = some (.value 0) := by decide +kernel

/-- R217: all ones is the pattern of the end marker (`code = range - 1` decodes ones throughout, with bytes 0xFF). -/
theorem test_distDec_marker :
    see (exec (.distDec 271) (st (rc 0x80000000 0x7FFFFFFF [0xFF, 0xFF, 0xFF, 0xFF, 0xFF]))) (fun s =>
      (s.response, s.arch.decisions.length)) = some (.value 0xFFFFFFFF, 36) := by decide +kernel

/-- R212: slots 0 and 3 are the distance. -/
theorem test_slot_direct :
    see (exec .codeDistSlot0 (st base)) (·.response) = some (.value 0) ∧
    see (exec .codeDistSlot3 (st base)) (·.response) = some (.value 3) := by decide +kernel

/-- The table of R213: the ends of slots 4 and 13 (all decisions 0; all decisions 1). -/
theorem test_slot_tree :
    see (exec .codeDistSlot4 (st (rc 0x80000000 0 []))) (·.response) = some (.value 4) ∧
    see (exec .codeDistSlot13 (st (rc 0x80000000 0x7FFFFFFF []))) (·.response) = some (.value 127) := by decide +kernel

/-- The table of R213: the least of slot 14 and the most of slot 62. -/
theorem test_slot_align :
    see (exec .codeDistSlot14 (st (rc 0x80000000 0 []))) (·.response) = some (.value 128) ∧
    see (exec .codeDistSlot62 (st (rc 0x80000000 0x7FFFFFFF [0xFF, 0xFF, 0xFF, 0xFF]))) (·.response) =
      some (.value 0xBFFFFFFF) := by decide +kernel

/-! ## The window (section 5) -/

theorem test_dwCreate :
    see (exec (.dwCreate 8) (st (win 4 [1, 2]))) (fun s => (s.arch.size, s.arch.pos, s.arch.buf, s.arch.out)) =
      some (8, 0, [], []) := by decide +kernel

/-- D27: a limit that is set refuses a larger window. -/
theorem test_dwCreate_tooLarge :
    see (exec (.dwCreate 9) (st { base with params := ⟨none, some 8⟩ })) (fun s => (s.arch.status, s.arch.cause)) =
      some (.error, .dictTooLarge) := by decide +kernel

/-- The example of R142: the put that wraps. -/
theorem test_dwPut_wraps :
    see (exec (.dwPut 0x41) (st (win 8 [1, 2, 3, 4, 5, 6, 7]))) (fun s =>
      (dictRead s.arch.buf 7, s.arch.pos, s.arch.isFull, s.arch.totalPos)) = some (some 0x41, 0, true, 8) := by decide +kernel

/-- R142 with no window, as after reset: the counter, the cursor and the sink move; there is no cell to store in (R53). -/
theorem test_dwPut_noWindow :
    see (exec (.dwPut 0x41) State.reset) (fun s => (s.arch.totalPos, s.arch.pos, s.arch.out, s.arch.buf)) =
      some (1, 1, [0x41], []) := by decide +kernel

/-- R149: lookbacks 0 and above `size` are outside the domain and name no cell. -/
theorem test_lookback_domain :
    (let a := win 8 [1, 2, 3]
     [lookback a 0, lookback a 1, lookback a 3, lookback a 4, lookback a 8, lookback a 9, lookback a 11]) =
      [none, some 2, some 0, some 7, some 3, none, none] := by decide +kernel

/-- V-DW-2: lookbacks through the wrap. -/
theorem test_dwGet_wraps :
    (let s := st { win 8 [0x10, 0x11, 0x12, 0x13, 0x14, 0x15, 0x16, 0x17] with pos := 2, isFull := true }
     (see (exec (.dwGet 1) s) (·.response), see (exec (.dwGet 3) s) (·.response), see (exec (.dwGet 8) s) (·.response))) =
      (some (.byte 0x11), some (.byte 0x17), some (.byte 0x12)) := by decide +kernel

/-- R149: outside 1 to `size` it is refused. -/
theorem test_dwGet_domain :
    see (exec (.dwGet 9) (st (win 8 [1]))) (·.response) = some .refused := by decide +kernel

/-- V-DW-3: an overlapping copy across the wrap. -/
theorem test_dwCopy_overlap :
    see (exec (.dwCopy 3 7) (st (win 8 [0x61, 0x62, 0x63]))) (fun s => (s.arch.out, s.arch.pos, s.arch.isFull)) =
      some ([0x61, 0x62, 0x63, 0x61, 0x62, 0x63, 0x61, 0x62, 0x63, 0x61], 2, true) := by decide +kernel

/-- V-DW-6: an unwritten cell under `DICT_FILL = some 0xEE`. -/
theorem test_dwCopy_fill :
    see (exec (.dwCopy 4 2) (st (win 8 [0x61, 0x62, 0x63]))) (·.arch.out) = some [0x61, 0x62, 0x63, 0xEE, 0x61] := by decide +kernel

/-- V-DW-5. -/
theorem test_dwChk :
    see (exec (.dwChk 3) (st (win 8 [1, 2, 3]))) (·.response) = some (.bool true) ∧
    see (exec (.dwChk 4) (st (win 8 [1, 2, 3]))) (·.response) = some (.bool false) := by decide +kernel

/-- R146: a window that has wrapped to `pos = 0` is not empty. -/
theorem test_dwEmpty :
    see (exec .dwEmpty (st (win 8 []))) (·.response) = some (.bool true) ∧
    see (exec .dwEmpty (st { win 8 [] with isFull := true })) (·.response) = some (.bool false) := by decide +kernel

theorem test_dwFlush : see (exec .dwFlush (st (win 8 [1]))) (·.arch) = some (win 8 [1]) := by decide +kernel

/-! ## The state register (section 6) -/

/-- V-ST-1, the whole column. -/
theorem test_stLit : (List.finRange 12).map (fun q => see (exec .stLit (st { base with state := q })) (·.arch.state.val)) =
    [0, 0, 0, 0, 1, 2, 3, 4, 5, 6, 4, 5].map some := by decide +kernel
theorem test_stMatch : (List.finRange 12).map (fun q => see (exec .stMatch (st { base with state := q })) (·.arch.state.val)) =
    [7, 7, 7, 7, 7, 7, 7, 10, 10, 10, 10, 10].map some := by decide +kernel
theorem test_stRep : (List.finRange 12).map (fun q => see (exec .stRep (st { base with state := q })) (·.arch.state.val)) =
    [8, 8, 8, 8, 8, 8, 8, 11, 11, 11, 11, 11].map some := by decide +kernel
theorem test_stShortrep :
    (List.finRange 12).map (fun q => see (exec .stShortrep (st { base with state := q })) (·.arch.state.val)) =
    [9, 9, 9, 9, 9, 9, 9, 11, 11, 11, 11, 11].map some := by decide +kernel

/-! ## Literals (section 7) -/

/-- P1, decisions 2 to 9: the literal 0x61 in context 0. -/
theorem test_litDec_plain :
    see (exec .litDec (st { win 8 [] with range := 0x7FFFFC00, code := 0x30C1FBFF, inBytes := [0xFF] })) (fun s =>
      (s.response, s.arch.range, s.arch.code, s.arch.prob.map (fun e => (e.1 - 1847, e.2)))) =
      some (.byte 0x61, 0x80000000, 0x41FFFFFF, [(0x01, 1056), (0x02, 992), (0x05, 992), (0x0B, 1056), (0x16, 1056),
        (0x2C, 1056), (0x58, 1056), (0xB0, 992)]) := by decide +kernel

/-- P4, decisions 32 to 39: the literal 0x80 in matched mode, context 3: cells 0x201 and 0x203, then plain. -/
theorem test_litDec_matched :
    see (exec .litDec (st { win 4096 [0x00, 0xFF, 0x00, 0xFF, 0x00, 0xFF, 0x00] with
        lp := 2, state := 7, rep0 := 1, range := 0x01EF8800, code := 0x00F8C3BE, inBytes := [0x0F] })) (fun s =>
      (s.response, s.arch.prob.map (fun e => (e.1 - 1847 - 0x300 * 3, e.2)))) =
      some (.byte 0x80, [(0x06, 1056), (0x0C, 1056), (0x18, 1056), (0x30, 1056), (0x60, 1056), (0xC0, 1056),
        (0x201, 992), (0x203, 1056)]) := by decide +kernel

/-! ## Starting a decode (section 9) -/

theorem test_start :
    see (exec .start (st { base with status := .error, cause := .badDistance, phase := .done, inPos := 7, out := [1] }))
      (fun s => (s.arch.status, s.arch.cause, s.arch.phase, s.arch.inPos, s.arch.out)) =
      some (.running, .none, .header, 0, []) := by decide +kernel

/-- V-HDR-3. -/
theorem test_hdrParse :
    see (exec .hdrParse (st { base with inBytes := [0x12, 0, 0, 0, 0, 8, 0, 0, 0, 0, 0, 0, 0] })) (fun s =>
      ([s.arch.lc.val, s.arch.lp.val, s.arch.pb.val], s.arch.dictSize, s.arch.leftToUnpack, s.arch.inPos)) =
      some ([0, 2, 0], 4096, 8, 13) := by decide +kernel

/-- V-ERR-1. -/
theorem test_hdrParse_malformed :
    see (exec .hdrParse (st { base with inBytes := [0xE1], inEnd := true })) (fun s =>
      (s.arch.status, s.arch.cause, s.arch.inPos)) = some (.error, .malformedProperties, 1) := by decide +kernel

/-- R222: 224 gives (8, 4, 4), and 225 is refused. -/
theorem test_fmtProps :
    see (exec (.fmtProps 224) (st base)) (fun s => (s.arch.lc.val, s.arch.lp.val, s.arch.pb.val)) = some (8, 4, 4) ∧
    see (exec (.fmtProps 225) (st base)) (·.arch.cause) = some .malformedProperties := by decide +kernel

/-- R223: 4095 gives 4096 and 4097 stays. -/
theorem test_fmtDictSize :
    see (exec (.fmtDictSize 4095) (st base)) (·.arch.dictSize) = some 4096 ∧
    see (exec (.fmtDictSize 4097) (st base)) (·.arch.dictSize) = some 4097 := by decide +kernel

/-- R224: all ones is undefined; one less is a size. -/
theorem test_fmtSize :
    see (exec (.fmtSize 0xFFFFFFFFFFFFFFFF) (st base)) (fun s => (s.arch.sizeDefined, s.arch.leftToUnpack)) =
      some (false, 0) ∧
    see (exec (.fmtSize 0xFFFFFFFFFFFFFFFE) (st base)) (fun s => (s.arch.sizeDefined, s.arch.leftToUnpack)) =
      some (true, 0xFFFFFFFFFFFFFFFE) := by decide +kernel

theorem test_decInit :
    see (exec .decInit (st { win 8 [1, 2] with dictSize := 4096, state := 9, rep0 := 5, prob := [(3, 31)] })) (fun s =>
      (s.arch.size, s.arch.pos, s.arch.state.val, s.arch.prob)) = some (4096, 0, 0, []) := by decide +kernel

/-! ## Symbols and the main loop (sections 10 and 11) -/

/-- P1's first literal as a symbol: the budget moves, the state register moves. -/
theorem test_symLit :
    see (exec .symLit (st { win 8 [] with
        range := 0x7FFFFC00, code := 0x30C1FBFF, inBytes := [0xFF], sizeDefined := true, leftToUnpack := 5, state := 4 }))
      (fun s => (s.arch.out, s.arch.leftToUnpack, s.arch.state.val)) = some ([0x61], 4, 1) := by decide +kernel

/-- The example of R171: reps (5, 9, 2, 7), length code 1, distance 3 (decisions 0001 and 000011 from cells of 1024). -/
theorem test_symMatch :
    see (exec .symMatch (st { win 16 [1, 2, 3, 4, 5, 6, 7, 8, 9, 10, 11, 12] with
        range := 0x80000000, code := 0x08600000, inBytes := [0], rep0 := 5, rep1 := 9, rep2 := 2, rep3 := 7 })) (fun s =>
      ([s.arch.rep0, s.arch.rep1, s.arch.rep2, s.arch.rep3], s.arch.state.val, s.arch.out.drop 12)) =
      some ([3, 5, 9, 2], 7, [9, 10, 11]) := by decide +kernel

/-- R179. -/
theorem test_symEos :
    see (exec .symEos (st { base with code := 0 })) (fun s => (s.arch.status, s.response)) =
      some (.finishedWithMarker, .step .finished) ∧
    see (exec .symEos (st { base with code := 0x00000100 })) (·.arch.cause) = some .badEndMarker := by decide +kernel

/-- The example of R173. -/
theorem test_symShortrep :
    see (exec .symShortrep (st (win 8 [0x61]))) (fun s => (s.arch.out, s.arch.state.val)) = some ([0x61, 0x61], 9) := by decide +kernel

/-- The examples of R174 to R177: reps (3, 5, 9, 2), length code 0 (all decisions 0): two bytes. -/
theorem test_symReps :
    (let s := st { win 16 [1, 2, 3, 4, 5, 6, 7, 8, 9, 10, 11, 12] with
        range := 0x80000000, rep0 := 3, rep1 := 5, rep2 := 9, rep3 := 2 }
     let reps := fun (t : State) => ([t.arch.rep0, t.arch.rep1, t.arch.rep2, t.arch.rep3], t.arch.out.drop 12)
     [see (exec .symRep0 s) reps, see (exec .symRep1 s) reps, see (exec .symRep2 s) reps, see (exec .symRep3 s) reps]) =
      [some ([3, 5, 9, 2], [9, 10]), some ([5, 3, 9, 2], [7, 8]), some ([9, 3, 5, 2], [3, 4]), some ([2, 3, 5, 9], [10, 11])] := by
  decide +kernel

/-- R178: the overrun, after the clamped copy. -/
theorem test_symRep_overrun :
    see (exec .symRep0 (st { win 8 [1] with range := 0x80000000, sizeDefined := true, leftToUnpack := 1 })) (fun s =>
      (s.arch.cause, s.arch.out, s.arch.leftToUnpack)) = some (.lengthOverrun, [1, 1], 0) := by decide +kernel

/-- P1's first iteration. -/
theorem test_mainStep_literal :
    see (exec .mainStep (st { win 0x800000 [] with
        lc := 3, pb := 2, phase := .loop, range := 0xFFFFFFFF, code := 0x30C1FBFF, inBytes := [0xFF], inPos := 18 })) (fun s =>
      (s.response, s.arch.out, s.arch.range, s.arch.code, s.arch.inPos, s.arch.phase)) =
      some (.step .continue, [0x61], 0x80000000, 0x41FFFFFF, 19, .loop) := by decide +kernel

/-- V-ERR-7a: a repeat as the first symbol. -/
theorem test_mainStep_emptyWindow :
    see (exec .mainStep (st { win 4096 [] with lc := 3, pb := 2, phase := .loop, range := 0xFFFFFFFF, code := 0xC83FFBFF }))
      (fun s => (s.arch.cause, s.arch.range, s.arch.code, s.arch.inPos)) =
      some (.emptyWindowRep, 0x400003FF, 0x083FFFFF, 0) := by decide +kernel

/-- V-CHUNK-1 in small: a hold, then the byte, then the same end as with the byte at hand. -/
theorem test_hold_goes_on :
    (let s := st (rc 0x01000000 0 [])
     let t := see (exec (.rcBit ⟨.isMatch, 0⟩) s) (fun t => { t with events := [.byte 0xAB] })
     t.bind fun t => (see (step t) id).bind fun u => see (step u) fun v => (v.arch.range, v.arch.code, v.arch.inPos, v.held)) =
      some (0x80000000, 0xAB, 1, none) := by decide +kernel

/-- R270, R90: what the host reads after reset. -/
theorem test_hostView_reset :
    (hostView State.reset).status = 0 ∧ (hostView State.reset).cause = 0 ∧ (hostView State.reset).done = false := by decide +kernel

/-! ## Witnesses: for every statement with hypotheses, states and operands that meet them together, clause by clause -/

/-- From what is seen of a next state to that state. -/
theorem next_of_see {o : Host.Outcome State Fault Refusal} {f : State → Bool} (h : see o f = some true) :
    ∃ t, o = .next t ∧ f t = true := by
  cases o with
  | next s => exact ⟨s, rfl, Option.some.inj h⟩
  | fault r => cases h
  | refused r => cases h

/-- Two instructions one after another. -/
theorem next_next_of_see {i : Instr} {s : State} {f : State → Bool} {j : State → Instr} {g : State → State → Bool}
    (h : see (exec i s) (fun t => f t && (see (exec (j t) t) (g t) == some true)) = some true) :
    ∃ t u, exec i s = .next t ∧ f t = true ∧ exec (j t) t = .next u ∧ g t u = true := by
  obtain ⟨t, ht, h⟩ := next_of_see h
  rw [Bool.and_eq_true, beq_iff_eq] at h
  obtain ⟨u, hu, hg⟩ := next_of_see h.2
  exact ⟨t, u, ht, h.1, hu, hg⟩

/-- A held operation: RC.BIT at its normalisation. -/
def heldState : State :=
  { st { rc 0x00800000 0 [] with prob := [(0, 1056)], decisions := [false] } with
    held := some ⟨.rcBit ⟨.isMatch, 0⟩, rc 0x01000000 0 []⟩, response := .pending }

theorem witness_StepRuns_command : ∃ (s : State) (w : CmdWord) (es : List Event) (i : Instr),
    s.events = .cmd w :: es ∧ decode w = .ok i ∧ (s.held = none ∨ i = .start) :=
  ⟨{ st base with events := [.cmd (.uop [0x0D])] }, .uop [0x0D], [], .dwEmpty, rfl, rfl, .inl rfl⟩

theorem witness_StepRuns_start_held : ∃ (s : State) (w : CmdWord) (es : List Event) (i : Instr),
    s.held ≠ none ∧ s.events = .cmd w :: es ∧ decode w = .ok i ∧ (s.held = none ∨ i = .start) :=
  ⟨{ heldState with events := [.cmd (.uop [0x18])] }, .uop [0x18], [], .start, by decide +kernel, rfl, rfl, .inr rfl⟩

theorem witness_StepRuns_refused : ∃ (s : State) (w : CmdWord) (es : List Event) (e : DecodeError),
    s.events = .cmd w :: es ∧ decode w = .error e :=
  ⟨{ st base with events := [.cmd (.uop [0x19])] }, .uop [0x19], [], .reservedOpcode 25, rfl, rfl⟩

theorem witness_StepRuns_refused_held : ∃ (s : State) (w : CmdWord) (es : List Event),
    s.events = .cmd w :: es ∧ s.held ≠ none ∧ decode w ≠ .ok .start :=
  ⟨{ heldState with events := [.cmd (.uop [0x0D])] }, .uop [0x0D], [], rfl, by decide +kernel, fun h => nomatch h⟩

theorem witness_StepRuns_phases : ∀ p : Phase, ∃ s : State, s.held = none ∧ s.events = [] ∧ s.arch.phase = p :=
  fun p => ⟨st { base with phase := p }, rfl, rfl, rfl⟩

theorem witness_StepRuns_preamble : ∃ s : State, s.held = none ∧ s.events = [] ∧ s.arch.phase = .rcInit ∧
    s.arch.inPos < 18#64 :=
  ⟨st { base with phase := .rcInit, inPos := 17 }, rfl, rfl, rfl, by decide +kernel⟩

theorem witness_StepRuns_init : ∃ s : State, s.held = none ∧ s.events = [] ∧ s.arch.phase = .rcInit ∧
    ¬ s.arch.inPos < 18#64 :=
  ⟨st { base with phase := .rcInit, inPos := 18 }, rfl, rfl, rfl, by decide +kernel⟩

theorem witness_ReservedCodes : ∃ (s : State) (c : Byte) (operands : List Byte) (es : List Event),
    0x19 ≤ c.toNat ∧ c.toNat ≤ 0x1F ∧ s.events = .cmd (.uop (c :: operands)) :: es :=
  ⟨{ st base with events := [.cmd (.uop [0x1F, 7])] }, 0x1F, [7], [], by decide +kernel, by decide +kernel, rfl⟩

theorem witness_OperandDomains_dist : ∃ (s : State) (dist : Word), ¬ (1 ≤ dist.toNat ∧ dist.toNat ≤ s.arch.size.toNat) :=
  ⟨st (win 8 []), 9, by decide +kernel⟩

theorem witness_OperandDomains_direct : (0#8 = 0#8 ∨ 26 < (0#8).toNat) ∧ (27#8 = 0#8 ∨ 26 < (27#8).toNat) := by decide +kernel

theorem witness_OperandDomains_refused : ∃ i s t, exec i s = .next t ∧ t.response = .refused := by
  obtain ⟨t, h, hr⟩ := next_of_see (o := exec (.dwGet 0) (st base)) (f := fun t => decide (t.response = .refused))
    (by decide +kernel)
  exact ⟨_, _, t, h, of_decide_eq_true hr⟩

theorem witness_ResetSets : ∃ (s t : State) (es : List Event), s.events = .reset :: es ∧ step s = .next t := by
  obtain ⟨t, h, _⟩ := next_of_see (o := step { heldState with events := [.reset] }) (f := fun _ => true) (by decide +kernel)
  exact ⟨_, t, [], rfl, h⟩

theorem witness_RcInit_five : ∃ (s : State) (b0 b1 b2 b3 b4 : Byte) (rest : List Byte),
    s.arch.inBytes = b0 :: b1 :: b2 :: b3 :: b4 :: rest :=
  ⟨st (rc 0 0 [0, 0x30, 0xC1, 0xFB, 0xFF]), _, _, _, _, _, _, rfl⟩

theorem witness_RcInit_four : ∃ s : State, s.arch.inBytes.length < 5 := ⟨st (rc 0 0 [0, 0x12, 0x34, 0x56]), by decide +kernel⟩

theorem witness_RcNorm_none : ∃ s : State, ¬ s.arch.range < 0x01000000#32 := ⟨st (rc 0x01000000 0 []), by decide +kernel⟩

theorem witness_RcNorm_byte : ∃ (s : State) (b : Byte) (rest : List Byte),
    s.arch.range < 0x01000000#32 ∧ s.arch.inBytes = b :: rest := ⟨st (rc 0x00FFFFFF 0 [7]), _, _, by decide +kernel, rfl⟩

theorem witness_RcNorm_starved : ∃ s : State, s.arch.range < 0x01000000#32 ∧ s.arch.inBytes = [] :=
  ⟨st (rc 0x00FFFFFF 0 []), by decide +kernel, rfl⟩

theorem witness_RcBit_completes : ∃ (a : ProbAddr) (s : State) (m : Arch), a.wf = true ∧
    m = { s.arch with
      decisions := [false], prob := probWrite s.arch.prob (cellOf a) 1056#11, range := 0x40000000#32 } ∧ ¬ needsByte m :=
  ⟨⟨.isRep0Long, 191⟩, st (rc 0x80000000 0 []), _, by decide +kernel, rfl, fun h => absurd h.1 (by decide +kernel)⟩

theorem witness_RcBit_starved : ∃ (a : ProbAddr) (s : State) (m : Arch), a.wf = true ∧
    m = { s.arch with
      decisions := [false], prob := probWrite s.arch.prob (cellOf a) 1056#11, range := 0x00800000#32 } ∧ needsByte m :=
  ⟨⟨.isRep0Long, 191⟩, st (rc 0x01000000 0 []), _, by decide +kernel, rfl, by decide +kernel, rfl⟩

theorem witness_RcDirect_round :
    ¬ needsByte { rc 0x80000000 0 [] with range := 0x40000000#32 } ∧
    needsByte { rc 0x01000000 0 [] with range := 0x00800000#32 } :=
  ⟨fun h => absurd h.1 (by decide +kernel), by decide +kernel, rfl⟩

theorem witness_RcDirect_rounds : ∃ (n : Byte) (s t u : State) (r v : Word), 1 ≤ n.toNat ∧ n.toNat < 26 ∧
    exec (.rcDirect 1#8) s = .next t ∧ t.response = .value r ∧ exec (.rcDirect n) t = .next u ∧ u.response = .value v := by
  obtain ⟨t, u, h1, h2, h3, h4⟩ := next_next_of_see (i := .rcDirect 1#8)
    (s := st (rc 0x80000000 0x7FFFFFFF [0xFF, 0xFF, 0xFF, 0xFF]))
    (f := fun t => decide (t.response = .value 1#32)) (j := fun _ => .rcDirect 25#8)
    (g := fun _ u => decide (u.response = .value 0x1FFFFFF#32)) (by decide +kernel)
  exact ⟨25, _, t, u, 1, 0x1FFFFFF, by decide +kernel, by decide +kernel, h1, of_decide_eq_true h2, h3, of_decide_eq_true h4⟩

theorem witness_CodeStaysBelowRange_init : ∃ s t : State, exec .rcInit s = .next t ∧ t.arch.corrupted = false := by
  obtain ⟨t, h, hr⟩ := next_of_see (o := exec .rcInit (st (rc 0 0 [0, 0x30, 0xC1, 0xFB, 0xFF])))
    (f := fun t => !t.arch.corrupted) (by decide +kernel)
  exact ⟨_, t, h, by simpa using hr⟩

theorem witness_CodeStaysBelowRange : ∃ (i : Instr) (s t : State),
    (s.arch.corrupted = false → s.arch.code < s.arch.range) ∧ exec i s = .next t ∧ t.arch.corrupted = false := by
  obtain ⟨t, h, hr⟩ := next_of_see (o := exec (.rcDirect 1#8) (st (rc 0xFFFFFFFF 0xFFFFFFFD [])))
    (f := fun t => !t.arch.corrupted) (by decide +kernel)
  exact ⟨_, _, t, fun _ => by decide +kernel, h, by simpa using hr⟩

theorem witness_RangeStaysNormalised : ∃ (i : Instr) (s t : State), s.arch.prob.inRange = true ∧
    0x01000000#32 ≤ s.arch.range ∧ exec i s = .next t ∧ t.held = none ∧ t.response ≠ .error := by
  obtain ⟨t, h, hr⟩ := next_of_see (o := exec (.rcBit ⟨.isMatch, 0⟩) (st { rc 0x01000000 0 [0xAB] with prob := [(0, 31)] }))
    (f := fun t => decide (t.held = none ∧ t.response ≠ .error)) (by decide +kernel)
  exact ⟨_, _, t, by decide +kernel, by decide +kernel, h, of_decide_eq_true hr⟩

/-- The widest tree of the core and the least, each with just its bytes (BtFwdWalksTree, BtRevReversesBtFwd). -/
theorem witness_Bt : ∃ (T : ProbAddr) (n : Byte) (s : State), T.treeWf n = true ∧ n.toNat ≤ s.arch.inBytes.length ∧
    Memory.wf s.arch = true :=
  ⟨⟨.lenHigh, 0⟩, 8, st (rc 0x80000000 0 [1, 2, 3, 4, 5, 6, 7, 8]), by decide +kernel, by decide +kernel, by decide +kernel⟩

theorem witness_Bt_zero : ∃ (T : ProbAddr) (n : Byte) (s : State), T.treeWf n = true ∧ n.toNat ≤ s.arch.inBytes.length ∧
    Memory.wf s.arch = true := ⟨⟨.lit, 3145727⟩, 0, st (rc 0 0 []), by decide +kernel, by decide +kernel, by decide +kernel⟩

theorem witness_LengthCode_input : ∃ s : State, 3 ≤ s.arch.inBytes.length ∧ 8 ≤ s.arch.inBytes.length ∧
    10 ≤ s.arch.inBytes.length := ⟨st (rc 0 0 [1, 2, 3, 4, 5, 6, 7, 8, 9, 10]), by decide +kernel, by decide +kernel, by decide +kernel⟩

theorem witness_LengthCode_low : ∃ s t u : State, exec (.rcBit ⟨.lenChoice, 0#24⟩) s = .next t ∧ t.response = .bit false ∧
    exec (.codeLengthLow .len 15#4) t = .next u ∧ u.held = none ∧ u.response ≠ .error := by
  obtain ⟨t, u, h1, h2, h3, h4⟩ := next_next_of_see (i := .rcBit ⟨.lenChoice, 0#24⟩) (s := st (rc 0x80000000 0 []))
    (f := fun t => decide (t.response = .bit false)) (j := fun _ => .codeLengthLow .len 15#4)
    (g := fun _ u => decide (u.held = none ∧ u.response ≠ .error)) (by decide +kernel)
  exact ⟨_, t, u, h1, of_decide_eq_true h2, h3, of_decide_eq_true h4⟩

theorem witness_LengthCode_mid : ∃ s t t' u : State, exec (.rcBit ⟨.repChoice, 0#24⟩) s = .next t ∧
    t.response = .bit true ∧ exec (.rcBit ⟨.repChoice2, 0#24⟩) t = .next t' ∧ t'.response = .bit false ∧
    exec (.codeLengthMid .rep 0#4) t' = .next u ∧ u.held = none ∧ u.response ≠ .error := by
  obtain ⟨t, t', h1, h2, h3, h4⟩ := next_next_of_see (i := .rcBit ⟨.repChoice, 0#24⟩) (s := st (rc 0x80000000 0x40000000 []))
    (f := fun t => decide (t.response = .bit true)) (j := fun _ => .rcBit ⟨.repChoice2, 0#24⟩)
    (g := fun _ t' => decide (t'.response = .bit false) &&
      (see (exec (.codeLengthMid .rep 0#4) t') (fun u => decide (u.held = none ∧ u.response ≠ .error)) == some true))
    (by decide +kernel)
  rw [Bool.and_eq_true, beq_iff_eq] at h4
  obtain ⟨u, h5, h6⟩ := next_of_see h4.2
  exact ⟨_, t, t', u, h1, of_decide_eq_true h2, h3, of_decide_eq_true h4.1, h5, of_decide_eq_true h6⟩

theorem witness_LengthCode_high : ∃ s t t' u : State, exec (.rcBit ⟨.lenChoice, 0#24⟩) s = .next t ∧
    t.response = .bit true ∧ exec (.rcBit ⟨.lenChoice2, 0#24⟩) t = .next t' ∧ t'.response = .bit true ∧
    exec (.codeLengthHigh .len) t' = .next u ∧ u.held = none ∧ u.response ≠ .error := by
  obtain ⟨t, t', h1, h2, h3, h4⟩ := next_next_of_see (i := .rcBit ⟨.lenChoice, 0#24⟩) (s := st (rc 0x80000000 0x60000000 [0]))
    (f := fun t => decide (t.response = .bit true)) (j := fun _ => .rcBit ⟨.lenChoice2, 0#24⟩)
    (g := fun _ t' => decide (t'.response = .bit true) &&
      (see (exec (.codeLengthHigh .len) t') (fun u => decide (u.held = none ∧ u.response ≠ .error)) == some true))
    (by decide +kernel)
  rw [Bool.and_eq_true, beq_iff_eq] at h4
  obtain ⟨u, h5, h6⟩ := next_of_see h4.2
  exact ⟨_, t, t', u, h1, of_decide_eq_true h2, h3, of_decide_eq_true h4.1, h5, of_decide_eq_true h6⟩

/-- Both ends of each of the three ranges of slots (SlotRowsDecodeLowBits). -/
theorem witness_SlotRows : ∀ slot ∈ [0, 3, 4, 13, 14, 63], ∃ (s : State) (n base : Nat), slot < 64 ∧
    30 ≤ s.arch.inBytes.length ∧ n = slot / 2 - 1 ∧ base = (2 + slot % 2) * 2 ^ n :=
  fun slot h => ⟨st (rc 0 0 (List.replicate 30 0)), _, _,
    (show ∀ x ∈ [0, 3, 4, 13, 14, 63], x < 64 by decide +kernel) slot h, by decide +kernel, rfl, rfl⟩

theorem witness_DistDec : ∃ (len : BitVec 16) (s : State), len.toNat ≤ 271 ∧ 36 ≤ s.arch.inBytes.length :=
  ⟨271, st (rc 0 0 (List.replicate 36 0)), by decide +kernel, by decide +kernel⟩

/-- ProbFrame: LEN.DEC of one posState, and a cell of the low tree of the next. -/
theorem witness_ProbFrame : ∃ (i : Instr) (s t : State) (k : Nat), Memory.wf s.arch = true ∧ exec i s = .next t ∧
    ¬ mayAdapt i s.arch k := by
  obtain ⟨t, h, _⟩ := next_of_see (o := exec (.lenDec .len 0) (st (rc 0x80000000 0 []))) (f := fun _ => true)
    (by decide +kernel)
  refine ⟨_, _, t, cell .lenLow 9, by decide +kernel, h, fun hk => ?_⟩
  have hk : lengthCells .len 0 (cell .lenLow 9) := hk
  simp only [lengthCells, inTree, choiceCell, choice2Cell, lowTree, midTree, highTree, cell, arrBase] at hk
  exact absurd hk (by decide +kernel)

/-- ProbFrame: a literal on an empty window, whose context is then known, and a cell of the next context. -/
theorem witness_ProbFrame_literal : ∃ (s t : State) (k : Nat), Memory.wf s.arch = true ∧ exec .litDec s = .next t ∧
    ¬ mayAdapt .litDec s.arch k := by
  obtain ⟨t, h, _⟩ := next_of_see (o := exec .litDec (st { win 8 [] with range := 0x80000000, lc := 3 }))
    (f := fun _ => true) (by decide +kernel)
  refine ⟨_, t, cell .lit 0x301, by decide +kernel, h, fun hk => ?_⟩
  obtain ⟨b, hb, _, hk⟩ := hk
  have hb : b = 0#8 := hb
  subst hb
  exact absurd hk (by decide +kernel)

theorem witness_DecodeFrame : ∃ (i : Instr) (s t : State), decodesOnly i = true ∧ exec i s = .next t := by
  obtain ⟨t, h, _⟩ := next_of_see (o := exec .codeDistSlot63 (st (rc 0x80000000 0 []))) (f := fun _ => true)
    (by decide +kernel)
  exact ⟨_, _, t, by decide +kernel, h⟩

theorem witness_DictFrame : ∃ (i : Instr) (s t : State), cursorOk s.arch = true ∧ beginsAnew i = false ∧
    exec i s = .next t := by
  obtain ⟨t, h, _⟩ := next_of_see (o := exec (.dwCopy 1 9) (st (win 8 [1]))) (f := fun _ => true) (by decide +kernel)
  exact ⟨_, _, t, by decide +kernel, by decide +kernel, h⟩

theorem witness_SymbolFrame : ∃ (s t : State), exec .symShortrep s = .next t := by
  obtain ⟨t, h, _⟩ := next_of_see (o := exec .symShortrep (st (win 8 [1]))) (f := fun _ => true) (by decide +kernel)
  exact ⟨_, t, h⟩

theorem witness_DwCreate_free : ∃ (n : Word) (s : State), n ≠ 0#32 ∧ ∀ c, s.arch.params.dictCap = some c → n ≤ c :=
  ⟨8, st { base with params := ⟨none, some 8⟩ }, by decide +kernel, fun c h => by cases h; decide⟩

theorem witness_DwCreate_tooLarge : ∃ (n : Word) (s : State) (c : Word), n ≠ 0#32 ∧ s.arch.params.dictCap = some c ∧ c < n :=
  ⟨9, st { base with params := ⟨none, some 8⟩ }, 8, by decide +kernel, rfl, by decide +kernel⟩

/-- The last cell of the window: the put wraps; and no window at all. -/
theorem witness_DwPut : (∃ s : State, s.arch.pos < s.arch.size) ∧ ¬ State.reset.arch.pos < State.reset.arch.size :=
  ⟨⟨st (win 8 [1, 2, 3, 4, 5, 6, 7]), by decide +kernel⟩, by decide +kernel⟩

/-- A lookback of the whole window from `pos = 0`, to a written cell. -/
theorem witness_DwGet_written : ∃ (dist : Word) (s : State) (x : Nat) (b : Byte), 1 ≤ dist.toNat ∧
    dist.toNat ≤ s.arch.size.toNat ∧ s.arch.pos < s.arch.size ∧
    x = (if dist.toNat ≤ s.arch.pos.toNat then s.arch.pos.toNat - dist.toNat
         else s.arch.size.toNat - dist.toNat + s.arch.pos.toNat) ∧ dictRead s.arch.buf x = some b :=
  ⟨2, st { win 2 [1, 2] with pos := 0, isFull := true }, 0, 1, by decide +kernel, by decide +kernel, by decide +kernel, by decide +kernel, by decide +kernel⟩

theorem witness_DwGet_fill : ∃ (dist : Word) (s : State) (x : Nat) (v : Byte), 1 ≤ dist.toNat ∧
    dist.toNat ≤ s.arch.size.toNat ∧ s.arch.pos < s.arch.size ∧
    x = (if dist.toNat ≤ s.arch.pos.toNat then s.arch.pos.toNat - dist.toNat
         else s.arch.size.toNat - dist.toNat + s.arch.pos.toNat) ∧ dictRead s.arch.buf x = none ∧
    s.arch.params.dictFill = some v :=
  ⟨4, st (win 8 [1, 2, 3]), 7, 0xEE, by decide +kernel, by decide +kernel, by decide +kernel, by decide +kernel, by decide +kernel, rfl⟩

theorem witness_DwGet_open : ∃ (dist : Word) (s : State) (x : Nat), 1 ≤ dist.toNat ∧
    dist.toNat ≤ s.arch.size.toNat ∧ s.arch.pos < s.arch.size ∧
    x = (if dist.toNat ≤ s.arch.pos.toNat then s.arch.pos.toNat - dist.toNat
         else s.arch.size.toNat - dist.toNat + s.arch.pos.toNat) ∧ dictRead s.arch.buf x = none ∧
    s.arch.params.dictFill = none :=
  ⟨4, st { win 8 [1, 2, 3] with params := Config.defaultParams }, 7, by decide +kernel, by decide +kernel, by decide +kernel, by decide +kernel, by decide +kernel,
    rfl⟩

/-- DwCopyIsGetThenPut, its first clause and DwCopyIsPeriodic. -/
theorem witness_DwCopy : ∃ (dist : Word) (s : State), 1 ≤ dist.toNat ∧ dist.toNat ≤ s.arch.size.toNat ∧
    s.arch.pos < s.arch.size := ⟨8, st (win 8 [1]), by decide +kernel, by decide +kernel, by decide +kernel⟩

theorem witness_DwCopy_step : ∃ (dist len : Word) (s t u : State) (b : Byte), len ≠ 0xFFFFFFFF#32 ∧
    exec (.dwGet dist) s = .next t ∧ t.response = .byte b ∧ exec (.dwPut b) t = .next u ∧ u.response = .done := by
  obtain ⟨t, u, h1, h2, h3, h4⟩ := next_next_of_see (i := .dwGet 1#32) (s := st (win 8 [7]))
    (f := fun t => decide (t.response = .byte 7)) (j := fun _ => .dwPut 7) (g := fun _ u => decide (u.response = .done))
    (by decide +kernel)
  exact ⟨1, 0xFFFFFFFE, _, t, u, 7, by decide +kernel, h1, of_decide_eq_true h2, h3, of_decide_eq_true h4⟩

/-- A window of three bytes in eight cells meets the window invariant. -/
theorem win_three : windowInv (win 8 [1, 2, 3]) := by
  refine ⟨by decide +kernel, by decide +kernel, by decide +kernel, by decide +kernel, ?_, ?_⟩
  · intro j hj _
    have hj : j < 3 := hj
    have h : j = 0 ∨ j = 1 ∨ j = 2 := by omega
    rcases h with rfl | rfl | rfl <;> decide
  · intro k h1 h2
    have h1 : 3 ≤ k := h1
    have h2 : k < 8 := h2
    have h : k = 3 ∨ k = 4 ∨ k = 5 ∨ k = 6 ∨ k = 7 := by omega
    rcases h with rfl | rfl | rfl | rfl | rfl <;> decide

theorem witness_Lookback_create : ∃ (n : Word) (s t : State), n ≠ 0#32 ∧ exec (.dwCreate n) s = .next t ∧
    t.response = .done := by
  obtain ⟨t, h, hr⟩ := next_of_see (o := exec (.dwCreate 1) (st base)) (f := fun t => decide (t.response = .done))
    (by decide +kernel)
  exact ⟨1, _, t, by decide +kernel, h, of_decide_eq_true hr⟩

theorem witness_Lookback_reads : ∃ (dist : Word) (s : State), windowInv s.arch ∧ 1 ≤ dist.toNat ∧
    dist.toNat ≤ s.arch.size.toNat ∧ dist.toNat ≤ s.arch.out.length :=
  ⟨3, st (win 8 [1, 2, 3]), win_three, by decide +kernel, by decide +kernel, by decide +kernel⟩

theorem witness_StateTransitions : ∀ q : Fin 12, ∃ s : State, s.arch.state = q := fun q => ⟨st { base with state := q }, rfl⟩

/-- LitDecAppendsLiteral, matched mode, with a cell at the cursor. -/
theorem witness_LitDec : ∃ s : State, s.arch.pos < s.arch.size ∧ 7 ≤ s.arch.state.val ∧ 8 ≤ s.arch.inBytes.length :=
  ⟨st { win 2 [1] with state := 11, rep0 := 1, inBytes := List.replicate 8 0 }, by decide +kernel, by decide +kernel, by decide +kernel⟩

/-- LiteralAdaptsItsCells, plain mode on an empty window. -/
theorem witness_LiteralAdapts_plain : ∃ (s t : State) (b : Byte), Memory.wf s.arch = true ∧ exec .litDec s = .next t ∧
    t.response = .byte b ∧ (s.arch.pos = 0#32 ∧ s.arch.isFull = false) ∧ ¬ 7 ≤ s.arch.state.val := by
  obtain ⟨t, h, hr⟩ := next_of_see
    (o := exec .litDec (st { win 8 [] with range := 0x7FFFFC00, code := 0x30C1FBFF, inBytes := [0xFF] }))
    (f := fun t => decide (t.response = .byte 0x61)) (by decide +kernel)
  exact ⟨_, t, _, by decide +kernel, h, of_decide_eq_true hr, by decide +kernel, by decide +kernel⟩

/-- LiteralAdaptsItsCells, matched mode (P4), both bytes read from written cells. -/
theorem witness_LiteralAdapts_matched : ∃ (s t : State) (b : Byte), Memory.wf s.arch = true ∧ exec .litDec s = .next t ∧
    t.response = .byte b ∧ ¬ (s.arch.pos = 0#32 ∧ s.arch.isFull = false) ∧ 7 ≤ s.arch.state.val ∧
    (∃ x, lookback s.arch 1 = some x ∧ dictRead s.arch.buf x = some 0x00) ∧
    (∃ x, lookback s.arch (s.arch.rep0.toNat + 1) = some x ∧ dictRead s.arch.buf x = some 0xFF) := by
  obtain ⟨t, h, hr⟩ := next_of_see
    (o := exec .litDec (st { win 4096 [0x00, 0xFF, 0x00, 0xFF, 0x00, 0xFF, 0x00] with
        lp := 2, state := 7, rep0 := 1, range := 0x01EF8800, code := 0x00F8C3BE, inBytes := [0x0F] }))
    (f := fun t => decide (t.response = .byte 0x80)) (by decide +kernel)
  exact ⟨_, t, _, by decide +kernel, h, of_decide_eq_true hr, by decide +kernel, by decide +kernel,
    ⟨6, by decide +kernel, by decide +kernel⟩, ⟨5, by decide +kernel, by decide +kernel⟩⟩

theorem witness_FmtProps : (224#8).toNat < 225 ∧ 225 ≤ (225#8).toNat := by decide +kernel

theorem witness_FmtSize : (0xFFFFFFFFFFFFFFFE#64 : DWord) ≠ 0xFFFFFFFFFFFFFFFF#64 := by decide +kernel

theorem witness_HdrParse_whole : ∃ (s : State) (d b1 b2 b3 b4 c0 c1 c2 c3 c4 c5 c6 c7 : Byte) (rest : List Byte),
    s.arch.inBytes = d :: b1 :: b2 :: b3 :: b4 :: c0 :: c1 :: c2 :: c3 :: c4 :: c5 :: c6 :: c7 :: rest ∧ d.toNat < 225 :=
  ⟨st (rc 0 0 [224, 0, 0, 0, 0, 8, 0, 0, 0, 0, 0, 0, 0]), _, _, _, _, _, _, _, _, _, _, _, _, _, _, rfl, by decide +kernel⟩

theorem witness_HdrParse_malformed : ∃ (s : State) (d : Byte) (rest : List Byte), s.arch.inBytes = d :: rest ∧
    225 ≤ d.toNat := ⟨st (rc 0 0 [225]), _, _, rfl, by decide +kernel⟩

theorem witness_HdrParse_short : ∃ s : State, s.arch.inBytes.length < 13 ∧ (∀ d, s.arch.inBytes[0]? = some d → d.toNat < 225) :=
  ⟨st (rc 0 0 [224, 0, 0, 0, 0, 8, 0, 0, 0, 0, 0, 0]), by decide +kernel, fun d h => by cases h; decide⟩

theorem witness_DecInit : ∃ s : State, s.arch.dictSize ≠ 0#32 ∧ ∀ c, s.arch.params.dictCap = some c → s.arch.dictSize ≤ c :=
  ⟨st { base with dictSize := 4096, params := ⟨none, some 4096⟩ }, by decide +kernel, fun c h => by cases h; decide⟩

theorem witness_DecInit_tooLarge : ∃ (s : State) (c : Word), s.arch.dictSize ≠ 0#32 ∧ s.arch.params.dictCap = some c ∧
    c < s.arch.dictSize := ⟨st { base with dictSize := 4097, params := ⟨none, some 4096⟩ }, _, by decide +kernel, rfl, by decide +kernel⟩

/-- A host that starts a new decode while an operation holds (StartBeginsDecode). -/
theorem witness_StartBeginsDecode : ∃ (s : State) (es : List Event), s.held ≠ none ∧ s.events = .cmd (.uop [0x18]) :: es :=
  ⟨{ heldState with events := [.cmd (.uop [0x18])] }, [], by decide +kernel, rfl⟩

/-- P1's 18 leading bytes (StartSequenceReachesLoop). -/
def started : State :=
  { st (rc 0 0 [0x5D, 0x00, 0x00, 0x80, 0x00, 0xFF, 0xFF, 0xFF, 0xFF, 0xFF, 0xFF, 0xFF, 0xFF, 0x00, 0x30, 0xC1, 0xFB, 0xFF])
    with events := [.cmd (.uop [0x18])] }

theorem witness_StartSequence :
    ∃ (s : State) (d b1 b2 b3 b4 c0 c1 c2 c3 c4 c5 c6 c7 z p1 p2 p3 p4 : Byte) (rest : List Byte),
    s.events = [.cmd (.uop [0x18])] ∧
    s.arch.inBytes = d :: b1 :: b2 :: b3 :: b4 :: c0 :: c1 :: c2 :: c3 :: c4 :: c5 :: c6 :: c7 :: z :: p1 :: p2 :: p3 ::
      p4 :: rest ∧ d.toNat < 225 ∧ s.arch.params.dictCap = none :=
  ⟨started, _, _, _, _, _, _, _, _, _, _, _, _, _, _, _, _, _, _, _, rfl, rfl, by decide +kernel, rfl⟩

theorem witness_StartForgets : ∃ s1 s2 : State, s1 ≠ s2 ∧ s1.events = [.cmd (.uop [0x18])] ∧
    s2.events = [.cmd (.uop [0x18])] ∧ s1.arch.inBytes = s2.arch.inBytes ∧ s1.arch.inEnd = s2.arch.inEnd ∧
    s1.arch.params = s2.arch.params ∧ s1.arch.fillReads = s2.arch.fillReads ∧
    ∃ t, Host.Core.run Sys2Proof.core 4 s1 = .next t ∧ t.arch.phase = .loop := by
  obtain ⟨t, h, hr⟩ := next_of_see (o := Host.Core.run Sys2Proof.core 4 started)
    (f := fun t => decide (t.arch.phase = .loop)) (by decide +kernel)
  exact ⟨started, { started with arch := { started.arch with state := 5, prob := [(0, 31)] }, held := heldState.held },
    by decide +kernel, rfl, rfl, rfl, rfl, rfl, rfl, t, h, of_decide_eq_true hr⟩

theorem witness_SymLit_budget : ∃ s : State, s.arch.sizeDefined = true ∧ s.arch.leftToUnpack = 0#64 :=
  ⟨st { base with sizeDefined := true }, rfl, rfl⟩

theorem witness_SymLit_decodes : ∃ (s t u : State) (b : Byte), ¬ (s.arch.sizeDefined = true ∧ s.arch.leftToUnpack = 0#64) ∧
    exec .litDec s = .next t ∧ t.response = .byte b ∧ exec .stLit t = .next u := by
  obtain ⟨t, u, h1, h2, h3, _⟩ := next_next_of_see (i := .litDec)
    (s := st { win 8 [] with
      range := 0x7FFFFC00, code := 0x30C1FBFF, inBytes := [0xFF], sizeDefined := true, leftToUnpack := 1 })
    (f := fun t => decide (t.response = .byte 0x61)) (j := fun _ => .stLit) (g := fun _ _ => true) (by decide +kernel)
  exact ⟨_, t, u, 0x61, by decide +kernel, h1, of_decide_eq_true h2, h3⟩

/-- SYM.MATCH from a state, its length, its distance and a fact about the state `m` its decisions leave. -/
def MatchHypotheses (s : State) (len : Nat) (d : Word) (P : Arch → Bool) : Prop :=
    ∃ (t u : State) (m : Arch), exec (.lenDec .len (posState s.arch)) s = .next t ∧
      t.response = .value (BitVec.ofNat 32 len) ∧ exec (.distDec (BitVec.ofNat 16 len)) t = .next u ∧
      u.response = .value d ∧
      m = { u.arch with
        decisions := t.arch.decisions ++ u.arch.decisions, rep3 := s.arch.rep2, rep2 := s.arch.rep1,
        rep1 := s.arch.rep0, rep0 := d, state := if s.arch.state.val < 7 then 7 else 10 } ∧ P m = true

theorem match_witness {s : State} {len : Nat} {d : Word} {P : Arch → Bool}
    (h : see (exec (.lenDec .len (posState s.arch)) s) (fun t =>
      decide (t.response = .value (BitVec.ofNat 32 len)) &&
      (see (exec (.distDec (BitVec.ofNat 16 len)) t) (fun u =>
        decide (u.response = .value d) && P { u.arch with
          decisions := t.arch.decisions ++ u.arch.decisions, rep3 := s.arch.rep2, rep2 := s.arch.rep1,
          rep1 := s.arch.rep0, rep0 := d, state := if s.arch.state.val < 7 then 7 else 10 }) == some true)) = some true) : MatchHypotheses s len d P := by
  obtain ⟨t, u, h1, h2, h3, h4⟩ := next_next_of_see (j := fun _ => .distDec (BitVec.ofNat 16 len)) h
  rw [Bool.and_eq_true] at h4
  exact ⟨t, u, _, h1, of_decide_eq_true h2, h3, of_decide_eq_true h4.1, rfl, h4.2⟩

/-- The marker's decisions, all 1 but the length code's first four: `code` as P1 has it at decision 12. -/
def marker (a : Arch) (last : Byte) : Arch :=
  { a with range := 0x20000000, code := 0x01FFFFFF, inBytes := [0xFF, 0xE0, 0x00, 0x00, last] }

theorem witness_SymMatch_badEndMarker : MatchHypotheses (st (marker base 1)) 0 0xFFFFFFFF
  (fun m => decide (m.code ≠ 0#32)) :=
  match_witness (by decide +kernel)

theorem witness_SymMatch_sizeMismatch : MatchHypotheses
  (st (marker { base with sizeDefined := true, leftToUnpack := 7 } 0)) 0 0xFFFFFFFF
  (fun m => decide (m.code = 0#32 ∧ m.sizeDefined = true ∧ m.leftToUnpack ≠ 0#64)) :=
  match_witness (by decide +kernel)

theorem witness_SymMatch_endMarker : MatchHypotheses (st (marker { base with sizeDefined := true } 0)) 0 0xFFFFFFFF
  (fun m => decide (m.code = 0#32 ∧ (m.sizeDefined = true → m.leftToUnpack = 0#64))) :=
  match_witness (by decide +kernel)

/-- The decisions 0001 and 000011: length code 1, distance 3 (the example of R171). -/
def matchOf (a : Arch) : State := st { a with range := 0x80000000, code := 0x08600000, inBytes := [0] }

theorem witness_SymMatch_budget : MatchHypotheses (matchOf { win 8 [1, 2, 3, 4] with sizeDefined := true }) 1 3
  (fun m => decide (m.sizeDefined = true ∧ m.leftToUnpack = 0#64)) :=
  match_witness (by decide +kernel)

/-- One byte too few in the window; and a window of exactly four cells that has not wrapped. -/
theorem witness_SymMatch_badDistance : MatchHypotheses (matchOf (win 8 [1, 2])) 1 3
  (fun m => decide (¬ (m.sizeDefined = true ∧ m.leftToUnpack = 0#64)) && !(decide (3#32 < m.dictSize) && distanceOk m 3#32)) :=
  match_witness (by decide +kernel)

theorem witness_SymMatch_copy : MatchHypotheses (matchOf (win 4 [1, 2, 3])) 1 3
  (fun m => decide (¬ (m.sizeDefined = true ∧ m.leftToUnpack = 0#64)) && (decide (3#32 < m.dictSize) && distanceOk m 3#32) &&
    (see (exec (.dwCopy 4#32 3#32) (st m)) (fun v => decide (v.response = .done)) == some true)) :=
  match_witness (by decide +kernel)

theorem witness_SymMatch_overrun : MatchHypotheses
  (matchOf { win 8 [1, 2, 3, 4] with sizeDefined := true, leftToUnpack := 2 }) 1 3
  (fun m => (m.sizeDefined && decide (m.leftToUnpack.toNat < 1 + 2)) && (decide (3#32 < m.dictSize) && distanceOk m 3#32) &&
    (see (exec (.dwCopy 4#32 2#32) (st m)) (fun v => decide (v.response = .done)) == some true)) :=
  match_witness (by decide +kernel)

theorem witness_SymEos : (∃ s : State, s.arch.code ≠ 0#32) ∧
    (∃ s : State, s.arch.code = 0#32 ∧ s.arch.sizeDefined = true ∧ s.arch.leftToUnpack ≠ 0#64) ∧
    (∃ s : State, s.arch.code = 0#32 ∧ (s.arch.sizeDefined = true → s.arch.leftToUnpack = 0#64)) :=
  ⟨⟨st { base with code := 1 }, by decide +kernel⟩, ⟨st { base with sizeDefined := true, leftToUnpack := 1 }, by decide +kernel, rfl, by decide +kernel⟩,
    ⟨st { base with sizeDefined := true }, rfl, fun _ => rfl⟩⟩

theorem witness_SymShortrep : ∃ (s t u v : State) (b : Byte), exec .stShortrep s = .next t ∧
    exec (.dwGet (s.arch.rep0 + 1#32)) t = .next u ∧ u.response = .byte b ∧ exec (.dwPut b) u = .next v ∧
    v.response = .done := by
  obtain ⟨t, u, h1, _, h3, h4⟩ := next_next_of_see (i := .stShortrep) (s := st { win 8 [7, 9] with rep0 := 1 })
    (f := fun _ => true) (j := fun _ => .dwGet 2#32)
    (g := fun _ u => decide (u.response = .byte 7) &&
      (see (exec (.dwPut 7) u) (fun v => decide (v.response = .done)) == some true)) (by decide +kernel)
  rw [Bool.and_eq_true, beq_iff_eq] at h4
  obtain ⟨v, h5, h6⟩ := next_of_see h4.2
  exact ⟨_, t, u, v, 7, h1, h3, of_decide_eq_true h4.1, h5, of_decide_eq_true h6⟩

/-- A long repeat: its length code from the state with the reps in their new order, and the copy. `left` is the budget. -/
def RepHypotheses (s : State) (len n : Nat) (overrun : Bool) (rep0 : Word) : Prop :=
    ∃ t : State, exec (.lenDec .rep (posState s.arch)) s = .next t ∧ t.response = .value (BitVec.ofNat 32 len) ∧
      overrun = (t.arch.sizeDefined && decide (t.arch.leftToUnpack.toNat < len + 2)) ∧
      n = (if overrun then t.arch.leftToUnpack.toNat else len + 2) ∧ t.arch.rep0 = rep0 ∧
      ∃ v, exec (.dwCopy (rep0 + 1#32) (BitVec.ofNat 32 n))
        (st { t.arch with state := if s.arch.state.val < 7 then 8 else 11 }) = .next v ∧ v.response = .done

theorem rep_witness {s : State} {len n : Nat} {overrun : Bool} {rep0 : Word}
    (h : see (exec (.lenDec .rep (posState s.arch)) s) (fun t =>
      decide (t.response = .value (BitVec.ofNat 32 len)) &&
      (decide (overrun = (t.arch.sizeDefined && decide (t.arch.leftToUnpack.toNat < len + 2))) &&
       decide (n = if overrun then t.arch.leftToUnpack.toNat else len + 2) && decide (t.arch.rep0 = rep0) &&
       (see (exec (.dwCopy (rep0 + 1#32) (BitVec.ofNat 32 n))
          (st { t.arch with state := if s.arch.state.val < 7 then 8 else 11 }))
        (fun v => decide (v.response = .done)) == some true))) = some true) : RepHypotheses s len n overrun rep0 := by
  obtain ⟨t, ht, h⟩ := next_of_see h
  simp only [Bool.and_eq_true, beq_iff_eq, decide_eq_true_eq] at h
  obtain ⟨h1, ⟨⟨h2, h3⟩, h4⟩, h5⟩ := h
  obtain ⟨v, hv, hr⟩ := next_of_see h5
  exact ⟨t, ht, h1, h2, h3, h4, v, hv, of_decide_eq_true hr⟩

/-- LongRepeatsRotateAndCopy for SYM.REP3, the chosen rep in front. -/
theorem witness_LongRepeats : RepHypotheses
  (st { win 16 [1, 2, 3, 4, 5, 6, 7, 8, 9, 10, 11, 12] with range := 0x80000000, rep0 := 2, rep1 := 3, rep2 := 5, rep3 := 9 })
  0 2 false 2 :=
  rep_witness (by decide +kernel)

theorem witness_LongRepeats_overrun : RepHypotheses
  (st { win 8 [1] with range := 0x80000000, sizeDefined := true, leftToUnpack := 1 }) 0 1 true 0 :=
  rep_witness (by decide +kernel)

theorem witness_BudgetEnds : ∃ s : State, s.arch.sizeDefined = true ∧ s.arch.leftToUnpack = 0#64 ∧ s.arch.code = 0#32 :=
  ⟨st { base with sizeDefined := true }, rfl, rfl, rfl⟩

/-- Selecting decisions, evaluated. -/
def decideAll : List (ProbAddr × Bool) → State → Option State
  | [], s => some s
  | (a, b) :: rest, s =>
    match exec (.rcBit a) s with
    | .next u => if u.response = .bit b then decideAll rest u else none
    | .fault _ => none
    | .refused _ => none

theorem decides_of_decideAll {l : List (ProbAddr × Bool)} {s t : State} (h : decideAll l s = some t) : decides l s t := by
  induction l generalizing s with
  | nil => exact (Option.some.inj h).symm
  | cons e rest ih =>
    obtain ⟨a, b⟩ := e
    unfold decideAll at h
    split at h
    · split at h
      · exact ⟨_, by assumption, by assumption, ih h⟩
      · cases h
    · cases h
    · cases h

theorem select_witness {l : List (ProbAddr × Bool)} {s : State} {i : Instr} {f : State → Bool}
    (h : (decideAll l s).any (fun t => see (exec i t) f == some true) = true) :
    ∃ t u, decides l s t ∧ exec i t = .next u ∧ f u = true := by
  cases hd : decideAll l s with
  | none => rw [hd] at h; cases h
  | some t =>
    rw [hd] at h
    obtain ⟨u, hu, hf⟩ := next_of_see (beq_iff_eq.mp h)
    exact ⟨t, u, decides_of_decideAll hd, hu, hf⟩

/-- The state of an iteration, with the decisions that come next in the top bits of `code` (every cell reads 1024). -/
def iterating (code : Word) : State :=
  st { win 16 [1, 2, 3, 4, 5, 6, 7, 8, 9, 10, 11, 12] with
    phase := .symbol, range := 0x80000000, code := code, inBytes := [0, 0, 0], rep0 := 3, rep1 := 5, rep2 := 9, rep3 := 2 }

/-- Every symbol's row is selected from some state and goes on (MainStepRunsSelectedSymbol). -/
theorem witness_MainStep_continue : ∀ e ∈ [(Instr.symLit, 0x00000000#32), (.symMatch, 0x40000000#32),
      (.symShortrep, 0x60000000#32), (.symRep0, 0x68000000#32), (.symRep1, 0x70000000#32), (.symRep2, 0x78000000#32),
      (.symRep3, 0x7C000000#32)],
    ∃ t u, decides (selectors 0 0#4 e.1) (iterating e.2) t ∧ exec e.1 t = .next u ∧
      decide (u.response = .step .continue) = true :=
  fun e h => select_witness
    ((show ∀ e ∈ [(Instr.symLit, 0x00000000#32), (.symMatch, 0x40000000#32),
      (.symShortrep, 0x60000000#32), (.symRep0, 0x68000000#32), (.symRep1, 0x70000000#32), (.symRep2, 0x78000000#32),
      (.symRep3, 0x7C000000#32)], (decideAll (selectors 0 0#4 e.1) (iterating e.2)).any (fun t =>
        see (exec e.1 t) (fun u => decide (u.response = .step .continue)) == some true) = true by decide +kernel) e h)

/-- And to an end: P1's marker. -/
theorem witness_MainStep_finished : ∃ t u, decides (selectors 0 0#4 .symMatch)
      (st { win 8 [0x61] with
        phase := .symbol, range := 0x80000000, code := 0x41FFFFFF, inBytes := [0xFF, 0xE0, 0x00, 0x00, 0x00] }) t ∧
    exec .symMatch t = .next u ∧ decide (u.response = .step .finished ∨ u.response = .error) = true :=
  select_witness (by decide +kernel)

theorem witness_RepeatGuards_budget : ∃ s t : State,
    ¬ (s.arch.sizeDefined = true ∧ s.arch.leftToUnpack = 0#64 ∧ s.arch.code = 0#32) ∧
    decides [(⟨.isMatch, BitVec.ofNat 24 (s.arch.state.val * 16 + (posState s.arch).toNat)⟩, true),
      (⟨.isRep, BitVec.ofNat 24 s.arch.state.val⟩, true)] { s with arch := { s.arch with phase := .symbol } } t ∧
    s.arch.sizeDefined = true ∧ s.arch.leftToUnpack = 0#64 := by
  obtain ⟨t, _, h, _⟩ := select_witness (l := [(⟨.isMatch, 0#24⟩, true), (⟨.isRep, 0#24⟩, true)])
    (s := st { win 8 [1] with phase := .symbol, range := 0x80000000, code := 0x60000000, sizeDefined := true })
    (i := .dwEmpty) (f := fun _ => true) (by decide +kernel)
  exact ⟨st { win 8 [1] with phase := .loop, range := 0x80000000, code := 0x60000000, sizeDefined := true }, t, by decide +kernel, h,
    rfl, rfl⟩

theorem witness_RepeatGuards_empty : ∃ s t : State,
    ¬ (s.arch.sizeDefined = true ∧ s.arch.leftToUnpack = 0#64 ∧ s.arch.code = 0#32) ∧
    decides [(⟨.isMatch, BitVec.ofNat 24 (s.arch.state.val * 16 + (posState s.arch).toNat)⟩, true),
      (⟨.isRep, BitVec.ofNat 24 s.arch.state.val⟩, true)] { s with arch := { s.arch with phase := .symbol } } t ∧
    ¬ (s.arch.sizeDefined = true ∧ s.arch.leftToUnpack = 0#64) ∧ s.arch.pos = 0#32 ∧ s.arch.isFull = false := by
  obtain ⟨t, _, h, _⟩ := select_witness (l := [(⟨.isMatch, 0#24⟩, true), (⟨.isRep, 0#24⟩, true)])
    (s := st { win 8 [] with phase := .symbol, range := 0x80000000, code := 0x60000000 })
    (i := .dwEmpty) (f := fun _ => true) (by decide +kernel)
  exact ⟨st { win 8 [] with phase := .loop, range := 0x80000000, code := 0x60000000 }, t, by decide +kernel, h, by decide +kernel, rfl, rfl⟩

theorem witness_OneIteration : ∃ s t : State, windowInv s.arch ∧
    ¬ (s.arch.sizeDefined = true ∧ s.arch.leftToUnpack = 0#64 ∧ s.arch.code = 0#32) ∧ exec .mainStep s = .next t ∧
    (t.response = .step .continue ∨ t.response = .step .finished) := by
  obtain ⟨t, h, hr⟩ := next_of_see
    (o := exec .mainStep (st { win 8 [1, 2, 3] with phase := .loop, range := 0x80000000, code := 0x60000000 }))
    (f := fun t => decide (t.response = .step .continue ∨ t.response = .step .finished)) (by decide +kernel)
  exact ⟨_, t, win_three, by decide +kernel, h, of_decide_eq_true hr⟩

/-- With 48 bytes at hand and a budget of 273: every clause of SymbolsCompleteOnInput. -/
theorem witness_SymbolsComplete : ∃ s : State, (s.arch.sizeDefined = true → 273 ≤ s.arch.leftToUnpack.toNat) ∧
    s.arch.sizeDefined = true ∧ 48 ≤ s.arch.inBytes.length ∧ s.arch.isFull = true ∧ s.arch.dictSize = 0xFFFFFFFF#32 :=
  ⟨st { win 0xFFFFFFFF [] with
      isFull := true, sizeDefined := true, leftToUnpack := 273, inBytes := List.replicate 48 0 },
    fun _ => by decide +kernel, rfl, by decide +kernel, rfl, rfl⟩

theorem witness_IterationIsBounded : ∃ s t : State, Memory.wf s.arch = true ∧ exec .mainStep s = .next t := by
  obtain ⟨t, h, _⟩ := next_of_see
    (o := exec .mainStep (st { win 8 [1, 2, 3] with phase := .loop, range := 0x80000000, code := 0x60000000 }))
    (f := fun _ => true) (by decide +kernel)
  exact ⟨_, t, by decide +kernel, h⟩

theorem witness_HardError : ∃ (i : Instr) (s t : State), exec i s = .next t ∧ t.response = .error ∧
    t.arch.status = .error ∧ s.arch.status ≠ .error := by
  obtain ⟨t, h, hr⟩ := next_of_see (o := exec (.fmtProps 225) (st base))
    (f := fun t => decide (t.response = .error ∧ t.arch.status = .error)) (by decide +kernel)
  have hr := of_decide_eq_true hr
  exact ⟨_, _, t, h, hr.1, hr.2, by decide +kernel⟩

/-- The other two clauses of HardErrorIsTerminal. -/
theorem witness_HardError_internal : ∃ (i : Instr) (s t : State), exec i s = .next t ∧ t.arch.cause = .internal := by
  obtain ⟨t, h, hr⟩ := next_of_see (o := exec .dwEmpty (st { base with cause := .internal }))
    (f := fun t => decide (t.arch.cause = .internal)) (by decide +kernel)
  exact ⟨_, _, t, h, of_decide_eq_true hr⟩

theorem witness_DoneUntilStart_alone : ∃ s : State, s.held = none ∧ s.arch.phase = .done ∧ s.events = [] :=
  ⟨st { base with phase := .done }, rfl, rfl, rfl⟩

theorem witness_DoneUntilStart : ∃ (s : State) (e : Event) (es : List Event), s.held = none ∧ s.arch.phase = .done ∧
    (e = .pass ∨ e = .endOfInput ∨ e = .attach ∨ ∃ b, e = .byte b) ∧ s.events = e :: es :=
  ⟨{ st { base with phase := .done } with events := [.byte 7] }, .byte 7, [], rfl, rfl, .inr (.inr (.inr ⟨7, rfl⟩)), rfl⟩

theorem witness_CorruptedFlag : ∃ s1 s2 : State, s1 ≠ s2 ∧ s1.dropCorrupted = s2.dropCorrupted :=
  ⟨st base, st { base with corrupted := true }, by decide +kernel, rfl⟩

/-- HeldOperationGoesOn and EndOfInputTruncatesHold. -/
theorem witness_Held : ∃ (i : Instr) (s t : State), s.held = none ∧ exec i s = .next t ∧ t.held ≠ none := by
  obtain ⟨t, h, hr⟩ := next_of_see (o := exec (.rcBit ⟨.isMatch, 0⟩) (st (rc 0x01000000 0 [])))
    (f := fun t => decide (t.held ≠ none)) (by decide +kernel)
  exact ⟨_, _, t, rfl, h, of_decide_eq_true hr⟩

theorem witness_StepKeepsStateOk : ∃ s t : State, s.ok = true ∧ step s = .next t := by
  obtain ⟨t, h, _⟩ := next_of_see (o := step { heldState with events := [.byte 7] }) (f := fun _ => true) (by decide +kernel)
  exact ⟨_, t, by decide +kernel, h⟩

theorem witness_LoopInvariant_init : ∃ s t : State, 0x01000000#32 ≤ s.arch.range ∧ 18 ≤ s.arch.inPos.toNat ∧
    (s.arch.sizeDefined = true → s.arch.leftToUnpack = s.arch.declaredSize) ∧ exec .decInit s = .next t ∧
    t.response = .done := by
  obtain ⟨t, h, hr⟩ := next_of_see
    (o := exec .decInit (st { base with
      range := 0xFFFFFFFF, inPos := 18, dictSize := 4096, sizeDefined := true, leftToUnpack := 5, declaredSize := 5 })) (f := fun t => decide (t.response = .done)) (by decide +kernel)
  exact ⟨_, t, by decide +kernel, by decide +kernel, fun _ => rfl, h, of_decide_eq_true hr⟩

theorem fresh_cells (k : Nat) : 31 ≤ (probRead [] k).toNat ∧ (probRead [] k).toNat ≤ 2017 := by
  show 31 ≤ (1024#11).toNat ∧ (1024#11).toNat ≤ 2017
  decide

theorem witness_LoopInvariant_step : ∃ s t : State, Memory.wf s.arch = true ∧ loopInv s.arch ∧
    s.arch.totalPos.toNat + 273 < 2 ^ 64 ∧ s.arch.inPos.toNat + 48 < 2 ^ 64 ∧ exec .mainStep s = .next t ∧
    t.response = .step .continue := by
  obtain ⟨t, h, hr⟩ := next_of_see
    (o := exec .mainStep (st { win 8 [1, 2, 3] with
      phase := .loop, range := 0x80000000, code := 0x60000000, inPos := 18, sizeDefined := true, leftToUnpack := 5,
      declaredSize := 8 })) (f := fun t => decide (t.response = .step .continue)) (by decide +kernel)
  exact ⟨_, t, by decide +kernel, ⟨by decide +kernel, fresh_cells, by decide +kernel, by decide +kernel, by decide +kernel,
      by decide +kernel, by decide +kernel⟩, by decide +kernel,
    by decide +kernel, h, of_decide_eq_true hr⟩

theorem witness_DecodeNeverFaults : ∃ s : State, s.decodeOk = true ∧ hostDriven s :=
  ⟨{ st { win 8 [1] with phase := .loop } with events := [.cmd (.uop [0x18])] }, by decide +kernel, by
    intro w es h i hi
    cases h
    exact (Except.ok.inj hi).symm⟩

/-- The hypothesis of MainStepRunsSelectedSymbol that no end test succeeds, and the guards of the repeat family. -/
theorem witness_MainStep_guards : ¬ ((iterating 0x60000000).arch.sizeDefined = true ∧
      (iterating 0x60000000).arch.leftToUnpack = 0#64 ∧ (iterating 0x60000000).arch.code = 0#32) ∧
    ¬ ((iterating 0x60000000).arch.pos = 0#32 ∧ (iterating 0x60000000).arch.isFull = false) := by decide +kernel

end Sys2Proof.Machine.Tests
end

section
/-! SUPPORT. What one step does with a word on the command interface, and with no event (R88, R226, R228). With it, O1. -/

namespace Sys2Proof.Machine

theorem step_event {s : State} {e : Event} {es : List Event} (h : s.events = e :: es) :
    step s = deliver e { s with events := es } := by
  unfold step stepOnce
  rw [h]

theorem step_alone {s : State} (h : s.events = []) : step s = coreStep s := by
  unfold step stepOnce
  rw [h]

theorem runWord_accepted {w : CmdWord} {i : Instr} {s : State} (hw : decode w = .ok i) (h : s.held = none ∨ i = .start) :
    runWord w s = exec i s := by
  have ha : accepts s i = true := by
    unfold accepts
    rcases h with h | h <;> simp [h]
  unfold runWord
  rw [hw]
  exact if_pos ha

theorem runWord_refused {w : CmdWord} {s : State}
    (h : (∃ e, decode w = .error e) ∨ (s.held ≠ none ∧ decode w ≠ .ok .start)) : runWord w s = turnAway s := by
  unfold runWord
  cases hw : decode w with
  | error e => rfl
  | ok i =>
    rcases h with ⟨e, he⟩ | ⟨hh, hs⟩
    · rw [hw] at he
      cases he
    · have hi : i ≠ .start := fun hi => hs (by rw [hw, hi])
      have ha : accepts s i = false := by simp [accepts, hi, Option.isSome_iff_ne_none, hh]
      exact if_neg (by simp [ha])

theorem coreStep_issues {s : State} {i : Instr} (hh : s.held = none) (h : nextOperation s.arch = some i) :
    coreStep s = exec i s := by
  unfold coreStep
  simp only [hh, h]

theorem coreStep_stays {s : State} (hh : s.held = none) (h : nextOperation s.arch = none) (hp : s.arch.phase ≠ .symbol) :
    coreStep s = .next s := by
  unfold coreStep
  simp only [hh, h]
  exact if_neg hp

/-- Settles O1: the step takes the event, and `runWord` or `coreStep` does the rest. -/
theorem stepRunsDecodedInstruction : Obligations.StepRunsDecodedInstruction := by
  refine ⟨fun s w es i he hw h => ?_, fun s w es he h => ?_, fun s hh he => ?_⟩
  · rw [step_event he]
    exact runWord_accepted hw h
  · rw [step_event he]
    exact runWord_refused h
  · rw [step_alone he]
    refine ⟨fun hp => ?_, fun hp hin => ?_, fun hp hin => ?_, fun hp => ?_, fun hp => ?_, fun hp => ?_⟩
    · exact coreStep_issues hh (by simp only [nextOperation, hp])
    · exact coreStep_issues hh (by simp only [nextOperation, hp, if_pos hin])
    · exact coreStep_issues hh (by simp only [nextOperation, hp, if_neg hin])
    · exact coreStep_issues hh (by simp only [nextOperation, hp])
    · exact coreStep_stays hh (by simp only [nextOperation, hp]) (by simp [hp])
    · exact coreStep_stays hh (by simp only [nextOperation, hp]) (by simp [hp])

end Sys2Proof.Machine
end

section
/-! SUPPORT. What the sequencer relies on (R149), established by the header and DEC.INIT, kept by every iteration of the main
loop and by everything the host and the source can do (R184, R261). With it, O57. -/

namespace Sys2Proof.Machine

/-! ## Every instruction answers (R14) -/

theorem exec_total (i : Instr) (s : State) : ∃ t, exec i s = .next t := by
  cases ha : allowed i s.arch with
  | false => exact ⟨_, exec_of_not_allowed ha⟩
  | true =>
    rw [exec_of_allowed ha]
    rcases runOp_ends i (opOf i s.arch) s with ⟨_, _, _, h⟩ | ⟨_, _, h⟩ | ⟨_, _, _, h⟩ <;> exact ⟨_, h⟩

/-! ## What a completed operation leaves -/

/-- Started where `P` holds, the operation leaves `R` of its result and the state, if it completes. -/
def Yields (P : Arch → Prop) (op : Op α) (R : α → Arch → Prop) : Prop := ∀ a r b, P a → op a = .ok r b → R r b

section

variable {P P' : Arch → Prop} {R : β → Arch → Prop}

theorem Yields.bind {x : Op α} {f : α → Op β} {S : α → Arch → Prop} (hx : Yields P x S)
    (hf : ∀ r, Yields (S r) (f r) R) : Yields P (x >>= f) R := by
  intro a r c ha h
  obtain ⟨q, b, hq, hr⟩ := bind_ok_iff.mp h
  exact hf q b r c (hx a q b ha hq) hr

theorem Yields.pure {r : β} (h : ∀ a, P a → R r a) : Yields P (pure r : Op β) R := by
  intro a _ _ ha hr
  cases hr
  exact h a ha

theorem Yields.modify {f : Arch → Arch} (h : ∀ a, P a → P' (f a)) : Yields P (modify f : Op PUnit) fun _ => P' := by
  intro a _ _ ha hr
  cases hr
  exact h a ha

theorem Yields.get_bind {f : Arch → Op β} (hf : ∀ a, Yields (fun b => b = a ∧ P b) (f a) R) :
    Yields P (get >>= f) R :=
  fun a r b ha h => hf a a r b ⟨rfl, ha⟩ h

theorem Yields.raiseIf (p : Bool) (c : Cause) : Yields P (raiseIf p c) fun _ b => p = false ∧ P b := by
  intro a _ b ha h
  rw [run_raiseIf] at h
  cases p <;> cases h
  exact ⟨rfl, ha⟩

theorem Yields.weaken {x : Op β} (h : Yields P x R) (hP : ∀ a, P' a → P a) : Yields P' x R :=
  fun a r b ha => h a r b (hP a ha)

theorem Yields.mono {R' : β → Arch → Prop} {x : Op β} (h : Yields P x R) (hR : ∀ r b, R r b → R' r b) :
    Yields P x R' :=
  fun a r b ha hr => hR r b (h a r b ha hr)

theorem Yields.trivial (x : Op β) : Yields P x fun _ _ => True := fun _ _ _ _ _ => True.intro

theorem Preserves.yields {x : Op α} (h : Preserves P x) : Yields P x fun _ => P := by
  intro a r b ha hr
  have hb := h a ha
  rw [hr] at hb
  exact hb

/-- A first part that keeps `P` true leaves the rest to start where `P` holds. -/
theorem Preserves.before {x : Op α} {f : α → Op β} (hx : Preserves P x) (hf : ∀ r, Yields P (f r) R) :
    Yields P (x >>= f) R :=
  hx.yields.bind hf

end

theorem Yields.answerDone {P Q : Arch → Prop} {op : Op Unit} (h : Yields P op fun _ => Q) :
    Yields P (answerDone op) fun _ => Q :=
  h.bind fun _ => Yields.pure fun _ hb => hb

theorem Yields.answer {P Q : Arch → Prop} {f : α → Response} {op : Op α} (h : Yields P op fun _ => Q) :
    Yields P (answer f op) fun _ => Q :=
  h.bind fun _ => Yields.pure fun _ hb => hb

/-! ## The window of a running decode (R149) -/

/-- In the main loop the window has `dictSize` cells, and the cursor and the four lookbacks are inside it (R149). -/
def windowReady (a : Arch) : Prop :=
  a.size = a.dictSize ∧ a.pos < a.size ∧ a.rep0 < a.size ∧ a.rep1 < a.size ∧ a.rep2 < a.size ∧ a.rep3 < a.size

/-- The same of all but `rep0`, while a new distance is being decoded (R171). -/
def windowReadyButRep0 (a : Arch) : Prop := ∃ d, windowReady { a with rep0 := d }

theorem decodeOk_of_loop {a : Arch} (h : a.phase = .loop) : decodeOk a = true ↔ windowReady a := by
  simp [decodeOk, h, windowReady, and_assoc]

theorem decodeOk_of_done {a : Arch} (h : a.phase = .done) : decodeOk a = true := by
  simp [decodeOk, h]

theorem windowReady_putStep {b : Byte} {a : Arch} (h : windowReady a) : windowReady (putStep b a) := by
  obtain ⟨hs, hp, h0, h1, h2, h3⟩ := h
  have hpos := (putStep_pos_toNat (b := b) hp).2
  rw [putStep_eq]
  exact ⟨hs, putStep_size b a ▸ hpos, h0, h1, h2, h3⟩

theorem dwPut_preserves_windowReady (b : Byte) : Preserves windowReady (dwPut b) := by
  intro a ha
  rw [dwPut_ok]
  exact windowReady_putStep ha

theorem rcBit_preserves_windowReady (k : Nat) : Preserves windowReady (rcBit k) :=
  (rcBit_keeps (fun _ _ _ _ _ _ => rfl) fun _ _ => rfl : Keeps windowReady (rcBit k)).preserves id

theorem directRound_preserves_windowReady : Preserves windowReady rcDirectRound :=
  (rcDirectRound_keeps fun _ _ _ _ _ _ _ => rfl : Keeps windowReady rcDirectRound).preserves id

theorem dwGet_preserves_windowReady (d : Nat) : Preserves windowReady (dwGet d) :=
  (dwGet_keeps (fun _ _ => rfl) d : Keeps windowReady (dwGet d)).preserves id

theorem spendBudget_preserves_windowReady (n : Nat) : Preserves windowReady (spendBudget n) :=
  Preserves.modify fun a h => by split <;> exact h

theorem litDec_preserves_windowReady : Preserves windowReady litDec :=
  litDec_closed (preserves_closed windowReady) (fun k _ => rcBit_preserves_windowReady k) dwGet_preserves_windowReady
    dwPut_preserves_windowReady

theorem lenDec_preserves_windowReady (inst : LenInst) (ps : BitVec 4) : Preserves windowReady (lenDec inst ps) :=
  lenDec_closed (preserves_closed windowReady).toClosed fun k _ => rcBit_preserves_windowReady k

theorem distDec_preserves_windowReady (len : Nat) : Preserves windowReady (distDec len) :=
  distDec_closed (preserves_closed windowReady).toClosed (fun k _ => rcBit_preserves_windowReady k)
    directRound_preserves_windowReady

theorem dwCopy_preserves_windowReady (dist n : Nat) : Preserves windowReady (dwCopy dist n) :=
  dwCopy_closed (preserves_closed windowReady).toClosed (dwGet_preserves_windowReady dist) dwPut_preserves_windowReady n

/-! ## An iteration of the main loop -/

/-- What an iteration leaves: going on, the window as the next one relies on it; finished, the sequencer done (R183). -/
def iterationReady : StepOutcome → Arch → Prop
  | .continue, a => windowReady a
  | .finished, a => a.phase = .done

theorem continue_yields : Yields windowReady (pure .continue) iterationReady := Yields.pure fun _ h => h

theorem finish_done {P : Arch → Prop} (st : Status) :
    Yields P (finish st) fun o b => o = .finished ∧ b.phase = .done := by
  intro _ _ _ _ h
  cases h
  exact ⟨rfl, rfl⟩

theorem finish_yields {P : Arch → Prop} (st : Status) : Yields P (finish st) iterationReady := by
  refine (finish_done st).mono ?_
  rintro _ _ ⟨rfl, hp⟩
  exact hp

theorem symEos_yields {P : Arch → Prop} : Yields P symEos iterationReady :=
  Preserves.get.before fun _ => (Preserves.raiseIf _ _).before fun _ => (Preserves.raiseIf _ _).before fun _ =>
    finish_yields _

theorem budgetGuard_preserves (P : Arch → Prop) : Preserves P budgetGuard :=
  budgetGuard_closed (preserves_closed P)

theorem copyTail_yields (len : Nat) : Yields windowReady (copyTail len) iterationReady :=
  Preserves.get.before fun _ => (dwCopy_preserves_windowReady _ _).before fun _ =>
    (spendBudget_preserves_windowReady _).before fun _ => (Preserves.raiseIf _ _).before fun _ => continue_yields

theorem symLit_yields : Yields windowReady symLit iterationReady :=
  (budgetGuard_preserves _).before fun _ => litDec_preserves_windowReady.before fun _ =>
    (Preserves.modify fun _ h => h : Preserves windowReady stLit).before fun _ =>
    (spendBudget_preserves_windowReady 1).before fun _ => continue_yields

/-- A new distance that passes the checks of R171 is inside the window. -/
theorem windowReady_of_newDistanceOk {a : Arch} (h : windowReadyButRep0 a) (hd : newDistanceOk a = true) :
    windowReady a := by
  obtain ⟨_, hs, hp, _, h1, h2, h3⟩ := h
  have hlt : a.rep0 < a.dictSize := by
    simp only [newDistanceOk, Bool.and_eq_true, decide_eq_true_eq] at hd
    exact hd.1
  have hs : a.size = a.dictSize := hs
  exact ⟨hs, hp, hs ▸ hlt, h1, h2, h3⟩

theorem matchTail_yields (len : Nat) : Yields windowReadyButRep0 (matchTail len) iterationReady := by
  refine Yields.get_bind fun a => ?_
  split
  · exact symEos_yields
  · refine (budgetGuard_preserves _).before fun _ => (Yields.raiseIf _ _).bind fun _ => (copyTail_yields len).weaken ?_
    rintro _ ⟨hd, rfl, hb⟩
    exact windowReady_of_newDistanceOk hb (by simpa using hd)

theorem symMatch_yields (ps : BitVec 4) : Yields windowReady (symMatch ps) iterationReady := by
  have hrotate : Preserves windowReady rotateReps :=
    Preserves.modify fun _ ⟨hs, hp, h0, h1, h2, _⟩ => ⟨hs, hp, h0, h0, h1, h2⟩
  have hstate : Preserves windowReady stMatch := Preserves.modify fun _ h => h
  have hrep0 : ∀ d, Yields windowReady (setRep0 d) fun _ => windowReadyButRep0 :=
    fun _ => Yields.modify fun a h => ⟨a.rep0, h⟩
  exact hrotate.before fun _ => (lenDec_preserves_windowReady .len ps).before fun len => hstate.before fun _ =>
    (distDec_preserves_windowReady len).before fun d => (hrep0 d).bind fun _ => matchTail_yields len

theorem symShortrep_yields : Yields windowReady symShortrep iterationReady :=
  (Preserves.modify fun _ h => h : Preserves windowReady stShortrep).before fun _ => Preserves.get.before fun _ =>
    (dwGet_preserves_windowReady _).before fun b => (dwPut_preserves_windowReady b).before fun _ =>
    (spendBudget_preserves_windowReady 1).before fun _ => continue_yields

theorem repTail_yields (ps : BitVec 4) : Yields windowReady (repTail ps) iterationReady :=
  (lenDec_preserves_windowReady .rep ps).before fun len =>
    (Preserves.modify fun _ h => h : Preserves windowReady stRep).before fun _ => copyTail_yields len

theorem symRep1_yields (ps : BitVec 4) : Yields windowReady (symRep1 ps) iterationReady :=
  (Preserves.modify fun _ ⟨hs, hp, h0, h1, h2, h3⟩ => ⟨hs, hp, h1, h0, h2, h3⟩).before fun _ => repTail_yields ps

theorem symRep2_yields (ps : BitVec 4) : Yields windowReady (symRep2 ps) iterationReady :=
  (Preserves.modify fun _ ⟨hs, hp, h0, h1, h2, h3⟩ => ⟨hs, hp, h2, h0, h1, h3⟩).before fun _ => repTail_yields ps

theorem symRep3_yields (ps : BitVec 4) : Yields windowReady (symRep3 ps) iterationReady :=
  (Preserves.modify fun _ ⟨hs, hp, h0, h1, h2, h3⟩ => ⟨hs, hp, h3, h0, h1, h2⟩).before fun _ => repTail_yields ps

theorem repFamily_yields (st : Fin 12) (ps : BitVec 4) : Yields windowReady (repFamily st ps) iterationReady := by
  refine (repGuards_closed (preserves_closed windowReady)).before fun _ =>
    (rcBit_preserves_windowReady _).before fun g0 => ?_
  cases g0
  · refine (rcBit_preserves_windowReady _).before fun long => ?_
    cases long
    · exact symShortrep_yields
    · exact repTail_yields ps
  · refine (rcBit_preserves_windowReady _).before fun g1 => ?_
    cases g1
    · exact symRep1_yields ps
    · refine (rcBit_preserves_windowReady _).before fun g2 => ?_
      cases g2
      · exact symRep2_yields ps
      · exact symRep3_yields ps

theorem decodeIteration_yields (st : Fin 12) (ps : BitVec 4) :
    Yields windowReady (decodeIteration st ps) iterationReady := by
  refine (rcBit_preserves_windowReady _).before fun m => ?_
  cases m
  · exact symLit_yields
  · refine (rcBit_preserves_windowReady _).before fun r => ?_
    cases r
    · exact symMatch_yields ps
    · exact repFamily_yields st ps

/-- The top of the loop again, or the end of the decode: both are what the sequencer relies on (R183). -/
theorem endIteration_yields (o : StepOutcome) : Yields (iterationReady o) (endIteration o) fun _ b => decodeOk b = true := by
  cases o
  · have htop : Yields windowReady (setPhase .loop) fun _ b => decodeOk b = true :=
      Yields.modify fun a h => (decodeOk_of_loop (a := { a with phase := .loop }) rfl).mpr h
    exact htop.bind fun _ => Yields.pure fun _ h => h
  · exact Yields.pure fun _ h => decodeOk_of_done h

theorem mainStep_yields : Yields windowReady mainStep fun _ b => decodeOk b = true := by
  refine (Preserves.modify fun _ h => h : Preserves windowReady (setPhase .symbol)).before fun _ =>
    Preserves.get.before fun a => (?_ : Preserves windowReady (endTestFlush a)).before fun _ => ?_
  · exact Preserves.ite (Preserves.modify fun _ h => h) (Preserves.pure ())
  · split
    · exact (finish_done _).mono fun _ _ h => decodeOk_of_done h.2
    · exact (decodeIteration_yields _ _).bind endIteration_yields

/-! ## Before the main loop -/

theorem rcInit_preserves_decodeOk : Preserves (fun a => decodeOk a = true) rcInit :=
  (rcInit_closed (keeps_closed decodeOk).toClosed (inByte_keeps fun _ _ _ => rfl) (Keeps.modify fun _ => rfl)
    (fun _ => Keeps.modify fun _ => rfl) (fun _ => Keeps.modify fun _ => rfl)).preserves (· = true)

theorem effectiveDictSize_ne_zero (v : Word) : effectiveDictSize v ≠ 0#32 := by
  unfold effectiveDictSize
  split
  · decide
  · rintro rfl
    exact absurd ‹¬ _› (by decide)

/-- A header that parses leaves a size to create the window with (R221, R223). -/
theorem hdrParse_yields {P : Arch → Prop} : Yields P hdrParse fun _ b => decodeOk b = true := by
  have hdict (v : Word) : Yields (fun _ => True) (hdrDictSize v) fun _ a => a.dictSize ≠ 0#32 :=
    Yields.modify fun _ _ => effectiveDictSize_ne_zero v
  have hin : Preserves (fun a => a.dictSize ≠ 0#32) inByte :=
    (inByte_keeps (fun _ _ _ => rfl) : Keeps Arch.dictSize inByte).preserves (· ≠ 0#32)
  have hread : Preserves (fun a => a.dictSize ≠ 0#32) inDWordLE := inDWordLE_closed (preserves_closed _).toClosed hin
  have hbudget (v : DWord) : Preserves (fun a => a.dictSize ≠ 0#32) (hdrSize v) :=
    Preserves.modify fun _ h => by split <;> exact h
  have hphase : Yields (fun a => a.dictSize ≠ 0#32) (setPhase .rcInit) fun _ b => decodeOk b = true :=
    Yields.modify fun _ h => decide_eq_true h
  exact (Yields.trivial inByte).bind fun d => (Yields.trivial (hdrProps d)).bind fun _ =>
    (Yields.trivial inWordLE).bind fun v => (hdict v).bind fun _ => hread.before fun sz => (hbudget sz).before fun _ => hphase

theorem windowReady_fresh {n : Word} {a : Arch} (hn : n ≠ 0#32) (h : a.dictSize = n) :
    windowReady (freshDecoder (newWindow n a)) := by
  have hpos : 0#32 < n := (BitVec.pos_iff_ne_zero n).mpr hn
  exact ⟨h.symm, hpos, hpos, hpos, hpos, hpos⟩

/-- DEC.INIT leaves a window of `dictSize` cells with every lookback inside it (R225). -/
theorem decInit_yields : Yields (fun a => a.dictSize ≠ 0#32) decInit fun _ b => decodeOk b = true := by
  refine Yields.get_bind fun a => ?_
  have hcreate : Yields (fun b => b = a ∧ a.dictSize ≠ 0#32) (dwCreate a.dictSize) fun _ b =>
      a.dictSize ≠ 0#32 ∧ b = newWindow a.dictSize a :=
    Preserves.get.before fun _ => (Preserves.raiseIf _ _).before fun _ => Yields.modify fun _ h => ⟨h.2, by rw [h.1]⟩
  refine Yields.bind (S := fun _ b => a.dictSize ≠ 0#32 ∧ b = newWindow a.dictSize a) (hcreate.weaken ?_) fun _ =>
    Yields.modify ?_
  · rintro _ ⟨rfl, h⟩
    exact ⟨rfl, h⟩
  · rintro _ ⟨hn, rfl⟩
    exact (decodeOk_of_loop rfl).mpr (windowReady_fresh hn rfl)

/-! ## The sequencer -/

/-- What the sequencer issues next has operands in its domain, and leaves what the sequencer relies on if it completes. -/
theorem nextOperation_yields {a : Arch} {i : Instr} (ha : decodeOk a = true) (hi : nextOperation a = some i) :
    allowed i a = true ∧ ∀ r b, opOf i a (opStart a) = .ok r b → decodeOk b = true := by
  cases hp : a.phase <;> simp only [nextOperation, hp] at hi
  case header =>
    cases hi
    exact ⟨rfl, fun r b => (hdrParse_yields (P := fun _ => True)).answerDone (opStart a) r b trivial⟩
  case loop =>
    cases hi
    have hw : windowReady (opStart a) := (decodeOk_of_loop hp).mp ha
    exact ⟨rfl, fun r b => mainStep_yields.answer (opStart a) r b hw⟩
  case rcInit =>
    have hd : a.dictSize ≠ 0#32 := by simpa [decodeOk, hp] using ha
    split at hi <;> cases hi
    · exact ⟨rfl, fun r b => rcInit_preserves_decodeOk.yields.answerDone (opStart a) r b ha⟩
    · exact ⟨decide_eq_true hd, fun r b => decInit_yields.answerDone (opStart a) r b hd⟩
  all_goals cases hi

/-- The operation the sequencer issues answers, and however it ends the machine is as a host-driven one is (R149, R184). -/
theorem exec_nextOperation {s : State} {i : Instr} (ha : Machine.decodeOk s.arch = true)
    (hi : nextOperation s.arch = some i) : ∃ t, exec i s = .next t ∧ t.decodeOk = true := by
  obtain ⟨hallow, hok⟩ := nextOperation_yields ha hi
  rw [exec_of_allowed hallow]
  rcases runOp_ends i (opOf i s.arch) s with ⟨r, b, ho, hn⟩ | ⟨b, _, hn⟩ | ⟨c, b, _, hn⟩
  · exact ⟨_, hn, hok r b ho⟩
  · refine ⟨_, hn, ?_⟩
    have hstart : Machine.decodeOk (opStart s.arch) = true := ha
    have hnext : nextOperation (opStart s.arch) = some i := hi
    show (Machine.decodeOk (opStart s.arch) && decide (nextOperation (opStart s.arch) = some i)) = true
    rw [hstart, hnext]
    simp
  · exact ⟨_, hn, decodeOk_of_done (a := takeError c b) rfl⟩

theorem coreStep_decodeOk {s : State} (h : s.decodeOk = true) : ∃ t, coreStep s = .next t ∧ t.decodeOk = true := by
  cases hh : s.held with
  | some held =>
    simp only [State.decodeOk, hh, Bool.and_eq_true, decide_eq_true_eq] at h
    have hr : coreStep s = resume held s := by simp only [coreStep, hh]
    rw [hr]
    exact exec_nextOperation (s := { s with arch := replayFrom held.start s.arch, held := none }) h.1 h.2
  | none =>
    have ha : Machine.decodeOk s.arch = true := by simpa only [State.decodeOk, hh] using h
    cases hn : nextOperation s.arch with
    | some i =>
      rw [coreStep_issues hh hn]
      exact exec_nextOperation ha hn
    | none =>
      have hp : s.arch.phase ≠ .symbol := fun hp => by simp [Machine.decodeOk, hp] at ha
      exact ⟨s, coreStep_stays hh hn hp, h⟩

/-- The source changes nothing that the sequencer relies on. -/
theorem decodeOk_of_input {s t : State} (h : s.decodeOk = true) (hh : t.held = s.held)
    (ha : Machine.decodeOk t.arch = Machine.decodeOk s.arch) : t.decodeOk = true := by
  unfold State.decodeOk at *
  rw [hh, ha]
  exact h

theorem decodeOk_supplyByte (b : Byte) (a : Arch) : decodeOk (supplyByte b a) = decodeOk a := by
  unfold supplyByte
  split <;> rfl

/-- A word the host can give is START, or is refused (R228). -/
theorem runWord_decodeOk {w : CmdWord} {s : State} (h : s.decodeOk = true) (hw : ∀ i, decode w = .ok i → i = .start) :
    ∃ t, runWord w s = .next t ∧ t.decodeOk = true := by
  cases hd : decode w with
  | error e => exact ⟨_, runWord_refused (.inl ⟨e, hd⟩), h⟩
  | ok i =>
    cases hw i hd
    exact ⟨_, runWord_accepted hd (.inr rfl), rfl⟩

theorem deliver_decodeOk {e : Event} {s : State} (h : s.decodeOk = true)
    (he : ∀ w, e = .cmd w → ∀ i, decode w = .ok i → i = .start) :
    ∃ t, deliver e s = .next t ∧ t.decodeOk = true := by
  cases e with
  | cmd w => exact runWord_decodeOk h (he w rfl)
  | byte b => exact ⟨_, rfl, decodeOk_of_input h rfl (decodeOk_supplyByte b s.arch)⟩
  | endOfInput => exact ⟨_, rfl, decodeOk_of_input h rfl rfl⟩
  | attach => exact ⟨_, rfl, decodeOk_of_input h rfl rfl⟩
  | reset => exact ⟨_, rfl, rfl⟩
  | pass => exact coreStep_decodeOk h

theorem step_decodeOk {s : State} (h : s.decodeOk = true) (hd : hostDriven s) :
    ∃ t, step s = .next t ∧ t.decodeOk = true := by
  cases he : s.events with
  | nil =>
    rw [step_alone he]
    exact coreStep_decodeOk h
  | cons e es =>
    rw [step_event he]
    exact deliver_decodeOk h fun w hw => hd w es (hw ▸ he)

/-- Settles O57: every instruction is one operation, which ends as R14 says; the sequencer's invariant passes through the
operation that each phase issues and through everything the host, the source and the reset can do. -/
theorem decodeNeverFaults : Obligations.DecodeNeverFaults :=
  ⟨exec_total, fun _ => step_decodeOk⟩

end Sys2Proof.Machine
end

section
/-! SUPPORT. How every operation waits for input (R14, R51, R229): it holds only on an input that is used up and open, and end
of input makes `TruncatedInput` of the hold and changes nothing else. With it, O52 and O53. -/

namespace Sys2Proof.Machine

/-! ## An operation that waits for input (R14, R51, R229) -/

/-- The outcome once end of input has been signalled: what would hold raises `TruncatedInput`, all else is as it was (R51). -/
def truncated : Ended α → Ended α
  | .ok r a => .ok r (signalEnd a)
  | .error .hold a => .error (.raise .truncatedInput) (signalEnd a)
  | .error (.raise c) a => .error (.raise c) (signalEnd a)

@[simp] theorem truncated_ok (r : α) (a : Arch) : truncated (.ok r a) = .ok r (signalEnd a) := rfl
@[simp] theorem truncated_hold (a : Arch) :
    truncated (.error .hold a : Ended α) = .error (.raise .truncatedInput) (signalEnd a) := rfl
@[simp] theorem truncated_raise (c : Cause) (a : Arch) :
    truncated (.error (.raise c) a : Ended α) = .error (.raise c) (signalEnd a) := rfl

theorem truncated_mapValue (f : α → β) (o : Ended α) : truncated (mapValue f o) = mapValue f (truncated o) := by
  rcases o with _ | ⟨_ | _, _⟩ <;> rfl

theorem truncated_ne_hold (o : Ended α) (a : Arch) : truncated o ≠ .error .hold a := by
  rcases o with _ | ⟨_ | _, _⟩ <;> simp

/-- The operation holds only where the input is used up and open, and end of input changes nothing but what a hold becomes. -/
structure WaitsForInput (op : Op α) : Prop where
  dry : ∀ a b, op a = .error .hold b → b.inBytes = [] ∧ b.inEnd = false
  atEnd : ∀ a, op (signalEnd a) = truncated (op a)

/-- An operation that held started with its input open (R51). -/
theorem WaitsForInput.open_of_hold {op : Op α} (h : WaitsForInput op) {a b : Arch} (hh : op a = .error .hold b) :
    a.inEnd = false := by
  cases he : a.inEnd with
  | false => rfl
  | true =>
    have ha : signalEnd a = a := by
      unfold signalEnd
      rw [← he]
    have ht := h.atEnd a
    rw [ha, hh] at ht
    cases ht

theorem WaitsForInput.pure (r : α) : WaitsForInput (pure r : Op α) := ⟨fun _ _ h => (by cases h), fun _ => rfl⟩

theorem WaitsForInput.modify {f : Arch → Arch} (h : ∀ a, f (signalEnd a) = signalEnd (f a)) :
    WaitsForInput (modify f : Op PUnit) :=
  ⟨fun _ _ hh => (by cases hh), fun a => congrArg (EStateM.Result.ok ()) (h a)⟩

theorem WaitsForInput.bind {x : Op α} {f : α → Op β} (hx : WaitsForInput x) (hf : ∀ r, WaitsForInput (f r)) :
    WaitsForInput (x >>= f) where
  dry a b h := by
    rcases bind_error_iff.mp h with h | ⟨q, c, _, h⟩
    · exact hx.dry a b h
    · exact (hf q).dry c b h
  atEnd a := by
    rw [run_bind, hx.atEnd, run_bind]
    rcases x a with ⟨r, b⟩ | ⟨_ | _, b⟩
    · exact (hf r).atEnd b
    · rfl
    · rfl

/-- Nothing that an operation reads of the state by itself is the end-of-input level. -/
theorem waitsForInput_closed : ClosedGet (fun {_} op => WaitsForInput op) where
  pure := WaitsForInput.pure
  bind := WaitsForInput.bind
  getBind {_ f} hr hf := ⟨fun a => (hf a).dry a, fun a => by
    show f (signalEnd a) (signalEnd a) = truncated (f a a)
    rw [hr (signalEnd a) a rfl]
    exact (hf a).atEnd a⟩
  raise c _ _ _ := ⟨fun _ _ h => (by cases h), fun _ => rfl⟩

/-! ## The primitive operations -/

theorem starvedStop_hold {a : Arch} (h : starvedStop a = .hold) : a.inEnd = false := by
  unfold starvedStop at h
  cases ha : a.inEnd
  · rfl
  · simp [ha] at h

theorem truncated_starved (a : Arch) :
    truncated (.error (starvedStop a) a : Ended α) = .error (starvedStop (signalEnd a)) (signalEnd a) := by
  unfold starvedStop
  cases ha : a.inEnd <;> rfl

theorem inByte_waits : WaitsForInput inByte where
  dry a b h := by
    cases hb : a.inBytes with
    | nil =>
      rw [inByte_nil hb] at h
      injection h with hs ha
      exact ha ▸ ⟨hb, starvedStop_hold hs⟩
    | cons x xs =>
      rw [inByte_cons hb] at h
      cases h
  atEnd a := by
    cases hb : a.inBytes with
    | nil => rw [inByte_nil hb, inByte_nil (a := signalEnd a) hb, truncated_starved]
    | cons x xs => rw [inByte_cons hb, inByte_cons (a := signalEnd a) hb]; rfl

theorem rcNorm_waits : WaitsForInput rcNorm := by
  have hrange {a b : Arch} (h : view a = view b) : a.range = b.range :=
    (congrArg Arch.range h : (view a).range = (view b).range)
  refine waitsForInput_closed.getBind (fun a b h => by rw [hrange h]) fun a => ?_
  split
  · exact inByte_waits.bind fun _ => .modify fun _ => rfl
  · exact .pure ()

/-- An operation that is a change of the state, then `x`, with a result told from where it started. -/
theorem WaitsForInput.after {x : Op α} {op : Op β} {g : Arch → Arch} {f : Arch → α → β} (hx : WaitsForInput x)
    (hop : ∀ a, op a = mapValue (f a) (x (g a))) (hg : ∀ a, g (signalEnd a) = signalEnd (g a))
    (hf : ∀ a, f (signalEnd a) = f a) : WaitsForInput op where
  dry a b h := by
    rw [hop] at h
    cases hr : x (g a) with
    | ok r c => rw [hr] at h; cases h
    | error e c =>
      rw [hr] at h
      cases h
      exact hx.dry _ _ hr
  atEnd a := by rw [hop, hop, hf, hg, hx.atEnd, truncated_mapValue]

theorem rcBit_waits (k : Nat) : WaitsForInput (rcBit k) :=
  rcNorm_waits.after (rcBit_run k) (fun _ => rfl) fun _ => rfl

theorem directRound_waits : WaitsForInput rcDirectRound :=
  rcNorm_waits.after rcDirectRound_run (fun _ => rfl) fun _ => rfl

theorem freeByte_waits : WaitsForInput freeByte := ⟨fun _ _ h => (by cases h), fun _ => rfl⟩

theorem readUnwritten_waits : WaitsForInput readUnwritten where
  dry a b h := by
    unfold readUnwritten at h
    split at h
    · cases h
    · exact freeByte_waits.dry a b h
  atEnd a := by
    have hfill : (signalEnd a).params.dictFill = a.params.dictFill := rfl
    unfold readUnwritten
    rw [hfill]
    cases a.params.dictFill <;> rfl

theorem dwGet_waits (dist : Nat) : WaitsForInput (dwGet dist) := by
  have hbuf {a b : Arch} (h : view a = view b) : a.buf = b.buf := (congrArg Arch.buf h : (view a).buf = (view b).buf)
  refine waitsForInput_closed.getBind (fun a b h => by rw [view_lookback h, hbuf h]) fun a => ?_
  split
  · exact freeByte_waits
  · split
    · exact .pure _
    · exact readUnwritten_waits

theorem advanced_signalEnd (a : Arch) : advanced (signalEnd a) = signalEnd (advanced a) := by
  unfold advanced
  rw [apply_ite signalEnd]
  rfl

theorem dwPut_waits (b : Byte) : WaitsForInput (dwPut b) := by
  refine (WaitsForInput.modify fun a => ?_).bind fun _ => .modify fun _ => rfl
  rw [storeByte_eq, storeByte_eq]
  exact advanced_signalEnd { a with buf := storedBuf b a, totalPos := a.totalPos + 1#64 }

theorem waitsForInput_primitives : Primitives (fun {_} op => WaitsForInput op) where
  inByte := inByte_waits
  rcNorm := rcNorm_waits
  rcBit := rcBit_waits
  directRound := directRound_waits
  rcInitClear := .modify fun _ => rfl
  shiftIn _ := .modify fun _ => rfl
  rcInitFlag _ := .modify fun _ => rfl
  setCode _ := .modify fun _ => rfl
  dwPut := dwPut_waits
  dwGet := dwGet_waits
  dwFlush := .modify fun _ => rfl
  newWindow _ := .modify fun _ => rfl
  stLit := .modify fun _ => rfl
  stMatch := .modify fun _ => rfl
  stRep := .modify fun _ => rfl
  stShortrep := .modify fun _ => rfl
  rotateReps := .modify fun _ => rfl
  setRep0 _ := .modify fun _ => rfl
  toFront1 := .modify fun _ => rfl
  toFront2 := .modify fun _ => rfl
  toFront3 := .modify fun _ => rfl
  spendBudget _ := .modify fun _ => by rw [apply_ite signalEnd]; rfl
  endLoop _ := .modify fun _ => rfl
  setPhase _ := .modify fun _ => rfl
  setProps _ _ _ := .modify fun _ => rfl
  hdrDictSize _ := .modify fun _ => rfl
  hdrSize _ := .modify fun _ => by rw [apply_ite signalEnd]; rfl
  freshDecoder := .modify fun _ => rfl
  startDecode := .modify fun _ => rfl

/-- R14, R51: every instruction's operation waits for its input. -/
theorem opOf_waits (i : Instr) (a : Arch) : WaitsForInput (opOf i a) :=
  opOf_closed waitsForInput_closed waitsForInput_primitives i a

/-! ## The hold of an instruction -/

/-- What an instruction that holds has done: its operation held, with the input used up and open, before and now. -/
theorem exec_holds {i : Instr} {s t : State} (hs : s.held = none) (h : exec i s = .next t) (ht : t.held ≠ none) :
    allowed i s.arch = true ∧ ∃ b, opOf i s.arch (opStart s.arch) = .error .hold b ∧ t = heldAt i s b ∧
      s.arch.inEnd = false ∧ b.inBytes = [] ∧ b.inEnd = false := by
  rcases exec_next_cases h with ⟨_, rfl⟩ | ⟨ha, ⟨_, _, _, rfl⟩ | ⟨b, ho, rfl⟩ | ⟨_, _, _, rfl⟩⟩
  · exact absurd hs ht
  · exact absurd rfl ht
  · obtain ⟨hdry, hopen⟩ := (opOf_waits i s.arch).dry _ _ ho
    have hstart : (opStart s.arch).inEnd = false := (opOf_waits i s.arch).open_of_hold ho
    exact ⟨ha, b, ho, rfl, hstart, hdry, hopen⟩
  · exact absurd rfl ht

/-- What the replay of an operation that held runs on: what it started with, and what the source has done since (R229). -/
theorem replayFrom_opStart {a now : Arch} {bs : List Byte} {ended : Bool} (hb : now.inBytes = bs) (he : now.inEnd = ended) :
    replayFrom (opStart a) now = { a with decisions := [], inBytes := a.inBytes ++ bs, inEnd := ended } := by
  subst hb he
  rfl

/-- The core goes on with an operation that holds by replaying it. -/
theorem coreStep_heldAt (i : Instr) (s : State) (b now : Arch) (es : List Event) :
    coreStep { heldAt i s b with arch := now, events := es } =
      exec i { arch := replayFrom (opStart s.arch) now, held := none, response := .pending, events := es } := rfl

/-- Settles O52: the byte arrives in an input that was used up and open, so the replay is the run with that byte. -/
theorem heldOperationGoesOn : Obligations.HeldOperationGoesOn := by
  intro i s t b es hs h ht
  obtain ⟨_, now, _, rfl, hopen, hdry, hopen'⟩ := exec_holds hs h ht
  have hbytes : (supplyByte b now).inBytes = [b] := by simp [supplyByte, hopen', hdry]
  have hlevel : (supplyByte b now).inEnd = s.arch.inEnd := by simp [supplyByte, hopen, hopen']
  refine ⟨{ heldAt i s now with arch := supplyByte b now, events := es }, rfl, rfl, ?_⟩
  rw [coreStep_heldAt, replayFrom_opStart hbytes hlevel, hs]

/-- An operation that held raises `TruncatedInput` in the state of the hold when it runs again with its input ended (R51). -/
theorem exec_truncated {i : Instr} {s u : State} {now : Arch} (ha : allowed i s.arch = true)
    (ho : opOf i s.arch (opStart s.arch) = .error .hold now) (hu : u.arch = signalEnd (opStart s.arch)) :
    exec i u = .next (failed u .truncatedInput (signalEnd now)) := by
  have hallow : allowed i u.arch = true := by rw [hu]; exact ha
  have hend : opOf i u.arch (opStart u.arch) = .error (.raise .truncatedInput) (signalEnd now) := by
    have hatEnd : opOf i s.arch (signalEnd (opStart s.arch)) = truncated (opOf i s.arch (opStart s.arch)) :=
      (opOf_waits i s.arch).atEnd (opStart s.arch)
    rw [ho] at hatEnd
    rw [hu]
    exact hatEnd
  rw [exec_of_allowed hallow, runOp_raise hend]

/-- Settles O53: the replay with end of input signalled is the run that held, with the hold turned into the raise. -/
theorem endOfInputTruncatesHold : Obligations.EndOfInputTruncatesHold := by
  intro i s t es hs h ht
  obtain ⟨hallow, now, ho, rfl, _, hdry, _⟩ := exec_holds hs h ht
  have hreplay : replayFrom (opStart s.arch) (signalEnd now) = signalEnd (opStart s.arch) := by
    rw [replayFrom_opStart (a := s.arch) (now := signalEnd now) hdry rfl, List.append_nil]
    rfl
  refine ⟨{ heldAt i s now with arch := signalEnd now, events := es }, rfl, ?_⟩
  rw [coreStep_heldAt, hreplay]
  exact exec_truncated hallow ho rfl

end Sys2Proof.Machine
end

section
/-! SUPPORT. How much input the codes and the symbols take at most, and that what follows the codes of a symbol needs none (R14,
R81, R108, R149). With it, O47. -/

namespace Sys2Proof.Machine

/-! ## Completion with input at hand (R81, R108) -/

theorem Completes.pure {r : α} {a : Arch} {Q : α → Arch → Prop} (h : Q r a) : Completes 0 (pure r : Op α) a Q :=
  Completes.of_ok rfl rfl h

theorem Completes.modify {f : Arch → Arch} {a : Arch} (h : (f a).inBytes = a.inBytes) :
    Completes 0 (modify f : Op PUnit) a fun _ b => b = f a :=
  Completes.of_ok rfl h rfl

theorem Completes.get_bind {n : Nat} {f : Arch → Op β} {a : Arch} {Q : β → Arch → Prop} (h : Completes n (f a) a Q) :
    Completes n (get >>= f) a Q := h

theorem Completes.mono {n m : Nat} {op : Op α} {a : Arch} {Q : α → Arch → Prop} (h : Completes n op a Q) (hn : n ≤ m) :
    Completes m op a Q := h.weaken hn fun _ _ h => h

/-- A first part that takes no input leaves all of it to the rest. -/
theorem Completes.free_bind {n : Nat} {x : Op α} {f : α → Op β} {a : Arch} {S : α → Arch → Prop}
    {Q : β → Arch → Prop} (hx : Completes 0 x a S) (hf : ∀ r b, S r b → Completes n (f r) b Q) :
    Completes n (x >>= f) a Q :=
  (hx.bind hf).mono (by omega)

/-- What the operation keeps is also known of the state it leaves. -/
theorem Completes.keeping {n : Nat} {op : Op α} {a : Arch} {Q : α → Arch → Prop} {g : Arch → γ}
    (h : Completes n op a Q) (hk : Keeps g op) : Completes n op a fun r b => Q r b ∧ g b = g a := by
  intro hn
  obtain ⟨r, b, hr, hlen, hq⟩ := h hn
  have hg := hk a
  rw [hr] at hg
  exact ⟨r, b, hr, hlen, hq, hg⟩

/-- From `a` with `n` bytes at hand the operation ends as `Q` says. -/
def EndsIn (n : Nat) (op : Op α) (a : Arch) (Q : Ended α → Prop) : Prop := n ≤ a.inBytes.length → Q (op a)

theorem EndsIn.get_bind {n : Nat} {f : Arch → Op β} {a : Arch} {Q : Ended β → Prop} (h : EndsIn n (f a) a Q) :
    EndsIn n (get >>= f) a Q := h

/-- A first part that completes leaves the end to the rest. -/
theorem Completes.andThen {m n k : Nat} {x : Op α} {f : α → Op β} {a : Arch} {S : α → Arch → Prop}
    {Q : Ended β → Prop} (hx : Completes m x a S) (hk : m + n ≤ k) (hf : ∀ r b, S r b → EndsIn n (f r) b Q) :
    EndsIn k (x >>= f) a Q := by
  intro hn
  obtain ⟨r, b, hr, hlen, hs⟩ := hx (by omega)
  rw [run_bind_ok hr]
  exact hf r b hs (by omega)

theorem EndsIn.mono {n k : Nat} {op : Op α} {a : Arch} {Q : Ended α → Prop} (h : EndsIn n op a Q) (hk : n ≤ k) :
    EndsIn k op a Q := fun hn => h (by omega)

/-! ## Trees and codes -/

/-- A walk of `n` decisions from node `m` ends at one of the `2^n` nodes below it. -/
theorem btWalk_completes (T n m : Nat) (a : Arch) : Completes n (btWalk T n m) a fun r _ => r < (m + 1) * 2 ^ n := by
  induction n generalizing m a with
  | zero => exact .pure (by omega)
  | succ n ih =>
    refine ((rcBit_completes (T + m) a).bind fun bit b _ =>
      (ih (2 * m + bit.toNat) b).weaken (Nat.le_refl _) fun r _ hr => ?_).mono (by omega)
    have hbit : bit.toNat ≤ 1 := Bool.toNat_le bit
    calc r < (2 * m + bit.toNat + 1) * 2 ^ n := hr
      _ ≤ (m + 1) * 2 * 2 ^ n := Nat.mul_le_mul_right _ (by omega)
      _ = (m + 1) * 2 ^ (n + 1) := by rw [Nat.pow_succ', Nat.mul_assoc]

theorem btFwd_completes (T n : Nat) (a : Arch) : Completes n (btFwd T n) a fun r _ => r < 2 ^ n :=
  ((btWalk_completes T n 1 a).bind fun m b hm => .pure (Q := fun r _ => r < 2 ^ n) (by omega)).mono (by omega)

theorem btRevWalk_completes (T n i m sym : Nat) (a : Arch) : Completes n (btRevWalk T n i m sym) a fun _ _ => True := by
  induction n generalizing i m sym a with
  | zero => exact .pure trivial
  | succ n ih => exact ((rcBit_completes (T + m) a).bind fun bit b _ => ih _ _ _ b).mono (by omega)

theorem rcDirectRounds_completes (n : Nat) (res : Word) (a : Arch) :
    Completes n (rcDirectRounds n res) a fun _ _ => True := by
  induction n generalizing res a with
  | zero => exact .pure trivial
  | succ n ih => exact ((rcDirectRound_completes a).bind fun t b _ => ih _ b).mono (by omega)

/-- A length code takes at most ten bytes, and is at most 271 (R78, R131). -/
theorem lenDec_completes (inst : LenInst) (ps : BitVec 4) (a : Arch) :
    Completes 10 (lenDec inst ps) a fun len _ => len ≤ 271 := by
  refine Completes.bind (m := 1) (n := 9) (rcBit_completes _ a) fun c b _ => ?_
  cases c
  · exact (btFwd_completes _ 3 b).weaken (by omega) fun len _ h => by omega
  · refine Completes.bind (m := 1) (n := 8) (rcBit_completes _ b) fun c2 b _ => ?_
    cases c2
    · exact ((btFwd_completes _ 3 b).bind fun v b hv => .pure (Q := fun len _ => len ≤ 271) (by omega)).mono (by omega)
    · exact (btFwd_completes _ 8 b).bind fun v b hv => .pure (Q := fun len _ => len ≤ 271) (by omega)

/-- What follows the slot takes at most thirty bytes (R79, R212 to R215). -/
theorem distTail_completes {slot : Nat} (h : slot < 64) (a : Arch) : Completes 30 (distTail slot) a fun _ _ => True := by
  unfold distTail Config.kEndPosModelIndex Config.kNumAlignBits
  have hbits : slotDirectBits slot = slot / 2 - 1 := rfl
  split
  · exact (Completes.pure trivial).mono (by omega)
  · split
    · exact ((btRevWalk_completes _ _ _ _ _ a).bind fun low b _ => .pure trivial).mono (by omega)
    · exact ((rcDirectRounds_completes _ _ a).bind fun hi b _ => (btRevWalk_completes _ 4 _ _ _ b).bind fun lo b _ =>
        .pure trivial).mono (by omega)

/-- A distance code takes at most thirty-six bytes (R216). -/
theorem distDec_completes (len : Nat) (a : Arch) : Completes 36 (distDec len) a fun _ _ => True :=
  Completes.bind (m := 6) (n := 30) (btFwd_completes _ 6 a) fun _ b hslot =>
    (distTail_completes hslot b).bind (n := 0) fun _ _ _ => .pure trivial

/-! ## Literals and copies -/

theorem litPlain_completes (T n sym : Nat) (a : Arch) : Completes n (litPlain T n sym) a fun _ _ => True :=
  (btWalk_completes T n sym a).weaken (Nat.le_refl _) fun _ _ _ => trivial

theorem litMatched_completes (T n : Nat) (mb : Byte) (sym : Nat) (a : Arch) :
    Completes n (litMatched T n mb sym) a fun _ _ => True := by
  induction n generalizing mb sym a with
  | zero => exact .pure trivial
  | succ n ih =>
    refine ((rcBit_completes _ a).bind (n := n) fun bit b _ => ?_).mono (by omega)
    split
    · exact ih _ _ b
    · exact litPlain_completes T n _ b

theorem litSymbol_completes (T : Nat) (a : Arch) : Completes 8 (litSymbol T) a fun _ _ => True := by
  refine .get_bind ?_
  split
  · exact (dwGet_completes _ a).free_bind fun mb b _ => litMatched_completes T 8 mb 1 b
  · exact litPlain_completes T 8 1 a

theorem prevByte_completes (a : Arch) : Completes 0 prevByte a fun b _ => previousByte a b := by
  obtain ⟨b, n, hr, hb⟩ := prevByte_ok a
  exact .of_ok hr rfl hb

/-- A literal takes at most eight bytes (R204). -/
theorem litDec_completes (a : Arch) : Completes 8 litDec a fun _ _ => True := by
  have hput (b : Byte) (a : Arch) : Completes 0 (dwPut b >>= fun _ => pure b) a fun _ _ => True :=
    (dwPut_completes b a).bind fun _ _ _ => .pure trivial
  exact (prevByte_completes a).free_bind fun _ b _ => .get_bind <| (litSymbol_completes _ b).bind fun _ c _ => hput _ c

theorem spendBudget_completes (n : Nat) (a : Arch) : Completes 0 (spendBudget n) a fun _ _ => True :=
  (Completes.modify (by split <;> rfl)).weaken (Nat.le_refl _) fun _ _ _ => trivial

theorem raiseIf_completes {p : Bool} (h : p = false) (c : Cause) (a : Arch) :
    Completes 0 (raiseIf p c) a fun _ b => b = a := by
  subst h
  exact .pure rfl

/-- The operation completes and the iteration goes on. -/
abbrev GoesOn (n : Nat) (op : Op StepOutcome) (a : Arch) : Prop := Completes n op a fun o _ => o = .continue

/-- A copy that the budget covers goes on (R178). -/
theorem copyTail_goesOn {len : Nat} {a : Arch} (h : overruns a (len + 2) = false) : GoesOn 0 (copyTail len) a :=
  .get_bind <| (dwCopy_completes _ _ a).free_bind fun _ b _ => (spendBudget_completes _ b).free_bind fun _ c _ =>
    (raiseIf_completes h .lengthOverrun c).free_bind fun _ _ _ => .pure rfl

/-- The budget is undefined, or it covers the longest symbol (R36, R178). -/
def budgetCoversSymbol (a : Arch) : Prop := a.sizeDefined = true → 273 ≤ a.leftToUnpack.toNat

theorem budgetCoversSymbol.not_spent {a : Arch} (h : budgetCoversSymbol a) : budgetSpent a = false := by
  unfold budgetSpent
  cases hd : a.sizeDefined with
  | false => rfl
  | true =>
    have hl := h hd
    have hne : a.leftToUnpack ≠ 0#64 := fun hz => by rw [hz] at hl; exact absurd hl (by decide)
    simp [hne]

theorem budgetCoversSymbol.not_overrun {a : Arch} (h : budgetCoversSymbol a) {len : Nat} (hlen : len ≤ 271) :
    overruns a (len + 2) = false := by
  unfold overruns
  cases hd : a.sizeDefined with
  | false => rfl
  | true =>
    have hl := h hd
    rw [Bool.true_and, decide_eq_false_iff_not]
    omega

/-! ## The symbols -/

theorem budgetGuard_completes {a : Arch} (h : budgetSpent a = false) : Completes 0 budgetGuard a fun _ b => b = a :=
  raiseIf_completes h .budgetExhausted a

theorem symLit_goesOn {a : Arch} (h : budgetSpent a = false) : GoesOn 8 symLit a :=
  (budgetGuard_completes h).free_bind fun _ b _ => (litDec_completes b).bind (n := 0) fun _ _ _ =>
    (Completes.modify rfl).free_bind fun _ d _ => (spendBudget_completes 1 d).free_bind fun _ _ _ => .pure rfl

theorem symShortrep_goesOn (a : Arch) : GoesOn 0 symShortrep a :=
  (Completes.modify rfl).free_bind fun _ b _ => .get_bind <| (dwGet_completes _ b).free_bind fun v c _ =>
    (dwPut_completes v c).free_bind fun _ d _ => (spendBudget_completes 1 d).free_bind fun _ _ _ => .pure rfl

/-- The registers that decide whether the end of a symbol goes on: none of its codes moves them (R171, R178). -/
def tailGround (a : Arch) : Bool × DWord × Bool × Word := (a.sizeDefined, a.leftToUnpack, a.isFull, a.dictSize)

theorem lenDec_keeps_tailGround (inst : LenInst) (ps : BitVec 4) : Keeps tailGround (lenDec inst ps) :=
  lenDec_closed (keeps_closed tailGround).toClosed fun _ _ => rcBit_keeps (fun _ _ _ _ _ _ => rfl) fun _ _ => rfl

theorem distDec_keeps_tailGround (len : Nat) : Keeps tailGround (distDec len) :=
  distDec_closed (keeps_closed tailGround).toClosed (fun _ _ => rcBit_keeps (fun _ _ _ _ _ _ => rfl) fun _ _ => rfl)
    (rcDirectRound_keeps fun _ _ _ _ _ _ _ => rfl)

/-- A long repeat reaches its copy within ten bytes. -/
theorem repTail_endsIn {ps : BitVec 4} {a : Arch} {Q : Ended StepOutcome → Prop}
    (h : ∀ len b, len ≤ 271 → tailGround b = tailGround a → Q (copyTail len b)) : EndsIn 10 (repTail ps) a Q :=
  ((lenDec_completes .rep ps a).keeping (lenDec_keeps_tailGround .rep ps)).andThen (n := 0) (by omega) fun len b hb =>
    (Completes.modify rfl).andThen (n := 0) (by omega) fun _ c hc _ => h len c hb.1 (hc ▸ hb.2)

/-- A match reaches the test for the marker within forty-six bytes. -/
theorem symMatch_endsIn {ps : BitVec 4} {a : Arch} {Q : Ended StepOutcome → Prop}
    (h : ∀ len b, len ≤ 271 → tailGround b = tailGround a → Q (matchTail len b)) : EndsIn 46 (symMatch ps) a Q :=
  (Completes.modify rfl).andThen (n := 46) (by omega) fun _ b hb =>
    ((lenDec_completes .len ps b).keeping (lenDec_keeps_tailGround .len ps)).andThen (n := 36) (by omega) fun len c hc =>
    (Completes.modify rfl).andThen (n := 36) (by omega) fun _ d hd =>
    ((distDec_completes len d).keeping (distDec_keeps_tailGround len)).andThen (n := 0) (by omega) fun _ e he =>
    (Completes.modify rfl).andThen (n := 0) (by omega) fun _ f hf _ =>
    h len f hc.1 <| calc tailGround f
      _ = tailGround e := hf ▸ rfl
      _ = tailGround d := he.2
      _ = tailGround c := hd ▸ rfl
      _ = tailGround b := hc.2
      _ = tailGround a := hb ▸ rfl

theorem budgetCoversSymbol_congr {a b : Arch} (h : tailGround b = tailGround a) (ha : budgetCoversSymbol a) :
    budgetCoversSymbol b := by
  simp only [tailGround, Prod.mk.injEq] at h
  obtain ⟨hd, hl, _⟩ := h
  intro hb
  exact hl ▸ ha (hd ▸ hb)

/-- The operation completed, and the iteration goes on. -/
def continues (o : Ended StepOutcome) : Prop := ∃ b, o = .ok .continue b

theorem GoesOn.continues {n : Nat} {op : Op StepOutcome} {a : Arch} (h : GoesOn n op a) : EndsIn n op a continues := by
  intro hn
  obtain ⟨_, b, hr, _, rfl⟩ := h hn
  exact ⟨b, hr⟩

theorem repTail_continues (ps : BitVec 4) {a : Arch} (h : budgetCoversSymbol a) : EndsIn 10 (repTail ps) a continues :=
  repTail_endsIn fun _ _ hlen hb =>
    (copyTail_goesOn ((budgetCoversSymbol_congr hb h).not_overrun hlen)).continues (Nat.zero_le _)

theorem symEos_keeps_rep0 : Keeps Arch.rep0 symEos :=
  symEos_closed (keeps_closed Arch.rep0) <|
    finish_closed (keeps_closed Arch.rep0).toClosed (Keeps.modify fun _ => rfl) fun _ => Keeps.modify fun _ => rfl

/-- On a full window of the largest size every distance but the marker is usable (R171). -/
theorem newDistanceOk_of_full {a : Arch} (hf : a.isFull = true) (hd : a.dictSize = 0xFFFFFFFF#32)
    (hm : a.rep0 ≠ Config.kEndMarker) : newDistanceOk a = true := by
  have hlt : a.rep0 < a.dictSize := by
    rw [hd]
    unfold Config.kEndMarker at hm
    bv_omega
  simp [newDistanceOk, distanceOk, hlt, hf]

theorem matchTail_of_full {len : Nat} {a : Arch} (hlen : len ≤ 271) (hb : budgetCoversSymbol a) (hf : a.isFull = true)
    (hd : a.dictSize = 0xFFFFFFFF#32) :
    continues (matchTail len a) ∨ (endState (matchTail len a)).rep0 = Config.kEndMarker := by
  unfold matchTail
  rw [run_get_bind]
  by_cases hm : a.rep0 = Config.kEndMarker
  · rw [if_pos hm]
    exact .inr ((symEos_keeps_rep0 a).trans hm)
  · rw [if_neg hm]
    have hok : (!newDistanceOk a) = false := by rw [newDistanceOk_of_full hf hd hm]; rfl
    refine .inl (GoesOn.continues (n := 0) ?_ (Nat.zero_le _))
    exact (budgetGuard_completes hb.not_spent).free_bind fun _ b hb' => (raiseIf_completes hok _ b).free_bind fun _ c hc =>
      copyTail_goesOn (by subst hc hb'; exact hb.not_overrun hlen)

theorem symMatch_of_full (ps : BitVec 4) {a : Arch} (hb : budgetCoversSymbol a) (hf : a.isFull = true)
    (hd : a.dictSize = 0xFFFFFFFF#32) :
    EndsIn 46 (symMatch ps) a fun o => continues o ∨ (endState o).rep0 = Config.kEndMarker := by
  refine symMatch_endsIn fun len b hlen hg => ?_
  have hb' := budgetCoversSymbol_congr hg hb
  simp only [tailGround, Prod.mk.injEq] at hg
  obtain ⟨_, _, hfull, hsize⟩ := hg
  exact matchTail_of_full hlen hb' (hfull.trans hf) (hsize.trans hd)

/-! ## An iteration of the main loop (R183) -/

/-- The operation completed, or raised a hard error other than running out of input. -/
def answered : Ended α → Prop
  | .ok _ _ => True
  | .error e _ => e ≠ .hold ∧ e ≠ .raise .truncatedInput

theorem answered_bind {x : Op α} {f : α → Op β} {a : Arch} (hx : answered (x a))
    (hf : ∀ r b, x a = .ok r b → answered (f r b)) : answered ((x >>= f) a) := by
  rw [run_bind]
  cases h : x a with
  | ok r b => exact hf r b h
  | error e b => rw [h] at hx; exact hx

/-- In every state the operation ends, and not for want of input. -/
def NeedsNoInput (op : Op α) : Prop := ∀ a, answered (op a)

theorem needsNoInput_closed : ClosedGet (fun {_} op => NeedsNoInput op) where
  pure _ _ := trivial
  bind hx hf a := answered_bind (hx a) fun r b _ => hf r b
  getBind _ hf a := hf a a
  raise c hc _ _ _ := ⟨by simp, by simpa using hc⟩

theorem NeedsNoInput.modify (f : Arch → Arch) : NeedsNoInput (modify f : Op PUnit) := fun _ => trivial

theorem dwGet_needsNoInput (dist : Nat) : NeedsNoInput (dwGet dist) := by
  intro a
  obtain ⟨_, _, h, _⟩ := dwGet_ok dist a
  rw [h]
  trivial

theorem dwPut_needsNoInput (b : Byte) : NeedsNoInput (dwPut b) := by
  intro a
  rw [dwPut_ok]
  trivial

theorem finish_needsNoInput (st : Status) : NeedsNoInput (finish st) :=
  finish_closed needsNoInput_closed.toClosed (.modify _) (fun _ => .modify _) st

theorem copyTail_needsNoInput (len : Nat) : NeedsNoInput (copyTail len) :=
  copyTail_closed needsNoInput_closed dwGet_needsNoInput dwPut_needsNoInput (fun _ => .modify _) len

theorem matchTail_needsNoInput (len : Nat) : NeedsNoInput (matchTail len) :=
  matchTail_closed needsNoInput_closed finish_needsNoInput copyTail_needsNoInput len

theorem endIteration_needsNoInput (o : StepOutcome) : NeedsNoInput (endIteration o) := by
  cases o
  · exact needsNoInput_closed.bind (.modify _) fun _ => needsNoInput_closed.pure _
  · exact needsNoInput_closed.pure _

theorem NeedsNoInput.endsIn {n : Nat} {op : Op α} (h : NeedsNoInput op) (a : Arch) : EndsIn n op a answered := fun _ => h a

/-- A first part that needs no input and takes none. -/
theorem NeedsNoInput.before {n : Nat} {x : Op α} {f : α → Op β} (hx : NeedsNoInput x) (hk : Keeps Arch.inBytes x)
    (hf : ∀ r b, EndsIn n (f r) b answered) (a : Arch) : EndsIn n (x >>= f) a answered := by
  intro hn
  refine answered_bind (hx a) fun r b h => hf r b ?_
  have hb := hk a
  rw [h] at hb
  rw [endState_ok] at hb
  rwa [hb]

theorem EndsIn.bind_needsNoInput {n : Nat} {x : Op α} {f : α → Op β} {a : Arch} (hx : EndsIn n x a answered)
    (hf : ∀ r, NeedsNoInput (f r)) : EndsIn n (x >>= f) a answered :=
  fun hn => answered_bind (hx hn) fun r b _ => hf r b

theorem symLit_answered (a : Arch) : EndsIn 8 symLit a answered := by
  have hrest : NeedsNoInput (stLit >>= fun _ => spendBudget 1 >>= fun _ => pure StepOutcome.continue) :=
    needsNoInput_closed.bind (.modify _) fun _ => needsNoInput_closed.bind (.modify _) fun _ => needsNoInput_closed.pure _
  exact NeedsNoInput.before (budgetGuard_closed needsNoInput_closed) (budgetGuard_closed (keeps_closed Arch.inBytes))
    (fun _ b => (litDec_completes b).andThen (n := 0) (by omega) fun _ c _ => hrest.endsIn c) a

theorem symShortrep_needsNoInput : NeedsNoInput symShortrep :=
  symShortrep_closed needsNoInput_closed (.modify _) dwGet_needsNoInput dwPut_needsNoInput fun _ => .modify _

theorem repTail_answered (ps : BitVec 4) (a : Arch) : EndsIn 10 (repTail ps) a answered :=
  repTail_endsIn fun len b _ _ => copyTail_needsNoInput len b

/-- However the reps are reordered in front of it, a long repeat takes at most ten bytes (R174 to R177). -/
theorem reordered_repTail_answered {f : Arch → Arch} (hf : ∀ a, (f a).inBytes = a.inBytes) (ps : BitVec 4) (a : Arch) :
    EndsIn 10 (modify f >>= fun _ => repTail ps) a answered :=
  NeedsNoInput.before (.modify f) (Keeps.modify hf) (fun _ => repTail_answered ps) a

theorem symRep1_answered (ps : BitVec 4) (a : Arch) : EndsIn 10 (symRep1 ps) a answered := by
  unfold symRep1
  exact reordered_repTail_answered (fun _ => by rfl) ps a

theorem symRep2_answered (ps : BitVec 4) (a : Arch) : EndsIn 10 (symRep2 ps) a answered := by
  unfold symRep2
  exact reordered_repTail_answered (fun _ => by rfl) ps a

theorem symRep3_answered (ps : BitVec 4) (a : Arch) : EndsIn 10 (symRep3 ps) a answered := by
  unfold symRep3
  exact reordered_repTail_answered (fun _ => by rfl) ps a

/-- A decision takes at most one byte, whatever follows. -/
theorem rcBit_endsIn {n : Nat} {k : Nat} {f : Bool → Op β} {a : Arch} {Q : Ended β → Prop}
    (hf : ∀ r b, EndsIn n (f r) b Q) : EndsIn (n + 1) (rcBit k >>= f) a Q :=
  (rcBit_completes k a).andThen (by omega) fun r b _ => hf r b

theorem repFamily_answered (st : Fin 12) (ps : BitVec 4) (a : Arch) : EndsIn 13 (repFamily st ps) a answered := by
  refine NeedsNoInput.before (repGuards_closed needsNoInput_closed) (repGuards_closed (keeps_closed Arch.inBytes))
    (fun _ b => rcBit_endsIn fun g0 b => ?_) a
  cases g0
  · refine EndsIn.mono (rcBit_endsIn (n := 10) fun long b => ?_) (by omega)
    cases long
    · exact symShortrep_needsNoInput.endsIn b
    · exact repTail_answered ps b
  · refine rcBit_endsIn fun g1 b => ?_
    cases g1
    · exact (symRep1_answered ps b).mono (by omega)
    · refine rcBit_endsIn fun g2 b => ?_
      cases g2
      · exact symRep2_answered ps b
      · exact symRep3_answered ps b

theorem decodeIteration_answered (st : Fin 12) (ps : BitVec 4) (a : Arch) :
    EndsIn 48 (decodeIteration st ps) a answered := by
  refine rcBit_endsIn fun m b => ?_
  cases m
  · exact (symLit_answered b).mono (by omega)
  · refine rcBit_endsIn fun r b => ?_
    cases r
    · exact symMatch_endsIn fun len c _ _ => matchTail_needsNoInput len c
    · exact (repFamily_answered st ps b).mono (by omega)

theorem mainStep_answered (a : Arch) : EndsIn 48 mainStep a answered := by
  refine NeedsNoInput.before (x := setPhase .symbol) (.modify _) (Keeps.modify fun _ => rfl) (fun _ b => ?_) a
  have hflush {Q : ∀ {α : Type}, Op α → Prop} (c : Closed Q) (h : Q dwFlush) : Q (endTestFlush b) := by
    unfold endTestFlush
    split
    · exact h
    · exact c.pure ()
  refine .get_bind ?_
  refine NeedsNoInput.before (hflush needsNoInput_closed.toClosed (.modify _))
    (hflush (keeps_closed Arch.inBytes).toClosed (Keeps.modify fun _ => rfl)) (fun _ c => ?_) b
  split
  · exact (finish_needsNoInput _).endsIn c
  · exact (decodeIteration_answered _ _ c).bind_needsNoInput endIteration_needsNoInput

/-! ## The instructions -/

theorem runOp_continues {i : Instr} {op : Op StepOutcome} {s : State} (h : continues (op (opStart s.arch))) :
    ∃ t, runOp i (answer .step op) s = .next t ∧ t.response = .step .continue := by
  obtain ⟨b, hb⟩ := h
  exact ⟨_, runOp_ok (by rw [run_answer, hb]; rfl), rfl⟩

/-- However the operation ends, the step leaves `rep0` as it did. -/
theorem runOp_rep0 (i : Instr) (f : α → Response) (op : Op α) (s : State) :
    ∃ t, runOp i (answer f op) s = .next t ∧ t.arch.rep0 = (endState (op (opStart s.arch))).rep0 := by
  have ha : endState (answer f op (opStart s.arch)) = endState (op (opStart s.arch)) := by
    rw [run_answer, endState_mapValue]
  rcases runOp_ends i (answer f op) s with ⟨_, _, ho, hn⟩ | ⟨_, ho, hn⟩ | ⟨_, _, ho, hn⟩ <;>
    exact ⟨_, hn, by rw [← ha, ho]; rfl⟩

theorem runOp_answered {i : Instr} {op : Op StepOutcome} {s : State} (h : answered (op (opStart s.arch))) :
    ∃ t, runOp i (answer .step op) s = .next t ∧ t.held = none ∧
      (t.response = .step .continue ∨ t.response = .step .finished ∨
        (t.response = .error ∧ t.arch.cause ≠ .truncatedInput)) := by
  cases ho : op (opStart s.arch) with
  | ok o b =>
    refine ⟨_, runOp_ok (b := b) (r := .step o) (by rw [run_answer, ho]; rfl), rfl, ?_⟩
    cases o
    · exact .inl rfl
    · exact .inr (.inl rfl)
  | error e b =>
    rw [ho] at h
    cases e with
    | hold => exact absurd rfl h.1
    | raise c =>
      refine ⟨_, runOp_raise (b := b) (c := c) (by rw [run_answer, ho]; rfl), rfl, .inr (.inr ⟨rfl, ?_⟩)⟩
      exact fun hc => h.2 (congrArg Stop.raise hc)

/-- A long repeat with its ten bytes goes on: the reps in front of it are in any order (R174 to R178). -/
theorem longRepeat_continues {i : Instr} {s : State} (hb : budgetCoversSymbol s.arch) (hn : 10 ≤ s.arch.inBytes.length)
    (hi : i = .symRep0 ∨ i = .symRep1 ∨ i = .symRep2 ∨ i = .symRep3) :
    ∃ t, exec i s = .next t ∧ t.response = .step .continue := by
  rcases hi with rfl | rfl | rfl | rfl <;> exact runOp_continues (repTail_continues _ hb hn)

/-- Settles O47: each symbol takes at most the bytes of its codes, and what follows them needs no input. -/
theorem symbolsCompleteOnInput : Obligations.SymbolsCompleteOnInput := by
  refine ⟨fun s hb => ⟨fun hn => ?_, ?_, fun hn i => ?_, fun hn hf hd => ?_⟩, fun s hn => ?_⟩
  · have hspent : budgetSpent (opStart s.arch) = false := budgetCoversSymbol.not_spent hb
    exact runOp_continues ((symLit_goesOn hspent).continues hn)
  · exact runOp_continues ((symShortrep_goesOn _).continues (Nat.zero_le _))
  · exact longRepeat_continues hb hn
  · rcases symMatch_of_full (posState s.arch) (a := opStart s.arch) hb hf hd hn with hc | hm
    · obtain ⟨t, ht, hr⟩ := runOp_continues (i := .symMatch) hc
      exact ⟨t, ht, .inl hr⟩
    · obtain ⟨t, ht, hr⟩ := runOp_rep0 .symMatch .step (symMatch (posState s.arch)) s
      exact ⟨t, ht, .inr (hr.trans hm)⟩
  · exact runOp_answered (mainStep_answered _ hn)

end Sys2Proof.Machine
end

section
/-! SUPPORT. An operation that may not visit a `PROB` cell leaves it (R54, R124): the cells of a walk are its tree's, those of a
length code its decoder's at one posState, those of a distance code its length's and the slots', those of
a literal its context's (R132, R200, R216). With it, O17. -/

namespace Sys2Proof.Machine

/-! ## One cell -/

/-- Cell `k` holds `v`, in a file in canonical form (R26). -/
def cellHolds (k : Nat) (v : Prob) (a : Arch) : Prop := ProbMem.wf a.prob = true ∧ probRead a.prob k = v

section

variable {k : Nat} {v : Prob}

theorem cellHolds_normalised {a : Arch} (h : cellHolds k v a) : cellHolds k v (normalised a) := by
  unfold normalised
  split
  · split <;> exact h
  · exact h

theorem cellHolds_bitStep {j : Nat} (hj : j ≠ k) {a : Arch} (h : cellHolds k v a) : cellHolds k v (bitStep j a) := by
  obtain ⟨hwf, hv⟩ := h
  exact ⟨probWrite_wf hwf _ _, (probRead_probWrite_other hwf hj.symm _).trans hv⟩

theorem rcBit_preserves_cell {j : Nat} (hj : j ≠ k) : Preserves (cellHolds k v) (rcBit j) :=
  rcBit_preserves (fun _ => cellHolds_bitStep hj) fun _ => cellHolds_normalised

/-- A cell outside a set stays as it is when a cell of the set is decoded. -/
theorem rcBit_preserves_cell_off {C : Nat → Prop} (hk : ¬ C k) (j : Nat) (hj : C j) :
    Preserves (cellHolds k v) (rcBit j) :=
  rcBit_preserves_cell fun h => hk (h ▸ hj)

theorem Keeps.preserves_cell {op : Op α} (h : Keeps Arch.prob op) : Preserves (cellHolds k v) op :=
  h.preserves fun m => ProbMem.wf m = true ∧ probRead m k = v

end

/-! ## The operations that touch no cell -/

theorem inByte_keeps_prob : Keeps Arch.prob inByte := inByte_keeps fun _ _ _ => rfl

theorem rcNorm_keeps_prob : Keeps Arch.prob rcNorm := rcNorm_keeps fun _ _ _ _ _ => rfl

theorem directRound_keeps_prob : Keeps Arch.prob rcDirectRound := rcDirectRound_keeps fun _ _ _ _ _ _ _ => rfl

theorem rcDirect_keeps_prob (n : Nat) : Keeps Arch.prob (rcDirect n) :=
  rcDirect_closed (keeps_closed _).toClosed directRound_keeps_prob n

theorem rcInit_keeps_prob : Keeps Arch.prob rcInit :=
  rcInit_closed (keeps_closed _).toClosed inByte_keeps_prob (Keeps.modify fun _ => rfl) (fun _ => Keeps.modify fun _ => rfl)
    fun _ => Keeps.modify fun _ => rfl

theorem dwPut_keeps_prob (b : Byte) : Keeps Arch.prob (dwPut b) := dwPut_keeps (fun _ _ _ _ _ _ _ => rfl) b

theorem dwGet_keeps_prob (dist : Nat) : Keeps Arch.prob (dwGet dist) := dwGet_keeps (fun _ _ => rfl) dist

theorem dwCopy_keeps_prob (dist n : Nat) : Keeps Arch.prob (dwCopy dist n) :=
  dwCopy_closed (keeps_closed _).toClosed (dwGet_keeps_prob dist) dwPut_keeps_prob n

theorem dwCreate_keeps_prob (n : Word) : Keeps Arch.prob (dwCreate n) :=
  dwCreate_closed (keeps_closed _) (Keeps.modify fun _ => rfl)

theorem spendBudget_keeps_prob (n : Nat) : Keeps Arch.prob (spendBudget n) := Keeps.modify fun _ => by split <;> rfl

theorem hdrProps_keeps_prob (d : Byte) : Keeps Arch.prob (hdrProps d) :=
  hdrProps_closed (keeps_closed _) (fun _ _ _ => Keeps.modify fun _ => rfl) d

theorem hdrSize_keeps_prob (w : DWord) : Keeps Arch.prob (hdrSize w) := Keeps.modify fun _ => by split <;> rfl

theorem hdrParse_keeps_prob : Keeps Arch.prob hdrParse :=
  hdrParse_closed (keeps_closed _) inByte_keeps_prob (fun _ _ _ => Keeps.modify fun _ => rfl)
    (fun _ => Keeps.modify fun _ => rfl) hdrSize_keeps_prob fun _ => Keeps.modify fun _ => rfl

theorem finish_keeps_prob (st : Status) : Keeps Arch.prob (finish st) :=
  finish_closed (keeps_closed _).toClosed (Keeps.modify fun _ => rfl) (fun _ => Keeps.modify fun _ => rfl) st

theorem symEos_keeps_prob : Keeps Arch.prob symEos := symEos_closed (keeps_closed _) finish_keeps_prob

theorem copyTail_keeps_prob (len : Nat) : Keeps Arch.prob (copyTail len) :=
  copyTail_closed (keeps_closed _) dwGet_keeps_prob dwPut_keeps_prob spendBudget_keeps_prob len

theorem matchTail_keeps_prob (len : Nat) : Keeps Arch.prob (matchTail len) :=
  matchTail_closed (keeps_closed _) finish_keeps_prob copyTail_keeps_prob len

theorem symShortrep_keeps_prob : Keeps Arch.prob symShortrep :=
  symShortrep_closed (keeps_closed _) (Keeps.modify fun _ => rfl) dwGet_keeps_prob dwPut_keeps_prob spendBudget_keeps_prob

theorem endIteration_keeps_prob (o : StepOutcome) : Keeps Arch.prob (endIteration o) := by
  cases o
  · exact Keeps.bind (Keeps.modify fun _ => rfl) fun _ => Keeps.pure _
  · exact Keeps.pure _

/-! ## Codes, matches and repeats -/

section

variable {k : Nat} {v : Prob} {ps : BitVec 4}

theorem lenDec_preserves_cell {inst : LenInst} (h : ¬ lengthCells inst ps k) :
    Preserves (cellHolds k v) (lenDec inst ps) :=
  lenDec_closed (preserves_closed _).toClosed (rcBit_preserves_cell_off h)

theorem distDec_preserves_cell {len : Nat} (h : ¬ distCells len k) : Preserves (cellHolds k v) (distDec len) :=
  distDec_closed (preserves_closed _).toClosed (rcBit_preserves_cell_off h) directRound_keeps_prob.preserves_cell

theorem distTail_preserves_cell {slot : Nat} (h : ¬ slotLowCells slot k) : Preserves (cellHolds k v) (distTail slot) :=
  distTail_closed (preserves_closed _).toClosed (rcBit_preserves_cell_off h) directRound_keeps_prob.preserves_cell

theorem symMatch_preserves_cell (hlen : ¬ lengthCells .len ps k) (hdist : ¬ ∃ len, distCells len k) :
    Preserves (cellHolds k v) (symMatch ps) :=
  Preserves.bind (Preserves.modify fun _ h => h) fun _ => (lenDec_preserves_cell hlen).bind fun len =>
    Preserves.bind (Preserves.modify fun _ h => h) fun _ =>
    (distDec_preserves_cell fun h => hdist ⟨len, h⟩).bind fun _ =>
    Preserves.bind (Preserves.modify fun _ h => h) fun _ => (matchTail_keeps_prob len).preserves_cell

theorem repTail_preserves_cell (h : ¬ lengthCells .rep ps k) : Preserves (cellHolds k v) (repTail ps) :=
  (lenDec_preserves_cell h).bind fun len => Preserves.bind (Preserves.modify fun _ h => h) fun _ =>
    (copyTail_keeps_prob len).preserves_cell

theorem symRep1_preserves_cell (h : ¬ lengthCells .rep ps k) : Preserves (cellHolds k v) (symRep1 ps) :=
  Preserves.bind (Preserves.modify fun _ h => h) fun _ => repTail_preserves_cell h

theorem symRep2_preserves_cell (h : ¬ lengthCells .rep ps k) : Preserves (cellHolds k v) (symRep2 ps) :=
  Preserves.bind (Preserves.modify fun _ h => h) fun _ => repTail_preserves_cell h

theorem symRep3_preserves_cell (h : ¬ lengthCells .rep ps k) : Preserves (cellHolds k v) (symRep3 ps) :=
  Preserves.bind (Preserves.modify fun _ h => h) fun _ => repTail_preserves_cell h

end

/-! ## The literal: its context is fixed by the state it starts in (R200) -/

/-- Started where `P` holds, the operation leaves `R`, however it ends. -/
def Leaves (P : Arch → Prop) (op : Op α) (R : Arch → Prop) : Prop := ∀ a, P a → R (endState (op a))

/-- A first part that keeps `P`, which is as much as `R`, leaves the rest to start where `P` holds. -/
theorem Preserves.then_leaves {P R : Arch → Prop} {x : Op α} {f : α → Op β} (hx : Preserves P x) (hR : ∀ a, P a → R a)
    (hf : ∀ r, Leaves P (f r) R) : Leaves P (x >>= f) R := by
  intro a ha
  have h := hx a ha
  rw [run_bind]
  cases hr : x a with
  | ok r b => rw [hr] at h; exact hf r b h
  | error e b => rw [hr] at h; exact hR b h

theorem Preserves.leaves {P R : Arch → Prop} {op : Op α} (h : Preserves R op) (hP : ∀ a, P a → R a) : Leaves P op R :=
  fun a ha => h a (hP a ha)

theorem Leaves.bind {P R : Arch → Prop} {x : Op α} {f : α → Op β} (hx : Leaves P x R) (hf : ∀ r, Preserves R (f r)) :
    Leaves P (x >>= f) R := by
  intro a ha
  have h := hx a ha
  rw [run_bind]
  cases hr : x a with
  | ok r b => rw [hr] at h; exact hf r b h
  | error e b => rw [hr] at h; exact h

/-- Cell `k` holds `v` and no literal from here can visit it. -/
def offLiteral (k : Nat) (v : Prob) (a : Arch) : Prop := cellHolds k v a ∧ ¬ literalCells a k

section

variable {k : Nat} {v : Prob}

theorem rcBit_preserves_offLiteral {j : Nat} (hj : j ≠ k) : Preserves (offLiteral k v) (rcBit j) := by
  have hlit : Keeps (fun a => literalCells a k) (rcBit j) := rcBit_keeps (fun _ _ _ _ _ _ => rfl) fun _ _ => rfl
  exact fun a ⟨hc, hk⟩ => ⟨rcBit_preserves_cell hj a hc, hlit.preserves Not a hk⟩

/-- The previous byte names the table, and the eight decisions stay in it (R200, R202, R203). -/
theorem litDec_leaves_cell : Leaves (offLiteral k v) litDec (cellHolds k v) := by
  rintro a ⟨hc, hk⟩
  obtain ⟨pb, n, hpb, hprev⟩ := prevByte_ok a
  have hbits : ∀ j, litTable (litState a pb) < j → j < litTable (litState a pb) + 0x300 →
      Preserves (cellHolds k v) (rcBit j) :=
    fun j h1 h2 => rcBit_preserves_cell_off hk j ⟨pb, hprev, h1, h2⟩
  have hsym : Preserves (cellHolds k v) (litSymbol (litTable (litState a pb))) :=
    litSymbol_closed (preserves_closed _) hbits fun d => (dwGet_keeps_prob d).preserves_cell
  have hrest := hsym.bind fun sym => (dwPut_keeps_prob (BitVec.ofNat 8 (sym - 0x100))).preserves_cell.bind fun _ =>
    Preserves.pure (BitVec.ofNat 8 (sym - 0x100))
  unfold litDec
  rw [run_bind_ok hpb, run_get_bind]
  exact hrest { a with fillReads := n } hc

theorem symLit_leaves_cell : Leaves (offLiteral k v) symLit (cellHolds k v) :=
  (budgetGuard_preserves _).then_leaves (fun _ h => h.1) fun _ => litDec_leaves_cell.bind fun _ =>
    Preserves.bind (Preserves.modify fun _ h => h) fun _ => (spendBudget_keeps_prob 1).preserves_cell.bind fun _ =>
    Preserves.pure _

/-! ## An iteration of the main loop (R76, R167) -/

variable {a : Arch}

theorem repFamily_preserves_cell (h : ¬ iterationCells a k) :
    Preserves (cellHolds k v) (repFamily a.state (posState a)) := by
  have off : ∀ j, iterationCells a j → Preserves (cellHolds k v) (rcBit j) := rcBit_preserves_cell_off h
  simp only [iterationCells, not_or] at h
  obtain ⟨-, -, -, -, -, -, -, -, hrep, -⟩ := h
  refine (repGuards_closed (preserves_closed _)).bind fun _ => (off _ (by simp [iterationCells])).bind fun g0 => ?_
  cases g0
  · refine (off _ (by simp [iterationCells])).bind fun long => ?_
    cases long
    · exact symShortrep_keeps_prob.preserves_cell
    · exact repTail_preserves_cell hrep
  · refine (off _ (by simp [iterationCells])).bind fun g1 => ?_
    cases g1
    · exact symRep1_preserves_cell hrep
    · refine (off _ (by simp [iterationCells])).bind fun g2 => ?_
      cases g2
      · exact symRep2_preserves_cell hrep
      · exact symRep3_preserves_cell hrep

/-- Only the decision that selects the symbol stands before a literal (R169). -/
theorem decodeIteration_leaves_cell (h : ¬ iterationCells a k) :
    Leaves (offLiteral k v) (decodeIteration a.state (posState a)) (cellHolds k v) := by
  have hrepeat := repFamily_preserves_cell (v := v) h
  simp only [iterationCells, not_or] at h
  obtain ⟨hmatch, hisRep, -, -, -, -, -, hlen, -, hdist⟩ := h
  refine (rcBit_preserves_offLiteral (Ne.symm hmatch)).then_leaves (fun _ h => h.1) fun m => ?_
  cases m
  · exact symLit_leaves_cell
  · refine Preserves.leaves ((rcBit_preserves_cell (Ne.symm hisRep)).bind fun r => ?_) fun _ h => h.1
    cases r
    · exact symMatch_preserves_cell hlen hdist
    · exact hrepeat

theorem mainStep_leaves_cell : Leaves (fun a => cellHolds k v a ∧ ¬ iterationCells a k) mainStep (cellHolds k v) := by
  refine Preserves.then_leaves (Preserves.modify fun _ h => h) (fun _ h => h.1) fun _ a ⟨hc, h⟩ => ?_
  have hlit : ¬ literalCells a k := fun hl => h (by simp [iterationCells, hl])
  have hflush : Preserves (offLiteral k v) (endTestFlush a) :=
    Preserves.ite (Preserves.modify fun _ h => h) (Preserves.pure ())
  refine hflush.then_leaves (R := cellHolds k v) (fun _ h => h.1) (fun _ => ?_) a ⟨hc, hlit⟩
  split
  · exact (finish_keeps_prob _).preserves_cell.leaves fun _ h => h.1
  · exact (decodeIteration_leaves_cell h).bind fun o => (endIteration_keeps_prob o).preserves_cell

end

/-! ## Every instruction -/

theorem Preserves.answer {P : Arch → Prop} {f : α → Response} {op : Op α} (h : Preserves P op) : Preserves P (answer f op) :=
  h.bind fun _ => Preserves.pure _

theorem Leaves.answer {P R : Arch → Prop} {f : α → Response} {op : Op α} (h : Leaves P op R) : Leaves P (answer f op) R :=
  h.bind fun _ => Preserves.pure _

theorem Keeps.done_preserves_cell {k : Nat} {v : Prob} {op : Op Unit} (h : Keeps Arch.prob op) :
    Preserves (cellHolds k v) (answerDone op) :=
  h.preserves_cell.bind fun _ => Preserves.pure _

/-- The operation of a row leaves the cells outside those below its slot. -/
theorem slotRow_preserves_cell {i : Instr} {slot k : Nat} {v : Prob} {a : Arch} (hi : rowSlot i = some slot)
    (h : ¬ ∃ slot, rowSlot i = some slot ∧ slotLowCells slot k) : Preserves (cellHolds k v) (opOf i a) := by
  rw [(op_of_rowSlot hi a).2]
  exact (distTail_preserves_cell fun hk => h ⟨slot, hi, hk⟩).answer

/-- The operation of an instruction leaves every cell that its rule cannot visit. -/
theorem opOf_leaves_cell {k : Nat} {v : Prob} {a : Arch} (i : Instr) (h : ¬ mayAdapt i a k) (hc : cellHolds k v a) :
    cellHolds k v (endState (opOf i a (opStart a))) := by
  have tree {T n : Nat} (h : ¬ inTree T n k) (j : Nat) (h1 : T < j) (h2 : j < T + 2 ^ n) :
      Preserves (cellHolds k v) (rcBit j) := rcBit_preserves_cell_off h j ⟨h1, h2⟩
  have c := (preserves_closed (cellHolds k v)).toClosed
  have hc : cellHolds k v (opStart a) := hc
  cases i
  case rcInit => exact rcInit_keeps_prob.done_preserves_cell _ hc
  case rcNorm => exact rcNorm_keeps_prob.done_preserves_cell _ hc
  case rcBit => exact (rcBit_preserves_cell (Ne.symm h)).answer _ hc
  case rcDirect => exact (rcDirect_keeps_prob _).preserves_cell.answer _ hc
  case btFwd => exact (btFwd_closed c (tree h)).answer _ hc
  case btRev => exact (btRev_closed c (tree h)).answer _ hc
  case lenDec => exact (lenDec_preserves_cell h).answer _ hc
  case dwCreate => exact (dwCreate_keeps_prob _).done_preserves_cell _ hc
  case dwPut => exact (dwPut_keeps_prob _).done_preserves_cell _ hc
  case dwGet => exact (dwGet_keeps_prob _).preserves_cell.answer _ hc
  case dwCopy => exact (dwCopy_keeps_prob _ _).done_preserves_cell _ hc
  case litDec => exact litDec_leaves_cell.answer _ ⟨hc, h⟩
  case distDec => exact (distDec_preserves_cell h).answer _ hc
  case hdrParse => exact hdrParse_keeps_prob.done_preserves_cell _ hc
  case decInit => exact absurd trivial h
  case mainStep => exact mainStep_leaves_cell.answer _ ⟨hc, h⟩
  case fmtProps => exact (hdrProps_keeps_prob _).done_preserves_cell _ hc
  case fmtSize => exact (hdrSize_keeps_prob _).done_preserves_cell _ hc
  case symLit => exact symLit_leaves_cell.answer _ ⟨hc, h⟩
  case symMatch =>
    obtain ⟨hlen, hdist⟩ := not_or.mp h
    exact (symMatch_preserves_cell hlen hdist).answer _ hc
  case symEos => exact symEos_keeps_prob.preserves_cell.answer _ hc
  case symShortrep => exact symShortrep_keeps_prob.preserves_cell.answer _ hc
  case symRep0 => exact (repTail_preserves_cell h).answer _ hc
  case symRep1 => exact (symRep1_preserves_cell h).answer _ hc
  case symRep2 => exact (symRep2_preserves_cell h).answer _ hc
  case symRep3 => exact (symRep3_preserves_cell h).answer _ hc
  case codeLengthLow => exact (lengthLow_closed c (rcBit_preserves_cell_off h)).answer _ hc
  case codeLengthMid => exact (lengthMid_closed c (rcBit_preserves_cell_off h)).answer _ hc
  case codeLengthHigh => exact (lengthHigh_closed c (rcBit_preserves_cell_off h)).answer _ hc
  case rcFinok | dwChk | dwEmpty | dwFlush | stLit | stMatch | stRep | stShortrep | start | fmtDictSize | fmtRcpre =>
    exact hc
  all_goals exact slotRow_preserves_cell rfl h _ hc

/-- Settles O17: every end of an instruction leaves the file as its operation's end does. -/
theorem probFrame : Obligations.ProbFrame := by
  intro i s t k hwf ht h
  have hprob : ProbMem.wf s.arch.prob = true := (Bool.and_eq_true_iff.mp hwf).2
  have hend := (opOf_leaves_cell i h ⟨hprob, rfl⟩).2
  rcases exec_next_cases ht with ⟨-, rfl⟩ | ⟨-, ⟨r, b, ho, rfl⟩ | ⟨b, ho, rfl⟩ | ⟨c, b, ho, rfl⟩⟩
  · rfl
  all_goals rw [ho] at hend; exact hend

end Sys2Proof.Machine
end

section
/-! SUPPORT. The byte a lookback reads, by what its cell holds (R60, R143, R148), and the window as the end of the output: made so
by DW.CREATE, kept so by DW.PUT (R59, R140, R150). With it, O23 and O27. -/

namespace Sys2Proof.Machine

/-! ## DW.GET by what the cell holds -/

section

variable {dist x : Nat} {a : Arch} (hl : lookback a dist = some x)
include hl

theorem dwGet_written {b : Byte} (hd : dictRead a.buf x = some b) : dwGet dist a = .ok b a := by
  simp only [dwGet, run_get_bind, hl, hd, run_pure]

theorem dwGet_filled {v : Byte} (hd : dictRead a.buf x = none) (hf : a.params.dictFill = some v) :
    dwGet dist a = .ok v a := by
  simp only [dwGet, run_get_bind, hl, hd, readUnwritten, hf]

theorem dwGet_free (hd : dictRead a.buf x = none) (hf : a.params.dictFill = none) :
    dwGet dist a = .ok (Config.freeFill a.fillReads) { a with fillReads := a.fillReads + 1 } := by
  simp only [dwGet, run_get_bind, hl, hd, readUnwritten, hf, freeByte]

end

theorem exec_ok {i : Instr} {s : State} {r : Response} {c : Arch} (ha : allowed i s.arch = true)
    (ho : opOf i s.arch (opStart s.arch) = .ok r c) : exec i s = .next (completed s c r) :=
  (exec_of_allowed ha).trans (runOp_ok ho)

/-- DW.GET inside its domain answers the byte that its operation reads (R149). -/
theorem exec_dwGet {dist : Word} {s : State} {b : Byte} {c : Arch} (h1 : 1 ≤ dist.toNat) (h2 : dist.toNat ≤ s.arch.size.toNat)
    (h : dwGet dist.toNat (opStart s.arch) = .ok b c) : exec (.dwGet dist) s = .next (completed s c (.byte b)) := by
  have ha : lookbackOk s.arch dist.toNat = true := decide_eq_true ⟨h1, h2⟩
  refine exec_ok ha (show answer .byte (dwGet dist.toNat) _ = _ from ?_)
  rw [run_answer, h, mapValue_ok]

/-- Settles O23: the address is the lookback's, and the byte follows from what its cell and `DICT_FILL` hold. -/
theorem dwGetReadsLookback : Obligations.DwGetReadsLookback := by
  intro dist s x h1 h2 hp hx
  have hl : lookback (opStart s.arch) dist.toNat = some x := hx ▸ lookback_some h1 h2 hp
  exact ⟨lookback_lt hl, fun b hd => exec_dwGet h1 h2 (dwGet_written hl hd),
    fun hd v hf => exec_dwGet h1 h2 (dwGet_filled hl hd hf), fun hd hf => ⟨_, exec_dwGet h1 h2 (dwGet_free hl hd hf)⟩⟩

/-! ## The window invariant (R59, R140) -/

theorem windowInv_newWindow {n : Word} (hn : n ≠ 0#32) (a : Arch) : windowInv (newWindow n a) := by
  have hpos : 0 < n.toNat := (BitVec.pos_iff_ne_zero n).mpr hn
  refine ⟨hn, rfl, (Nat.zero_mod _).symm, ?_, fun j hj => absurd hj (Nat.not_lt_zero j), fun _ _ _ => rfl⟩
  exact (decide_eq_false (Nat.not_le_of_lt hpos)).symm

theorem dwCreate_yields (n : Word) : Yields (fun _ => True) (dwCreate n) fun _ b => ∃ a, b = newWindow n a :=
  Preserves.get.before fun _ => (Preserves.raiseIf _ _).before fun _ => Yields.modify fun a _ => ⟨a, rfl⟩

/-- An instruction that answers neither a refusal, a hold nor an error has completed (R14). -/
theorem exec_completed {i : Instr} {s t : State} (h : exec i s = .next t)
    (hr : t.response ≠ .refused ∧ t.response ≠ .pending ∧ t.response ≠ .error) :
    ∃ r, opOf i s.arch (opStart s.arch) = .ok r t.arch := by
  obtain ⟨h1, h2, h3⟩ := hr
  rcases exec_next_cases h with ⟨-, rfl⟩ | ⟨-, ⟨r, b, ho, rfl⟩ | ⟨b, -, rfl⟩ | ⟨c, b, -, rfl⟩⟩
  · exact absurd rfl h1
  · exact ⟨r, ho⟩
  · exact absurd rfl h2
  · exact absurd rfl h3

/-- Two positions less than `n` apart have different cells in a window of `n`. -/
theorem mod_ne_of_lt_of_lt_add {i j n : Nat} (h1 : i < j) (h2 : j < i + n) : i % n ≠ j % n := by
  intro h
  have hdvd : n ∣ j - i := Nat.dvd_of_mod_eq_zero (Nat.sub_mod_eq_zero_of_mod_eq h.symm)
  have := Nat.le_of_dvd (by omega) hdvd
  omega

theorem windowInv.pos_lt {a : Arch} (h : windowInv a) : a.pos < a.size := by
  obtain ⟨hs, -, hp, -⟩ := h
  show a.pos.toNat < a.size.toNat
  rw [hp]
  exact Nat.mod_lt _ ((BitVec.pos_iff_ne_zero _).mpr hs)

/-- The wrap flag after a put: the cursor wraps when the output first fills the window, and only later again (R142). -/
theorem windowInv.putStep_isFull {a : Arch} (h : windowInv a) (b : Byte) :
    (putStep b a).isFull = decide (a.size.toNat ≤ a.out.length + 1) := by
  have hlt : a.pos.toNat < a.size.toNat := h.pos_lt
  obtain ⟨-, -, hp, hf, -⟩ := h
  have hwrap : a.pos + 1#32 = a.size ↔ a.pos.toNat + 1 = a.size.toNat := by
    have := a.size.isLt
    rw [← BitVec.toNat_inj, BitVec.toNat_add, BitVec.toNat_ofNat, Nat.mod_eq_of_lt (by omega)]
  rw [Machine.putStep_isFull, hf, ← Bool.decide_or, decide_eq_decide, hwrap, hp]
  by_cases hfull : a.size.toNat ≤ a.out.length
  · omega
  · rw [Nat.mod_eq_of_lt (by omega)]
    omega

/-- A put writes the cell of the position it appends, and no other position of the window has that cell. -/
theorem windowInv_putStep {a : Arch} (h : windowInv a) (b : Byte) : windowInv (putStep b a) := by
  have hlt := h.pos_lt
  have hfull := h.putStep_isFull b
  obtain ⟨hs, ht, hp, -, hcells, hfresh⟩ := h
  have hbuf : (putStep b a).buf = dictWrite a.buf (a.out.length % a.size.toNat) b := by
    rw [putStep_buf, storedBuf_pos hlt, hp]
  unfold windowInv
  rw [putStep_size, hbuf, hfull, (putStep_pos_toNat hlt).1, putStep_totalPos, ht, hp, putStep_out, List.length_append,
    List.length_singleton]
  refine ⟨hs, (BitVec.ofNat_add _ _).symm, Nat.mod_add_mod _ _ _, rfl, fun j hj hw => ?_, fun k hk hks => ?_⟩
  · rcases Nat.lt_succ_iff_lt_or_eq.mp hj with hold | rfl
    · rw [dictRead_dictWrite_other _ (mod_ne_of_lt_of_lt_add hold (by omega)), hcells j hold (by omega),
        List.getElem?_append_left hold]
    · rw [dictRead_dictWrite_same, List.getElem?_concat_length]
  · have hne : k ≠ a.out.length % a.size.toNat := by
      rw [Nat.mod_eq_of_lt (by omega)]
      omega
    rw [dictRead_dictWrite_other _ hne, hfresh k (by omega) hks]

/-- The cell of a lookback within the output and the window is that of the byte so many places back (R150). -/
theorem windowInv.lookback_eq {a : Arch} (h : windowInv a) {dist : Nat} (h1 : 1 ≤ dist) (h2 : dist ≤ a.size.toNat)
    (h3 : dist ≤ a.out.length) : lookback a dist = some ((a.out.length - dist) % a.size.toNat) := by
  have hlt := h.pos_lt
  obtain ⟨-, -, hp, -⟩ := h
  rw [lookback_mod h1 h2 hlt, hp, Nat.mod_add_mod,
    show a.out.length + (a.size.toNat - dist) = a.out.length - dist + a.size.toNat by omega, Nat.add_mod_right]

theorem windowInv.dwGet_eq {a : Arch} (h : windowInv a) {dist : Nat} (h1 : 1 ≤ dist) (h2 : dist ≤ a.size.toNat)
    (h3 : dist ≤ a.out.length) :
    ∃ b, a.out[a.out.length - dist]? = some b ∧ dwGet dist a = .ok b a := by
  have hl := h.lookback_eq h1 h2 h3
  obtain ⟨-, -, -, -, hcells, -⟩ := h
  have hj : a.out.length - dist < a.out.length := by omega
  have hb := List.getElem?_eq_getElem hj
  exact ⟨_, hb, dwGet_written hl ((hcells _ hj (by omega)).trans hb)⟩

theorem exec_dwPut (b : Byte) (s : State) :
    exec (.dwPut b) s = .next (completed s (putStep b (opStart s.arch)) .done) := by
  refine exec_ok rfl (show answerDone (dwPut b) _ = _ from ?_)
  rw [run_answerDone, dwPut_ok, mapValue_ok]

/-- Settles O27: a new window has no output, a put writes the cell of the position it appends, and the cell of a lookback is
that of the byte so many places back. -/
theorem lookbackReadsOutput : Obligations.LookbackReadsOutput := by
  refine ⟨fun n s t hn ht hr => ?_, fun b s h => ?_, fun dist s h h1 h2 h3 => ?_⟩
  · obtain ⟨r, ho⟩ := exec_completed ht (by simp [hr])
    have hnew : Yields (fun _ => True) (answerDone (dwCreate n)) fun _ b => ∃ a, b = newWindow n a :=
      (dwCreate_yields n).answerDone
    obtain ⟨a, ha⟩ := hnew _ _ _ trivial ho
    exact ha ▸ windowInv_newWindow hn a
  · exact ⟨_, exec_dwPut b s, windowInv_putStep (a := opStart s.arch) h b⟩
  · have hstart : windowInv (opStart s.arch) := h
    obtain ⟨b, hb, hr⟩ := hstart.dwGet_eq h1 h2 h3
    exact ⟨b, hb, exec_dwGet h1 h2 hr⟩

end Sys2Proof.Machine
end

section
/-! SUPPORT. When the command interface turns an instruction away (R88, R103, R149, D29): exactly when its operands are outside
their domain, since no operation answers `refused`. With it, O4. -/

namespace Sys2Proof.Machine

theorem answer_ne_refused {f : α → Response} (hf : ∀ x, f x ≠ .refused) (op : Op α) (a b : Arch) :
    answer f op a ≠ .ok .refused b := by
  rw [run_answer]
  cases op a with
  | ok r c =>
    intro h
    injection h with hr
    exact hf r hr
  | error e c => nofun

/-- Whatever the instruction, its operation has another answer (R88's result column). -/
theorem opOf_ne_refused (i : Instr) (a b c : Arch) : opOf i a b ≠ .ok .refused c := by
  cases i <;>
  · refine answer_ne_refused (fun _ hr => ?_) _ b c
    cases hr

theorem not_allowed_of_refused {i : Instr} {s t : State} (h : exec i s = .next t) (hr : t.response = .refused) :
    allowed i s.arch = false := by
  rcases exec_next_cases h with ⟨ha, -⟩ | ⟨-, ⟨r, b, ho, rfl⟩ | ⟨b, -, rfl⟩ | ⟨c, b, -, rfl⟩⟩
  · exact ha
  · cases (show r = .refused from hr)
    exact absurd ho (opOf_ne_refused i _ _ _)
  · cases hr
  · cases hr

/-- The operands that are turned away: a lookback outside the window, no size to create one with, or ill-formed ones. -/
theorem not_allowed_cases {i : Instr} {a : Arch} (h : allowed i a = false) :
    (∃ dist, (i = .dwGet dist ∨ ∃ len, i = .dwCopy dist len) ∧ ¬ (1 ≤ dist.toNat ∧ dist.toNat ≤ a.size.toNat)) ∨
    (i = .decInit ∧ a.dictSize = 0#32) ∨ i.wf = false := by
  cases i
  case dwGet dist => exact .inl ⟨dist, .inl rfl, of_decide_eq_false h⟩
  case dwCopy dist len => exact .inl ⟨dist, .inr ⟨len, rfl⟩, of_decide_eq_false h⟩
  case decInit => exact .inr (.inl ⟨rfl, Decidable.not_not.mp (of_decide_eq_false h)⟩)
  case rcBit | rcDirect | btFwd | btRev | dwCreate | distDec => exact .inr (.inr h)
  all_goals cases h

theorem rcDirect_not_wf {n : Byte} (h : n = 0#8 ∨ 26 < n.toNat) : (Instr.rcDirect n).wf = false := by
  refine decide_eq_false ?_
  rcases h with rfl | h
  · decide
  · omega

/-- Settles O4: outside its domain an operand is turned away, and only then is the answer `refused`. -/
theorem operandDomainsAreGuarded : Obligations.OperandDomainsAreGuarded := by
  intro s
  refine ⟨fun dist h => ?_, rfl, fun n h => exec_of_not_allowed (rcDirect_not_wf h), fun i t h hr => ?_⟩
  · have hd : lookbackOk s.arch dist.toNat = false := decide_eq_false h
    exact ⟨exec_of_not_allowed hd, fun len => exec_of_not_allowed (i := .dwCopy dist len) hd⟩
  · exact not_allowed_cases (not_allowed_of_refused h hr)

end Sys2Proof.Machine
end

section
/-! SUPPORT. RC.NORM, RC.BIT and RC.FINOK as instructions, and the tests of the window: the end of the operation is the end of
the step (R101, R102, R104, R145, R146, R147). With it, O7, O8 and O26. -/

namespace Sys2Proof.Machine

/-- An instruction whose operation finds no byte is starved where the operation left off (R51). -/
theorem exec_starved {i : Instr} {s : State} {b : Arch} (ha : allowed i s.arch = true)
    (ho : opOf i s.arch (opStart s.arch) = .error (starvedStop b) b) : exec i s = .next (starved i s b) :=
  (exec_of_allowed ha).trans (runOp_starved ho)

theorem normalised_cons {a : Arch} {b : Byte} {rest : List Byte} (hr : a.range < 0x01000000#32)
    (hb : a.inBytes = b :: rest) :
    normalised a = { a with
      range := a.range <<< 8, code := (a.code <<< 8) ||| b.setWidth 32, inBytes := rest, inPos := a.inPos + 1#64 } := by
  unfold normalised
  rw [hb]
  exact if_pos hr

theorem exec_rcNorm_ok {s : State} (h : ¬ needsByte (opStart s.arch)) :
    exec .rcNorm s = .next (completed s (normalised (opStart s.arch)) .done) := by
  refine exec_ok rfl (show answerDone rcNorm _ = _ from ?_)
  rw [run_answerDone, rcNorm_ok h, mapValue_ok]

theorem exec_rcNorm_starved {s : State} (h : needsByte (opStart s.arch)) :
    exec .rcNorm s = .next (starved .rcNorm s (opStart s.arch)) := by
  refine exec_starved rfl (show answerDone rcNorm _ = _ from ?_)
  rw [run_answerDone, rcNorm_stop h, mapValue_error]

/-- Settles O7: the three cases of the one test. -/
theorem rcNormShiftsOneByte : Obligations.RcNormShiftsOneByte := by
  refine fun s => ⟨fun hr => ?_, fun hr b rest hb => ?_, fun hr hb => exec_rcNorm_starved ⟨hr, hb⟩⟩
  · rw [exec_rcNorm_ok fun h => hr h.1, normalised_of_le (a := opStart s.arch) hr]
    rfl
  · have hn : ¬ needsByte (opStart s.arch) := fun h => List.cons_ne_nil b rest (hb.symm.trans h.2)
    rw [exec_rcNorm_ok hn, normalised_cons (a := opStart s.arch) hr hb]
    rfl

theorem exec_rcBit_ok {a : ProbAddr} {s : State} (ha : a.wf = true)
    (h : ¬ needsByte (bitStep (cellOf a) (opStart s.arch))) :
    exec (.rcBit a) s = .next (completed s (normalised (bitStep (cellOf a) (opStart s.arch)))
      (.bit (bitOf (cellOf a) s.arch))) := by
  refine exec_ok ha (show answer .bit (rcBit (cellOf a)) _ = _ from ?_)
  rw [run_answer, rcBit_ok h, mapValue_ok]
  rfl

theorem exec_rcBit_starved {a : ProbAddr} {s : State} (ha : a.wf = true)
    (h : needsByte (bitStep (cellOf a) (opStart s.arch))) :
    exec (.rcBit a) s = .next (starved (.rcBit a) s (bitStep (cellOf a) (opStart s.arch))) := by
  refine exec_starved ha (show answer .bit (rcBit (cellOf a)) _ = _ from ?_)
  rw [run_answer, rcBit_stop h, mapValue_error]
  rfl

theorem rcBound_eq_ofNat (r : Word) (p : Prob) : rcBound r p = (r >>> 11) * BitVec.ofNat 32 p.toNat := by
  rw [BitVec.ofNat_toNat]
  rfl

/-- A decided cell's new value, from its old one as a number (R102). -/
theorem adapted_eq (b : Bool) (p : Prob) :
    (if b then probDown p else probUp p) =
      BitVec.ofNat 11 (if b then p.toNat - p.toNat / 32 else p.toNat + (2048 - p.toNat) / 32) := by
  cases b <;> rfl

/-- Settles O8: what R102 writes is the state after the decision, and RC.NORM completes or is starved there. -/
theorem rcBitDecodesAndAdapts : Obligations.RcBitDecodesAndAdapts := by
  intro a s p bound bit m ha hp hbound hbit hm
  rw [hp, ← rcBound_eq_ofNat] at hbound
  rw [hbound] at hbit
  have hbit : bit = bitOf (cellOf a) s.arch := hbit
  have hm : m = bitStep (cellOf a) (opStart s.arch) := by
    rw [hm, hp, ← adapted_eq, hbound, hbit]
    rfl
  rw [hm, hbit]
  exact ⟨exec_rcBit_ok ha, exec_rcBit_starved ha⟩

/-- Settles O26: each test answers its predicate of the state, and the flush writes the hidden pointer alone. -/
theorem testsAnswerAndChangeNothing : Obligations.TestsAnswerAndChangeNothing := by
  refine fun s => ⟨rfl, fun d => ?_, ?_, rfl⟩
  · have hd : distanceOk s.arch d = decide (d ≤ s.arch.pos ∨ s.arch.isFull = true) := by
      rw [Bool.decide_or, Bool.decide_eq_true]
      rfl
    rw [← hd]
    exact exec_ok rfl rfl
  · have he : windowEmpty s.arch = decide (s.arch.pos = 0#32 ∧ s.arch.isFull = false) := by
      rw [Bool.decide_and, Bool.decide_eq_false]
      rfl
    rw [← he]
    exact exec_ok rfl rfl

end Sys2Proof.Machine
end

section
/-! SUPPORT. RC.INIT byte by byte (R100): the bytes after the first are shifted into `code`, and where they run out the operation
stops with all of them consumed. With it, O6. -/

namespace Sys2Proof.Machine

/-! ## A byte shifted into `code` -/

theorem shiftInByte_toNat (c : Word) (b : Byte) : (shiftInByte c b).toNat = c.toNat * 256 % 2 ^ 32 + b.toNat := by
  have hb := b.isLt
  have hshift : c.toNat <<< 8 % 2 ^ 32 = (c.toNat % 2 ^ 24) <<< 8 := by
    rw [Nat.shiftLeft_eq, Nat.shiftLeft_eq]
    omega
  unfold shiftInByte
  rw [BitVec.toNat_or, BitVec.toNat_shiftLeft, BitVec.toNat_setWidth, Nat.mod_eq_of_lt (a := b.toNat) (by omega), hshift,
    ← Nat.shiftLeft_add_eq_or_of_lt hb, ← hshift, Nat.shiftLeft_eq]

/-- Four bytes shifted into a zero are the big-endian word (R55, R74). -/
theorem foldl_shiftInByte_four (b1 b2 b3 b4 : Byte) :
    [b1, b2, b3, b4].foldl shiftInByte 0#32 = b1 ++ b2 ++ b3 ++ b4 := by
  have := b1.isLt
  have := b2.isLt
  have := b3.isLt
  have := b4.isLt
  apply BitVec.eq_of_toNat_eq
  simp only [List.foldl, shiftInByte_toNat, BitVec.toNat_append, BitVec.toNat_ofNat]
  rw [← Nat.shiftLeft_add_eq_or_of_lt b2.isLt, ← Nat.shiftLeft_add_eq_or_of_lt b3.isLt,
    ← Nat.shiftLeft_add_eq_or_of_lt b4.isLt]
  simp only [Nat.shiftLeft_eq]
  omega

/-! ## The bytes of the preamble -/

/-- The state after the bytes `bs` went into `code` and left `rest` in the input (R100). -/
def shiftedIn (bs rest : List Byte) (a : Arch) : Arch :=
  { a with code := bs.foldl shiftInByte a.code, inBytes := rest, inPos := a.inPos + BitVec.ofNat 64 bs.length }

theorem inPos_cons (p : DWord) (b : Byte) (bs : List Byte) :
    p + 1#64 + BitVec.ofNat 64 bs.length = p + BitVec.ofNat 64 (b :: bs).length := by
  rw [List.length_cons, BitVec.add_assoc, BitVec.add_comm 1#64, BitVec.ofNat_add]

theorem shiftedIn_shiftedIn (b : Byte) (bs rest rest' : List Byte) (a : Arch) :
    shiftedIn bs rest (shiftedIn [b] rest' a) = shiftedIn (b :: bs) rest a :=
  congrArg (fun p => { shiftedIn (b :: bs) rest a with inPos := p }) (inPos_cons a.inPos b bs)

theorem shiftedIn_nil {rest : List Byte} {a : Arch} (h : a.inBytes = rest) : shiftedIn [] rest a = a := by
  subst h
  simp [shiftedIn]

/-- `n` bytes of the preamble, and `op` after them: the middle of `RC.INIT` (`rcInit_eq`). -/
def afterInitBytes : Nat → Op Unit → Op Unit
  | 0, op => op
  | n + 1, op => rcInitByte >>= fun _ => afterInitBytes n op

theorem rcInitByte_cons {a : Arch} {b : Byte} {rest : List Byte} (h : a.inBytes = b :: rest) :
    rcInitByte a = .ok () (shiftedIn [b] rest a) := by
  unfold rcInitByte
  rw [run_bind_ok (inByte_cons h)]
  rfl

theorem rcInitByte_nil {a : Arch} (h : a.inBytes = []) : rcInitByte a = .error (starvedStop a) a :=
  run_bind_error (inByte_nil h)

theorem afterInitBytes_enough (op : Op Unit) (bs rest : List Byte) {a : Arch} (h : a.inBytes = bs ++ rest) :
    afterInitBytes bs.length op a = op (shiftedIn bs rest a) := by
  induction bs generalizing a with
  | nil =>
    rw [shiftedIn_nil (rest := rest) h]
    rfl
  | cons b bs ih =>
    show (rcInitByte >>= fun _ => afterInitBytes bs.length op) a = _
    rw [run_bind_ok (rcInitByte_cons h), ih rfl, shiftedIn_shiftedIn]

theorem afterInitBytes_short (op : Op Unit) (bs : List Byte) {n : Nat} {a : Arch} (h : a.inBytes = bs)
    (hn : bs.length < n) : afterInitBytes n op a = .error (starvedStop a) (shiftedIn bs [] a) := by
  induction n generalizing bs a with
  | zero => cases hn
  | succ n ih =>
    show (rcInitByte >>= fun _ => afterInitBytes n op) a = _
    cases bs with
    | nil => rw [run_bind_error (rcInitByte_nil h), shiftedIn_nil h]
    | cons b bs =>
      rw [run_bind_ok (rcInitByte_cons h), ih bs rfl (Nat.lt_of_succ_lt_succ hn), shiftedIn_shiftedIn]
      rfl

/-! ## RC.INIT -/

/-- The state in which RC.INIT reads its bytes (R100). -/
def initCleared (a : Arch) : Arch := { a with corrupted := false, range := 0xFFFFFFFF#32, code := 0#32 }

theorem rcInit_run (a : Arch) :
    rcInit a = (inByte >>= fun b0 => afterInitBytes 4 (rcInitFlag b0)) (initCleared a) := rfl

theorem rcInit_enough {a : Arch} {b0 b1 b2 b3 b4 : Byte} {rest : List Byte}
    (h : a.inBytes = b0 :: b1 :: b2 :: b3 :: b4 :: rest) :
    rcInit a = .ok () { a with
      range := 0xFFFFFFFF#32, code := b1 ++ b2 ++ b3 ++ b4,
      corrupted := corruptedAtInit b0 (b1 ++ b2 ++ b3 ++ b4) 0xFFFFFFFF#32,
      inBytes := rest, inPos := a.inPos + 5#64 } := by
  rw [rcInit_run, run_bind_ok (inByte_cons (a := initCleared a) h)]
  refine (afterInitBytes_enough _ [b1, b2, b3, b4] rest rfl).trans ?_
  have hpos : a.inPos + 1#64 + 4#64 = a.inPos + 5#64 := inPos_cons a.inPos b0 [b1, b2, b3, b4]
  rw [rcInitFlag, run_modify, ← foldl_shiftInByte_four, ← hpos]
  rfl

theorem rcInit_short {a : Arch} (h : a.inBytes.length < 5) :
    rcInit a = .error (starvedStop a) { a with
      range := 0xFFFFFFFF#32, corrupted := false, code := (a.inBytes.drop 1).foldl shiftInByte 0#32,
      inBytes := [], inPos := a.inPos + BitVec.ofNat 64 a.inBytes.length } := by
  rw [rcInit_run]
  cases hb : a.inBytes with
  | nil =>
    rw [run_bind_error (inByte_nil (a := initCleared a) hb), ← shiftedIn_nil (a := initCleared a) hb]
    rfl
  | cons b0 bs =>
    have hlen : bs.length < 4 := by
      rw [hb] at h
      exact Nat.lt_of_succ_lt_succ h
    rw [run_bind_ok (inByte_cons (a := initCleared a) hb), ← inPos_cons, afterInitBytes_short _ bs rfl hlen]
    rfl

theorem corruptedAtInit_eq (b0 : Byte) (code range : Word) :
    corruptedAtInit b0 code range = decide (b0 ≠ 0#8 ∨ code = range) := (Bool.decide_or _ _).symm

/-- Settles O6: five bytes complete the operation, and with fewer it stops with all of them consumed. -/
theorem rcInitReadsPreamble : Obligations.RcInitReadsPreamble := by
  refine fun s => ⟨fun b0 b1 b2 b3 b4 rest h => ?_, fun h => ?_⟩
  · rw [← corruptedAtInit_eq]
    refine exec_ok rfl (show answerDone rcInit _ = _ from ?_)
    rw [run_answerDone, rcInit_enough (a := opStart s.arch) h, mapValue_ok]
    rfl
  · refine exec_starved rfl (show answerDone rcInit _ = _ from ?_)
    rw [run_answerDone, rcInit_short (a := opStart s.arch) h, mapValue_error]
    rfl

end Sys2Proof.Machine
end

section
/-! SUPPORT. RC.DIRECT as rounds in sequence (R103): a round does not look at the log, and the bits decoded so far are only
shifted up. With it, O9. -/

namespace Sys2Proof.Machine

/-- The decisions `ds` before those in the log. -/
def logAfter (ds : List Bool) (a : Arch) : Arch := { a with decisions := ds ++ a.decisions }

theorem logAfter_opStart (a : Arch) : logAfter a.decisions (opStart a) = a := by
  unfold logAfter
  rw [opStart_decisions, List.append_nil]
  rfl

theorem normalised_logAfter (ds : List Bool) (a : Arch) : normalised (logAfter ds a) = logAfter ds (normalised a) := by
  have hbytes : (logAfter ds a).inBytes = a.inBytes := rfl
  have hrange : (logAfter ds a).range = a.range := rfl
  unfold normalised
  rw [hbytes, hrange]
  split
  · split <;> rfl
  · rfl

theorem directStep_logAfter (ds : List Bool) (a : Arch) : directStep (logAfter ds a) = logAfter ds (directStep a) :=
  congrArg (fun l => { directStep a with decisions := l }) (List.append_assoc ds a.decisions [!directSign a])

theorem rcDirectRound_logAfter (ds : List Bool) : Commutes (logAfter ds) rcDirectRound := by
  intro a
  by_cases h : needsByte (directStep a)
  · have h' : needsByte (directStep (logAfter ds a)) := h
    rw [rcDirectRound_stop h, rcDirectRound_stop h', directStep_logAfter]
    rfl
  · have h' : ¬ needsByte (directStep (logAfter ds a)) := h
    rw [rcDirectRound_ok h, rcDirectRound_ok h', directStep_logAfter, normalised_logAfter]
    rfl

theorem rcDirect_logAfter (ds : List Bool) (n : Nat) : Commutes (logAfter ds) (rcDirect n) :=
  rcDirect_closed (commutes_closed _) (rcDirectRound_logAfter ds) n

theorem mapValue_mapValue (f : β → γ) (g : α → β) (o : Ended α) :
    mapValue f (mapValue g o) = mapValue (fun r => f (g r)) o := by
  cases o <;> rfl

theorem shiftLeft_succ_add (res x v : Word) (n : Nat) :
    ((res <<< 1) + x) <<< n + v = res <<< (n + 1) + (x <<< n + v) := by
  rw [Nat.add_comm n 1, BitVec.shiftLeft_add, ← BitVec.add_assoc]
  simp only [BitVec.shiftLeft_eq_mul_twoPow, BitVec.add_mul]

/-- The bits decoded before the rounds stand above theirs. -/
theorem rcDirectRounds_eq (n : Nat) (res : Word) (a : Arch) :
    rcDirectRounds n res a = mapValue (fun v => (res <<< n) + v) (rcDirect n a) := by
  unfold rcDirect
  induction n generalizing res a with
  | zero => simp [rcDirectRounds]
  | succ n ih =>
    unfold rcDirectRounds
    cases h : rcDirectRound a with
    | error e b => rw [run_bind_error h, run_bind_error h, mapValue_error]
    | ok t b =>
      rw [run_bind_ok h, run_bind_ok h, ih, ih ((0#32 <<< 1) + _), mapValue_mapValue]
      congr 1
      funext v
      rw [shiftLeft_succ_add, shiftLeft_succ_add, BitVec.zero_shiftLeft, BitVec.zero_add]

theorem rcDirect_succ_run (n : Nat) (a : Arch) :
    rcDirect (n + 1) a = (rcDirectRound >>= fun t => rcDirectRounds n (t + 1#32)) a := by
  have hres (t : Word) : (0#32 <<< 1) + (t + 1#32) = t + 1#32 := by rw [BitVec.zero_shiftLeft, BitVec.zero_add]
  simp only [rcDirect, rcDirectRounds, hres]

theorem rcDirect_one (a : Arch) : rcDirect 1 a = mapValue (fun t => t + 1#32) (rcDirectRound a) :=
  (rcDirect_succ_run 0 a).trans (run_bind_pure _ _ a)

/-- One round and then `n` are `n + 1`, the first bit most significant. -/
theorem rcDirect_succ {n : Nat} {a b c : Arch} {r v : Word} (h1 : rcDirect 1 a = .ok r b) (hn : rcDirect n b = .ok v c) :
    rcDirect (n + 1) a = .ok ((r <<< n) + v) c := by
  rw [rcDirect_one] at h1
  cases hr : rcDirectRound a with
  | error e d => rw [hr] at h1; cases h1
  | ok t d =>
    rw [hr] at h1
    cases h1
    rw [rcDirect_succ_run, run_bind_ok hr, rcDirectRounds_eq, hn, mapValue_ok]

/-! ## The instruction -/

theorem exec_rcDirect_ok {n : Byte} {s : State} {v : Word} {b : Arch} (h1 : 1 ≤ n.toNat) (h2 : n.toNat ≤ 26)
    (h : rcDirect n.toNat (opStart s.arch) = .ok v b) :
    exec (.rcDirect n) s = .next (completed s b (.value v)) := by
  refine exec_ok (decide_eq_true ⟨h1, h2⟩) (show answer .value (rcDirect n.toNat) _ = _ from ?_)
  rw [run_answer, h, mapValue_ok]

/-- A value is the answer of completed rounds alone. -/
theorem rcDirect_of_exec {n : Byte} {s t : State} {v : Word} (h : exec (.rcDirect n) s = .next t)
    (hv : t.response = .value v) :
    rcDirect n.toNat (opStart s.arch) = .ok v t.arch ∧ t = completed s t.arch (.value v) := by
  rcases exec_next_cases h with ⟨-, rfl⟩ | ⟨-, ⟨r, b, ho, rfl⟩ | ⟨b, -, rfl⟩ | ⟨c, b, -, rfl⟩⟩
  case inr.inl =>
    cases (show r = .value v from hv)
    have ho : answer .value (rcDirect n.toNat) (opStart s.arch) = .ok (.value v) b := ho
    rw [run_answer] at ho
    cases hr : rcDirect n.toNat (opStart s.arch) with
    | ok w d =>
      rw [hr] at ho
      cases ho
      exact ⟨rfl, rfl⟩
    | error e d => rw [hr] at ho; cases ho
  all_goals cases hv

theorem exec_rcDirect_one_ok {s : State} (h : ¬ needsByte (directStep (opStart s.arch))) :
    exec (.rcDirect 1#8) s = .next (completed s (normalised (directStep (opStart s.arch)))
      (.value (signMask (s.arch.code - s.arch.range >>> 1) + 1#32))) := by
  refine exec_rcDirect_ok (by decide) (by decide) (show rcDirect 1 _ = _ from ?_)
  rw [rcDirect_one, rcDirectRound_ok h, mapValue_ok]
  rfl

theorem exec_rcDirect_one_starved {s : State} (h : needsByte (directStep (opStart s.arch))) :
    exec (.rcDirect 1#8) s = .next (starved (.rcDirect 1#8) s (directStep (opStart s.arch))) := by
  refine exec_starved rfl (show answer .value (rcDirect 1) _ = _ from ?_)
  rw [run_answer, rcDirect_one, rcDirectRound_stop h, mapValue_error, mapValue_error]
  rfl

/-- Settles O9: what R103 writes is the state after a round, and later rounds append to the log and shift the bits up. -/
theorem rcDirectRoundsInSequence : Obligations.RcDirectRounds := by
  refine ⟨fun s half diff t code m hhalf hdiff ht hcode hm => ?_, fun n s t u r v h1 h2 hs hr ht hv => ?_⟩
  · have ht : t = signMask (s.arch.code - s.arch.range >>> 1) := by rw [ht, hdiff, hhalf]; rfl
    have hm : m = directStep (opStart s.arch) := by rw [hm, hcode, ht, hdiff, hhalf]; rfl
    rw [hm, ht]
    exact ⟨exec_rcDirect_one_ok, exec_rcDirect_one_starved⟩
  · obtain ⟨hs, hts⟩ := rcDirect_of_exec hs hr
    obtain ⟨ht, hut⟩ := rcDirect_of_exec ht hv
    have hlog : rcDirect n.toNat t.arch = .ok v (logAfter t.arch.decisions u.arch) := by
      have hc := rcDirect_logAfter t.arch.decisions n.toNat (opStart t.arch)
      rwa [logAfter_opStart, ht] at hc
    have hn : (n + 1#8).toNat = n.toNat + 1 := by
      rw [BitVec.toNat_add]
      exact Nat.mod_eq_of_lt (by simp only [BitVec.toNat_ofNat]; omega)
    have hsucc : rcDirect (n + 1#8).toNat (opStart s.arch) =
        .ok ((r <<< n.toNat) + v) (logAfter t.arch.decisions u.arch) := hn ▸ rcDirect_succ hs hlog
    rw [exec_rcDirect_ok (by omega) (by omega) hsucc, hut, hts]
    rfl

end Sys2Proof.Machine
end

section
/-! SUPPORT. The interval (R105, R106): how far a decision and a direct round shrink `range`, that they and the normalisation keep
`code` inside it while the flag is clear, and with them every instruction. With it, O10 and O11. -/

namespace Sys2Proof.Machine

theorem rcBound_toNat (r : Word) (p : Prob) : (rcBound r p).toNat = r.toNat / 2048 * p.toNat := by
  have hr := r.isLt
  have hp := p.isLt
  have hle : r.toNat / 2048 * p.toNat ≤ (2 ^ 21 - 1) * (2 ^ 11 - 1) := Nat.mul_le_mul (by omega) (by omega)
  simp only [rcBound, Config.kNumBitModelTotalBits, BitVec.toNat_mul, BitVec.toNat_ushiftRight, BitVec.toNat_setWidth,
    Nat.shiftRight_eq_div_pow, Nat.reducePow]
  rw [Nat.mod_eq_of_lt (a := p.toNat) (by omega), Nat.mod_eq_of_lt (by omega)]

/-- The bound splits `range` into parts of `p` and `2048 - p` for each 2048 (R102). -/
theorem rcBound_add_le (r : Word) (p : Prob) :
    (rcBound r p).toNat + r.toNat / 2048 * (2048 - p.toNat) ≤ r.toNat := by
  have hp := p.isLt
  rw [rcBound_toNat, ← Nat.mul_add, Nat.add_sub_cancel' (by omega)]
  exact Nat.div_mul_le_self _ _

theorem rcBound_le (r : Word) (p : Prob) : rcBound r p ≤ r :=
  Nat.le_trans (Nat.le_add_right _ _) (rcBound_add_le r p)

/-! ## `code` inside the interval (R106) -/

/-- With the flag clear, `code` is inside the interval. -/
def codeInside (a : Arch) : Prop := a.corrupted = false → a.code < a.range

theorem shiftInByte_lt {c r : Word} (b : Byte) (hr : r < 0x01000000#32) (h : c < r) : shiftInByte c b < r <<< 8 := by
  have hb := b.isLt
  simp only [BitVec.lt_def, BitVec.toNat_ofNat, shiftInByte_toNat, BitVec.toNat_shiftLeft, Nat.shiftLeft_eq] at *
  omega

theorem codeInside_normalised {a : Arch} (h : codeInside a) : codeInside (normalised a) := by
  unfold normalised
  split
  · split
    · exact fun hc => shiftInByte_lt _ ‹_› (h hc)
    · exact h
  · exact h

theorem codeInside_bitStep (k : Nat) {a : Arch} (h : codeInside a) : codeInside (bitStep k a) := by
  intro hc
  have hlt : a.code < a.range := h hc
  have hle := rcBound_le a.range (probRead a.prob k)
  unfold bitStep bitOf
  by_cases hb : a.code < rcBound a.range (probRead a.prob k)
  · simp [hb]
  · simp only [hb, decide_false, Bool.not_false, if_true]
    bv_omega

/-- What a direct round makes of a `code` inside the interval: it stays inside the halved one, or is equal to it (R107). -/
theorem directStep_code_le {a : Arch} (h : a.code < a.range) : (directStep a).code ≤ (directStep a).range := by
  have hhalf : (a.range >>> 1).toNat = a.range.toNat / 2 := by
    rw [BitVec.toNat_ushiftRight, Nat.shiftRight_eq_div_pow]
  have hmsb : (a.code - a.range >>> 1).msb = decide (2 ^ 31 ≤ (a.code - a.range >>> 1).toNat) := BitVec.msb_eq_decide _
  show (a.code - a.range >>> 1) + (a.range >>> 1 &&& signMask (a.code - a.range >>> 1)) ≤ a.range >>> 1
  unfold signMask
  rw [hmsb]
  generalize a.range >>> 1 = half at *
  by_cases hs : 2 ^ 31 ≤ (a.code - half).toNat
  · have hall : half &&& 0xFFFFFFFF#32 = half := BitVec.and_allOnes
    rw [decide_eq_true hs, if_pos rfl, hall]
    bv_omega
  · rw [decide_eq_false hs, if_neg Bool.false_ne_true, BitVec.and_zero, BitVec.add_zero]
    bv_omega

theorem codeInside_directStep {a : Arch} (h : codeInside a) : codeInside (directStep a) := by
  intro hc
  obtain ⟨hold, hne⟩ : a.corrupted = false ∧ (directStep a).code ≠ (directStep a).range := by
    simpa [directStep, corruptedAfterRound] using hc
  exact Nat.lt_of_le_of_ne (directStep_code_le (h hold)) fun he => hne (BitVec.eq_of_toNat_eq he)

/-! ## A normal `range` (R105) -/

/-- Every cell is in 31 to 2017, and `range` is at least 2^24. -/
def rangeNormal (a : Arch) : Prop := a.prob.inRange = true ∧ 0x01000000#32 ≤ a.range

/-- One byte is enough for a range of 2^16 or more. -/
theorem normalised_range {a : Arch} (hn : ¬ needsByte a) (h : 2 ^ 16 ≤ a.range.toNat) :
    0x01000000#32 ≤ (normalised a).range := by
  by_cases hr : a.range < 0x01000000#32
  · cases hb : a.inBytes with
    | nil => exact absurd ⟨hr, hb⟩ hn
    | cons b rest =>
      rw [normalised_cons hr hb]
      simp only [BitVec.lt_def, BitVec.le_def, BitVec.toNat_ofNat, BitVec.toNat_shiftLeft, Nat.shiftLeft_eq] at *
      omega
  · rw [normalised_of_le hr]
    exact BitVec.not_lt.mp hr

@[simp] theorem normalised_prob (a : Arch) : (normalised a).prob = a.prob := by
  unfold normalised
  split
  · split <;> rfl
  · rfl

theorem bitStep_range {k : Nat} {a : Arch} (h : rangeNormal a) : 2 ^ 16 ≤ (bitStep k a).range.toNat := by
  obtain ⟨hp, hr⟩ := h
  obtain ⟨h31, h2017⟩ := probRead_inRange hp k
  have hq : 2 ^ 13 ≤ a.range.toNat / 2048 := by
    simp only [BitVec.le_def, BitVec.toNat_ofNat] at hr
    omega
  have hzero : 2 ^ 13 * 31 ≤ (rcBound a.range (probRead a.prob k)).toNat := by
    rw [rcBound_toNat]
    exact Nat.mul_le_mul hq h31
  have hone : 2 ^ 13 * 31 ≤ a.range.toNat / 2048 * (2048 - (probRead a.prob k).toNat) := Nat.mul_le_mul hq (by omega)
  have hsplit := rcBound_add_le a.range (probRead a.prob k)
  show 2 ^ 16 ≤ (if bitOf k a then a.range - _ else _ : Word).toNat
  split
  · rw [BitVec.toNat_sub_of_le (rcBound_le _ _)]
    omega
  · omega

theorem bitStep_inRange {k : Nat} {a : Arch} (h : a.prob.inRange = true) : (bitStep k a).prob.inRange = true := by
  have hcell := probRead_inRange h k
  refine probWrite_inRange h k ?_
  split
  · exact probDown_inRange hcell
  · exact probUp_inRange hcell

theorem directStep_range {a : Arch} (h : rangeNormal a) : 2 ^ 16 ≤ (directStep a).range.toNat := by
  have hr := h.2
  show 2 ^ 16 ≤ (a.range >>> 1).toNat
  simp only [BitVec.le_def, BitVec.toNat_ofNat, BitVec.toNat_ushiftRight, Nat.shiftRight_eq_div_pow] at *
  omega

/-! ## What a step leaves -/

/-- What the operation of an instruction leaves is what the step leaves, where taking an error does not matter. -/
theorem exec_leaves {P : Arch → Prop} {i : Instr} {s t : State} (h : exec i s = .next t)
    (hrefused : allowed i s.arch = false → P s.arch) (herr : ∀ c a, P a → P (takeError c a))
    (hop : P (endState (opOf i s.arch (opStart s.arch)))) : P t.arch := by
  rcases exec_next_cases h with ⟨ha, rfl⟩ | ⟨-, ⟨r, b, ho, rfl⟩ | ⟨b, ho, rfl⟩ | ⟨c, b, ho, rfl⟩⟩
  · exact hrefused ha
  all_goals rw [ho] at hop
  · exact hop
  · exact hop
  · exact herr c b hop

/-! ## RC.INIT and the preamble establish it (R100) -/

theorem code_lt_of_not_corruptedAtInit {b0 : Byte} {code : Word}
    (h : corruptedAtInit b0 code 0xFFFFFFFF#32 = false) : code < 0xFFFFFFFF#32 := by
  have hne : code ≠ 0xFFFFFFFF#32 := fun hc => by simp [corruptedAtInit, hc] at h
  bv_omega

/-- Fewer than four bytes shifted in do not fill `code`. -/
theorem foldl_shiftInByte_lt (bs : List Byte) {c : Word} {n : Nat} (h : c.toNat < 256 ^ n) :
    (bs.foldl shiftInByte c).toNat < 256 ^ (n + bs.length) := by
  induction bs generalizing c n with
  | nil => exact h
  | cons b bs ih =>
    have hb := b.isLt
    have hstep : (shiftInByte c b).toNat < 256 ^ (n + 1) := by
      rw [shiftInByte_toNat, Nat.pow_succ]
      omega
    rw [List.length_cons, ← Nat.add_assoc, Nat.add_right_comm]
    exact ih hstep

theorem eq_cons_of_five_le_length {l : List α} (h : 5 ≤ l.length) :
    ∃ x0 x1 x2 x3 x4 rest, l = x0 :: x1 :: x2 :: x3 :: x4 :: rest :=
  match l, h with
  | x0 :: x1 :: x2 :: x3 :: x4 :: rest, _ => ⟨x0, x1, x2, x3, x4, rest, rfl⟩

theorem rcInit_leaves_codeInside : Leaves (fun _ => True) rcInit codeInside := by
  intro a _ hc
  by_cases h : a.inBytes.length < 5
  · rw [rcInit_short h]
    have hfold := foldl_shiftInByte_lt (a.inBytes.drop 1) (c := 0#32) (n := 0) (by decide)
    have hpow : 256 ^ (0 + (a.inBytes.drop 1).length) ≤ 256 ^ 3 :=
      Nat.pow_le_pow_right (by decide) (by rw [List.length_drop]; omega)
    have hones : 256 ^ 3 ≤ (0xFFFFFFFF#32).toNat := by decide
    exact Nat.lt_of_lt_of_le hfold (Nat.le_trans hpow hones)
  · obtain ⟨b0, b1, b2, b3, b4, rest, hb⟩ := eq_cons_of_five_le_length (Nat.not_lt.mp h)
    rw [rcInit_enough hb] at hc ⊢
    exact code_lt_of_not_corruptedAtInit hc

theorem rcPreamble_leaves_codeInside (z : Byte) (c : Word) : Leaves (fun _ => True) (rcPreamble z c) codeInside :=
  fun _ _ hc => code_lt_of_not_corruptedAtInit hc

/-! ## Every other operation keeps it (R106) -/

theorem rcNorm_preserves_codeInside : Preserves codeInside rcNorm := by
  intro a ha
  by_cases h : needsByte a
  · rw [rcNorm_stop h]
    exact ha
  · rw [rcNorm_ok h]
    exact codeInside_normalised ha

theorem rcBit_preserves_codeInside (k : Nat) : Preserves codeInside (rcBit k) :=
  rcBit_preserves (fun _ => codeInside_bitStep k) fun _ => codeInside_normalised

theorem directRound_preserves_codeInside : Preserves codeInside rcDirectRound :=
  rcDirectRound_preserves (fun _ => codeInside_directStep) fun _ => codeInside_normalised

theorem dwGet_preserves_codeInside (d : Nat) : Preserves codeInside (dwGet d) :=
  (dwGet_keeps (fun _ _ => rfl) d : Keeps codeInside (dwGet d)).preserves id

theorem dwPut_preserves_codeInside (b : Byte) : Preserves codeInside (dwPut b) :=
  (dwPut_keeps (fun _ _ _ _ _ _ _ => rfl) b : Keeps codeInside (dwPut b)).preserves id

theorem spendBudget_preserves_codeInside (n : Nat) : Preserves codeInside (spendBudget n) :=
  Preserves.modify fun a h => by split <;> exact h

theorem hdrSize_preserves_codeInside (v : DWord) : Preserves codeInside (hdrSize v) :=
  Preserves.modify fun a h => by split <;> exact h

theorem hdrParse_preserves_codeInside : Preserves codeInside hdrParse :=
  hdrParse_closed (preserves_closed codeInside) ((inByte_keeps fun _ _ _ => rfl : Keeps codeInside inByte).preserves id)
    (fun _ _ _ => .modify fun _ h => h) (fun _ => .modify fun _ h => h) hdrSize_preserves_codeInside
    fun _ => .modify fun _ h => h

theorem finish_preserves_codeInside (st : Status) : Preserves codeInside (finish st) :=
  finish_closed (preserves_closed codeInside).toClosed (.modify fun _ h => h) (fun _ => .modify fun _ h => h) st

theorem lenDec_preserves_codeInside (inst : LenInst) (ps : BitVec 4) : Preserves codeInside (lenDec inst ps) :=
  lenDec_closed (preserves_closed codeInside).toClosed fun k _ => rcBit_preserves_codeInside k

theorem distTail_preserves_codeInside (slot : Nat) : Preserves codeInside (distTail slot) :=
  distTail_closed (preserves_closed codeInside).toClosed (fun k _ => rcBit_preserves_codeInside k)
    directRound_preserves_codeInside

theorem distDec_preserves_codeInside (len : Nat) : Preserves codeInside (distDec len) :=
  distDec_closed (preserves_closed codeInside).toClosed (fun k _ => rcBit_preserves_codeInside k)
    directRound_preserves_codeInside

theorem litDec_preserves_codeInside : Preserves codeInside litDec :=
  litDec_closed (preserves_closed codeInside) (fun k _ => rcBit_preserves_codeInside k) dwGet_preserves_codeInside
    dwPut_preserves_codeInside

theorem copyTail_preserves_codeInside (len : Nat) : Preserves codeInside (copyTail len) :=
  copyTail_closed (preserves_closed codeInside) dwGet_preserves_codeInside dwPut_preserves_codeInside
    spendBudget_preserves_codeInside len

theorem symLit_preserves_codeInside : Preserves codeInside symLit :=
  symLit_closed (preserves_closed codeInside) litDec_preserves_codeInside (.modify fun _ h => h)
    spendBudget_preserves_codeInside

theorem symMatch_preserves_codeInside (ps : BitVec 4) : Preserves codeInside (symMatch ps) :=
  symMatch_closed (preserves_closed codeInside) (.modify fun _ h => h) (lenDec_preserves_codeInside .len)
    (.modify fun _ h => h) distDec_preserves_codeInside (fun _ => .modify fun _ h => h)
    (matchTail_closed (preserves_closed codeInside) finish_preserves_codeInside copyTail_preserves_codeInside) ps

theorem symShortrep_preserves_codeInside : Preserves codeInside symShortrep :=
  symShortrep_closed (preserves_closed codeInside) (.modify fun _ h => h) dwGet_preserves_codeInside
    dwPut_preserves_codeInside spendBudget_preserves_codeInside

theorem repTail_preserves_codeInside (ps : BitVec 4) : Preserves codeInside (repTail ps) :=
  repTail_closed (preserves_closed codeInside) (lenDec_preserves_codeInside .rep) (.modify fun _ h => h)
    copyTail_preserves_codeInside ps

theorem symRep1_preserves_codeInside (ps : BitVec 4) : Preserves codeInside (symRep1 ps) :=
  Preserves.bind (.modify fun _ h => h) fun _ => repTail_preserves_codeInside ps

theorem symRep2_preserves_codeInside (ps : BitVec 4) : Preserves codeInside (symRep2 ps) :=
  Preserves.bind (.modify fun _ h => h) fun _ => repTail_preserves_codeInside ps

theorem symRep3_preserves_codeInside (ps : BitVec 4) : Preserves codeInside (symRep3 ps) :=
  Preserves.bind (.modify fun _ h => h) fun _ => repTail_preserves_codeInside ps

theorem mainStep_preserves_codeInside : Preserves codeInside mainStep :=
  mainStep_closed (preserves_closed codeInside) rcBit_preserves_codeInside (fun _ => .modify fun _ h => h)
    (.modify fun _ h => h) finish_preserves_codeInside symLit_preserves_codeInside symMatch_preserves_codeInside
    fun st ps => repFamily_closed (preserves_closed codeInside) rcBit_preserves_codeInside ps
      (repTail_preserves_codeInside ps) (symRep1_preserves_codeInside ps) (symRep2_preserves_codeInside ps)
      (symRep3_preserves_codeInside ps) symShortrep_preserves_codeInside st

theorem Preserves.answerDone {P : Arch → Prop} {op : Op Unit} (h : Preserves P op) : Preserves P (answerDone op) :=
  h.bind fun _ => Preserves.pure _

theorem slotRow_preserves_codeInside {i : Instr} {slot : Nat} (a : Arch) (h : rowSlot i = some slot) :
    Preserves codeInside (opOf i a) := by
  rw [(op_of_rowSlot h a).2]
  exact (distTail_preserves_codeInside slot).answer

/-- However it ends, an instruction's operation leaves `code` inside the interval or the flag set. -/
theorem opOf_preserves_codeInside (i : Instr) (a : Arch) : Preserves codeInside (opOf i a) := by
  have c := preserves_closed codeInside
  have hbit := rcBit_preserves_codeInside
  cases i
  case rcInit => exact Preserves.answerDone fun a _ => rcInit_leaves_codeInside a trivial
  case fmtRcpre z v => exact Preserves.answerDone fun a _ => rcPreamble_leaves_codeInside z v a trivial
  case rcNorm => exact rcNorm_preserves_codeInside.answerDone
  case rcBit => exact (hbit _).answer
  case rcDirect => exact (rcDirect_closed c.toClosed directRound_preserves_codeInside _).answer
  case btFwd => exact (btFwd_closed c.toClosed fun k _ _ => hbit k).answer
  case btRev => exact (btRev_closed c.toClosed fun k _ _ => hbit k).answer
  case lenDec => exact (lenDec_preserves_codeInside _ _).answer
  case dwCreate => exact (dwCreate_closed c (.modify fun _ h => h)).answerDone
  case dwPut => exact (dwPut_preserves_codeInside _).answerDone
  case dwGet => exact (dwGet_preserves_codeInside _).answer
  case dwCopy => exact (dwCopy_closed c.toClosed (dwGet_preserves_codeInside _) dwPut_preserves_codeInside _).answerDone
  case litDec => exact litDec_preserves_codeInside.answer
  case distDec => exact (distDec_preserves_codeInside _).answer
  case hdrParse => exact hdrParse_preserves_codeInside.answerDone
  case decInit => exact (decInit_closed c (fun _ => .modify fun _ h => h) (.modify fun _ h => h)).answerDone
  case mainStep => exact mainStep_preserves_codeInside.answer
  case fmtProps => exact (hdrProps_closed c (fun _ _ _ => .modify fun _ h => h) _).answerDone
  case fmtSize => exact (hdrSize_preserves_codeInside _).answerDone
  case symLit => exact symLit_preserves_codeInside.answer
  case symMatch => exact (symMatch_preserves_codeInside _).answer
  case symEos => exact (symEos_closed c finish_preserves_codeInside).answer
  case symShortrep => exact symShortrep_preserves_codeInside.answer
  case symRep0 => exact (repTail_preserves_codeInside _).answer
  case symRep1 => exact (symRep1_preserves_codeInside _).answer
  case symRep2 => exact (symRep2_preserves_codeInside _).answer
  case symRep3 => exact (symRep3_preserves_codeInside _).answer
  case codeLengthLow => exact (lengthLow_closed c.toClosed fun k _ => hbit k).answer
  case codeLengthMid => exact (lengthMid_closed c.toClosed fun k _ => hbit k).answer
  case codeLengthHigh => exact (lengthHigh_closed c.toClosed fun k _ => hbit k).answer
  case rcFinok | dwChk | dwEmpty | dwFlush | stLit | stMatch | stRep | stShortrep | start | fmtDictSize =>
    exact fun _ h => h
  all_goals exact slotRow_preserves_codeInside a rfl

/-- Settles O10: RC.INIT leaves `code` inside the interval or the flag set from any state, and no operation moves it out with
the flag clear. -/
theorem codeStaysBelowRange : Obligations.CodeStaysBelowRange := by
  have herr : ∀ c a, codeInside a → codeInside (takeError c a) := fun _ _ h => h
  refine ⟨fun s t h => ?_, fun i s t hs h => ?_⟩
  · have hop : codeInside (endState (rcInit (opStart s.arch))) := rcInit_leaves_codeInside _ trivial
    refine exec_leaves (P := codeInside) h (fun ha => (by cases ha)) herr ?_
    show codeInside (endState (answerDone rcInit _))
    rwa [run_answerDone, endState_mapValue]
  · exact exec_leaves (P := codeInside) h (fun _ => hs) herr (opOf_preserves_codeInside i s.arch _ hs)

/-! ## What completes leaves `range` normalised (R105) -/

/-- What a completed operation leaves true if it was. -/
theorem yields_closed (P : Arch → Prop) : ClosedGet (fun {_} op => Yields P op fun _ => P) where
  pure _ := Yields.pure fun _ h => h
  bind := Yields.bind
  getBind _ hf := Preserves.get.before hf
  raise _ _ _ _ := fun _ _ _ _ h => (by cases h)

theorem rcNorm_yields_range : Yields rangeNormal rcNorm fun _ => rangeNormal := by
  intro a _ b ha h
  have hn : ¬ a.range < 0x01000000#32 := BitVec.not_lt.mpr ha.2
  rw [rcNorm_ok fun h => hn h.1, normalised_of_le hn] at h
  cases h
  exact ha

theorem rcBit_yields_range (k : Nat) : Yields rangeNormal (rcBit k) fun _ => rangeNormal := by
  intro a _ b ha h
  by_cases hn : needsByte (bitStep k a)
  · rw [rcBit_stop hn] at h
    cases h
  · rw [rcBit_ok hn] at h
    cases h
    refine ⟨?_, normalised_range hn (bitStep_range ha)⟩
    rw [normalised_prob]
    exact bitStep_inRange ha.1

theorem directRound_yields_range : Yields rangeNormal rcDirectRound fun _ => rangeNormal := by
  intro a _ b ha h
  by_cases hn : needsByte (directStep a)
  · rw [rcDirectRound_stop hn] at h
    cases h
  · rw [rcDirectRound_ok hn] at h
    cases h
    refine ⟨?_, normalised_range hn (directStep_range ha)⟩
    rw [normalised_prob]
    exact ha.1

theorem rangeNormal_primitives : Primitives (fun {_} op => Yields rangeNormal op fun _ => rangeNormal) where
  inByte := ((inByte_keeps fun _ _ _ => rfl : Keeps rangeNormal inByte).preserves id).yields
  rcNorm := rcNorm_yields_range
  rcBit := rcBit_yields_range
  directRound := directRound_yields_range
  rcInitClear := .modify fun _ h => ⟨h.1, (by decide : 0x01000000#32 ≤ 0xFFFFFFFF#32)⟩
  shiftIn _ := .modify fun _ h => h
  rcInitFlag _ := .modify fun _ h => h
  setCode _ := .modify fun _ h => h
  dwPut b := ((dwPut_keeps (fun _ _ _ _ _ _ _ => rfl) b : Keeps rangeNormal (dwPut b)).preserves id).yields
  dwGet d := ((dwGet_keeps (fun _ _ => rfl) d : Keeps rangeNormal (dwGet d)).preserves id).yields
  dwFlush := .modify fun _ h => h
  newWindow _ := .modify fun _ h => h
  stLit := .modify fun _ h => h
  stMatch := .modify fun _ h => h
  stRep := .modify fun _ h => h
  stShortrep := .modify fun _ h => h
  rotateReps := .modify fun _ h => h
  setRep0 _ := .modify fun _ h => h
  toFront1 := .modify fun _ h => h
  toFront2 := .modify fun _ h => h
  toFront3 := .modify fun _ h => h
  spendBudget _ := .modify fun _ h => by split <;> exact h
  endLoop _ := .modify fun _ h => h
  setPhase _ := .modify fun _ h => h
  setProps _ _ _ := .modify fun _ h => h
  hdrDictSize _ := .modify fun _ h => h
  hdrSize _ := .modify fun _ h => by split <;> exact h
  freshDecoder := .modify fun _ h => ⟨rfl, h.2⟩
  startDecode := .modify fun _ h => h

/-- Settles O11: a decision and a round leave a range that one byte normalises, and nothing else but RC.INIT writes it. -/
theorem rangeStaysNormalised : Obligations.RangeStaysNormalised := by
  intro i s t hp hr h hheld hne
  have hop := opOf_closed (yields_closed rangeNormal) rangeNormal_primitives i s.arch
  rcases exec_next_cases h with ⟨-, rfl⟩ | ⟨-, ⟨r, b, ho, rfl⟩ | ⟨b, -, rfl⟩ | ⟨c, b, -, rfl⟩⟩
  · exact hr
  · exact (hop (opStart s.arch) r b ⟨hp, hr⟩ ho).2
  · cases hheld
  · exact absurd rfl hne

end Sys2Proof.Machine
end

section
/-! SUPPORT. Trees of decisions told by the final node (R120 to R122): the node `i + 1` decisions above the final node `r` is
`r / 2^(i+1)`, and bit `i` of `r` is the decision taken there. With it, O12 and O13. -/

namespace Sys2Proof.Machine

/-! ## The bits of a number -/

theorem bitsMSB_congr {n v w : Nat} (h : ∀ i < n, v.testBit i = w.testBit i) : bitsMSB n v = bitsMSB n w := by
  induction n with
  | zero => rfl
  | succ n ih =>
    unfold bitsMSB
    rw [h n (Nat.lt_succ_self n), ih fun i hi => h i (Nat.lt_succ_of_lt hi)]

/-- The leading 1 of a final node is above its value's bits. -/
theorem bitsMSB_two_pow_add (n v : Nat) : bitsMSB n (2 ^ n + v) = bitsMSB n v :=
  bitsMSB_congr fun _ hi => Nat.testBit_two_pow_add_gt hi v

/-- The node `n - j` decisions above the final node of `v` is a leading 1 followed by `j` bits of `v` (R120). -/
theorem two_pow_add_div {n j : Nat} (v : Nat) (hj : j ≤ n) :
    (2 ^ n + v) / 2 ^ (n - j) = 2 ^ j + v / 2 ^ (n - j) := by
  have hsplit : 2 ^ n = 2 ^ j * 2 ^ (n - j) := by rw [← Nat.pow_add, Nat.add_sub_cancel' hj]
  rw [hsplit, Nat.add_comm, Nat.add_mul_div_right _ _ (Nat.two_pow_pos _), Nat.add_comm]

/-! ## One decision -/

/-- A cell after the decision `bit` (R102). -/
def moved (bit : Bool) (p : Prob) : Prob := if bit then probDown p else probUp p

theorem bitStep_prob (k : Nat) (a : Arch) :
    (bitStep k a).prob = probWrite a.prob k (moved (bitOf k a) (probRead a.prob k)) := rfl

@[simp] theorem normalised_decisions (a : Arch) : (normalised a).decisions = a.decisions := by
  unfold normalised
  split
  · split <;> rfl
  · rfl

/-- A decision that completes is the one its cell gives, and leaves the normalised state (R102). -/
theorem rcBit_eq_ok {k : Nat} {a b : Arch} {bit : Bool} (h : rcBit k a = .ok bit b) :
    bit = bitOf k a ∧ b = normalised (bitStep k a) := by
  by_cases hn : needsByte (bitStep k a)
  · rw [rcBit_stop hn] at h
    cases h
  · rw [rcBit_ok hn] at h
    cases h
    exact ⟨rfl, rfl⟩

/-! ## The forward walk -/

/-- A walk that completes took its first decision at its node and went on from the child. -/
theorem btWalk_succ_eq_ok {T n m r : Nat} {a c : Arch} (h : btWalk T (n + 1) m a = .ok r c) :
    btWalk T n (2 * m + (bitOf (T + m) a).toNat) (normalised (bitStep (T + m) a)) = .ok r c := by
  obtain ⟨bit, b, hbit, hrest⟩ := bind_ok_iff.mp h
  obtain ⟨rfl, rfl⟩ := rcBit_eq_ok hbit
  exact hrest

/-- A walk ends below the node it began at. -/
theorem btWalk_node {T n m r : Nat} {a c : Arch} (h : btWalk T n m a = .ok r c) : r / 2 ^ n = m := by
  induction n generalizing m a with
  | zero =>
    cases h
    exact Nat.div_one _
  | succ n ih =>
    have hchild := ih (btWalk_succ_eq_ok h)
    have hbit := Bool.toNat_le (bitOf (T + m) a)
    rw [Nat.pow_succ, ← Nat.div_div_eq_div_mul, hchild]
    omega

/-- Where the walk goes down from a node is a bit of the node it ends at. -/
theorem testBit_of_child {n m r : Nat} {bit : Bool} (h : r / 2 ^ n = 2 * m + bit.toNat) : r.testBit n = bit := by
  rw [Nat.testBit_eq_decide_div_mod_eq, h]
  cases bit <;> simp

theorem btWalk_decisions {T n m r : Nat} {a c : Arch} (h : btWalk T n m a = .ok r c) :
    c.decisions = a.decisions ++ bitsMSB n r := by
  induction n generalizing m a with
  | zero =>
    cases h
    exact (List.append_nil _).symm
  | succ n ih =>
    have hrest := btWalk_succ_eq_ok h
    rw [ih hrest, normalised_decisions, bitsMSB, testBit_of_child (btWalk_node hrest)]
    exact List.append_assoc a.decisions [_] _

/-- From `p` to `q` the `n` cells above the final node `r` of the tree based at `T` move by their decisions (R102), and no
other cell changes. -/
structure AdaptsPath (T n r : Nat) (p q : ProbMem) : Prop where
  visited : ∀ i < n, probRead q (T + r / 2 ^ (i + 1)) = moved (r.testBit i) (probRead p (T + r / 2 ^ (i + 1)))
  unvisited : ∀ k, (∀ i < n, k ≠ T + r / 2 ^ (i + 1)) → probRead q k = probRead p k

/-- The root's cell moves first: the path below does not come back to it, for its nodes are numbered higher. -/
theorem AdaptsPath.cons {T n r m : Nat} {p q : ProbMem} (hp : ProbMem.wf p = true) (hm : 0 < m)
    (hroot : r / 2 ^ (n + 1) = m)
    (h : AdaptsPath T n r (probWrite p (T + m) (moved (r.testBit n) (probRead p (T + m)))) q) :
    AdaptsPath T (n + 1) r p q := by
  have hbelow : ∀ i < n, T + r / 2 ^ (i + 1) ≠ T + m := by
    intro i hi
    have hchild : r / 2 ^ n ≤ r / 2 ^ (i + 1) :=
      Nat.div_le_div_left (Nat.pow_le_pow_right (by decide) hi) (Nat.two_pow_pos _)
    rw [Nat.pow_succ, ← Nat.div_div_eq_div_mul] at hroot
    omega
  refine ⟨fun i hi => ?_, fun k hk => ?_⟩
  · rcases Nat.lt_succ_iff_lt_or_eq.mp hi with hlt | rfl
    · rw [h.visited i hlt, probRead_probWrite_other hp (hbelow i hlt)]
    · rw [hroot, h.unvisited _ fun j hj => (hbelow j hj).symm, probRead_probWrite_same hp]
  · have hne : k ≠ T + m := hroot ▸ hk n (Nat.lt_succ_self n)
    rw [h.unvisited k fun i hi => hk i (Nat.lt_succ_of_lt hi), probRead_probWrite_other hp hne]

theorem btWalk_adapts {T n m r : Nat} {a c : Arch} (hm : 0 < m) (hwf : ProbMem.wf a.prob = true)
    (h : btWalk T n m a = .ok r c) : AdaptsPath T n r a.prob c.prob := by
  induction n generalizing m a with
  | zero =>
    cases h
    exact ⟨fun i hi => absurd hi (Nat.not_lt_zero i), fun _ _ => rfl⟩
  | succ n ih =>
    have hrest := btWalk_succ_eq_ok h
    have hchild : 0 < 2 * m + (bitOf (T + m) a).toNat := by omega
    have hpath := ih hchild (by rw [normalised_prob]; exact probWrite_wf hwf _ _) hrest
    rw [normalised_prob, bitStep_prob, ← testBit_of_child (btWalk_node hrest)] at hpath
    exact hpath.cons hwf hm (btWalk_node h)

/-! ## BT.FWD and BT.REV -/

/-- BT.FWD answers the final node less its leading 1 (R121). -/
theorem btFwd_eq_ok {T n v : Nat} {a c : Arch} (h : btFwd T n a = .ok v c) :
    v < 2 ^ n ∧ btWalk T n 1 a = .ok (2 ^ n + v) c := by
  obtain ⟨r, b, hwalk, hval⟩ := bind_ok_iff.mp h
  cases hval
  have hpos := Nat.two_pow_pos n
  obtain ⟨hlow, hhigh⟩ := (Nat.div_eq_iff hpos).mp (btWalk_node hwalk)
  rw [Nat.one_mul] at hlow
  refine ⟨by omega, ?_⟩
  rw [Nat.add_sub_cancel' hlow]
  exact hwalk

theorem btFwd_decisions {T n v : Nat} {a c : Arch} (h : btFwd T n a = .ok v c) :
    c.decisions = a.decisions ++ bitsMSB n v := by
  rw [btWalk_decisions (btFwd_eq_ok h).2, bitsMSB_two_pow_add]

/-- The `n` nodes BT.FWD visits move by the bits of its value (R121). -/
theorem btFwd_visited {T n v j : Nat} {a c : Arch} (hwf : ProbMem.wf a.prob = true) (h : btFwd T n a = .ok v c)
    (hj : j < n) : probRead c.prob (T + (2 ^ j + v / 2 ^ (n - j))) =
      moved (v.testBit (n - 1 - j)) (probRead a.prob (T + (2 ^ j + v / 2 ^ (n - j)))) := by
  have hpath := (btWalk_adapts Nat.one_pos hwf (btFwd_eq_ok h).2).visited (n - 1 - j) (by omega)
  have hheight : n - 1 - j + 1 = n - j := by omega
  rwa [hheight, two_pow_add_div v (Nat.le_of_lt hj), Nat.testBit_two_pow_add_gt (by omega)] at hpath

/-- Every cell but those of the visited nodes is as it was (R121). -/
theorem btFwd_unvisited {T n v k : Nat} {a c : Arch} (hwf : ProbMem.wf a.prob = true) (h : btFwd T n a = .ok v c)
    (hk : ∀ j < n, k ≠ T + (2 ^ j + v / 2 ^ (n - j))) : probRead c.prob k = probRead a.prob k := by
  refine (btWalk_adapts Nat.one_pos hwf (btFwd_eq_ok h).2).unvisited k fun i hi => ?_
  have hnode := hk (n - 1 - i) (by omega)
  have hheight : n - (n - 1 - i) = i + 1 := by omega
  rwa [← two_pow_add_div v (by omega), hheight] at hnode

/-- The reverse walk is the forward walk, however it ends; its bits go above the `i` bits of `sym` (R122). -/
theorem btRevWalk_eq (T n : Nat) {i sym : Nat} (m : Nat) (a : Arch) (hsym : sym < 2 ^ i) :
    btRevWalk T n i m sym a = mapValue (fun r => sym + 2 ^ i * ofBitsLSB (bitsMSB n r)) (btWalk T n m a) := by
  induction n generalizing i m sym a with
  | zero => rfl
  | succ n ih =>
    unfold btRevWalk btWalk
    cases hbit : rcBit (T + m) a with
    | error e b => rw [run_bind_error hbit, run_bind_error hbit, mapValue_error]
    | ok bit b =>
      have hadd : sym ||| (bit.toNat <<< i) = sym + 2 ^ i * bit.toNat := by
        rw [Nat.or_comm, ← Nat.shiftLeft_add_eq_or_of_lt hsym, Nat.shiftLeft_eq, Nat.add_comm, Nat.mul_comm]
      have hlt : sym + 2 ^ i * bit.toNat < 2 ^ (i + 1) := by
        have hle := Nat.mul_le_mul_left (2 ^ i) (Bool.toNat_le bit)
        rw [Nat.pow_succ]
        omega
      rw [run_bind_ok hbit, run_bind_ok hbit, hadd, ih _ _ hlt]
      cases hwalk : btWalk T n (2 * m + bit.toNat) b with
      | error e c => rfl
      | ok r c =>
        rw [mapValue_ok, mapValue_ok, bitsMSB, testBit_of_child (btWalk_node hwalk), ofBitsLSB]
        rw [Nat.mul_add, Nat.pow_succ, Nat.mul_assoc, Nat.add_assoc]

/-- BT.REV is BT.FWD with its value's `n` bits in the other order, however it ends (R122). -/
theorem btRev_eq (T n : Nat) (a : Arch) :
    btRev T n a = mapValue (fun v => ofBitsLSB (bitsMSB n v)) (btFwd T n a) := by
  unfold btRev
  rw [btRevWalk_eq T n 1 a (by decide)]
  cases hwalk : btWalk T n 1 a with
  | error e c =>
    unfold btFwd
    rw [run_bind_error hwalk]
    rfl
  | ok r c =>
    have hfwd : btFwd T n a = .ok (r - 2 ^ n) c := run_bind_ok hwalk
    have hnode := (btFwd_eq_ok hfwd).2
    rw [hwalk] at hnode
    injection hnode with hr
    rw [hfwd, mapValue_ok, mapValue_ok, Nat.pow_zero, Nat.one_mul, Nat.zero_add, ← bitsMSB_two_pow_add n (r - 2 ^ n), ← hr]

/-! ## The instructions -/

/-- BT.FWD on a tree that exists completes with `n` bytes at hand, and answers a value of `n` bits (R121). -/
theorem exec_btFwd {T : ProbAddr} {n : Byte} {s : State} (hT : T.treeWf n = true) (hn : n.toNat ≤ s.arch.inBytes.length) :
    ∃ v c, btFwd (cellOf T) n.toNat (opStart s.arch) = .ok v c ∧ v < 2 ^ n.toNat ∧
      exec (.btFwd T n) s = .next (completed s c (valueOf v)) := by
  obtain ⟨v, c, hop, -, hv⟩ := btFwd_completes (cellOf T) n.toNat (opStart s.arch) hn
  refine ⟨v, c, hop, hv, exec_ok hT (show answer valueOf (btFwd (cellOf T) n.toNat) _ = _ from ?_)⟩
  rw [run_answer, hop, mapValue_ok]

/-- Settles O12: the value is the final node less its leading 1, and the walk went down its bits. -/
theorem btFwdWalksTree : Obligations.BtFwdWalksTree := by
  intro T n s hT hn hwf
  have hprob : ProbMem.wf (opStart s.arch).prob = true := (Bool.and_eq_true_iff.mp hwf).2
  obtain ⟨v, c, hop, hv, hexec⟩ := exec_btFwd hT hn
  refine ⟨_, v, hexec, rfl, rfl, hv, btFwd_decisions hop, fun j hj => ?_, fun k hk => (btFwd_unvisited hprob hop hk :)⟩
  rw [← adapted_eq]
  exact (btFwd_visited hprob hop hj :)

/-- Settles O13: both operations end in the same state, and the value's bits come in the other order (`btRev_eq`). -/
theorem btRevReversesBtFwd : Obligations.BtRevReversesBtFwd := by
  intro T n s hT hn
  obtain ⟨v, c, hop, hv, hexec⟩ := exec_btFwd hT hn
  refine ⟨_, v, hexec, rfl, hv, exec_ok hT (show answer valueOf (btRev (cellOf T) n.toNat) _ = _ from ?_)⟩
  rw [run_answer, btRev_eq, hop, mapValue_ok, mapValue_ok]
  rfl

end Sys2Proof.Machine
end

section
/-! SUPPORT. DW.CREATE and DW.PUT as instructions, and DW.COPY as gets and puts (R141, R142, R144). What makes an overlapping copy
read its own bytes: the cells behind the cursor hold the end of the output, and a put keeps that so. With it, O21, O22, O24
and O25. -/

namespace Sys2Proof.Machine

/-! ## DW.CREATE (R141, R251) -/

theorem overCap_eq_true_iff {a : Arch} {n : Word} : overCap a n = true ↔ ∃ c, a.params.dictCap = some c ∧ c < n := by
  unfold overCap
  cases a.params.dictCap <;> simp

theorem dwCreate_ok {n : Word} {a : Arch} (h : overCap a n = false) : dwCreate n a = .ok () (newWindow n a) := by
  unfold dwCreate
  rw [run_get_bind, h]
  rfl

theorem dwCreate_raise {n : Word} {a : Arch} (h : overCap a n = true) : dwCreate n a = .error (.raise .dictTooLarge) a := by
  unfold dwCreate
  rw [run_get_bind, h]
  rfl

/-- An instruction whose operation raises a cause fails with it (R240). -/
theorem exec_raise {i : Instr} {s : State} {c : Cause} {b : Arch} (ha : allowed i s.arch = true)
    (ho : opOf i s.arch (opStart s.arch) = .error (.raise c) b) : exec i s = .next (failed s c b) :=
  (exec_of_allowed ha).trans (runOp_raise ho)

/-- Settles O21: the limit is tested first, and what passes it is a new window. -/
theorem dwCreateMakesEmptyWindow : Obligations.DwCreateMakesEmptyWindow := by
  intro n s hn
  have ha : allowed (.dwCreate n) s.arch = true := decide_eq_true hn
  refine ⟨fun hcap => ?_, fun c hc hlt => ?_⟩
  · have hfree : overCap (opStart s.arch) n = false := by
      refine eq_false_of_ne_true fun h => ?_
      obtain ⟨c, hc, hlt⟩ := overCap_eq_true_iff.mp h
      exact absurd (hcap c hc) (BitVec.not_le.mpr hlt)
    refine exec_ok ha (show answerDone (dwCreate n) _ = _ from ?_)
    rw [run_answerDone, dwCreate_ok hfree]
    rfl
  · have hover : overCap (opStart s.arch) n = true := overCap_eq_true_iff.mpr ⟨c, hc, hlt⟩
    refine exec_raise ha (show answerDone (dwCreate n) _ = _ from ?_)
    rw [run_answerDone, dwCreate_raise hover]
    rfl

/-! ## DW.PUT (R142) -/

theorem putStep_isFull_ite (b : Byte) (a : Arch) :
    (putStep b a).isFull = if a.pos + 1#32 = a.size then true else a.isFull := by
  rw [putStep_isFull]
  split <;> simp [*]

/-- Settles O22: the fields a put writes (`putStep_eq`), and the cell among them. -/
theorem dwPutAppendsByte : Obligations.DwPutAppendsByte := by
  intro b s buf hbuf
  refine ⟨?_, fun hp => ?_⟩
  · rw [exec_dwPut, putStep_eq, putStep_pos, putStep_isFull_ite, hbuf]
    rfl
  · rw [hbuf, if_pos hp]
    exact ⟨dictRead_dictWrite_same _ _ _, fun x hx => dictRead_dictWrite_other _ hx _⟩

/-- A put recovers no decision. -/
theorem opStart_putStep (b : Byte) (a : Arch) : opStart (putStep b a) = putStep b (opStart a) := by
  rw [putStep_eq b a, putStep_eq b (opStart a)]
  simp only [putStep_pos, putStep_isFull]
  rfl

/-! ## DW.COPY as gets and puts (R144) -/

theorem dwCopy_succ {dist : Nat} {a c : Arch} {b : Byte} (h : dwGet dist a = .ok b c) (n : Nat) :
    dwCopy dist (n + 1) a = dwCopy dist n (putStep b c) := by
  show (dwGet dist >>= fun b => dwPut b >>= fun _ => dwCopy dist n) a = _
  rw [run_bind_ok h, run_bind_ok (dwPut_ok b c)]

/-- DW.COPY inside its domain ends as its operation does (R149). -/
theorem exec_dwCopy {dist len : Word} {s : State} {c : Arch} (h1 : 1 ≤ dist.toNat) (h2 : dist.toNat ≤ s.arch.size.toNat)
    (h : dwCopy dist.toNat len.toNat (opStart s.arch) = .ok () c) :
    exec (.dwCopy dist len) s = .next (completed s c .done) := by
  have ha : lookbackOk s.arch dist.toNat = true := decide_eq_true ⟨h1, h2⟩
  refine exec_ok ha (show answerDone (dwCopy dist.toNat len.toNat) _ = _ from ?_)
  rw [run_answerDone, h, mapValue_ok]

/-- An answer of DW.GET that is a byte is the one its operation read, inside the domain (R143, R149). -/
theorem exec_dwGet_byte {dist : Word} {s t : State} {b : Byte} (h : exec (.dwGet dist) s = .next t)
    (hb : t.response = .byte b) : 1 ≤ dist.toNat ∧ dist.toNat ≤ s.arch.size.toNat ∧
      ∃ m, dwGet dist.toNat (opStart s.arch) = .ok b { opStart s.arch with fillReads := m } ∧
        t = completed s { opStart s.arch with fillReads := m } (.byte b) := by
  by_cases hd : 1 ≤ dist.toNat ∧ dist.toNat ≤ s.arch.size.toNat
  · obtain ⟨h1, h2⟩ := hd
    obtain ⟨v, m, hget, -⟩ := dwGet_ok dist.toNat (opStart s.arch)
    rw [exec_dwGet h1 h2 hget] at h
    cases h
    cases hb
    exact ⟨h1, h2, m, hget, rfl⟩
  · rw [exec_of_not_allowed (i := .dwGet dist) (decide_eq_false hd)] at h
    cases h
    cases hb

/-- Settles O24: the operation of `len + 1` bytes after its first get and put is that of `len` bytes (`dwCopy_succ`). -/
theorem dwCopyIsGetThenPut : Obligations.DwCopyIsGetThenPut := by
  refine ⟨fun dist s h1 h2 => exec_dwCopy h1 h2 rfl, fun dist len s t u b hlen hget hb hput hu => ?_⟩
  obtain ⟨h1, h2, m, hop, rfl⟩ := exec_dwGet_byte hget hb
  rw [exec_dwPut] at hput
  cases hput
  have hsucc : (len + 1#32).toNat = len.toNat + 1 := by bv_omega
  obtain ⟨⟨⟩, c, hrest, -⟩ := dwCopy_completes dist.toNat len.toNat (putStep b { opStart s.arch with fillReads := m })
    (Nat.zero_le _)
  rw [exec_dwCopy (c := c) h1 h2 (by rw [hsucc, dwCopy_succ hop, hrest]), exec_dwCopy (c := c) h1]
  · rfl
  · simpa [completed] using h2
  · exact (congrArg _ (opStart_putStep b _)).trans hrest

/-! ## The end of the output, in the cells behind the cursor -/

/-- Every byte of the output from position `p` on that is at most `size` places back is what a lookback to it finds written. -/
def holdsOutputFrom (p : Nat) (a : Arch) : Prop :=
  ∀ d, 1 ≤ d → d ≤ a.size.toNat → p + d ≤ a.out.length →
    ∃ x, lookback a d = some x ∧ dictRead a.buf x = a.out[a.out.length - d]?

section

variable {a : Arch} (hp : a.pos < a.size)
include hp

/-- The byte just put is at lookback 1. -/
theorem lookback_one_putStep (b : Byte) : lookback (putStep b a) 1 = some a.pos.toNat := by
  have hlt : a.pos.toNat < a.size.toNat := hp
  obtain ⟨hpos, hin⟩ := putStep_pos_toNat (b := b) hp
  rw [lookback_mod (Nat.le_refl 1) (by rw [putStep_size]; omega) hin, hpos, putStep_size, Nat.mod_add_mod,
    show a.pos.toNat + 1 + (a.size.toNat - 1) = a.pos.toNat + a.size.toNat by omega, Nat.add_mod_right, Nat.mod_eq_of_lt hlt]

/-- A put moves every other byte of the window one place back. -/
theorem lookback_succ_putStep (b : Byte) {d : Nat} (h1 : 1 ≤ d) (h2 : d < a.size.toNat) :
    lookback (putStep b a) (d + 1) = lookback a d := by
  obtain ⟨hpos, hin⟩ := putStep_pos_toNat (b := b) hp
  rw [lookback_mod (Nat.le_add_left 1 d) (by rw [putStep_size]; exact h2) hin, lookback_mod h1 (Nat.le_of_lt h2) hp, hpos,
    putStep_size, Nat.mod_add_mod, show a.pos.toNat + 1 + (a.size.toNat - (d + 1)) = a.pos.toNat + (a.size.toNat - d) by omega]

/-- Only a lookback of the whole window names the cell at the cursor. -/
theorem lookback_ne_pos {d x : Nat} (h1 : 1 ≤ d) (h2 : d < a.size.toNat) (hx : lookback a d = some x) : x ≠ a.pos.toNat := by
  rw [lookback_some h1 (Nat.le_of_lt h2) hp] at hx
  cases hx
  split <;> omega

theorem holdsOutputFrom_putStep {p : Nat} (h : holdsOutputFrom p a) (b : Byte) : holdsOutputFrom p (putStep b a) := by
  intro d h1 h2 h3
  rw [putStep_size] at h2
  rw [putStep_out, List.length_append, List.length_singleton] at h3
  rw [putStep_buf, storedBuf_pos hp, putStep_out, List.length_append, List.length_singleton]
  obtain ⟨e, rfl⟩ := Nat.exists_eq_add_of_le' h1
  rcases Nat.eq_zero_or_pos e with rfl | he
  · refine ⟨_, lookback_one_putStep hp b, ?_⟩
    rw [dictRead_dictWrite_same, Nat.add_sub_cancel, List.getElem?_concat_length]
  · obtain ⟨x, hx, hread⟩ := h e he (by omega) (by omega)
    refine ⟨x, (lookback_succ_putStep hp b he h2).trans hx, ?_⟩
    rw [dictRead_dictWrite_other _ (lookback_ne_pos hp he h2 hx), hread, Nat.add_sub_add_right,
      List.getElem?_append_left (by omega)]

end

/-! ## The bytes of a copy -/

/-- From position `q` on, every byte equals the one `dist` places before it. -/
def repeatsFrom (q dist : Nat) (bytes : List Byte) : Prop :=
  ∀ j, q ≤ j → j < bytes.length → bytes[j]? = bytes[j - dist]?

theorem repeatsFrom_concat {q dist : Nat} {bytes : List Byte} {b : Byte} (h : repeatsFrom q dist bytes) (h1 : 1 ≤ dist)
    (hb : q ≤ bytes.length → dist ≤ bytes.length ∧ bytes[bytes.length - dist]? = some b) :
    repeatsFrom q dist (bytes ++ [b]) := by
  intro j hq hj
  rw [List.length_append, List.length_singleton] at hj
  rcases Nat.lt_succ_iff_lt_or_eq.mp hj with hold | rfl
  · rw [List.getElem?_append_left hold, List.getElem?_append_left (by omega), h j hq hold]
  · obtain ⟨hd, heq⟩ := hb hq
    rw [List.getElem?_concat_length, List.getElem?_append_left (by omega), heq]

/-- What a copy at lookback `dist` keeps, byte by byte, when it began with `p` bytes of output: the domain of R149, the
window's hold on the bytes copied so far, and their period. -/
structure CopyInv (p dist : Nat) (a : Arch) : Prop where
  dist_pos : 1 ≤ dist
  dist_le : dist ≤ a.size.toNat
  pos_lt : a.pos < a.size
  holds : holdsOutputFrom p a
  repeats : repeatsFrom (p + dist) dist a.out

/-- Nothing is copied yet. -/
theorem copyInv_start {dist : Nat} {a : Arch} (h1 : 1 ≤ dist) (h2 : dist ≤ a.size.toNat) (hp : a.pos < a.size) :
    CopyInv a.out.length dist a where
  dist_pos := h1
  dist_le := h2
  pos_lt := hp
  holds := fun d hd _ hle => by omega
  repeats := fun j hj hlt => by omega

/-- Once `dist` bytes are copied, a get reads the first of the last `dist` of them. -/
theorem CopyInv.get_eq {p dist : Nat} {a c : Arch} {b : Byte} (h : CopyInv p dist a) (hlen : p + dist ≤ a.out.length)
    (hget : dwGet dist a = .ok b c) : a.out[a.out.length - dist]? = some b := by
  have h1 := h.dist_pos
  obtain ⟨x, hx, hread⟩ := h.holds dist h1 h.dist_le hlen
  have hb := List.getElem?_eq_getElem (show a.out.length - dist < a.out.length by omega)
  rw [dwGet_written hx (hread.trans hb)] at hget
  cases hget
  exact hb

theorem CopyInv.put {p dist m : Nat} {a : Arch} {b : Byte} (h : CopyInv p dist a)
    (hget : dwGet dist a = .ok b { a with fillReads := m }) : CopyInv p dist (putStep b { a with fillReads := m }) where
  dist_pos := h.dist_pos
  dist_le := by
    rw [putStep_size]
    exact h.dist_le
  pos_lt := (putStep_pos_toNat (a := { a with fillReads := m }) h.pos_lt).2
  holds := holdsOutputFrom_putStep (a := { a with fillReads := m }) h.pos_lt h.holds b
  repeats := repeatsFrom_concat h.repeats h.dist_pos fun hlen => ⟨by omega, h.get_eq hlen hget⟩

theorem dwCopy_keeps_copyInv {p dist n : Nat} {a c : Arch} (h : CopyInv p dist a) (hcopy : dwCopy dist n a = .ok () c) :
    CopyInv p dist c := by
  induction n generalizing a with
  | zero =>
    cases hcopy
    exact h
  | succ n ih =>
    obtain ⟨b, m, hget, -⟩ := dwGet_ok dist a
    rw [dwCopy_succ hget] at hcopy
    exact ih (h.put hget) hcopy

/-- Settles O25: the copy completes (`dwCopy_completes`), and the period of what it appended is kept from its start on. -/
theorem dwCopyIsPeriodic : Obligations.DwCopyIsPeriodic := by
  intro dist len s h1 h2 hp
  obtain ⟨⟨⟩, c, hcopy, -, -, -, htotal, run, hrun, hout⟩ :=
    dwCopy_completes dist.toNat len.toNat (opStart s.arch) (Nat.zero_le _)
  have hrep := (dwCopy_keeps_copyInv (copyInv_start (a := opStart s.arch) h1 h2 hp) hcopy).repeats
  refine ⟨_, run, exec_dwCopy h1 h2 hcopy, rfl, rfl, hout, hrun, htotal, fun j hd hj => ?_⟩
  rw [hout, opStart_out] at hrep
  have hlt : s.arch.out.length + j < (s.arch.out ++ run).length := by
    rw [List.length_append, hrun]
    exact Nat.add_lt_add_left hj _
  have heq := hrep (s.arch.out.length + j) (Nat.add_le_add_left hd _) hlt
  rwa [Nat.add_sub_assoc hd, List.getElem?_append_right (Nat.le_add_right _ _),
    List.getElem?_append_right (Nat.le_add_right _ _), Nat.add_sub_cancel_left, Nat.add_sub_cancel_left] at heq

end Sys2Proof.Machine
end

section
/-! SUPPORT. An instruction that answers a result, told by its operation; the ends of the symbols' common parts: the budget, the
end of a decode, the guards (R178 to R183). With it, O28, O38, O40, O41 and O43. -/

namespace Sys2Proof.Machine

/-! ## From an operation's result to the instruction's answer, and back -/

theorem answer_eq_ok {f : α → Response} {op : Op α} {a b : Arch} {r : Response} (h : answer f op a = .ok r b) :
    ∃ x, op a = .ok x b ∧ f x = r := by
  rw [run_answer] at h
  cases ho : op a <;> rw [ho] at h <;> cases h
  exact ⟨_, rfl, rfl⟩

section

variable {i : Instr} {s : State} {f : α → Response} {op : Op α} {b : Arch}

theorem exec_answer_ok {x : α} (ha : allowed i s.arch = true) (hi : opOf i s.arch = answer f op)
    (h : op (opStart s.arch) = .ok x b) : exec i s = .next (completed s b (f x)) :=
  exec_ok ha (by rw [hi, run_answer, h, mapValue_ok])

theorem exec_answer_raise {c : Cause} (ha : allowed i s.arch = true) (hi : opOf i s.arch = answer f op)
    (h : op (opStart s.arch) = .error (.raise c) b) : exec i s = .next (failed s c b) :=
  exec_raise ha (by rw [hi, run_answer, h, mapValue_error])

/-- An answer that is the operation's own, and no refusal, hold or error, says how the operation ended and what it left. -/
theorem exec_answered {t : State} {r : Response} (hi : opOf i s.arch = answer f op) (h : exec i s = .next t)
    (ht : t.response = r) (hr : r ≠ .refused ∧ r ≠ .pending ∧ r ≠ .error) :
    allowed i s.arch = true ∧ t = completed s t.arch r ∧ ∃ x, op (opStart s.arch) = .ok x t.arch ∧ f x = r := by
  subst ht
  obtain ⟨h1, h2, h3⟩ := hr
  rcases exec_next_cases h with ⟨-, rfl⟩ | ⟨ha, ⟨r, b, ho, rfl⟩ | ⟨b, -, rfl⟩ | ⟨c, b, -, rfl⟩⟩
  · exact absurd rfl h1
  · exact ⟨ha, rfl, answer_eq_ok (hi ▸ ho)⟩
  · exact absurd rfl h2
  · exact absurd rfl h3

end

/-! ## The state register (R161 to R164) -/

theorem stateAfterLit_val (q : Fin 12) :
    (stateAfterLit q).val = if q.val < 4 then 0 else if q.val < 10 then q.val - 3 else q.val - 6 := by
  unfold stateAfterLit
  split
  · rfl
  · split <;> rfl

/-- Settles O28: each transition is one update of the register, by its rule's table. -/
theorem stateTransitions : Obligations.StateTransitions := by
  rintro s q rfl
  exact ⟨⟨stateAfterLit s.arch.state, rfl, stateAfterLit_val _⟩, rfl, rfl, rfl⟩

/-! ## The budget (R169, R178, R181) -/

theorem budgetSpent_iff {a : Arch} : budgetSpent a = true ↔ a.sizeDefined = true ∧ a.leftToUnpack = 0#64 := by
  simp [budgetSpent]

theorem budgetSpent_eq_false {a : Arch} (h : ¬ (a.sizeDefined = true ∧ a.leftToUnpack = 0#64)) : budgetSpent a = false :=
  eq_false_of_ne_true fun hb => h (budgetSpent_iff.mp hb)

theorem raiseIf_ok {p : Bool} (h : p = false) (c : Cause) (a : Arch) : raiseIf p c a = .ok () a := by
  subst h
  rfl

theorem raiseIf_raise {p : Bool} (h : p = true) (c : Cause) (a : Arch) : raiseIf p c a = .error (.raise c) a := by
  subst h
  rfl

theorem budgetGuard_ok {a : Arch} (h : budgetSpent a = false) : budgetGuard a = .ok () a := raiseIf_ok h _ a

theorem budgetGuard_raise {a : Arch} (h : budgetSpent a = true) : budgetGuard a = .error (.raise .budgetExhausted) a :=
  raiseIf_raise h _ a

/-- The two registers of the budget (R36). -/
def budget (a : Arch) : Bool × DWord := (a.sizeDefined, a.leftToUnpack)

/-- The budget register after `n` bytes (R181). -/
def budgetAfter (n : Nat) (a : Arch) : DWord :=
  if a.sizeDefined then a.leftToUnpack - BitVec.ofNat 64 n else a.leftToUnpack

/-- Taking bytes off the budget, told from an earlier state with the same budget. -/
theorem spendBudget_ok {a b : Arch} (h : budget b = budget a) (n : Nat) :
    spendBudget n b = .ok () { b with leftToUnpack := budgetAfter n a } := by
  obtain ⟨hd, hl⟩ := Prod.mk.inj h
  unfold spendBudget budgetAfter
  rw [run_modify, ← hd, ← hl]
  split <;> rfl

theorem Keeps.ok_eq {g : Arch → γ} {op : Op α} {a b : Arch} {r : α} (hk : Keeps g op) (h : op a = .ok r b) : g b = g a := by
  have hg := hk a
  rwa [h] at hg

theorem dwGet_keeps_budget (dist : Nat) : Keeps budget (dwGet dist) := dwGet_keeps (fun _ _ => rfl) dist

theorem dwPut_keeps_budget (b : Byte) : Keeps budget (dwPut b) := dwPut_keeps (fun _ _ _ _ _ _ _ => rfl) b

theorem rcBit_keeps_budget (k : Nat) : Keeps budget (rcBit k) := rcBit_keeps (fun _ _ _ _ _ _ => rfl) fun _ _ => rfl

theorem litDec_keeps_budget : Keeps budget litDec :=
  litDec_closed (keeps_closed _) (fun k _ => rcBit_keeps_budget k) dwGet_keeps_budget dwPut_keeps_budget

theorem dwCopy_keeps_budget (dist n : Nat) : Keeps budget (dwCopy dist n) :=
  dwCopy_closed (keeps_closed _).toClosed (dwGet_keeps_budget dist) dwPut_keeps_budget n

/-! ## The literal and the short repeat (R169, R173) -/

theorem symLit_ok {a b : Arch} {v : Byte} (h : budgetSpent a = false) (hl : litDec a = .ok v b) :
    symLit a = .ok .continue { b with state := stateAfterLit b.state, leftToUnpack := budgetAfter 1 a } := by
  have hb : budget { b with state := stateAfterLit b.state } = budget a := (litDec_keeps_budget.ok_eq hl :)
  unfold symLit
  rw [run_bind_ok (budgetGuard_ok h), run_bind_ok hl, stLit, run_modify_bind, run_bind_ok (spendBudget_ok hb 1), run_pure]

theorem symLit_budgetExhausted {a : Arch} (h : budgetSpent a = true) : symLit a = .error (.raise .budgetExhausted) a :=
  run_bind_error (budgetGuard_raise h)

/-- Settles O38: behind the guard the row runs LIT.DEC's operation and ST.LIT's, and LIT.DEC leaves the budget alone. -/
theorem symLitDecodesLiteral : Obligations.SymLitDecodesLiteral := by
  refine fun s => ⟨fun hd hz => ?_, fun hn t u b ht hb hu => ?_⟩
  · exact exec_answer_raise rfl rfl (symLit_budgetExhausted (a := opStart s.arch) (budgetSpent_iff.mpr ⟨hd, hz⟩))
  · obtain ⟨-, heq, v, hlit, -⟩ := exec_answered rfl ht hb (by simp)
    have hsym := symLit_ok (a := opStart s.arch) (budgetSpent_eq_false hn) hlit
    rw [exec_answer_ok rfl rfl hsym]
    cases hu
    rw [heq]
    rfl

theorem symShortrep_ok {a b : Arch} {v : Byte}
    (hg : dwGet (a.rep0.toNat + 1) { a with state := stateAfterShortrep a.state } = .ok v b) :
    symShortrep a = .ok .continue { putStep v b with leftToUnpack := budgetAfter 1 a } := by
  have hb : budget b = budget a := ((dwGet_keeps_budget _).ok_eq hg :)
  have hp : budget (putStep v b) = budget a := ((dwPut_keeps_budget v).ok_eq (dwPut_ok v b)).trans hb
  unfold symShortrep
  rw [stShortrep, run_modify_bind, run_get_bind, run_bind_ok hg, run_bind_ok (dwPut_ok v b),
    run_bind_ok (spendBudget_ok hp 1), run_pure]

/-- A distance plus 1 that is a lookback is not the wrapped one (R149). -/
theorem toNat_succ_of_one_le {d : Word} (h : 1 ≤ (d + 1#32).toNat) : (d + 1#32).toNat = d.toNat + 1 := by
  bv_omega

/-- Settles O41: the row's operation is the three operations in sequence, and they leave the budget alone. -/
theorem symShortrepCopiesOneByte : Obligations.SymShortrepCopiesOneByte := by
  intro s t u v b ht hu hb hv _
  cases ht
  obtain ⟨h1, -, m, hget, rfl⟩ := exec_dwGet_byte hu hb
  rw [toNat_succ_of_one_le h1] at hget
  rw [exec_dwPut] at hv
  cases hv
  exact exec_answer_ok rfl rfl (symShortrep_ok (a := opStart s.arch) hget)

/-! ## The end of a decode (R179, R180, R183) -/

/-- The state after `finish` (R183). -/
def finishedAs (st : Status) (a : Arch) : Arch := { a with flushedPos := a.totalPos, status := st, phase := .done }

theorem finish_ok (st : Status) (a : Arch) : finish st a = .ok .finished (finishedAs st a) := rfl

theorem symEos_badEndMarker {a : Arch} (h : a.code ≠ 0#32) : symEos a = .error (.raise .badEndMarker) a := by
  have hcode : (!finok a) = true := by simp [finok, h]
  unfold symEos
  rw [run_get_bind, run_bind_error (raiseIf_raise hcode _ a)]

section

variable {a : Arch} (hc : a.code = 0#32)
include hc

theorem symEos_sizeMismatch (hd : a.sizeDefined = true) (hl : a.leftToUnpack ≠ 0#64) :
    symEos a = .error (.raise .sizeMismatch) a := by
  have hcode : (!finok a) = false := by simp [finok, hc]
  have hsize : (a.sizeDefined && decide (a.leftToUnpack ≠ 0#64)) = true := by simp [hd, hl]
  unfold symEos
  rw [run_get_bind, run_bind_ok (raiseIf_ok hcode _ a), run_bind_error (raiseIf_raise hsize _ a)]

theorem symEos_finishes (hl : a.sizeDefined = true → a.leftToUnpack = 0#64) :
    symEos a = .ok .finished (finishedAs .finishedWithMarker a) := by
  have hcode : (!finok a) = false := by simp [finok, hc]
  have hsize : (a.sizeDefined && decide (a.leftToUnpack ≠ 0#64)) = false := by simpa using hl
  unfold symEos
  rw [run_get_bind, run_bind_ok (raiseIf_ok hcode _ a), run_bind_ok (raiseIf_ok hsize _ a), finish_ok]

end

/-- Settles O40: the two tests of the marker, in order. -/
theorem symEosEndsDecode : Obligations.SymEosEndsDecode := by
  refine fun s => ⟨fun hc => ?_, fun hc hd hl => ?_, fun hc hl => ?_⟩
  · exact exec_answer_raise rfl rfl (symEos_badEndMarker (a := opStart s.arch) hc)
  · exact exec_answer_raise rfl rfl (symEos_sizeMismatch (a := opStart s.arch) hc hd hl)
  · exact exec_answer_ok rfl rfl (symEos_finishes (a := opStart s.arch) hc hl)

/-- The state in which an iteration takes its first decision: in `P_SYMBOL`, and flushed when the budget is used up (R180). -/
def iterationStart (a : Arch) : Arch :=
  { a with phase := .symbol, flushedPos := if budgetSpent a then a.totalPos else a.flushedPos }

/-- An iteration is the end test, and one symbol when it fails (R180, R183). -/
theorem mainStep_run (a : Arch) :
    mainStep a = (if finishesWithoutMarker a then finish .finishedWithoutMarker
      else decodeIteration a.state (posState a) >>= endIteration) (iterationStart a) := by
  have hflush : endTestFlush { a with phase := .symbol } { a with phase := .symbol } = .ok () (iterationStart a) := by
    show (if budgetSpent a then dwFlush else pure ()) _ = _
    unfold iterationStart
    split <;> rfl
  unfold mainStep
  rw [setPhase, run_modify_bind, run_get_bind, run_bind_ok hflush]
  rfl

theorem mainStep_finishes {a : Arch} (h : budgetSpent a = true) (hc : a.code = 0#32) :
    mainStep a = .ok .finished (finishedAs .finishedWithoutMarker a) := by
  have htest : finishesWithoutMarker a = true := by simp [finishesWithoutMarker, h, finok, hc]
  rw [mainStep_run, htest, if_pos rfl, finish_ok]
  rfl

/-- Settles O43: the end test succeeds, and finishing overwrites what came before it. -/
theorem budgetEndsDecode : Obligations.BudgetEndsDecode :=
  fun s hd hl hc => exec_answer_ok rfl rfl (mainStep_finishes (a := opStart s.arch) (budgetSpent_iff.mpr ⟨hd, hl⟩) hc)

end Sys2Proof.Machine
end

section
/-! SUPPORT. A decoding operation works on the range decoder, `PROB`, the input and the log alone, so it ends the same way beside
any other state (R13, R81); a copy does not look at the log. What follows the codes of a match and of a long repeat (R171, R174
to R178), and the guards in front of the repeats (R172). With it, O39, O42 and O45. -/

namespace Sys2Proof.Machine

/-! ## Decoding beside any other state -/

/-- The state `w` with the range decoder, `PROB` and the input of `a`, and with `ds` before the decisions in the log of `a`. -/
def coderIn (ds : List Bool) (w a : Arch) : Arch :=
  { w with
    range := a.range, code := a.code, corrupted := a.corrupted, prob := a.prob, inBytes := a.inBytes, inEnd := a.inEnd,
    inPos := a.inPos, decisions := ds ++ a.decisions }

theorem bitStep_coderIn (k : Nat) (ds : List Bool) (w a : Arch) :
    bitStep k (coderIn ds w a) = coderIn ds w (bitStep k a) :=
  congrArg (fun l => { coderIn ds w (bitStep k a) with decisions := l }) (List.append_assoc ds a.decisions [bitOf k a])

theorem directStep_coderIn (ds : List Bool) (w a : Arch) : directStep (coderIn ds w a) = coderIn ds w (directStep a) :=
  congrArg (fun l => { coderIn ds w (directStep a) with decisions := l })
    (List.append_assoc ds a.decisions [!directSign a])

theorem normalised_coderIn (ds : List Bool) (w a : Arch) : normalised (coderIn ds w a) = coderIn ds w (normalised a) := by
  have hbytes : (coderIn ds w a).inBytes = a.inBytes := rfl
  have hrange : (coderIn ds w a).range = a.range := rfl
  unfold normalised
  rw [hbytes, hrange]
  split
  · split <;> rfl
  · rfl

/-- The operation reads and writes the range decoder, `PROB`, the input and the log alone. -/
def Decodes (op : Op α) : Prop := ∀ ds w, Commutes (coderIn ds w) op

theorem rcBit_decodes (k : Nat) : Decodes (rcBit k) := by
  intro ds w a
  by_cases h : needsByte (bitStep k a)
  · have h' : needsByte (bitStep k (coderIn ds w a)) := h
    rw [rcBit_stop h, rcBit_stop h', bitStep_coderIn]
    rfl
  · have h' : ¬ needsByte (bitStep k (coderIn ds w a)) := h
    rw [rcBit_ok h, rcBit_ok h', bitStep_coderIn, normalised_coderIn]
    rfl

theorem directRound_decodes : Decodes rcDirectRound := by
  intro ds w a
  by_cases h : needsByte (directStep a)
  · have h' : needsByte (directStep (coderIn ds w a)) := h
    rw [rcDirectRound_stop h, rcDirectRound_stop h', directStep_coderIn]
    rfl
  · have h' : ¬ needsByte (directStep (coderIn ds w a)) := h
    rw [rcDirectRound_ok h, rcDirectRound_ok h', directStep_coderIn, normalised_coderIn]
    rfl

theorem lenDec_decodes (inst : LenInst) (ps : BitVec 4) : Decodes (lenDec inst ps) :=
  fun ds w => lenDec_closed (commutes_closed _) fun k _ => rcBit_decodes k ds w

theorem distDec_decodes (len : Nat) : Decodes (distDec len) :=
  fun ds w => distDec_closed (commutes_closed _) (fun k _ => rcBit_decodes k ds w) (directRound_decodes ds w)

section

variable {op : Op α} (hop : Decodes op) {a b w : Arch} {r : α}
include hop

/-- Beside another state, and after other decisions, the operation completes with the same result. -/
theorem Decodes.beside {ds : List Bool} (h : op a = .ok r b) (hw : coderIn ds w a = w) : op w = .ok r (coderIn ds w b) := by
  have hc := hop ds w a
  rwa [hw, h] at hc

/-- The operation leaves everything else of the state as it was. -/
theorem Decodes.frame (h : op a = .ok r b) : coderIn [] a b = b := by
  have hc := hop.beside h (w := a) (ds := []) rfl
  rw [h] at hc
  injection hc with _ hb
  exact hb.symm

/-- An operation that completed with an empty log completes the same way where the log is not empty. -/
theorem Decodes.after (h : op (opStart a) = .ok r b) (hw : coderIn [] w a = w) : op w = .ok r (coderIn a.decisions w b) := by
  refine hop.beside h (Eq.trans ?_ hw)
  exact congrArg (fun l => { coderIn [] w a with decisions := l }) (List.append_nil _)

end

/-! ## Decoding instructions, told by their operations -/

theorem rcBit_of_exec {c : ProbAddr} {s t : State} {bit : Bool} (h : exec (.rcBit c) s = .next t)
    (hb : t.response = .bit bit) : rcBit (cellOf c) (opStart s.arch) = .ok bit t.arch := by
  obtain ⟨-, -, x, hx, hr⟩ := exec_answered (f := .bit) rfl h hb (by simp)
  cases hr
  exact hx

theorem distDec_of_exec {len : BitVec 16} {s t : State} {d : Word} (h : exec (.distDec len) s = .next t)
    (hd : t.response = .value d) : distDec len.toNat (opStart s.arch) = .ok d t.arch := by
  obtain ⟨-, -, x, hx, hr⟩ := exec_answered (f := .value) rfl h hd (by simp)
  cases hr
  exact hx

/-- A length code is at most 271 (R78). -/
theorem lenDec_le {inst : LenInst} {ps : BitVec 4} {a b : Arch} {n : Nat} (h : lenDec inst ps a = .ok n b) : n ≤ 271 := by
  have tree (T k : Nat) : Yields (fun _ => True) (btFwd T k) fun v _ => v < 2 ^ k := fun _ _ _ _ h => (btFwd_eq_ok h).1
  have hlen : Yields (fun _ => True) (lenDec inst ps) fun n _ => n ≤ 271 := by
    refine (Yields.trivial (rcBit _)).bind fun c => ?_
    cases c
    · exact (tree _ 3).mono fun v _ hv => by omega
    · refine (Yields.trivial (rcBit _)).bind fun c2 => ?_
      cases c2
      · exact (tree _ 3).bind fun v => Yields.pure fun _ hv => by omega
      · exact (tree _ 8).bind fun v => Yields.pure fun _ hv => by omega
  exact hlen a n b trivial h

theorem lenDec_of_exec {inst : LenInst} {ps : BitVec 4} {s t : State} {len : Nat} (h : exec (.lenDec inst ps) s = .next t)
    (ht : t.response = .value (BitVec.ofNat 32 len)) (hlen : len ≤ 271) :
    lenDec inst ps (opStart s.arch) = .ok len t.arch := by
  obtain ⟨-, -, x, hx, hr⟩ := exec_answered (f := valueOf) rfl h ht (by simp)
  have hle := lenDec_le hx
  have hnat : (BitVec.ofNat 32 x).toNat = (BitVec.ofNat 32 len).toNat := congrArg _ (Response.value.inj hr)
  have heq : x = len := by
    simp only [BitVec.toNat_ofNat] at hnat
    omega
  exact heq ▸ hx

/-! ## The copy after a code (R178) -/

/-- The state with `ds` as its log. -/
def withLog (ds : List Bool) (a : Arch) : Arch := { a with decisions := ds }

theorem Commutes.getBind {σ : Arch → Arch} {f : Arch → Op β} (hr : ∀ a, f (σ a) = f a) (hf : ∀ a, Commutes σ (f a)) :
    Commutes σ (get >>= f) :=
  Commutes.get_bind fun a => by rw [hr a, hf a a]

theorem readUnwritten_withLog (ds : List Bool) : Commutes (withLog ds) readUnwritten := by
  intro a
  have hfill : (withLog ds a).params.dictFill = a.params.dictFill := rfl
  unfold readUnwritten
  rw [hfill]
  cases a.params.dictFill <;> rfl

theorem dwGet_withLog (ds : List Bool) (dist : Nat) : Commutes (withLog ds) (dwGet dist) := by
  refine Commutes.getBind (fun _ => rfl) fun a => ?_
  split
  · exact fun _ => rfl
  · split
    · exact Commutes.pure _
    · exact readUnwritten_withLog ds

theorem dwPut_withLog (ds : List Bool) (b : Byte) : Commutes (withLog ds) (dwPut b) := by
  intro a
  rw [dwPut_ok, dwPut_ok, mapState_ok, putStep_eq b a, putStep_eq b (withLog ds a)]
  simp only [putStep_pos, putStep_isFull]
  rfl

theorem dwCopy_withLog (ds : List Bool) (dist n : Nat) : Commutes (withLog ds) (dwCopy dist n) :=
  dwCopy_closed (commutes_closed _) (dwGet_withLog ds dist) (dwPut_withLog ds) n

theorem clamped_le (a : Arch) (len : Nat) : clamped a len ≤ len := by
  unfold clamped
  split
  · next h => exact Nat.le_of_lt (of_decide_eq_true (Bool.and_eq_true_iff.mp h).2)
  · exact Nat.le_refl len

/-- What a symbol that found `m` after its codes leaves, when its copy of `n` bytes left `c` (R178, R181). -/
def copied (m : Arch) (n : Nat) (c : Arch) : Arch :=
  { c with decisions := m.decisions, leftToUnpack := budgetAfter n m }

/-- The copy tail is the instruction DW.COPY, the budget, and the overrun. -/
theorem copyTail_of_exec {s v : State} {m : Arch} {len n : Nat} {overrun : Bool} (hlen : len ≤ 271)
    (ho : overrun = (m.sizeDefined && decide (m.leftToUnpack.toNat < len + 2)))
    (hn : n = (if overrun then m.leftToUnpack.toNat else len + 2))
    (hv : exec (.dwCopy (m.rep0 + 1#32) (BitVec.ofNat 32 n)) { s with arch := m } = .next v) (hd : v.response = .done) :
    copyTail len m =
      if overrun then .error (.raise .lengthOverrun) (copied m n v.arch) else .ok .continue (copied m n v.arch) := by
  obtain ⟨hallow, -, ⟨⟩, hcopy, -⟩ := exec_answered (f := fun _ => .done) rfl hv hd (by simp)
  have hdist : 1 ≤ (m.rep0 + 1#32).toNat := (of_decide_eq_true hallow).1
  have ho : overrun = overruns m (len + 2) := ho
  have hn : n = clamped m (len + 2) := by rw [hn, ho]; rfl
  have hle : n ≤ len + 2 := hn ▸ clamped_le m (len + 2)
  have hsize : (BitVec.ofNat 32 n).toNat = n := by
    rw [BitVec.toNat_ofNat]
    exact Nat.mod_eq_of_lt (by omega)
  rw [toNat_succ_of_one_le hdist, hsize] at hcopy
  have hlog : dwCopy (m.rep0.toNat + 1) n m = .ok () (withLog m.decisions v.arch) :=
    (dwCopy_withLog m.decisions _ n (opStart m)).trans (congrArg _ hcopy)
  have hbudget : budget (withLog m.decisions v.arch) = budget m := ((dwCopy_keeps_budget _ n).ok_eq hlog :)
  show copyRun (len + 2) m = _
  unfold copyRun
  rw [run_get_bind, ← hn, ← ho, run_bind_ok hlog, run_bind_ok (spendBudget_ok hbudget n)]
  cases overrun <;> rfl

/-! ## A match (R171) -/

/-- A match decodes its two codes beside the rotation and the new state, and leaves the rest to the marker and the copy. -/
theorem symMatch_run {ps : BitVec 4} {a b c : Arch} {len : Nat} {d : Word} (hlen : lenDec .len ps a = .ok len b)
    (hdist : distDec len (opStart b) = .ok d c) :
    symMatch ps a = matchTail len { c with
      decisions := b.decisions ++ c.decisions, rep3 := a.rep2, rep2 := a.rep1, rep1 := a.rep0, rep0 := d,
      state := stateAfterMatch a.state } := by
  let w : Arch := { a with rep3 := a.rep2, rep2 := a.rep1, rep1 := a.rep0 }
  let w' : Arch := { coderIn [] w b with state := stateAfterMatch a.state }
  have hlen' : lenDec .len ps w = .ok len (coderIn [] w b) := (lenDec_decodes .len ps).beside hlen rfl
  have hdist' : distDec len w' = .ok d (coderIn b.decisions w' c) := (distDec_decodes len).after hdist rfl
  have hb := (lenDec_decodes .len ps).frame hlen
  have hc := (distDec_decodes len).frame hdist
  unfold symMatch
  rw [rotateReps, run_modify_bind, run_bind_ok hlen', stMatch, run_modify_bind]
  show (distDec len >>= fun d => setRep0 d >>= fun _ => matchTail len) w' = _
  rw [run_bind_ok hdist', setRep0, run_modify_bind, ← hc, ← hb]
  rfl

section

variable {len : Nat} {a : Arch}

theorem matchTail_marker (h : a.rep0 = 0xFFFFFFFF#32) : matchTail len a = symEos a := by
  unfold matchTail
  rw [run_get_bind, if_pos (by exact h)]

variable (h : a.rep0 ≠ 0xFFFFFFFF#32)
include h

theorem matchTail_budgetExhausted (hb : budgetSpent a = true) :
    matchTail len a = .error (.raise .budgetExhausted) a := by
  unfold matchTail
  rw [run_get_bind, if_neg (by exact h), run_bind_error (budgetGuard_raise hb)]

variable (hb : budgetSpent a = false)
include hb

theorem matchTail_badDistance (hd : newDistanceOk a = false) : matchTail len a = .error (.raise .badDistance) a := by
  unfold matchTail
  rw [run_get_bind, if_neg (by exact h), run_bind_ok (budgetGuard_ok hb), hd,
    run_bind_error (raiseIf_raise (Bool.not_false) _ a)]

theorem matchTail_copies (hd : newDistanceOk a = true) : matchTail len a = copyTail len a := by
  unfold matchTail
  rw [run_get_bind, if_neg (by exact h), run_bind_ok (budgetGuard_ok hb), hd, run_bind_ok (raiseIf_ok Bool.not_true _ a)]

end

theorem newDistanceOk_iff {a : Arch} :
    newDistanceOk a = true ↔ a.rep0 < a.dictSize ∧ (a.rep0 ≤ a.pos ∨ a.isFull = true) := by
  simp [newDistanceOk, distanceOk]

/-- Settles O39: the codes leave `m` (`symMatch_run`), and each case is one of the ends of `matchTail`. -/
theorem symMatchFollowsItsRule : Obligations.SymMatchFollowsItsRule := by
  intro s t u len d m hlen ht hlr hu hd hm
  have hsize : (BitVec.ofNat 16 len).toNat = len := by
    rw [BitVec.toNat_ofNat]
    exact Nat.mod_eq_of_lt (by omega)
  have hdist := distDec_of_exec hu hd
  rw [hsize] at hdist
  have hrun : symMatch (posState s.arch) (opStart s.arch) = matchTail len m :=
    (symMatch_run (lenDec_of_exec ht hlr hlen) hdist).trans (congrArg (matchTail len) hm.symm)
  have hrep : m.rep0 = d := by rw [hm]
  clear hm
  subst hrep
  have raises {c : Cause} {b : Arch} (h : matchTail len m = .error (.raise c) b) : exec .symMatch s = .next (failed s c b) :=
    exec_answer_raise rfl rfl (hrun.trans h)
  have completes {o : StepOutcome} {b : Arch} (h : matchTail len m = .ok o b) :
      exec .symMatch s = .next (completed s b (.step o)) :=
    exec_answer_ok (f := .step) rfl rfl (hrun.trans h)
  refine ⟨fun hmark => ?_, fun hne hdef hzero => ?_, fun hne hleft => ?_⟩
  · have heos := matchTail_marker (len := len) hmark
    refine ⟨fun hc => ?_, fun hc hdef hl => ?_, fun hc hl => ?_⟩
    · exact raises (heos.trans (symEos_badEndMarker hc))
    · exact raises (heos.trans (symEos_sizeMismatch hc hdef hl))
    · exact completes (heos.trans (symEos_finishes hc hl))
  · exact raises (matchTail_budgetExhausted hne (budgetSpent_iff.mpr ⟨hdef, hzero⟩))
  · have hb := budgetSpent_eq_false hleft
    refine ⟨fun hbad => ?_, fun hok overrun n v ho hn hv hdone => ?_⟩
    · exact raises (matchTail_badDistance hne hb (eq_false_of_ne_true fun h => hbad (newDistanceOk_iff.mp h)))
    · have hcopy := (matchTail_copies hne hb (newDistanceOk_iff.mpr hok)).trans (copyTail_of_exec hlen ho hn hv hdone)
      refine ⟨fun hover => completes ?_, fun hover => raises ?_⟩
      · rw [hcopy, hover]
        rfl
      · rw [hcopy, hover]
        rfl

/-! ## The long repeats (R174 to R177) -/

theorem repTail_run {ps : BitVec 4} {a b : Arch} {len : Nat} (h : lenDec .rep ps a = .ok len b) :
    repTail ps a = copyTail len { b with state := stateAfterRep a.state } := by
  have hb := (lenDec_decodes .rep ps).frame h
  unfold repTail
  rw [run_bind_ok h, stRep, run_modify_bind, ← hb]
  rfl

/-- The row of a long repeat is the common tail from where the chosen rep is at the front. -/
theorem longRepeat_op {i : Instr} {a m : Arch}
    (h : (i = .symRep0 ∧ m = a) ∨ (i = .symRep1 ∧ m = { a with rep0 := a.rep1, rep1 := a.rep0 }) ∨
      (i = .symRep2 ∧ m = { a with rep0 := a.rep2, rep1 := a.rep0, rep2 := a.rep1 }) ∨
      (i = .symRep3 ∧ m = { a with rep0 := a.rep3, rep1 := a.rep0, rep2 := a.rep1, rep3 := a.rep2 })) :
    allowed i a = true ∧ m.state = a.state ∧ ∃ op : Op StepOutcome,
      opOf i a = answer .step op ∧ op (opStart a) = repTail (posState a) (opStart m) := by
  rcases h with ⟨rfl, rfl⟩ | ⟨rfl, rfl⟩ | ⟨rfl, rfl⟩ | ⟨rfl, rfl⟩ <;> exact ⟨rfl, rfl, _, rfl, rfl⟩

/-- Settles O42: the reps are in order first, then the four rows are one operation (`longRepeat_op`). -/
theorem longRepeatsRotateAndCopy : Obligations.LongRepeatsRotateAndCopy := by
  intro i s t m0 m len hi hlen ht hlr hm overrun n v ho hn hv hdone
  obtain ⟨hallow, hstate, op, hop, hrun⟩ := longRepeat_op hi
  have hm' : { t.arch with state := stateAfterRep (opStart m0).state } = m := by
    rw [hm, opStart_state, hstate]
    rfl
  have htail : op (opStart s.arch) = copyTail len m := by
    rw [hrun, repTail_run (lenDec_of_exec ht hlr hlen), hm']
  have hcopy := htail.trans (copyTail_of_exec hlen ho hn hv hdone)
  refine ⟨fun hover => ?_, fun hover => ?_⟩
  · exact exec_answer_ok (f := .step) hallow hop (by rw [hcopy, hover]; rfl)
  · exact exec_answer_raise hallow hop (by rw [hcopy, hover]; rfl)

/-! ## The guards of the repeats (R172) -/

theorem cellOf_ofNat {arr : ProbArr} {n : Nat} (h : n < 2 ^ 24) : cellOf ⟨arr, BitVec.ofNat 24 n⟩ = cell arr n := by
  unfold cellOf
  rw [BitVec.toNat_ofNat, Nat.mod_eq_of_lt h]

theorem rcBit_of_decides {c : ProbAddr} {bit : Bool} {rest : List (ProbAddr × Bool)} {s t : State}
    (h : decides ((c, bit) :: rest) s t) :
    ∃ u, rcBit (cellOf c) (opStart s.arch) = .ok bit u.arch ∧ decides rest u t := by
  obtain ⟨u, hu, hbit, hrest⟩ := h
  exact ⟨u, rcBit_of_exec hu hbit, hrest⟩

theorem rcBit_decisions {k : Nat} {a b : Arch} {bit : Bool} (h : rcBit k a = .ok bit b) :
    b.decisions = a.decisions ++ [bit] := by
  obtain ⟨rfl, rfl⟩ := rcBit_eq_ok h
  exact normalised_decisions _

theorem decodeIteration_repeat {st : Fin 12} {ps : BitVec 4} {a b c : Arch}
    (hm : rcBit (cell .isMatch (statePos st ps)) a = .ok true b) (hr : rcBit (cell .isRep st.val) b = .ok true c) :
    decodeIteration st ps a = repFamily st ps c := by
  unfold decodeIteration
  rw [run_bind_ok hm, if_pos rfl, run_bind_ok hr, if_pos rfl]

theorem repFamily_budgetExhausted {st : Fin 12} {ps : BitVec 4} {a : Arch} (h : budgetSpent a = true) :
    repFamily st ps a = .error (.raise .budgetExhausted) a :=
  run_bind_error (run_bind_error (budgetGuard_raise h))

theorem repFamily_emptyWindow {st : Fin 12} {ps : BitVec 4} {a : Arch} (h : budgetSpent a = false)
    (he : windowEmpty a = true) : repFamily st ps a = .error (.raise .emptyWindowRep) a := by
  refine run_bind_error ?_
  unfold repGuards
  rw [run_bind_ok (budgetGuard_ok h), run_get_bind, raiseIf_raise he]

theorem run_bind_congr {x y : Op α} {a b : Arch} (h : x a = y b) (f : α → Op β) : (x >>= f) a = (y >>= f) b := by
  rw [run_bind, run_bind, h]

/-- An iteration that selects a repeat reaches its guards with the budget and the window as they were, and an error there
leaves what the two decisions left. -/
theorem mainStep_repeat {s t : State} (hend : finishesWithoutMarker s.arch = false)
    (h : decides [(⟨.isMatch, BitVec.ofNat 24 (s.arch.state.val * 16 + (posState s.arch).toNat)⟩, true),
      (⟨.isRep, BitVec.ofNat 24 s.arch.state.val⟩, true)] { s with arch := { s.arch with phase := .symbol } } t) :
    ∃ a, mainStep (opStart s.arch) = (repFamily s.arch.state (posState s.arch) >>= endIteration) a ∧
      budgetSpent a = budgetSpent s.arch ∧ windowEmpty a = windowEmpty s.arch ∧
      ∀ c, takeError c a = takeError c { t.arch with decisions := [true, true] } := by
  obtain ⟨u, hm, h⟩ := rcBit_of_decides h
  obtain ⟨t, hr, rfl⟩ := rcBit_of_decides h
  have hps := (posState s.arch).isLt
  have hst := s.arch.state.isLt
  rw [cellOf_ofNat (by omega)] at hm hr
  let w := iterationStart (opStart s.arch)
  have hm' : rcBit _ w = _ := (rcBit_decodes _).beside (ds := []) hm rfl
  have hr' : rcBit _ (coderIn [] w u.arch) = _ := (rcBit_decodes _).after hr rfl
  have hu := (rcBit_decodes _).frame hm
  have ht := (rcBit_decodes _).frame hr
  have hlog : u.arch.decisions ++ t.arch.decisions = [true, true] := by
    rw [rcBit_decisions hm, rcBit_decisions hr]
    rfl
  have hstart : finishesWithoutMarker (opStart s.arch) = false := hend
  refine ⟨coderIn u.arch.decisions (coderIn [] w u.arch) t.arch, ?_, rfl, rfl, fun c => ?_⟩
  · rw [mainStep_run, hstart, if_neg Bool.false_ne_true]
    exact run_bind_congr (decodeIteration_repeat hm' hr') endIteration
  · rw [← hlog, ← ht, ← hu]
    rfl

/-- Settles O45: the guards find the budget and the window as the iteration did, since decisions touch neither. -/
theorem repeatGuardsRaise : Obligations.RepeatGuardsRaise := by
  intro s t hn h
  have hend : finishesWithoutMarker s.arch = false := by
    simpa [finishesWithoutMarker, budgetSpent, finok, and_assoc] using hn
  obtain ⟨a, hrun, hbudget, hwindow, herr⟩ := mainStep_repeat hend h
  have raises {c : Cause} (hr : repFamily s.arch.state (posState s.arch) a = .error (.raise c) a) :
      exec .mainStep s = .next (failed s c { t.arch with decisions := [true, true] }) := by
    rw [exec_answer_raise (f := .step) rfl rfl (hrun.trans (run_bind_error hr)), failed, herr]
    rfl
  refine ⟨fun hd hl => ?_, fun hl hp hf => ?_⟩
  · exact raises (repFamily_budgetExhausted (hbudget.trans (budgetSpent_iff.mpr ⟨hd, hl⟩)))
  · have hempty : windowEmpty s.arch = true := by simp [windowEmpty, hp, hf]
    exact raises (repFamily_emptyWindow (hbudget.trans (budgetSpent_eq_false hl)) (hwindow.trans hempty))

end Sys2Proof.Machine
end

section
/-! SUPPORT. How much an operation takes at most, however it ends (R185): decisions, and with them bytes of input; `PROB` cells;
bytes of output. The bounds of a sequence add up. With it, O48. -/

namespace Sys2Proof.Machine

/-! ## Bounds, and how they add up -/

/-- From `a` to `b` at most `d` decisions were taken and `d` bytes consumed, `c` cells changed and `o` bytes appended. -/
structure Within (d c o : Nat) (a b : Arch) : Prop where
  wf : ProbMem.wf b.prob = true
  decisions : b.decisions.length ≤ a.decisions.length + d
  input : ∃ n, n ≤ d ∧ b.inPos = a.inPos + BitVec.ofNat 64 n ∧ b.inBytes = a.inBytes.drop n
  output : b.out.length ≤ a.out.length + o
  cells : ∃ cells : List Nat, cells.length ≤ c ∧ ∀ k, k ∉ cells → probRead b.prob k = probRead a.prob k

theorem Within.mono {d c o d' c' o' : Nat} {a b : Arch} (h : Within d c o a b) (hd : d ≤ d') (hc : c ≤ c') (ho : o ≤ o') :
    Within d' c' o' a b := by
  obtain ⟨n, hn, hin⟩ := h.input
  obtain ⟨cells, hlen, hcells⟩ := h.cells
  exact ⟨h.wf, Nat.le_trans h.decisions (by omega), ⟨n, Nat.le_trans hn hd, hin⟩, Nat.le_trans h.output (by omega),
    cells, Nat.le_trans hlen hc, hcells⟩

theorem Within.trans {d c o d' c' o' : Nat} {a b e : Arch} (h : Within d c o a b) (h' : Within d' c' o' b e) :
    Within (d + d') (c + c') (o + o') a e := by
  obtain ⟨n, hn, hpos, hbytes⟩ := h.input
  obtain ⟨n', hn', hpos', hbytes'⟩ := h'.input
  obtain ⟨cells, hlen, hcells⟩ := h.cells
  obtain ⟨cells', hlen', hcells'⟩ := h'.cells
  have hd := h.decisions
  have hd' := h'.decisions
  have ho := h.output
  have ho' := h'.output
  refine ⟨h'.wf, by omega, ⟨n + n', by omega, ?_, ?_⟩, by omega, cells ++ cells', ?_, fun k hk => ?_⟩
  · rw [hpos', hpos, BitVec.add_assoc, BitVec.ofNat_add]
  · rw [hbytes', hbytes, List.drop_drop]
  · rw [List.length_append]
    omega
  · rw [List.mem_append, not_or] at hk
    exact (hcells' k hk.2).trans (hcells k hk.1)

/-- However it ends, the operation stays within the bounds. -/
def Takes (d c o : Nat) (op : Op α) : Prop := ∀ a, ProbMem.wf a.prob = true → Within d c o a (endState (op a))

section

variable {d c o d' c' o' : Nat} {x : Op α} {f : α → Op β}

theorem Takes.mono (h : Takes d c o x) (hd : d ≤ d' := by omega) (hc : c ≤ c' := by omega) (ho : o ≤ o' := by omega) :
    Takes d' c' o' x :=
  fun a ha => (h a ha).mono hd hc ho

/-- The bounds of the second part may rest on what the first part's results are. -/
theorem Takes.bind_of {S : α → Prop} (hx : Takes d c o x) (hS : ∀ a r b, x a = .ok r b → S r)
    (hf : ∀ r, S r → Takes d' c' o' (f r)) : Takes (d + d') (c + c') (o + o') (x >>= f) := by
  intro a ha
  have h := hx a ha
  rw [run_bind]
  cases hr : x a with
  | ok r b =>
    rw [hr] at h
    exact h.trans (hf r (hS a r b hr) b h.wf)
  | error e b =>
    rw [hr] at h
    exact h.mono (Nat.le_add_right _ _) (Nat.le_add_right _ _) (Nat.le_add_right _ _)

theorem Takes.bind (hx : Takes d c o x) (hf : ∀ r, Takes d' c' o' (f r)) :
    Takes (d + d') (c + c') (o + o') (x >>= f) :=
  hx.bind_of (S := fun _ => True) (fun _ _ _ _ => trivial) fun r _ => hf r

theorem Takes.get_bind {f : Arch → Op β} (hf : ∀ a, Takes d c o (f a)) : Takes d c o (get >>= f) := fun a => hf a a

end

/-- What the bounds are about. -/
def measured (a : Arch) : ProbMem × List Bool × DWord × List Byte × List Byte :=
  (a.prob, a.decisions, a.inPos, a.inBytes, a.out)

/-- An operation that leaves all of it alone takes nothing. -/
theorem Keeps.takes {op : Op α} (h : Keeps measured op) : Takes 0 0 0 op := by
  intro a ha
  have hm := h a
  simp only [measured, Prod.mk.injEq] at hm
  obtain ⟨hp, hd, hpos, hbytes, hout⟩ := hm
  refine ⟨hp ▸ ha, Nat.le_of_eq (by rw [hd]; rfl), ⟨0, Nat.le_refl 0, ?_, ?_⟩, Nat.le_of_eq (by rw [hout]; rfl), [],
    Nat.le_refl 0, fun k _ => by rw [hp]⟩
  · rw [hpos, BitVec.add_zero]
  · rw [hbytes, List.drop_zero]

/-- A part that takes nothing, before the rest. -/
theorem Keeps.before {d c o : Nat} {x : Op α} {f : α → Op β} (hx : Keeps measured x) (hf : ∀ r, Takes d c o (f r)) :
    Takes d c o (x >>= f) :=
  (hx.takes.bind hf).mono

theorem Takes.pure (r : α) : Takes 0 0 0 (pure r : Op α) := (Keeps.pure r).takes

/-- A part that takes nothing, after the rest. -/
theorem Takes.then_keeps {d c o : Nat} {x : Op α} {f : α → Op β} (hx : Takes d c o x) (hf : ∀ r, Keeps measured (f r)) :
    Takes d c o (x >>= f) :=
  hx.bind fun r => (hf r).takes

/-! ## The primitive operations (R101 to R103, R142) -/

theorem rcNorm_input (a : Arch) :
    ∃ n, n ≤ 1 ∧ (endState (rcNorm a)).inPos = a.inPos + BitVec.ofNat 64 n ∧
      (endState (rcNorm a)).inBytes = a.inBytes.drop n := by
  by_cases hn : needsByte a
  · exact ⟨0, by omega, by rw [rcNorm_stop hn]; exact (BitVec.add_zero _).symm, by rw [rcNorm_stop hn]; rfl⟩
  · rw [rcNorm_ok hn, endState_ok]
    by_cases hr : a.range < 0x01000000#32
    · cases hb : a.inBytes with
      | nil => exact absurd ⟨hr, hb⟩ hn
      | cons b rest =>
        rw [normalised_cons hr hb]
        exact ⟨1, Nat.le_refl 1, rfl, rfl⟩
    · rw [normalised_of_le hr]
      exact ⟨0, by omega, (BitVec.add_zero _).symm, rfl⟩

/-- One decision took `a` to `m`, consuming nothing; the normalisation after it consumes at most one byte. -/
theorem within_rcNorm {c : Nat} {a m : Arch} (hwf : ProbMem.wf m.prob = true)
    (hlog : m.decisions.length = a.decisions.length + 1) (hin : m.inPos = a.inPos ∧ m.inBytes = a.inBytes)
    (hout : m.out = a.out)
    (hcells : ∃ cells : List Nat, cells.length ≤ c ∧ ∀ k, k ∉ cells → probRead m.prob k = probRead a.prob k) :
    Within 1 c 0 a (endState (rcNorm m)) := by
  have hkeep : Keeps (fun a => (a.prob, a.decisions, a.out)) rcNorm := rcNorm_keeps fun _ _ _ _ _ => rfl
  have hm := hkeep m
  simp only [Prod.mk.injEq] at hm
  obtain ⟨hp, hd, ho⟩ := hm
  obtain ⟨n, hn, hpos, hbytes⟩ := rcNorm_input m
  rw [hin.1] at hpos
  rw [hin.2] at hbytes
  have hlen : (endState (rcNorm m)).decisions.length = a.decisions.length + 1 := by rw [hd, hlog]
  have hsame : (endState (rcNorm m)).out.length = a.out.length + 0 := by rw [ho, hout, Nat.add_zero]
  exact ⟨hp ▸ hwf, Nat.le_of_eq hlen, ⟨n, hn, hpos, hbytes⟩, Nat.le_of_eq hsame, hp ▸ hcells⟩

theorem rcBit_takes (k : Nat) : Takes 1 1 0 (rcBit k) := by
  intro a ha
  rw [rcBit_run, endState_mapValue]
  refine within_rcNorm (probWrite_wf ha _ _) (List.length_append ..) ⟨rfl, rfl⟩ rfl ⟨[k], Nat.le_refl 1, fun j hj => ?_⟩
  exact probRead_probWrite_other ha (List.ne_of_not_mem_cons hj) _

theorem directRound_takes : Takes 1 0 0 rcDirectRound := by
  intro a ha
  rw [rcDirectRound_run, endState_mapValue]
  exact within_rcNorm (m := directStep a) ha (List.length_append ..) ⟨rfl, rfl⟩ rfl ⟨[], Nat.le_refl 0, fun _ _ => rfl⟩

theorem dwGet_keeps_measured (dist : Nat) : Keeps measured (dwGet dist) := dwGet_keeps (fun _ _ => rfl) dist

theorem dwPut_takes (b : Byte) : Takes 0 0 1 (dwPut b) := by
  intro a ha
  rw [dwPut_ok, endState_ok, putStep_eq]
  exact ⟨ha, Nat.le_refl _, ⟨0, Nat.le_refl 0, (BitVec.add_zero _).symm, rfl⟩, Nat.le_of_eq (List.length_append ..), [],
    Nat.le_refl 0, fun _ _ => rfl⟩

theorem dwCopy_takes (dist n : Nat) : Takes 0 0 n (dwCopy dist n) := by
  induction n with
  | zero => exact Takes.pure ()
  | succ n ih => exact (dwGet_keeps_measured dist).before fun b => ((dwPut_takes b).bind fun _ => ih).mono

/-! ## Trees, codes and literals -/

theorem btWalk_takes (T n m : Nat) : Takes n n 0 (btWalk T n m) := by
  induction n generalizing m with
  | zero => exact Takes.pure m
  | succ n ih => exact ((rcBit_takes _).bind fun bit => ih _).mono

theorem btFwd_takes (T n : Nat) : Takes n n 0 (btFwd T n) := (btWalk_takes T n 1).then_keeps fun _ => Keeps.pure _

theorem btRev_takes (T n : Nat) : Takes n n 0 (btRev T n) := by
  intro a ha
  rw [btRev_eq, endState_mapValue]
  exact btFwd_takes T n a ha

theorem rcDirectRounds_takes (n : Nat) (res : Word) : Takes n 0 0 (rcDirectRounds n res) := by
  induction n generalizing res with
  | zero => exact Takes.pure res
  | succ n ih => exact (directRound_takes.bind fun t => ih _).mono

/-- A length code is at most ten decisions (R78). -/
theorem lenDec_takes (inst : LenInst) (ps : BitVec 4) : Takes 10 10 0 (lenDec inst ps) := by
  refine ((rcBit_takes _).bind (d' := 9) (c' := 9) (o' := 0) fun c => ?_).mono
  cases c
  · exact (btFwd_takes _ 3).mono
  · refine ((rcBit_takes _).bind (d' := 8) (c' := 8) (o' := 0) fun c2 => ?_).mono
    cases c2
    · exact ((btFwd_takes _ 3).then_keeps fun _ => Keeps.pure _).mono
    · exact (btFwd_takes _ 8).then_keeps fun _ => Keeps.pure _

/-- What follows the slot is at most thirty decisions, and at most five on cells (R79, R212 to R215). -/
theorem distTail_takes {slot : Nat} (h : slot < 64) : Takes 30 5 0 (distTail slot) := by
  have hbits : slotDirectBits slot = slot / 2 - 1 := rfl
  unfold distTail Config.kEndPosModelIndex Config.kNumAlignBits
  split
  · exact (Takes.pure slot).mono
  · split
    · exact ((btRev_takes _ _).then_keeps fun _ => Keeps.pure _).mono
    · exact ((rcDirectRounds_takes _ _).bind fun _ => (btRev_takes _ 4).then_keeps fun _ => Keeps.pure _).mono

/-- A distance code is at most thirty-six decisions, and at most eleven on cells (R79, R216). -/
theorem distDec_takes (len : Nat) : Takes 36 11 0 (distDec len) :=
  (btFwd_takes _ 6).bind_of (fun _ _ _ h => (btFwd_eq_ok h).1) fun _ hslot =>
    (distTail_takes hslot).then_keeps fun _ => Keeps.pure _

theorem litMatched_takes (T n : Nat) (mb : Byte) (sym : Nat) : Takes n n 0 (litMatched T n mb sym) := by
  induction n generalizing mb sym with
  | zero => exact Takes.pure sym
  | succ n ih =>
    refine ((rcBit_takes _).bind (d' := n) (c' := n) (o' := 0) fun bit => ?_).mono
    split
    · exact ih _ _
    · exact btWalk_takes T n _

theorem litSymbol_takes (T : Nat) : Takes 8 8 0 (litSymbol T) := by
  refine Takes.get_bind fun a => ?_
  split
  · exact (dwGet_keeps_measured _).before fun mb => litMatched_takes T 8 mb 1
  · exact btWalk_takes T 8 1

theorem prevByte_keeps_measured : Keeps measured prevByte :=
  Keeps.get_bind fun a => by
    split
    · rfl
    · exact dwGet_keeps_measured 1 a

/-- A literal is eight decisions and one byte (R204). -/
theorem litDec_takes : Takes 8 8 1 litDec :=
  prevByte_keeps_measured.before fun _ => Takes.get_bind fun _ => (litSymbol_takes _).bind fun _ =>
    (dwPut_takes _).then_keeps fun _ => Keeps.pure _

/-! ## The symbols -/

theorem spendBudget_keeps_measured (n : Nat) : Keeps measured (spendBudget n) := Keeps.modify fun _ => by split <;> rfl

theorem finish_keeps_measured (st : Status) : Keeps measured (finish st) :=
  finish_closed (keeps_closed _).toClosed (Keeps.modify fun _ => rfl) (fun _ => Keeps.modify fun _ => rfl) st

theorem endIteration_keeps_measured (o : StepOutcome) : Keeps measured (endIteration o) := by
  cases o
  · exact Keeps.bind (Keeps.modify fun _ => rfl) fun _ => Keeps.pure _
  · exact Keeps.pure _

theorem budgetGuard_keeps_measured : Keeps measured budgetGuard := budgetGuard_closed (keeps_closed _)

theorem symLit_takes : Takes 8 8 1 symLit :=
  budgetGuard_keeps_measured.before fun _ => litDec_takes.then_keeps fun _ => Keeps.bind (Keeps.modify fun _ => rfl) fun _ =>
    (spendBudget_keeps_measured 1).bind fun _ => Keeps.pure _

/-- A copy appends no more than its length, which the budget may clamp (R178). -/
theorem copyTail_takes {len : Nat} (h : len ≤ 271) : Takes 0 0 273 (copyTail len) := by
  refine Takes.get_bind fun a => ((dwCopy_takes _ _).then_keeps fun _ => (spendBudget_keeps_measured _).bind fun _ =>
    (Keeps.raiseIf _ _).bind fun _ => Keeps.pure _).mono (ho := ?_)
  have hle : clamped a (len + 2) ≤ len + 2 := clamped_le a (len + 2)
  exact Nat.le_trans hle (by omega)

theorem matchTail_takes {len : Nat} (h : len ≤ 271) : Takes 0 0 273 (matchTail len) := by
  refine Takes.get_bind fun a => ?_
  split
  · exact (symEos_closed (keeps_closed _) finish_keeps_measured).takes.mono
  · exact budgetGuard_keeps_measured.before fun _ => (Keeps.raiseIf _ _).before fun _ => copyTail_takes h

theorem symMatch_takes (ps : BitVec 4) : Takes 46 21 273 (symMatch ps) :=
  (Keeps.modify fun _ => rfl : Keeps measured rotateReps).before fun _ =>
    (lenDec_takes .len ps).bind_of (fun _ _ _ => lenDec_le) fun len hlen =>
    (Keeps.modify fun _ => rfl : Keeps measured stMatch).before fun _ => (distDec_takes len).bind fun d =>
    (Keeps.modify fun _ => rfl : Keeps measured (setRep0 d)).before fun _ => matchTail_takes hlen

theorem symShortrep_takes : Takes 0 0 1 symShortrep :=
  (Keeps.modify fun _ => rfl : Keeps measured stShortrep).before fun _ => Takes.get_bind fun _ =>
    (dwGet_keeps_measured _).before fun b => (dwPut_takes b).then_keeps fun _ =>
    (spendBudget_keeps_measured 1).bind fun _ => Keeps.pure _

theorem repTail_takes (ps : BitVec 4) : Takes 10 10 273 (repTail ps) :=
  (lenDec_takes .rep ps).bind_of (fun _ _ _ => lenDec_le) fun _ hlen =>
    (Keeps.modify fun _ => rfl : Keeps measured stRep).before fun _ => copyTail_takes hlen

theorem repFamily_takes (st : Fin 12) (ps : BitVec 4) : Takes 13 13 273 (repFamily st ps) := by
  have reordered {f : Arch → Arch} (hf : ∀ a, measured (f a) = measured a) :
      Takes 10 10 273 (modify f >>= fun _ => repTail ps) := (Keeps.modify hf).before fun _ => repTail_takes ps
  refine (repGuards_closed (keeps_closed _)).before fun _ =>
    ((rcBit_takes _).bind (d' := 12) (c' := 12) (o' := 273) fun g0 => ?_).mono
  cases g0
  · refine ((rcBit_takes _).bind (d' := 10) (c' := 10) (o' := 273) fun long => ?_).mono
    cases long
    · exact symShortrep_takes.mono
    · exact repTail_takes ps
  · refine ((rcBit_takes _).bind (d' := 11) (c' := 11) (o' := 273) fun g1 => ?_).mono
    cases g1
    · exact Takes.mono (d := 10) (c := 10) (o := 273) (reordered fun _ => rfl)
    · refine ((rcBit_takes _).bind (d' := 10) (c' := 10) (o' := 273) fun g2 => ?_).mono
      cases g2
      · exact reordered fun _ => rfl
      · exact reordered fun _ => rfl

/-- The longest symbol is a match (R185). -/
theorem decodeIteration_takes (st : Fin 12) (ps : BitVec 4) : Takes 48 23 273 (decodeIteration st ps) := by
  refine ((rcBit_takes _).bind (d' := 47) (c' := 22) (o' := 273) fun m => ?_).mono
  cases m
  · exact symLit_takes.mono
  · refine ((rcBit_takes _).bind (d' := 46) (c' := 21) (o' := 273) fun r => ?_).mono
    cases r
    · exact symMatch_takes ps
    · exact (repFamily_takes st ps).mono

theorem mainStep_takes : Takes 48 23 273 mainStep := by
  refine (Keeps.modify fun _ => rfl : Keeps measured (setPhase .symbol)).before fun _ => Takes.get_bind fun a =>
    (?_ : Keeps measured (endTestFlush a)).before fun _ => ?_
  · exact Keeps.ite (Keeps.modify fun _ => rfl) (Keeps.pure ())
  · split
    · exact (finish_keeps_measured _).takes.mono
    · exact (decodeIteration_takes _ _).then_keeps endIteration_keeps_measured

/-- Settles O48: the bounds of the longest way through an iteration (`decodeIteration_takes`), whatever stops it. -/
theorem iterationIsBounded : Obligations.IterationIsBounded := by
  intro s t hwf h
  have hprob : ProbMem.wf (opStart s.arch).prob = true := (Bool.and_eq_true_iff.mp hwf).2
  have hop : Within 48 23 273 (opStart s.arch) (endState (answer .step mainStep (opStart s.arch))) :=
    (mainStep_takes.then_keeps fun _ => Keeps.pure _) _ hprob
  have ht : Within 48 23 273 (opStart s.arch) t.arch :=
    exec_leaves h nofun (fun c a ha => ⟨ha.wf, ha.decisions, ha.input, ha.output, ha.cells⟩) hop
  exact ⟨Nat.le_trans ht.decisions (Nat.le_of_eq (Nat.zero_add 48)), ht.input, ht.output, ht.cells⟩

end Sys2Proof.Machine
end

section
/-! SUPPORT. The eight decisions of a literal (R200 to R204): in both modes the walk ends at a leading 1 followed by the byte's
bits and moves one cell for each bit; in matched mode the cell's index depends on how long the byte agrees with the match byte.
With it, O29 and O30. -/

namespace Sys2Proof.Machine

/-! ## Cells that move by the bits of a number -/

/-- From `p` to `q` the cell `f i` moves by bit `i` of `r` (R102), for the `n` lowest bits, and no other cell changes. -/
structure AdaptsByBits (n r : Nat) (f : Nat → Nat) (p q : ProbMem) : Prop where
  visited : ∀ i < n, probRead q (f i) = moved (r.testBit i) (probRead p (f i))
  unvisited : ∀ k, (∀ i < n, k ≠ f i) → probRead q k = probRead p k

theorem AdaptsPath.adaptsByBits {T n r : Nat} {f : Nat → Nat} {p q : ProbMem} (h : AdaptsPath T n r p q)
    (hf : ∀ i < n, f i = T + r / 2 ^ (i + 1)) : AdaptsByBits n r f p q := by
  refine ⟨fun i hi => ?_, fun k hk => h.unvisited k fun i hi => hf i hi ▸ hk i hi⟩
  rw [hf i hi]
  exact h.visited i hi

/-- The cell of the highest bit moves first, and none of the others is that cell. -/
theorem AdaptsByBits.cons {n r : Nat} {f : Nat → Nat} {p q : ProbMem} (hp : ProbMem.wf p = true)
    (hne : ∀ i < n, f i ≠ f n) (h : AdaptsByBits n r f (probWrite p (f n) (moved (r.testBit n) (probRead p (f n)))) q) :
    AdaptsByBits (n + 1) r f p q := by
  refine ⟨fun i hi => ?_, fun k hk => ?_⟩
  · rcases Nat.lt_succ_iff_lt_or_eq.mp hi with hlt | rfl
    · rw [h.visited i hlt, probRead_probWrite_other hp (hne i hlt)]
    · rw [h.unvisited _ fun j hj => (hne j hj).symm, probRead_probWrite_same hp]
  · rw [h.unvisited k fun i hi => hk i (Nat.lt_succ_of_lt hi), probRead_probWrite_other hp (hk n (Nat.lt_succ_self n))]

/-- The same counted by decisions, the first one for the highest bit. -/
theorem AdaptsByBits.by_decision {n v : Nat} {g : Nat → Nat} {p q : ProbMem}
    (h : AdaptsByBits n (2 ^ n + v) (fun i => g (n - 1 - i)) p q) :
    (∀ j < n, probRead q (g j) = moved (v.testBit (n - 1 - j)) (probRead p (g j))) ∧
      ∀ k, (∀ j < n, k ≠ g j) → probRead q k = probRead p k := by
  refine ⟨fun j hj => ?_, fun k hk => h.unvisited k fun i hi => hk _ (by omega)⟩
  have hmove := h.visited (n - 1 - j) (by omega)
  rwa [Nat.sub_sub_self (by omega), Nat.testBit_two_pow_add_gt (by omega)] at hmove

/-! ## The index of a literal's decision (R202, R203) -/

/-- The node of bit `i` of a literal: a leading 1 and the bits above `i`. -/
theorem literal_node (v : Byte) {i : Nat} (hi : i < 8) :
    (0x100 + v.toNat) / 2 ^ (i + 1) = 2 ^ (7 - i) + v.toNat / 2 ^ (i + 1) := by
  have hnode := two_pow_add_div v.toNat (n := 8) (j := 7 - i) (by omega)
  rwa [show 8 - (7 - i) = i + 1 by omega] at hnode

theorem literal_node_pos (v : Byte) {n : Nat} (hn : n ≤ 8) : 0 < (0x100 + v.toNat) / 2 ^ n :=
  Nat.div_pos (Nat.le_trans (Nat.pow_le_pow_right (by decide) hn) (Nat.le_add_right _ _)) (Nat.two_pow_pos n)

theorem literal_testBit (v : Byte) {i : Nat} (hi : i < 8) : (0x100 + v.toNat).testBit i = v.toNat.testBit i :=
  Nat.testBit_two_pow_add_gt hi v.toNat

theorem literalIndex_plain (mb b : Byte) {i : Nat} (hi : i < 8) :
    literalIndex false mb b (7 - i) = (0x100 + b.toNat) / 2 ^ (i + 1) := by
  unfold literalIndex
  rw [if_neg (by simp), show 8 - (7 - i) = i + 1 by omega]

/-- While the byte agrees with the match byte above bit `i`, the decision of bit `i` is a matched one. -/
theorem literalIndex_of_agree {mb b : Byte} {i : Nat} (hi : i < 8)
    (h : (0x100 + mb.toNat) / 2 ^ (i + 1) = (0x100 + b.toNat) / 2 ^ (i + 1)) :
    literalIndex true mb b (7 - i) = matchedIndex (mb.toNat.testBit i) ((0x100 + b.toNat) / 2 ^ (i + 1)) := by
  have hbit : (mb.toNat.testBit i).toNat = mb.toNat / 2 ^ i % 2 := Nat.toNat_testBit _ _
  have hagree : mb.toNat / 2 ^ (i + 1) = b.toNat / 2 ^ (i + 1) := by
    rw [literal_node mb hi, literal_node b hi] at h
    exact Nat.add_left_cancel h
  unfold literalIndex matchedIndex
  rw [show 8 - (7 - i) = i + 1 by omega, show 7 - (7 - i) = i by omega, if_pos ⟨rfl, hagree⟩, hbit]

/-- Where the byte and the match byte do not agree above bit `i`, the decision of bit `i` is a plain one. -/
theorem literalIndex_of_differ {mb b : Byte} {i : Nat} (hi : i < 8)
    (h : (0x100 + mb.toNat) / 2 ^ (i + 1) ≠ (0x100 + b.toNat) / 2 ^ (i + 1)) :
    literalIndex true mb b (7 - i) = (0x100 + b.toNat) / 2 ^ (i + 1) := by
  have hdiffer : mb.toNat / 2 ^ (i + 1) ≠ b.toNat / 2 ^ (i + 1) := by
    rw [literal_node mb hi, literal_node b hi] at h
    exact fun heq => h (congrArg _ heq)
  unfold literalIndex
  rw [show 8 - (7 - i) = i + 1 by omega, if_neg fun hc => hdiffer hc.2]

theorem testBit_eq_of_div_eq {x y i n : Nat} (h : x / 2 ^ i = y / 2 ^ i) (hi : i ≤ n) : x.testBit n = y.testBit n := by
  rw [← Nat.sub_add_cancel hi, ← Nat.testBit_div_two_pow, ← Nat.testBit_div_two_pow, h]

theorem literalIndex_of_mismatch {mb b : Byte} {i n : Nat} (hi : i < n) (hn : n < 8)
    (h : (0x100 + mb.toNat).testBit n ≠ (0x100 + b.toNat).testBit n) :
    literalIndex true mb b (7 - i) = (0x100 + b.toNat) / 2 ^ (i + 1) :=
  literalIndex_of_differ (Nat.lt_trans hi hn) fun heq => h (testBit_eq_of_div_eq heq hi)

/-- A node is numbered below those under it. -/
theorem node_lt_of_above {r i n : Nat} (hi : i < n) (hroot : 0 < r / 2 ^ n) : r / 2 ^ (n + 1) < r / 2 ^ (i + 1) := by
  have hhalf : r / 2 ^ (n + 1) < r / 2 ^ n := by
    rw [Nat.pow_succ, ← Nat.div_div_eq_div_mul]
    exact Nat.div_lt_self hroot (by decide)
  exact Nat.lt_of_lt_of_le hhalf (Nat.div_le_div_left (Nat.pow_le_pow_right (by decide) hi) (Nat.two_pow_pos _))

theorem le_matchedIndex (s : Bool) (x : Nat) : 256 ≤ matchedIndex s x := by
  unfold matchedIndex
  omega

theorem matchedIndex_ne {s t : Bool} {x y : Nat} (hx : x < 256) (hy : y < 256) (h : x ≠ y) :
    matchedIndex s x ≠ matchedIndex t y := by
  unfold matchedIndex
  omega

/-- A matched decision's cell is that of no later decision: a plain index is below 256, and a matched one tells its node. -/
theorem literalIndex_ne_of_later {mb b : Byte} {i n : Nat} (hi : i < n) (hn : n < 8)
    (h : (0x100 + mb.toNat) / 2 ^ (n + 1) = (0x100 + b.toNat) / 2 ^ (n + 1)) :
    literalIndex true mb b (7 - i) ≠ literalIndex true mb b (7 - n) := by
  have hlt := node_lt_of_above hi (literal_node_pos b (Nat.le_of_lt hn))
  have hsmall : (0x100 + b.toNat) / 2 ^ (i + 1) < 256 := by
    have hle : (0x100 + b.toNat) / 2 ^ (i + 1) ≤ (0x100 + b.toNat) / 2 ^ 1 :=
      Nat.div_le_div_left (Nat.pow_le_pow_right (by decide) (by omega)) (by decide)
    have hbyte := b.isLt
    omega
  rw [literalIndex_of_agree hn h]
  by_cases hagree : (0x100 + mb.toNat) / 2 ^ (i + 1) = (0x100 + b.toNat) / 2 ^ (i + 1)
  · rw [literalIndex_of_agree (Nat.lt_trans hi hn) hagree]
    exact matchedIndex_ne hsmall (Nat.lt_trans hlt hsmall) (Nat.ne_of_gt hlt)
  · rw [literalIndex_of_differ (Nat.lt_trans hi hn) hagree]
    exact Nat.ne_of_lt (Nat.lt_of_lt_of_le hsmall (le_matchedIndex _ _))

/-! ## The matched walk (R203) -/

/-- A matched walk that completes took its first decision at its node's matched cell and went on from the child, plain after
a mismatch. -/
theorem litMatched_succ_eq_ok {T n sym r : Nat} {mb : Byte} {a c : Arch} (h : litMatched T (n + 1) mb sym a = .ok r c) :
    ∃ k bit b, k = T + matchedIndex mb.msb sym ∧ bit = bitOf k a ∧ b = normalised (bitStep k a) ∧
      ((mb.msb = bit ∧ litMatched T n (mb <<< 1) (2 * sym + bit.toNat) b = .ok r c) ∨
       (mb.msb ≠ bit ∧ btWalk T n (2 * sym + bit.toNat) b = .ok r c)) := by
  obtain ⟨bit, b, hbit, hrest⟩ := bind_ok_iff.mp h
  obtain ⟨hval, hstate⟩ := rcBit_eq_ok hbit
  refine ⟨_, bit, b, rfl, hval, hstate, ?_⟩
  split at hrest
  · exact .inl ⟨‹_›, hrest⟩
  · exact .inr ⟨‹_›, hrest⟩

/-- The walk ends below the node it began at, and its decisions are the bits of the node it ends at. -/
theorem litMatched_spells {T n sym r : Nat} {mb : Byte} {a c : Arch} (h : litMatched T n mb sym a = .ok r c) :
    r / 2 ^ n = sym ∧ c.decisions = a.decisions ++ bitsMSB n r := by
  induction n generalizing mb sym a with
  | zero =>
    cases h
    exact ⟨Nat.div_one _, (List.append_nil _).symm⟩
  | succ n ih =>
    obtain ⟨k, bit, b, -, rfl, rfl, hrest⟩ := litMatched_succ_eq_ok h
    have hbelow : r / 2 ^ n = 2 * sym + (bitOf k a).toNat ∧
        c.decisions = (normalised (bitStep k a)).decisions ++ bitsMSB n r := by
      rcases hrest with ⟨-, hmatched⟩ | ⟨-, hplain⟩
      · exact ih hmatched
      · exact ⟨btWalk_node hplain, btWalk_decisions hplain⟩
    obtain ⟨hchild, hlog⟩ := hbelow
    constructor
    · have hbit := Bool.toNat_le (bitOf k a)
      rw [Nat.pow_succ, ← Nat.div_div_eq_div_mul, hchild]
      omega
    · rw [hlog, normalised_decisions, bitsMSB, testBit_of_child hchild]
      exact List.append_assoc a.decisions [_] _

/-- A number's node is a child of the one above it, by the number's bit. -/
theorem div_two_pow_eq_child (m n : Nat) : m / 2 ^ n = 2 * (m / 2 ^ (n + 1)) + (m.testBit n).toNat := by
  rw [Nat.toNat_testBit, Nat.pow_succ, ← Nat.div_div_eq_div_mul]
  exact (Nat.div_add_mod _ 2).symm

/-- As long as the byte agrees with the match byte the walk stands at a node of both, with the match byte's other bits to go;
each of its decisions moves the cell of its index. -/
theorem litMatched_adapts {T n sym : Nat} {mb b rest : Byte} {a c : Arch} (hn : n ≤ 8)
    (hsym : sym = (0x100 + mb.toNat) / 2 ^ n) (hrest : ∀ i < n, rest.getMsbD (n - 1 - i) = mb.toNat.testBit i)
    (hwf : ProbMem.wf a.prob = true) (h : litMatched T n rest sym a = .ok (0x100 + b.toNat) c) :
    AdaptsByBits n (0x100 + b.toNat) (fun i => T + literalIndex true mb b (7 - i)) a.prob c.prob := by
  induction n generalizing rest sym a with
  | zero =>
    cases h
    exact ⟨fun i hi => absurd hi (Nat.not_lt_zero i), fun _ _ => rfl⟩
  | succ n ih =>
    obtain ⟨hagree, -⟩ := litMatched_spells h
    rw [hsym] at hagree
    have hmsb : rest.msb = mb.toNat.testBit n := by
      have hnext := hrest n (Nat.lt_succ_self n)
      rwa [Nat.add_sub_cancel, Nat.sub_self] at hnext
    have hindex : matchedIndex rest.msb sym = literalIndex true mb b (7 - n) := by
      rw [literalIndex_of_agree hn hagree.symm, hmsb, hagree, hsym]
    obtain ⟨k, bit, m, hk, hbit, rfl, hgoesOn⟩ := litMatched_succ_eq_ok h
    rw [hindex] at hk
    have hwf' : ProbMem.wf (normalised (bitStep k a)).prob = true := by
      rw [normalised_prob]
      exact probWrite_wf hwf _ _
    obtain ⟨hchild, hbelow⟩ : (0x100 + b.toNat) / 2 ^ n = 2 * sym + bit.toNat ∧
        AdaptsByBits n (0x100 + b.toNat) (fun i => T + literalIndex true mb b (7 - i)) (normalised (bitStep k a)).prob
          c.prob := by
      rcases hgoesOn with ⟨hsame, hmatched⟩ | ⟨hmiss, hplain⟩
      · refine ⟨(litMatched_spells hmatched).1, ih (Nat.le_of_succ_le hn) ?_ (fun i hi => ?_) hwf' hmatched⟩
        · rw [div_two_pow_eq_child _ n, literal_testBit mb hn, ← hmsb, hsame, hsym]
        · rw [BitVec.getMsbD_shiftLeft, ← hrest i (Nat.lt_succ_of_lt hi)]
          congr 1
          omega
      · have hchild := btWalk_node hplain
        have hpos : 0 < 2 * sym + bit.toNat := hchild ▸ literal_node_pos b (Nat.le_of_succ_le hn)
        have hdiffer : (0x100 + mb.toNat).testBit n ≠ (0x100 + b.toNat).testBit n := by
          rwa [literal_testBit mb hn, ← hmsb, testBit_of_child hchild]
        exact ⟨hchild, (btWalk_adapts hpos hwf' hplain).adaptsByBits fun i hi =>
          congrArg (T + ·) (literalIndex_of_mismatch hi hn hdiffer)⟩
    rw [normalised_prob, bitStep_prob, ← hbit, ← testBit_of_child hchild, hk] at hbelow
    exact hbelow.cons (f := fun i => T + literalIndex true mb b (7 - i)) hwf fun i hi heq =>
      literalIndex_ne_of_later hi hn hagree.symm (Nat.add_left_cancel heq)

/-! ## The eight decisions (R204) -/

/-- A literal's decisions in the table `T` are a plain walk, or in state 7 and above a matched one against a byte that is
read at `rep0 + 1` first. -/
theorem litSymbol_eq_ok {T r : Nat} {a c : Arch} (h : litSymbol T a = .ok r c) :
    (¬ 7 ≤ a.state.val ∧ btWalk T 8 1 a = .ok r c) ∨
    (7 ≤ a.state.val ∧ ∃ mb n, readsAs a (a.rep0.toNat + 1) mb ∧
      litMatched T 8 mb 1 { a with fillReads := n } = .ok r c) := by
  unfold litSymbol at h
  rw [run_get_bind] at h
  split at h
  · next hs =>
    obtain ⟨mb, n, hget, hreads⟩ := dwGet_ok (a.rep0.toNat + 1) a
    rw [run_bind_ok hget] at h
    exact .inr ⟨hs, mb, n, hreads, h⟩
  · next hs => exact .inl ⟨hs, h⟩

/-- They end at a leading 1 followed by a byte, and are that byte's bits. -/
theorem litSymbol_spells {T r : Nat} {a c : Arch} (h : litSymbol T a = .ok r c) :
    ∃ b : Byte, r = 0x100 + b.toNat ∧ c.decisions = a.decisions ++ bitsMSB 8 b.toNat := by
  have hwalk : r / 2 ^ 8 = 1 ∧ c.decisions = a.decisions ++ bitsMSB 8 r := by
    rcases litSymbol_eq_ok h with ⟨-, hplain⟩ | ⟨-, mb, n, -, hmatched⟩
    · exact ⟨btWalk_node hplain, btWalk_decisions hplain⟩
    · exact (litMatched_spells hmatched :)
  obtain ⟨hnode, hlog⟩ := hwalk
  obtain ⟨b, rfl⟩ : ∃ b : Byte, r = 0x100 + b.toNat := by
    refine ⟨BitVec.ofNat 8 (r - 0x100), ?_⟩
    rw [BitVec.toNat_ofNat]
    omega
  exact ⟨b, rfl, hlog.trans (congrArg (a.decisions ++ ·) (bitsMSB_two_pow_add 8 b.toNat))⟩

/-- Each of the eight moves the cell of its index by its bit (R202, R203). -/
theorem litSymbol_adapts {T : Nat} {b : Byte} {a c : Arch} (hwf : ProbMem.wf a.prob = true)
    (h : litSymbol T a = .ok (0x100 + b.toNat) c) :
    ∃ mb, (7 ≤ a.state.val → readsAs a (a.rep0.toNat + 1) mb) ∧
      AdaptsByBits 8 (0x100 + b.toNat) (fun i => T + literalIndex (decide (7 ≤ a.state.val)) mb b (7 - i)) a.prob
        c.prob := by
  rcases litSymbol_eq_ok h with ⟨hs, hplain⟩ | ⟨hs, mb, n, hreads, hmatched⟩
  · refine ⟨0#8, fun h7 => absurd h7 hs, (btWalk_adapts Nat.one_pos hwf hplain).adaptsByBits fun i hi => ?_⟩
    rw [decide_eq_false hs, literalIndex_plain _ _ hi]
  · refine ⟨mb, fun _ => hreads, ?_⟩
    have hroot : 1 = (0x100 + mb.toNat) / 2 ^ 8 := by
      have hbyte := mb.isLt
      omega
    have hbits : ∀ i < 8, mb.getMsbD (8 - 1 - i) = mb.toNat.testBit i := by
      intro i hi
      rw [BitVec.getMsbD_eq_getLsbD, BitVec.getLsbD, decide_eq_true (by omega), Bool.true_and]
      congr 1
      omega
    rw [decide_eq_true hs]
    exact litMatched_adapts (a := { a with fillReads := n }) (Nat.le_refl 8) hroot hbits hwf hmatched

/-! ## LIT.DEC (R204) -/

/-- The output and the window's cursor. -/
def outputAndCursor (a : Arch) : List Byte × DWord × Word × Word := (a.out, a.totalPos, a.pos, a.size)

theorem litSymbol_keeps_outputAndCursor (T : Nat) : Keeps outputAndCursor (litSymbol T) :=
  litSymbol_closed (keeps_closed _) (fun _ _ _ => rcBit_keeps (fun _ _ _ _ _ _ => rfl) fun _ _ => rfl)
    fun dist => dwGet_keeps (fun _ _ => rfl) dist

def stateAndReps (a : Arch) : Fin 12 × Word × Word × Word × Word := (a.state, a.rep0, a.rep1, a.rep2, a.rep3)

theorem litDec_keeps_stateAndReps : Keeps stateAndReps litDec :=
  litDec_closed (keeps_closed _) (fun _ _ => rcBit_keeps (fun _ _ _ _ _ _ => rfl) fun _ _ => rfl)
    (fun dist => dwGet_keeps (fun _ _ => rfl) dist) fun b => dwPut_keeps (fun _ _ _ _ _ _ _ => rfl) b

/-- LIT.DEC that completes read the previous byte, took the eight decisions of its answer in the context's table, and put the
answer into the window. -/
theorem litDec_eq_ok {a c : Arch} {b : Byte} (h : litDec a = .ok b c) :
    ∃ prev n m, previousByte a prev ∧
      litSymbol (litTable (litState a prev)) { a with fillReads := n } = .ok (0x100 + b.toNat) m ∧ c = putStep b m := by
  obtain ⟨prev, n, hget, hprev⟩ := prevByte_ok a
  unfold litDec at h
  rw [run_bind_ok hget, run_get_bind] at h
  obtain ⟨r, m, hsym, hput⟩ := bind_ok_iff.mp h
  obtain ⟨v, rfl, -⟩ := litSymbol_spells hsym
  rw [Nat.add_sub_cancel_left, BitVec.ofNat_toNat, BitVec.setWidth_eq, run_bind_ok (dwPut_ok v m)] at hput
  cases hput
  exact ⟨prev, n, m, hprev, hsym, rfl⟩

@[simp] theorem putStep_decisions (b : Byte) (a : Arch) : (putStep b a).decisions = a.decisions := by rw [putStep_eq]
@[simp] theorem putStep_prob (b : Byte) (a : Arch) : (putStep b a).prob = a.prob := by rw [putStep_eq]

/-- Settles O29: the eight decisions spell the byte and leave the window alone, and the put does the rest. -/
theorem litDecAppendsLiteral : Obligations.LitDecAppendsLiteral := by
  intro s hlen
  obtain ⟨b, c, hlit, -, -⟩ := litDec_completes (opStart s.arch) hlen
  have hregs : stateAndReps c = stateAndReps s.arch := (litDec_keeps_stateAndReps.ok_eq hlit :)
  simp only [stateAndReps, Prod.mk.injEq] at hregs
  obtain ⟨prev, n, m, -, hsym, rfl⟩ := litDec_eq_ok hlit
  have hwindow : outputAndCursor m = outputAndCursor s.arch := ((litSymbol_keeps_outputAndCursor _).ok_eq hsym :)
  simp only [outputAndCursor, Prod.mk.injEq] at hwindow
  obtain ⟨hout, htotal, hpos, hsize⟩ := hwindow
  obtain ⟨v, hv, hlog⟩ := litSymbol_spells hsym
  obtain rfl : b = v := BitVec.eq_of_toNat_eq (Nat.add_left_cancel hv)
  rw [← hout, ← htotal, ← hpos, ← hsize]
  refine ⟨_, b, exec_answer_ok rfl rfl hlit, rfl, rfl, (putStep_decisions b m).trans hlog, putStep_out b m,
    fun hcell => ?_, putStep_totalPos b m, putStep_pos b m, hregs⟩
  show dictRead (putStep b m).buf m.pos.toNat = some b
  rw [putStep_buf, storedBuf_pos hcell, dictRead_dictWrite_same]

/-- Settles O30: the table is that of the previous byte's context, and a put leaves `PROB`. -/
theorem literalAdaptsItsCells : Obligations.LiteralAdaptsItsCells := by
  intro s t b hwf ht hb
  have hprob : ProbMem.wf s.arch.prob = true := (Bool.and_eq_true_iff.mp hwf).2
  obtain ⟨-, -, x, hlit, hx⟩ := exec_answered (f := .byte) rfl ht hb (by simp)
  cases hx
  obtain ⟨prev, n, m, hprev, hsym, hput⟩ := litDec_eq_ok hlit
  obtain ⟨mb, hmb, hcells⟩ := litSymbol_adapts (a := { opStart s.arch with fillReads := n }) hprob hsym
  obtain ⟨hvisited, hunvisited⟩ := hcells.by_decision
    (g := fun j => litTable (litState s.arch prev) + literalIndex (decide (7 ≤ s.arch.state.val)) mb b j)
  rw [← putStep_prob b m, ← hput] at hvisited hunvisited
  refine ⟨prev, mb, hprev, hmb, ?_⟩
  intro ls index
  have hindex (j : Nat) : index j =
      litTable (litState s.arch prev) + literalIndex (decide (7 ≤ s.arch.state.val)) mb b j := (Nat.add_assoc _ _ _).symm
  refine ⟨fun j hj => ?_, fun k hk => hunvisited k fun j hj => hindex j ▸ hk j hj⟩
  show _ = BitVec.ofNat 11 _
  rw [← adapted_eq, hindex j]
  exact hvisited j hj

end Sys2Proof.Machine
end

section
/-! SUPPORT. What a distance code says (R79, R212 to R216): six decisions for the slot, then the bits of what the distance has
above the slot's base; the ranges of R213 give the slot back. A reverse tree spells a number's bits from the lowest, the direct
bits from the highest. With it, O16. -/

namespace Sys2Proof.Machine

/-! ## The bits of a reversed number (R82) -/

theorem bitsMSB_length (n v : Nat) : (bitsMSB n v).length = n := by
  induction n with
  | zero => rfl
  | succ n ih => exact congrArg (· + 1) ih

theorem ofBitsLSB_lt (ds : List Bool) : ofBitsLSB ds < 2 ^ ds.length := by
  induction ds with
  | nil => exact Nat.one_pos
  | cons d ds ih =>
    have hd := Bool.toNat_le d
    rw [ofBitsLSB, List.length_cons, Nat.pow_succ]
    omega

theorem bitsLSB_ofBitsLSB (ds : List Bool) : bitsLSB ds.length (ofBitsLSB ds) = ds := by
  induction ds with
  | nil => rfl
  | cons d ds ih =>
    have hhead : (d.toNat + 2 * ofBitsLSB ds).testBit 0 = d := by cases d <;> simp [Nat.testBit_zero]
    have htail : (d.toNat + 2 * ofBitsLSB ds) / 2 = ofBitsLSB ds := by
      have hd := Bool.toNat_le d
      omega
    rw [List.length_cons, ofBitsLSB, bitsLSB, hhead, htail, ih]

/-- BT.REV answers a number of `n` bits, and its decisions are those bits from the lowest (R122). -/
theorem btRev_eq_ok {T n v : Nat} {a c : Arch} (h : btRev T n a = .ok v c) :
    v < 2 ^ n ∧ c.decisions = a.decisions ++ bitsLSB n v := by
  rw [btRev_eq] at h
  cases hfwd : btFwd T n a with
  | error e b => rw [hfwd] at h; cases h
  | ok w b =>
    rw [hfwd] at h
    cases h
    have hlt := ofBitsLSB_lt (bitsMSB n w)
    have hbits := bitsLSB_ofBitsLSB (bitsMSB n w)
    rw [bitsMSB_length] at hlt hbits
    exact ⟨hlt, by rw [hbits]; exact btFwd_decisions hfwd⟩

/-! ## The bits of RC.DIRECT (R103) -/

/-- A round that completes decides on the sign of the difference. -/
theorem rcDirectRound_eq_ok {a b : Arch} {t : Word} (h : rcDirectRound a = .ok t b) :
    t + 1#32 = BitVec.ofNat 32 (!directSign a).toNat ∧ b.decisions = a.decisions ++ [!directSign a] := by
  by_cases hn : needsByte (directStep a)
  · rw [rcDirectRound_stop hn] at h
    cases h
  · rw [rcDirectRound_ok hn] at h
    cases h
    refine ⟨?_, normalised_decisions _⟩
    unfold signMask directSign
    cases (a.code - a.range >>> 1).msb <;> rfl

/-- A number of `m` bits above one of `n` bits has `m + n` bits. -/
theorem two_pow_mul_add_lt {m n hi lo : Nat} (hhi : hi < 2 ^ m) (hlo : lo < 2 ^ n) : 2 ^ n * hi + lo < 2 ^ (m + n) :=
  calc 2 ^ n * hi + lo < 2 ^ n * (hi + 1) := Nat.add_lt_add_left hlo _
    _ ≤ 2 ^ n * 2 ^ m := Nat.mul_le_mul_left _ hhi
    _ = 2 ^ (m + n) := by rw [Nat.mul_comm, Nat.pow_add]

theorem two_pow_mul_bit_add_lt {n w : Nat} (bit : Bool) (hw : w < 2 ^ n) : 2 ^ n * bit.toNat + w < 2 ^ (n + 1) := by
  have hbit : bit.toNat < 2 ^ 1 := Nat.lt_succ_of_le (Bool.toNat_le bit)
  rw [Nat.add_comm n 1]
  exact two_pow_mul_add_lt hbit hw

theorem toNat_bit_shiftLeft_add {n : Nat} {w : Word} (bit : Bool) (hn : n < 32) (hw : w.toNat < 2 ^ n) :
    (BitVec.ofNat 32 bit.toNat <<< n + w).toNat = 2 ^ n * bit.toNat + w.toNat := by
  have hbit : (BitVec.ofNat 32 bit.toNat).toNat = bit.toNat := by cases bit <;> rfl
  have hlt : 2 ^ n * bit.toNat + w.toNat < 2 ^ 32 :=
    Nat.lt_of_lt_of_le (two_pow_mul_bit_add_lt bit hw) (Nat.pow_le_pow_right (by decide) hn)
  rw [BitVec.toNat_add, BitVec.toNat_shiftLeft, hbit, Nat.shiftLeft_eq, Nat.mul_comm, Nat.mod_add_mod, Nat.mod_eq_of_lt hlt]

theorem bitsMSB_succ_bit_add {n w : Nat} (bit : Bool) (hw : w < 2 ^ n) :
    bitsMSB (n + 1) (2 ^ n * bit.toNat + w) = bit :: bitsMSB n w := by
  have htop : (2 ^ n * bit.toNat + w).testBit n = bit := testBit_of_child (m := 0) <| by
    rw [Nat.mul_add_div (Nat.two_pow_pos n), Nat.div_eq_of_lt hw, Nat.add_zero, Nat.mul_zero, Nat.zero_add]
  have hlow : bitsMSB n (2 ^ n * bit.toNat + w) = bitsMSB n w := by
    cases bit
    · rw [Bool.toNat_false, Nat.mul_zero, Nat.zero_add]
    · rw [Bool.toNat_true, Nat.mul_one, bitsMSB_two_pow_add]
  rw [bitsMSB, htop, hlow]

/-- RC.DIRECT answers a number of `n` bits, and its decisions are those bits from the highest (R103). -/
theorem rcDirect_eq_ok {n : Nat} {v : Word} {a c : Arch} (hn : n ≤ 32) (h : rcDirect n a = .ok v c) :
    v.toNat < 2 ^ n ∧ c.decisions = a.decisions ++ bitsMSB n v.toNat := by
  induction n generalizing v a c with
  | zero =>
    cases h
    exact ⟨Nat.one_pos, (List.append_nil _).symm⟩
  | succ n ih =>
    rw [rcDirect_succ_run] at h
    obtain ⟨t, b, hround, hrest⟩ := bind_ok_iff.mp h
    obtain ⟨hbit, hlog⟩ := rcDirectRound_eq_ok hround
    rw [rcDirectRounds_eq] at hrest
    cases hlow : rcDirect n b with
    | error e d => rw [hlow] at hrest; cases hrest
    | ok w d =>
      rw [hlow] at hrest
      cases hrest
      obtain ⟨hw, hds⟩ := ih (by omega) hlow
      rw [hbit, toNat_bit_shiftLeft_add _ hn hw, bitsMSB_succ_bit_add _ hw, hds, hlog, List.append_assoc]
      exact ⟨two_pow_mul_bit_add_lt _ hw, rfl⟩

/-! ## The code of a distance (R79, R213) -/

/-- The decisions after the slot's: the bits of what the distance has above the slot's base (R79). -/
def lowDecisions (slot low : Nat) : List Bool :=
  if slot < 4 then []
  else if slot < Config.kEndPosModelIndex then bitsLSB (slotDirectBits slot) low
  else
    bitsMSB (slotDirectBits slot - Config.kNumAlignBits) (low / 2 ^ Config.kNumAlignBits) ++
      bitsLSB Config.kNumAlignBits (low % 2 ^ Config.kNumAlignBits)

theorem lowDecisions_of_lt_four {slot : Nat} (h : slot < 4) (low : Nat) : lowDecisions slot low = [] := if_pos h

theorem lowDecisions_of_lt_align {slot : Nat} (h4 : ¬ slot < 4) (h14 : slot < Config.kEndPosModelIndex) (low : Nat) :
    lowDecisions slot low = bitsLSB (slotDirectBits slot) low := by
  rw [lowDecisions, if_neg h4, if_pos h14]

theorem lowDecisions_of_align {slot lo : Nat} (h4 : ¬ slot < 4) (h14 : ¬ slot < Config.kEndPosModelIndex) (hi : Nat)
    (hlo : lo < 2 ^ Config.kNumAlignBits) : lowDecisions slot (hi * 2 ^ Config.kNumAlignBits + lo) =
      bitsMSB (slotDirectBits slot - Config.kNumAlignBits) hi ++ bitsLSB Config.kNumAlignBits lo := by
  have hdiv : (hi * 2 ^ Config.kNumAlignBits + lo) / 2 ^ Config.kNumAlignBits = hi := by
    rw [Nat.mul_comm, Nat.mul_add_div (Nat.two_pow_pos _), Nat.div_eq_of_lt hlo, Nat.add_zero]
  rw [lowDecisions, if_neg h4, if_neg h14, hdiv, Nat.mul_add_mod_of_lt hlo]

theorem slotBase_of_lt_four {slot : Nat} (h : slot < 4) : slotBase slot = slot := if_pos h

theorem slotDirectBits_of_lt_four {slot : Nat} (h : slot < 4) : slotDirectBits slot = 0 := by
  unfold slotDirectBits
  omega

theorem slotDirectBits_le {slot : Nat} (h : slot < 64) : slotDirectBits slot ≤ 30 := by
  unfold slotDirectBits
  omega

/-- From slot 14 on the lowest bits are those of the align tree (R215). -/
theorem alignBits_le_slotDirectBits {slot : Nat} (h : ¬ slot < Config.kEndPosModelIndex) :
    Config.kNumAlignBits ≤ slotDirectBits slot := by
  have h14 : 14 ≤ slot := Nat.not_lt.mp h
  show 4 ≤ slot / 2 - 1
  omega

/-- From slot 4 on the base is the number of two bits `10` or `11` above the slot's bits (R213). -/
theorem slotBase_of_not_lt_four {slot n : Nat} (h : ¬ slot < 4) (hn : slotDirectBits slot = n) :
    slotBase slot = (2 + slot % 2) * 2 ^ n := by
  rw [slotBase, if_neg h, hn]

/-- The ranges of R213 do not overlap: a distance above a slot's base by the slot's bits is in that slot. -/
theorem distSlot_slotBase_add {slot low : Nat} (h : low < 2 ^ slotDirectBits slot) :
    distSlot (slotBase slot + low) = slot := by
  by_cases h4 : slot < 4
  · rw [slotDirectBits_of_lt_four h4] at h
    rw [slotBase_of_lt_four h4, Nat.lt_one_iff.mp h, Nat.add_zero, distSlot, if_pos h4]
  · obtain ⟨n, hn⟩ : ∃ n, slot / 2 = n + 2 := ⟨slot / 2 - 2, by omega⟩
    have hbits : slotDirectBits slot = n + 1 := by rw [slotDirectBits, hn]; rfl
    rw [hbits] at h
    rw [slotBase_of_not_lt_four h4 hbits]
    generalize hd : (2 + slot % 2) * 2 ^ (n + 1) + low = dist
    have htop : dist / 2 ^ (n + 1) = 2 + slot % 2 := by
      rw [← hd, Nat.mul_comm, Nat.mul_add_div (Nat.two_pow_pos _), Nat.div_eq_of_lt h, Nat.add_zero]
    have hlow : 2 * 2 ^ (n + 1) ≤ dist := (Nat.le_div_iff_mul_le (Nat.two_pow_pos _)).mp (by omega)
    have hhigh : dist < 4 * 2 ^ (n + 1) := (Nat.div_lt_iff_lt_mul (Nat.two_pow_pos _)).mp (by omega)
    have hpow : 2 ≤ 2 ^ (n + 1) := Nat.le_self_pow (Nat.succ_ne_zero n) 2
    have hlog : Nat.log2 dist = n + 2 := (Nat.log2_eq_iff (by omega)).mpr (by
      rw [Nat.pow_succ 2 (n + 2), Nat.pow_succ 2 (n + 1)]
      omega)
    rw [distSlot, if_neg (by omega), hlog, show n + 2 - 1 = n + 1 from rfl, htop]
    omega

theorem slotBase_add_lt {slot low : Nat} (hslot : slot < 64) (h : low < 2 ^ slotDirectBits slot) :
    slotBase slot + low < 2 ^ 32 := by
  have hpow : 2 ^ slotDirectBits slot ≤ 2 ^ 30 := Nat.pow_le_pow_right (by decide) (slotDirectBits_le hslot)
  by_cases h4 : slot < 4
  · rw [slotBase_of_lt_four h4]
    omega
  · have hbase : slotBase slot ≤ 3 * 2 ^ slotDirectBits slot :=
      slotBase_of_not_lt_four h4 rfl ▸ Nat.mul_le_mul_right _ (by omega)
    omega

theorem encodeDistance_slotBase_add {slot low : Nat} (h : low < 2 ^ slotDirectBits slot) :
    encodeDistance (slotBase slot + low) = bitsMSB 6 slot ++ lowDecisions slot low := by
  show bitsMSB 6 (distSlot _) ++ lowDecisions (distSlot _) (_ - slotBase (distSlot _)) = _
  rw [distSlot_slotBase_add h, Nat.add_sub_cancel_left]

/-- What follows the slot reads a number of the slot's bits: its decisions are those of the code (R212, R214, R215). -/
theorem distTail_eq_ok {slot dist : Nat} {a c : Arch} (hslot : slot < 64) (h : distTail slot a = .ok dist c) :
    ∃ low, low < 2 ^ slotDirectBits slot ∧ dist = slotBase slot + low ∧
      c.decisions = a.decisions ++ lowDecisions slot low := by
  unfold distTail at h
  split at h
  next h4 =>
    cases h
    exact ⟨0, Nat.two_pow_pos _, (slotBase_of_lt_four h4).symm, by rw [lowDecisions_of_lt_four h4, List.append_nil]⟩
  next h4 =>
    split at h
    next h14 =>
      obtain ⟨low, b, hrev, hval⟩ := bind_ok_iff.mp h
      cases hval
      obtain ⟨hlt, hlog⟩ := btRev_eq_ok hrev
      exact ⟨low, hlt, rfl, by rw [lowDecisions_of_lt_align h4 h14, hlog]⟩
    next h14 =>
      obtain ⟨hi, b, hdirect, hrest⟩ := bind_ok_iff.mp h
      obtain ⟨lo, d, hrev, hval⟩ := bind_ok_iff.mp hrest
      cases hval
      have hbits : slotDirectBits slot - Config.kNumAlignBits ≤ 32 :=
        Nat.le_trans (Nat.sub_le _ _) (Nat.le_trans (slotDirectBits_le hslot) (by decide))
      obtain ⟨hhi, hlogHi⟩ := rcDirect_eq_ok hbits hdirect
      obtain ⟨hlo, hlogLo⟩ := btRev_eq_ok hrev
      refine ⟨hi.toNat * 2 ^ Config.kNumAlignBits + lo, ?_, Nat.add_assoc _ _ _, ?_⟩
      · rw [← Nat.sub_add_cancel (alignBits_le_slotDirectBits h14), Nat.mul_comm hi.toNat]
        exact two_pow_mul_add_lt hhi hlo
      · rw [lowDecisions_of_align h4 h14 _ hlo, hlogLo, hlogHi, List.append_assoc]

/-! ## DIST.DEC is two instructions in sequence (R216) -/

theorem distTail_decodes (slot : Nat) : Decodes (distTail slot) :=
  fun ds w => distTail_closed (commutes_closed _) (fun k _ => rcBit_decodes k ds w) (directRound_decodes ds w)

/-- An operation that completed with an empty log completes the same way after other decisions. -/
theorem Decodes.resume {op : Op α} (hop : Decodes op) {a b : Arch} {r : α} (h : op (opStart a) = .ok r b) :
    op a = .ok r (logAfter a.decisions b) := by
  have hframe : coderIn [] (opStart a) b = b := hop.frame h
  calc op a = .ok r (coderIn a.decisions a b) := hop.after h rfl
    _ = .ok r (logAfter a.decisions (coderIn [] (opStart a) b)) := rfl
    _ = .ok r (logAfter a.decisions b) := by rw [hframe]

theorem slotTree_index (len : Nat) : (BitVec.ofNat 24 (64 * min len 3)).toNat = 64 * lenState len := by
  rw [BitVec.toNat_ofNat, lenState]
  split <;> omega

/-- The four slot trees fill `P.posSlot` (R27, R211). -/
theorem slotTree_treeWf (len : Nat) : (ProbAddr.mk .posSlot (BitVec.ofNat 24 (64 * min len 3))).treeWf 6#8 = true := by
  have hbound : 64 * lenState len + 64 ≤ 256 := by
    unfold lenState
    split <;> omega
  exact decide_eq_true (slotTree_index len ▸ hbound)

/-- BT.FWD on the slot tree of a length code, by its address (R210, R211). -/
theorem exec_slotTree {len slot : Nat} {s : State} {b : Arch} (h : btFwd (slotTree len) 6 (opStart s.arch) = .ok slot b) :
    exec (.btFwd ⟨.posSlot, BitVec.ofNat 24 (64 * min len 3)⟩ 6#8) s = .next (completed s b (valueOf slot)) := by
  have hcell : cellOf ⟨.posSlot, BitVec.ofNat 24 (64 * min len 3)⟩ = slotTree len :=
    congrArg (cell .posSlot) (slotTree_index len)
  rw [← hcell] at h
  exact exec_answer_ok (slotTree_treeWf len) rfl h

theorem exec_slotRow_ok {slot dist : Nat} {s : State} {c : Arch} (hslot : slot < 64)
    (h : distTail slot (opStart s.arch) = .ok dist c) :
    exec (slotRow slot) s = .next (completed s c (valueOf dist)) := by
  obtain ⟨hallow, hop⟩ := op_of_rowSlot (rowSlot_slotRow hslot) s.arch
  exact exec_answer_ok hallow hop h

/-- The slot and then the rest, each begun with an empty log, are the distance code with the two logs joined. -/
theorem distDec_ok {len slot dist : Nat} {a b c : Arch} (hslot : btFwd (slotTree len) 6 a = .ok slot b)
    (hdist : distTail slot (opStart b) = .ok dist c) :
    distDec len a = .ok (BitVec.ofNat 32 dist) (logAfter b.decisions c) := by
  unfold distDec
  rw [run_bind_ok hslot, run_bind_ok ((distTail_decodes slot).resume hdist)]
  rfl

/-- Settles O16: the row goes on where the slot tree stopped, and what both decided is the code of the distance they give. -/
theorem distDecIsSlotThenRow : Obligations.DistDecIsSlotThenRow := by
  intro len s hlen hbytes
  have hstart : 6 ≤ (opStart s.arch).inBytes.length := Nat.le_trans (by decide) hbytes
  obtain ⟨slot, b, hslot, hused, hlt⟩ := btFwd_completes (slotTree len.toNat) 6 (opStart s.arch) hstart
  rw [opStart_inBytes] at hused
  have hrest : 30 ≤ (opStart b).inBytes.length := by
    rw [opStart_inBytes]
    omega
  obtain ⟨dist, c, hdist, -, -⟩ := distTail_completes hlt (opStart b) hrest
  obtain ⟨low, hlow, rfl, hlog⟩ := distTail_eq_ok hlt hdist
  refine ⟨completed s b (valueOf slot), completed s c (valueOf (slotBase slot + low)), slot,
    BitVec.ofNat 32 (slotBase slot + low), hlt, exec_slotTree hslot, rfl, exec_slotRow_ok hlt hdist, rfl, rfl,
    exec_answer_ok (f := .value) (decide_eq_true hlen) rfl (distDec_ok hslot hdist), ?_⟩
  rw [BitVec.toNat_ofNat, Nat.mod_eq_of_lt (slotBase_add_lt hlt hlow), encodeDistance_slotBase_add hlow]
  show b.decisions ++ c.decisions = _
  rw [btFwd_decisions hslot, hlog]
  rfl

end Sys2Proof.Machine
end

section
/-! SUPPORT. START, HDR.PARSE and DEC.INIT as instructions (R220, R221, R225). A header that is cut short is starved at the byte
it lacks, with all of its bytes taken; a header that parses is its three fields written one after another. With it, O33, O34
and O35. -/

namespace Sys2Proof.Machine

/-! ## Input that ends too early (R51, R243) -/

/-- `m` is `a` with its input used up, and nothing produced or moved on. -/
structure Drained (a m : Arch) : Prop where
  inBytes : m.inBytes = []
  inPos : m.inPos = a.inPos + BitVec.ofNat 64 a.inBytes.length
  out : m.out = a.out
  inEnd : m.inEnd = a.inEnd
  phase : m.phase = a.phase

theorem Drained.refl {a : Arch} (h : a.inBytes = []) : Drained a a := ⟨h, by simp [h], rfl, rfl, rfl⟩

theorem Drained.of_byte {a m : Arch} {b : Byte} {bs : List Byte} (h : a.inBytes = b :: bs)
    (hm : Drained { a with inBytes := bs, inPos := a.inPos + 1#64 } m) : Drained a m where
  inBytes := hm.inBytes
  inPos := by rw [hm.inPos, inPos_cons, h]
  out := hm.out
  inEnd := hm.inEnd
  phase := hm.phase

/-- With fewer than `n` bytes at hand the operation takes them all and finds no more. -/
def Starves (n : Nat) (op : Op α) : Prop :=
  ∀ a, a.inBytes.length < n → ∃ m, op a = .error (starvedStop m) m ∧ Drained a m

theorem Starves.zero (op : Op α) : Starves 0 op := fun _ h => absurd h (Nat.not_lt_zero _)

theorem Starves.readByte {n : Nat} {f : Byte → Op α} (hf : ∀ b, Starves n (f b)) : Starves (n + 1) (inByte >>= f) := by
  intro a hlen
  cases hb : a.inBytes with
  | nil => exact ⟨a, run_bind_error (inByte_nil hb), .refl hb⟩
  | cons b bs =>
    rw [hb] at hlen
    rw [run_bind_ok (inByte_cons hb)]
    obtain ⟨m, hm, hdrained⟩ := hf b { a with inBytes := bs, inPos := a.inPos + 1#64 } (Nat.lt_of_succ_lt_succ hlen)
    exact ⟨m, hm, hdrained.of_byte hb⟩

/-- A write that leaves the input and what `Drained` compares is no reason to stop. -/
theorem Starves.modify {n : Nat} {g : Arch → Arch} {op : Op α} (h : Starves n op) (hin : ∀ a, (g a).inBytes = a.inBytes)
    (hg : ∀ a m, Drained (g a) m → Drained a m) : Starves n (modify g >>= fun _ => op) := by
  intro a hlen
  obtain ⟨m, hm, hdrained⟩ := h (g a) ((hin a).symm ▸ hlen)
  exact ⟨m, hm, hg a m hdrained⟩

/-! ## The fields of a header (R71 to R73, R222 to R224) -/

theorem Starves.readWord {n : Nat} {f : Word → Op α} (hf : ∀ v, Starves n (f v)) : Starves (n + 4) (inWordLE >>= f) := by
  simp only [inWordLE, bind_assoc, pure_bind]
  exact .readByte fun _ => .readByte fun _ => .readByte fun _ => .readByte fun _ => hf _

theorem Starves.readDWord {n : Nat} {f : DWord → Op α} (hf : ∀ v, Starves n (f v)) :
    Starves (n + 8) (inDWordLE >>= f) := by
  simp only [inDWordLE, bind_assoc, pure_bind]
  exact .readByte fun _ => .readByte fun _ => .readByte fun _ => .readByte fun _ => .readByte fun _ => .readByte fun _ =>
    .readByte fun _ => .readByte fun _ => hf _

theorem inWordLE_ok {a : Arch} {b0 b1 b2 b3 : Byte} {rest : List Byte} (h : a.inBytes = b0 :: b1 :: b2 :: b3 :: rest) :
    inWordLE a = .ok (leWord b0 b1 b2 b3) { a with inBytes := rest, inPos := a.inPos + 4#64 } := by
  simp only [inWordLE, run_bind, run_pure, inByte, h, BitVec.add_assoc, BitVec.reduceAdd]

theorem inDWordLE_ok {a : Arch} {b0 b1 b2 b3 b4 b5 b6 b7 : Byte} {rest : List Byte}
    (h : a.inBytes = b0 :: b1 :: b2 :: b3 :: b4 :: b5 :: b6 :: b7 :: rest) :
    inDWordLE a = .ok (leDWord b0 b1 b2 b3 b4 b5 b6 b7) { a with inBytes := rest, inPos := a.inPos + 8#64 } := by
  simp only [inDWordLE, run_bind, run_pure, inByte, h, BitVec.add_assoc, BitVec.reduceAdd]

theorem hdrProps_ok {d : Byte} (h : d.toNat < 225) (a : Arch) :
    hdrProps d a = .ok () { a with lc := propsLc d, lp := propsLp d, pb := propsPb d } :=
  run_bind_ok (raiseIf_ok (decide_eq_false (Nat.not_le.mpr h)) .malformedProperties a)

theorem hdrProps_raise {d : Byte} (h : 225 ≤ d.toNat) (a : Arch) :
    hdrProps d a = .error (.raise .malformedProperties) a :=
  run_bind_error (raiseIf_raise (decide_eq_true h) .malformedProperties a)

/-- The three properties are the digits of a legal byte (R71, R222). -/
theorem props_spell {d : Byte} (h : d.toNat < 225) :
    d.toNat = (propsLc d).val + 9 * (propsLp d).val + 45 * (propsPb d).val := by
  simp only [propsLc, propsLp, propsPb, Fin.val_ofNat]
  omega

theorem effectiveDictSize_toNat (v : Word) : (effectiveDictSize v).toNat = max v.toNat 4096 := by
  unfold effectiveDictSize
  split
  · exact (Nat.max_eq_right (Nat.le_of_lt ‹v < Config.kDictMin›)).symm
  · exact (Nat.max_eq_left (Nat.not_lt.mp ‹¬ v < Config.kDictMin›)).symm

theorem hdrSize_run (v : DWord) (a : Arch) :
    hdrSize v a = .ok () { a with
      declaredSize := v, sizeDefined := decide (v ≠ 0xFFFFFFFFFFFFFFFF#64),
      leftToUnpack := if v = 0xFFFFFFFFFFFFFFFF#64 then a.leftToUnpack else v } := by
  unfold hdrSize
  rw [run_modify]
  by_cases h : v = 0xFFFFFFFFFFFFFFFF#64 <;> simp [h]

/-! ## HDR.PARSE (R221) -/

/-- HDR.PARSE behind its first byte: the two sizes, and the sequencer moves on (R221, `hdrParse_legal`). -/
def hdrSizes : Op Unit := do
  hdrDictSize (← inWordLE)
  hdrSize (← inDWordLE)
  setPhase .rcInit

theorem hdrParse_legal {a : Arch} {d : Byte} {rest : List Byte} (h : a.inBytes = d :: rest) (hd : d.toNat < 225) :
    hdrParse a = hdrSizes { a with
      lc := propsLc d, lp := propsLp d, pb := propsPb d, inBytes := rest, inPos := a.inPos + 1#64 } := by
  unfold hdrParse
  rw [run_bind_ok (inByte_cons h), run_bind_ok (hdrProps_ok hd _)]
  rfl

theorem hdrParse_malformed {a : Arch} {d : Byte} {rest : List Byte} (h : a.inBytes = d :: rest) (hd : 225 ≤ d.toNat) :
    hdrParse a = .error (.raise .malformedProperties) { a with inBytes := rest, inPos := a.inPos + 1#64 } := by
  unfold hdrParse
  rw [run_bind_ok (inByte_cons h), run_bind_error (hdrProps_raise hd _)]
  rfl

theorem hdrSizes_ok {a : Arch} {b1 b2 b3 b4 c0 c1 c2 c3 c4 c5 c6 c7 : Byte} {rest : List Byte}
    (h : a.inBytes = b1 :: b2 :: b3 :: b4 :: c0 :: c1 :: c2 :: c3 :: c4 :: c5 :: c6 :: c7 :: rest) :
    hdrSizes a = .ok () { a with
      dictSizeInProperties := leWord b1 b2 b3 b4, dictSize := effectiveDictSize (leWord b1 b2 b3 b4),
      declaredSize := leDWord c0 c1 c2 c3 c4 c5 c6 c7,
      sizeDefined := decide (leDWord c0 c1 c2 c3 c4 c5 c6 c7 ≠ 0xFFFFFFFFFFFFFFFF#64),
      leftToUnpack := if leDWord c0 c1 c2 c3 c4 c5 c6 c7 = 0xFFFFFFFFFFFFFFFF#64 then a.leftToUnpack
        else leDWord c0 c1 c2 c3 c4 c5 c6 c7,
      phase := .rcInit, inBytes := rest, inPos := a.inPos + 12#64 } := by
  have hpos : a.inPos + 4#64 + 8#64 = a.inPos + 12#64 := BitVec.add_assoc ..
  unfold hdrSizes
  rw [run_bind_ok (inWordLE_ok h), hdrDictSize, run_modify_bind, run_bind_ok (inDWordLE_ok rfl),
    run_bind_ok (hdrSize_run _ _), ← hpos]
  rfl

theorem hdrSizes_starves : Starves 12 hdrSizes :=
  .readWord fun _ => .modify (.readDWord fun _ => .zero _) (fun _ => rfl) fun _ _ h => { h with }

/-- A header that ends before its thirteenth byte stops there, whichever field it ends in (R221). -/
theorem hdrParse_short {a : Arch} (h : a.inBytes.length < 13) (hd : ∀ d, a.inBytes[0]? = some d → d.toNat < 225) :
    ∃ m, hdrParse a = .error (starvedStop m) m ∧ Drained a m := by
  cases hb : a.inBytes with
  | nil => exact ⟨a, run_bind_error (inByte_nil hb), .refl hb⟩
  | cons d rest =>
    rw [hb] at h hd
    obtain ⟨m, hm, hdrained⟩ := hdrSizes_starves { a with
      lc := propsLc d, lp := propsLp d, pb := propsPb d, inBytes := rest, inPos := a.inPos + 1#64 }
      (Nat.lt_of_succ_lt_succ h)
    have hmoved : Drained { a with inBytes := rest, inPos := a.inPos + 1#64 } m := { hdrained with }
    exact ⟨m, (hdrParse_legal hb (hd d rfl)).trans hm, hmoved.of_byte hb⟩

/-- Settles O33: a legal first byte leaves the two sizes to read (`hdrParse_legal`), which complete or are starved. -/
theorem hdrParseReadsHeader : Obligations.HdrParseReadsHeader := by
  refine fun s => ⟨fun d b1 b2 b3 b4 c0 c1 c2 c3 c4 c5 c6 c7 rest h hd => ?_, fun d rest h hd => ?_, fun h hd => ?_⟩
  · refine ⟨propsLc d, propsLp d, propsPb d, effectiveDictSize (leWord b1 b2 b3 b4), props_spell hd,
      effectiveDictSize_toNat _, exec_ok rfl (show answerDone hdrParse _ = _ from ?_)⟩
    have hpos : s.arch.inPos + 1#64 + 12#64 = s.arch.inPos + 13#64 := BitVec.add_assoc ..
    rw [run_answerDone, hdrParse_legal (a := opStart s.arch) h hd, hdrSizes_ok rfl, ← hpos]
    rfl
  · refine exec_raise rfl (show answerDone hdrParse _ = _ from ?_)
    rw [run_answerDone, hdrParse_malformed (a := opStart s.arch) h hd]
    rfl
  · obtain ⟨m, hm, hdrained⟩ := hdrParse_short (a := opStart s.arch) h hd
    refine ⟨m, exec_starved rfl (show answerDone hdrParse _ = _ from ?_), hdrained.inBytes, hdrained.inPos, hdrained.out,
      hdrained.inEnd, hdrained.phase⟩
    rw [run_answerDone, hm, mapValue_error]

/-! ## DEC.INIT (R225, R251) -/

theorem overCap_eq_false {a : Arch} {n : Word} (h : ∀ c, a.params.dictCap = some c → n ≤ c) : overCap a n = false := by
  refine eq_false_of_ne_true fun hover => ?_
  obtain ⟨c, hc, hlt⟩ := overCap_eq_true_iff.mp hover
  exact absurd (h c hc) (BitVec.not_le.mpr hlt)

theorem decInit_ok {a : Arch} (h : overCap a a.dictSize = false) :
    decInit a = .ok () (freshDecoder (newWindow a.dictSize a)) :=
  run_bind_ok (dwCreate_ok h)

theorem decInit_raise {a : Arch} (h : overCap a a.dictSize = true) : decInit a = .error (.raise .dictTooLarge) a := by
  unfold decInit
  rw [run_get_bind, run_bind_error (dwCreate_raise h)]

/-- Settles O34: DW.CREATE decides, and what it lets through gets a decoder with an empty `PROB` list, every cell at 1024. -/
theorem decInitResetsDecoder : Obligations.DecInitResetsDecoder := by
  intro s hsize
  have ha : allowed .decInit s.arch = true := decide_eq_true hsize
  refine ⟨fun hcap => ?_, fun c hc hlt => ?_⟩
  · refine ⟨completed s (freshDecoder (newWindow s.arch.dictSize (opStart s.arch))) .done,
      exec_ok ha (show answerDone decInit _ = _ from ?_), rfl, rfl, rfl, probRead_nil⟩
    rw [run_answerDone, decInit_ok (a := opStart s.arch) (overCap_eq_false hcap)]
    rfl
  · refine exec_raise ha (show answerDone decInit _ = _ from ?_)
    rw [run_answerDone, decInit_raise (a := opStart s.arch) (overCap_eq_true_iff.mpr ⟨c, hc, hlt⟩)]
    rfl

/-! ## START (R220) -/

theorem exec_start (s : State) : exec .start s = .next (completed s (startDecode (opStart s.arch)) .done) := exec_ok rfl rfl

/-- Settles O35: START is one update of the registers, and the command interface accepts it whatever holds. -/
theorem startBeginsDecode : Obligations.StartBeginsDecode :=
  ⟨exec_start, fun s _ he => stepRunsDecodedInstruction.1 s _ _ .start he rfl (.inr rfl)⟩

end Sys2Proof.Machine
end

section
/-! SUPPORT. Two machines that look the same step the same. What is not looked at is the advisory flag (R252), or the budget while
the size is undefined (R36): no operation reads either, so two states that agree on the rest end the same way and agree again.
With it, O51. -/

namespace Sys2Proof.Machine

/-! ## Operations that look at a part of the state alone -/

/-- From two states with the same `f`, the operation ends the same way in two states with the same `f`. -/
def Respects (f : Arch → Arch) (op : Op α) : Prop := ∀ a b, f a = f b → mapState f (op a) = mapState f (op b)

section

variable {f : Arch → Arch}

/-- Two outcomes alike under `f` are the same end, in states alike under `f`. -/
theorem mapState_eq_cases {o p : Ended α} (h : mapState f o = mapState f p) :
    (∃ r c d, o = .ok r c ∧ p = .ok r d ∧ f c = f d) ∨ (∃ e c d, o = .error e c ∧ p = .error e d ∧ f c = f d) := by
  cases o <;> cases p
  case ok.ok r c q d =>
    injection h with hr hs
    exact .inl ⟨r, c, d, rfl, hr ▸ rfl, hs⟩
  case error.error e c q d =>
    injection h with hr hs
    exact .inr ⟨e, c, d, rfl, hr ▸ rfl, hs⟩
  all_goals cases h

theorem Respects.pure (r : α) : Respects f (pure r : Op α) := fun _ _ h => congrArg (EStateM.Result.ok r) h

theorem Respects.modify {g : Arch → Arch} (hg : ∀ a b, f a = f b → f (g a) = f (g b)) :
    Respects f (modify g : Op PUnit) :=
  fun a b h => congrArg (EStateM.Result.ok ()) (hg a b h)

theorem Respects.bind {x : Op α} {k : α → Op β} (hx : Respects f x) (hk : ∀ r, Respects f (k r)) :
    Respects f (x >>= k) := by
  intro a b h
  rcases mapState_eq_cases (hx a b h) with ⟨r, c, d, ha, hb, hs⟩ | ⟨e, c, d, ha, hb, hs⟩
  · rw [run_bind_ok ha, run_bind_ok hb]
    exact hk r c d hs
  · rw [run_bind_error ha, run_bind_error hb]
    exact congrArg (EStateM.Result.error e) hs

/-- An operation that `f` passes through looks at `f` alone. -/
theorem Commutes.respects {op : Op α} (h : Commutes f op) : Respects f op := by
  intro a b hab
  rw [← h a, hab, h b]

/-- An operation that is a change of the state, then `x`, with a result told from where it started. -/
theorem Respects.after {x : Op α} {op : Op β} {g : Arch → Arch} {k : Arch → β} (hx : Respects f x)
    (hop : ∀ a, op a = mapValue (fun _ => k a) (x (g a))) (hg : ∀ a b, f a = f b → f (g a) = f (g b))
    (hk : ∀ a b, f a = f b → k a = k b) : Respects f op := by
  intro a b h
  rw [hop, hop, hk a b h]
  rcases mapState_eq_cases (hx _ _ (hg a b h)) with ⟨r, c, d, ha, hb, hs⟩ | ⟨e, c, d, ha, hb, hs⟩ <;> rw [ha, hb]
  · exact congrArg (EStateM.Result.ok (k b)) hs
  · exact congrArg (EStateM.Result.error e) hs

/-- A read of the state by itself is a read of `f` when `f` determines the view. -/
theorem respects_closed (hview : ∀ a b, f a = f b → view a = view b) : ClosedGet (fun {_} op => Respects f op) where
  pure := Respects.pure
  bind := Respects.bind
  getBind {_ k} hr hk a b h := by
    show mapState f (k a a) = mapState f (k b b)
    rw [hr a b (hview a b h)]
    exact hk b a b h
  raise c _ _ _ := (show Commutes f (raise c) from fun _ => rfl).respects

end

/-! ## The flag, and the budget while it has no meaning -/

/-- What is seen of a state: all of it but the advisory flag, unless `flag`, and but the budget register where the size is
undefined, unless `budget`. -/
def seen (flag budget : Bool) (a : Arch) : Arch :=
  { a with
    corrupted := flag && a.corrupted, leftToUnpack := if budget || a.sizeDefined then a.leftToUnpack else 0#64 }

theorem seen_dropBudget : seen true false = Arch.dropBudget := by
  funext a
  unfold seen Arch.dropBudget
  simp only [Bool.true_and, Bool.false_or]
  split <;> rfl

section

variable {flag budget : Bool}

/-- The view hides both. -/
theorem view_seen (a : Arch) : view (seen flag budget a) = view a := by
  unfold view seen
  cases a.sizeDefined <;> simp

theorem view_of_seen {a b : Arch} (h : seen flag budget a = seen flag budget b) : view a = view b := by
  rw [← view_seen a, h, view_seen]

theorem seen_seen (a : Arch) : seen flag budget (seen flag budget a) = seen flag budget a := by
  unfold seen
  cases flag <;> cases budget <;> cases a.sizeDefined <;> simp

/-- A change of the state looks at what is seen alone when the rest, forgotten before it, makes no difference after it. -/
theorem seen_congr {g : Arch → Arch} (hg : ∀ a, seen flag budget (g (seen flag budget a)) = seen flag budget (g a))
    {a b : Arch} (h : seen flag budget a = seen flag budget b) : seen flag budget (g a) = seen flag budget (g b) := by
  rw [← hg a, h, hg b]

/-- A change of the state that neither reads nor writes the flag and the budget. -/
theorem seen_congr_of_comm {g : Arch → Arch} (hg : ∀ a, seen flag budget (g a) = g (seen flag budget a))
    {a b : Arch} (h : seen flag budget a = seen flag budget b) : seen flag budget (g a) = seen flag budget (g b) := by
  rw [hg, h, hg]

/-- What of a state is seen is the same where the same is seen. -/
theorem read_of_seen {k : Arch → γ} (hk : ∀ a, k (seen flag budget a) = k a) {a b : Arch}
    (h : seen flag budget a = seen flag budget b) : k a = k b := by
  rw [← hk a, h, hk b]

theorem modify_seen {g : Arch → Arch} (hg : ∀ a, seen flag budget (g a) = g (seen flag budget a)) :
    Respects (seen flag budget) (modify g : Op PUnit) :=
  .modify fun _ _ => seen_congr_of_comm hg

theorem modify_seen_of_forget {g : Arch → Arch}
    (hg : ∀ a, seen flag budget (g (seen flag budget a)) = seen flag budget (g a)) :
    Respects (seen flag budget) (modify g : Op PUnit) :=
  .modify fun _ _ => seen_congr hg

/-! ## The primitive operations -/

theorem inByte_seen : Commutes (seen flag budget) inByte := by
  intro a
  cases hb : a.inBytes with
  | nil => rw [inByte_nil hb, inByte_nil (a := seen flag budget a) hb]; rfl
  | cons x xs => rw [inByte_cons hb, inByte_cons (a := seen flag budget a) hb]; rfl

theorem rcNorm_seen : Respects (seen flag budget) rcNorm := by
  have hrange {a b : Arch} (h : view a = view b) : a.range = b.range :=
    (congrArg Arch.range h : (view a).range = (view b).range)
  refine (respects_closed fun _ _ => view_of_seen).getBind (fun a b h => by rw [hrange h]) fun a => ?_
  split
  · exact inByte_seen.respects.bind fun _ => modify_seen fun _ => rfl
  · exact .pure ()

theorem rcBit_seen (k : Nat) : Respects (seen flag budget) (rcBit k) :=
  rcNorm_seen.after (rcBit_run k) (fun _ _ => seen_congr_of_comm (g := bitStep k) fun _ => rfl)
    fun _ _ => read_of_seen (k := bitOf k) fun _ => rfl

/-- A direct round may set the flag, and does not look at it (R103). -/
theorem directStep_seen (a : Arch) :
    seen flag budget (directStep (seen flag budget a)) = seen flag budget (directStep a) := by
  have hflag : seen flag budget (directStep (seen flag budget a)) =
      seen flag budget (seen flag budget (directStep a)) := by
    cases flag <;> rfl
  rw [hflag, seen_seen]

theorem directRound_seen : Respects (seen flag budget) rcDirectRound :=
  rcNorm_seen.after rcDirectRound_run (fun _ _ => seen_congr directStep_seen)
    fun _ _ => read_of_seen (k := fun a => signMask (a.code - a.range >>> 1)) fun _ => rfl

theorem dwPut_seen (b : Byte) : Commutes (seen flag budget) (dwPut b) := by
  intro a
  rw [dwPut_ok, dwPut_ok, mapState_ok, putStep_eq b a, putStep_eq b (seen flag budget a)]
  simp only [putStep_pos, putStep_isFull]
  rfl

theorem readUnwritten_seen : Commutes (seen flag budget) readUnwritten := by
  intro a
  have hfill : (seen flag budget a).params.dictFill = a.params.dictFill := rfl
  unfold readUnwritten
  rw [hfill]
  cases a.params.dictFill <;> rfl

theorem dwGet_seen (dist : Nat) : Commutes (seen flag budget) (dwGet dist) := by
  refine Commutes.getBind (fun _ => rfl) fun a => ?_
  split
  · exact fun _ => rfl
  · split
    · exact Commutes.pure _
    · exact readUnwritten_seen

/-- The budget is spent where the size is defined, and there it is seen (R181). -/
theorem spendBudget_seen (n : Nat) : Respects (seen flag budget) (spendBudget n) :=
  modify_seen fun a => by
    have hdef : (seen flag budget a).sizeDefined = a.sizeDefined := rfl
    rw [hdef]
    cases hd : a.sizeDefined <;> simp [seen, hd]

/-- The size field makes the budget its own or leaves it without a meaning (R73). -/
theorem hdrSize_seen (v : DWord) : Respects (seen flag budget) (hdrSize v) :=
  modify_seen_of_forget fun a => by
    split
    · cases flag <;> cases budget <;> simp [seen]
    · cases flag <;> simp [seen]

/-- The flag after the preamble is told by the preamble (R100). -/
theorem rcInitFlag_seen (z : Byte) : Respects (seen flag budget) (rcInitFlag z) :=
  modify_seen_of_forget fun a => congrArg (fun b : Arch => { b with corrupted := flag && corruptedAtInit z a.code a.range })
    (seen_seen a)

theorem seen_primitives : Primitives (fun {_} op => Respects (seen flag budget) op) where
  inByte := inByte_seen.respects
  rcNorm := rcNorm_seen
  rcBit := rcBit_seen
  directRound := directRound_seen
  rcInitClear := modify_seen fun _ => by cases flag <;> rfl
  shiftIn _ := modify_seen fun _ => rfl
  rcInitFlag := rcInitFlag_seen
  setCode _ := modify_seen fun _ => rfl
  dwPut b := (dwPut_seen b).respects
  dwGet dist := (dwGet_seen dist).respects
  dwFlush := modify_seen fun _ => rfl
  newWindow _ := modify_seen fun _ => rfl
  stLit := modify_seen fun _ => rfl
  stMatch := modify_seen fun _ => rfl
  stRep := modify_seen fun _ => rfl
  stShortrep := modify_seen fun _ => rfl
  rotateReps := modify_seen fun _ => rfl
  setRep0 _ := modify_seen fun _ => rfl
  toFront1 := modify_seen fun _ => rfl
  toFront2 := modify_seen fun _ => rfl
  toFront3 := modify_seen fun _ => rfl
  spendBudget := spendBudget_seen
  endLoop _ := modify_seen fun _ => rfl
  setPhase _ := modify_seen fun _ => rfl
  setProps _ _ _ := modify_seen fun _ => rfl
  hdrDictSize _ := modify_seen fun _ => rfl
  hdrSize := hdrSize_seen
  freshDecoder := modify_seen fun _ => rfl
  startDecode := modify_seen fun _ => rfl

/-! ## The instructions -/

theorem opOf_seen (i : Instr) (a : Arch) : Respects (seen flag budget) (opOf i a) :=
  opOf_closed (respects_closed fun _ _ => view_of_seen) seen_primitives i a

/-- Which operation an instruction is depends on posState alone. -/
theorem opOf_of_view (i : Instr) {a b : Arch} (h : view a = view b) : opOf i a = opOf i b := by
  have hps := view_posState h
  cases i
  case symMatch => exact congrArg (fun ps => answer .step (symMatch ps)) hps
  case symRep0 => exact congrArg (fun ps => answer .step (symRep0 ps)) hps
  case symRep1 => exact congrArg (fun ps => answer .step (symRep1 ps)) hps
  case symRep2 => exact congrArg (fun ps => answer .step (symRep2 ps)) hps
  case symRep3 => exact congrArg (fun ps => answer .step (symRep3 ps)) hps
  all_goals rfl

theorem allowed_of_view (i : Instr) {a b : Arch} (h : view a = view b) : allowed i a = allowed i b := by
  cases i
  case dwGet dist | dwCopy dist _ =>
    exact congrArg (fun n : Word => decide (1 ≤ dist.toNat ∧ dist.toNat ≤ n.toNat)) (view_size h)
  case decInit => exact congrArg (fun n : Word => decide (n ≠ 0#32)) (view_dictSize h)
  all_goals rfl

/-! ## A step -/

/-- What is seen of a machine: of its registers and memories, and of the state from which a held operation is run again. -/
def seenState (flag budget : Bool) (s : State) : State :=
  { s with arch := seen flag budget s.arch, held := s.held.map fun h => ⟨h.op, seen flag budget h.start⟩ }

theorem seenState_dropCorrupted : seenState false true = State.dropCorrupted := rfl

theorem seenState_dropBudget : seenState true false = State.dropBudget := by
  funext s
  unfold seenState State.dropBudget
  rw [seen_dropBudget]

variable {s t : State}

/-- The same is seen of two machines part by part. -/
theorem seenState_eq_iff : seenState flag budget s = seenState flag budget t ↔
    seen flag budget s.arch = seen flag budget t.arch ∧
    (s.held.map fun h => Held.mk h.op (seen flag budget h.start)) =
      (t.held.map fun h => Held.mk h.op (seen flag budget h.start)) ∧
    s.response = t.response ∧ s.events = t.events := State.mk.injEq .. ▸ Iff.rfl

/-- The same operation, run on two machines of which the same is seen. -/
theorem runOp_seen (i : Instr) {op : Op Response} (hop : Respects (seen flag budget) op)
    (ha : seen flag budget s.arch = seen flag budget t.arch) (he : s.events = t.events) :
    sameUpTo (seenState flag budget) (runOp i op s) (runOp i op t) := by
  have hstart : seen flag budget (opStart s.arch) = seen flag budget (opStart t.arch) :=
    seen_congr_of_comm (g := opStart) (fun _ => rfl) ha
  rcases mapState_eq_cases (hop _ _ hstart) with ⟨r, b, c, hs, ht, hb⟩ | ⟨_ | cause, b, c, hs, ht, hb⟩
  · rw [runOp_ok hs, runOp_ok ht]
    exact seenState_eq_iff.mpr ⟨hb, rfl, rfl, he⟩
  · rw [runOp_hold hs, runOp_hold ht]
    exact seenState_eq_iff.mpr ⟨hb, congrArg (fun a => some (Held.mk i a)) hstart, rfl, he⟩
  · rw [runOp_raise hs, runOp_raise ht]
    exact seenState_eq_iff.mpr ⟨seen_congr_of_comm (g := takeError cause) (fun _ => rfl) hb, rfl, rfl, he⟩

theorem turnAway_seen (h : seenState flag budget s = seenState flag budget t) :
    sameUpTo (seenState flag budget) (turnAway s) (turnAway t) := by
  obtain ⟨ha, hh, -, he⟩ := seenState_eq_iff.mp h
  exact seenState_eq_iff.mpr ⟨ha, hh, rfl, he⟩

theorem exec_seen (i : Instr) (h : seenState flag budget s = seenState flag budget t) :
    sameUpTo (seenState flag budget) (exec i s) (exec i t) := by
  obtain ⟨ha, -, -, he⟩ := seenState_eq_iff.mp h
  rw [exec_eq, exec_eq, allowed_of_view i (view_of_seen ha), opOf_of_view i (view_of_seen ha)]
  split
  · exact runOp_seen i (opOf_seen i t.arch) ha he
  · exact turnAway_seen h

theorem coreStep_seen (h : seenState flag budget s = seenState flag budget t) :
    sameUpTo (seenState flag budget) (coreStep s) (coreStep t) := by
  obtain ⟨ha, hh, hr, he⟩ := seenState_eq_iff.mp h
  have hnext : nextOperation s.arch = nextOperation t.arch := read_of_seen (fun _ => rfl) ha
  have hphase : s.arch.phase = t.arch.phase := read_of_seen (k := Arch.phase) (fun _ => rfl) ha
  cases hs : s.held with
  | none =>
    cases ht : t.held with
    | some held => simp [hs, ht] at hh
    | none =>
      simp only [coreStep, hs, ht, hnext, hphase]
      cases nextOperation t.arch with
      | some i => exact exec_seen i h
      | none =>
        by_cases hp : t.arch.phase = .symbol
        · simp only [if_pos hp, sameUpTo]
        · simp only [if_neg hp, sameUpTo, h]
  | some held =>
    cases ht : t.held with
    | none => simp [hs, ht] at hh
    | some held' =>
      simp only [hs, ht, Option.map_some, Option.some.injEq, Held.mk.injEq] at hh
      obtain ⟨hop, hstart⟩ := hh
      have hreplay : seen flag budget (replayFrom held.start s.arch) = seen flag budget (replayFrom held'.start t.arch) :=
        (congrArg₂ replayFrom hstart ha : replayFrom (seen flag budget held.start) (seen flag budget s.arch) = _)
      simp only [coreStep, hs, ht, resume, hop]
      exact exec_seen _ (seenState_eq_iff.mpr ⟨hreplay, rfl, hr, he⟩)

theorem runWord_seen (w : CmdWord) (h : seenState flag budget s = seenState flag budget t) :
    sameUpTo (seenState flag budget) (runWord w s) (runWord w t) := by
  have hheld : s.held.isNone = t.held.isNone := by
    obtain ⟨-, hh, -, -⟩ := seenState_eq_iff.mp h
    simpa using congrArg Option.isNone hh
  unfold runWord accepts
  rw [hheld]
  cases decode w with
  | error e => exact turnAway_seen h
  | ok i =>
    dsimp only
    split
    · exact exec_seen i h
    · exact turnAway_seen h

theorem supplyByte_seen (b : Byte) (a : Arch) :
    seen flag budget (supplyByte b a) = supplyByte b (seen flag budget a) := by
  have hend : (seen flag budget a).inEnd = a.inEnd := rfl
  unfold supplyByte
  rw [hend]
  split <;> rfl

theorem deliver_seen (e : Event) (h : seenState flag budget s = seenState flag budget t) :
    sameUpTo (seenState flag budget) (deliver e s) (deliver e t) := by
  obtain ⟨ha, hh, hr, he⟩ := seenState_eq_iff.mp h
  cases e with
  | cmd w => exact runWord_seen w h
  | byte b => exact seenState_eq_iff.mpr ⟨seen_congr_of_comm (supplyByte_seen b) ha, hh, hr, he⟩
  | endOfInput => exact seenState_eq_iff.mpr ⟨seen_congr_of_comm (g := signalEnd) (fun _ => rfl) ha, hh, hr, he⟩
  | attach => exact seenState_eq_iff.mpr ⟨seen_congr_of_comm (g := attachSource) (fun _ => rfl) ha, hh, hr, he⟩
  | reset => exact seenState_eq_iff.mpr ⟨seen_congr (g := resetArch) (fun _ => rfl) ha, rfl, rfl, he⟩
  | pass => exact coreStep_seen h

/-- One step of two machines of which the same is seen. -/
theorem step_seen (h : seenState flag budget s = seenState flag budget t) :
    sameUpTo (seenState flag budget) (step s) (step t) := by
  obtain ⟨ha, hh, hr, he⟩ := seenState_eq_iff.mp h
  cases hs : s.events with
  | nil =>
    rw [step_alone hs, step_alone (he.symm.trans hs)]
    exact coreStep_seen h
  | cons e es =>
    rw [step_event hs, step_event (he.symm.trans hs)]
    exact deliver_seen e (seenState_eq_iff.mpr ⟨ha, hh, hr, rfl⟩)

end

/-- Settles O51: it is `step_seen` with the flag alone out of sight. -/
theorem corruptedFlagIsAdvisory : Obligations.CorruptedFlagIsAdvisory := by
  intro s t h
  rw [← seenState_dropCorrupted] at h ⊢
  exact step_seen h

end Sys2Proof.Machine
end

section
/-! SUPPORT. The start sequence (R220, R221, R226, R272): START, HDR.PARSE, RC.INIT and DEC.INIT. With no event to come, an
operation that stops short stops the machine; one that completes has written its registers from the bytes at hand alone. So
nothing of the state before START is left once the main loop is reached, and from there `step_seen` goes on. With it, O37. -/

namespace Sys2Proof.Machine

/-! ## What the header, the preamble and DEC.INIT write, from whatever state (R221, R100, R225) -/

/-- The state behind a header of the properties `d`, the dictionary size `v` and the declared size `z` (R221). -/
def headerRead (d : Byte) (v : Word) (z : DWord) (rest : List Byte) (a : Arch) : Arch :=
  { a with
    lc := propsLc d, lp := propsLp d, pb := propsPb d, dictSizeInProperties := v, dictSize := effectiveDictSize v,
    declaredSize := z, sizeDefined := decide (z ≠ 0xFFFFFFFFFFFFFFFF#64),
    leftToUnpack := if z = 0xFFFFFFFFFFFFFFFF#64 then a.leftToUnpack else z,
    phase := .rcInit, inBytes := rest, inPos := a.inPos + 13#64 }

/-- The state behind a preamble of the byte `b0` and the code `c` (R100). -/
def preambleRead (b0 : Byte) (c : Word) (rest : List Byte) (a : Arch) : Arch :=
  { a with
    range := 0xFFFFFFFF#32, code := c, corrupted := corruptedAtInit b0 c 0xFFFFFFFF#32,
    inBytes := rest, inPos := a.inPos + 5#64 }

theorem eq_cons_of_twelve_le_length {l : List α} (h : 12 ≤ l.length) :
    ∃ x0 x1 x2 x3 x4 x5 x6 x7 x8 x9 x10 x11 rest,
      l = x0 :: x1 :: x2 :: x3 :: x4 :: x5 :: x6 :: x7 :: x8 :: x9 :: x10 :: x11 :: rest := by
  obtain ⟨x0, x1, x2, x3, x4, l, rfl⟩ := eq_cons_of_five_le_length (Nat.le_trans (by decide) h)
  obtain ⟨x5, x6, x7, x8, x9, l, rfl⟩ := eq_cons_of_five_le_length (l := l) (by simp only [List.length_cons] at h; omega)
  match l, h with
  | x10 :: x11 :: rest, _ => exact ⟨x0, x1, x2, x3, x4, x5, x6, x7, x8, x9, x10, x11, rest, rfl⟩

/-- The operation stops in `a`, in the phase it started in. -/
def StopsShort (op : Op α) (a : Arch) : Prop := ∃ e c, op a = .error e c ∧ c.phase = a.phase

/-- HDR.PARSE stops short, or writes what the input at hand says. -/
theorem hdrParse_ends (a : Arch) : StopsShort hdrParse a ∨
    ∃ d v z rest, ∀ b : Arch, b.inBytes = a.inBytes → hdrParse b = .ok () (headerRead d v z rest b) := by
  by_cases hd : ∀ d, a.inBytes[0]? = some d → d.toNat < 225
  · by_cases hlen : a.inBytes.length < 13
    · obtain ⟨m, hm, hdrained⟩ := hdrParse_short hlen hd
      exact .inl ⟨_, m, hm, hdrained.phase⟩
    · right
      cases hb : a.inBytes with
      | nil => simp [hb] at hlen
      | cons d bs =>
        rw [hb] at hd hlen
        obtain ⟨b1, b2, b3, b4, c0, c1, c2, c3, c4, c5, c6, c7, rest, rfl⟩ := eq_cons_of_twelve_le_length (l := bs)
          (by simp only [List.length_cons] at hlen; omega)
        refine ⟨d, leWord b1 b2 b3 b4, leDWord c0 c1 c2 c3 c4 c5 c6 c7, rest, fun b h => ?_⟩
        have hpos : b.inPos + 1#64 + 12#64 = b.inPos + 13#64 := BitVec.add_assoc ..
        rw [hdrParse_legal h (hd d rfl), hdrSizes_ok rfl, headerRead, ← hpos]
  · push Not at hd
    obtain ⟨d, hd, hmal⟩ := hd
    cases hb : a.inBytes with
    | nil => simp [hb] at hd
    | cons d' bs =>
      rw [hb] at hd
      cases hd
      exact .inl ⟨_, _, hdrParse_malformed hb hmal, rfl⟩

/-- RC.INIT stops short, or writes what the input at hand says. -/
theorem rcInit_ends (a : Arch) : StopsShort rcInit a ∨
    ∃ b0 c rest, ∀ b : Arch, b.inBytes = a.inBytes → rcInit b = .ok () (preambleRead b0 c rest b) := by
  by_cases hlen : a.inBytes.length < 5
  · exact .inl ⟨_, _, rcInit_short hlen, rfl⟩
  · obtain ⟨b0, b1, b2, b3, b4, rest, hb⟩ := eq_cons_of_five_le_length (Nat.not_lt.mp hlen)
    exact .inr ⟨b0, b1 ++ b2 ++ b3 ++ b4, rest, fun b h => rcInit_enough (h.trans hb)⟩

theorem overCap_of_params {a b : Arch} (h : a.params = b.params) (n : Word) : overCap a n = overCap b n := by
  unfold overCap
  rw [h]

/-- DEC.INIT stops short, or the parameters let a window of this size through. -/
theorem decInit_ends (a : Arch) : StopsShort decInit a ∨ overCap a a.dictSize = false := by
  cases h : overCap a a.dictSize with
  | true => exact .inl ⟨_, a, decInit_raise h, rfl⟩
  | false => exact .inr rfl

/-! ## Steps of the core alone -/

theorem run_succ {s t : State} (h : step s = .next t) (k : Nat) :
    Host.Core.run core (k + 1) s = Host.Core.run core k t := by
  have hstep : core.step s = .next t := h
  simp only [Host.Core.run, hstep]

/-- The machine stays in `s` for ever, outside the main loop. -/
def Stuck (s : State) : Prop := step s = .next s ∧ s.arch.phase ≠ .loop

theorem Stuck.run {s : State} (h : Stuck s) (k : Nat) : Host.Core.run core k s = .next s := by
  induction k with
  | zero => rfl
  | succ k ih => rw [run_succ h.1, ih]

/-- The state of a machine in which nothing holds and no event is to come. -/
def alone (a : Arch) (r : Response) : State := { arch := a, held := none, response := r, events := [] }

/-- With nothing to come, the operation that the sequencer issues takes the machine on when it completes. -/
theorem step_completes {a b : Arch} {r q : Response} {i : Instr} (hi : nextOperation a = some i)
    (ha : allowed i a = true) (h : opOf i a (opStart a) = .ok q b) : step (alone a r) = .next (alone b q) := by
  rw [step_alone rfl, coreStep_issues rfl hi]
  exact exec_ok ha h

/-- With nothing to come, a hold is replayed to the same hold: no byte has arrived that it lacked (R14). -/
theorem step_held {a c : Arch} {r : Response} {i : Instr} (ha : allowed i a = true)
    (hop : opOf i a (opStart a) = .error .hold c) : step (heldAt i (alone a r) c) = .next (heldAt i (alone a r) c) := by
  obtain ⟨hdry, hopen⟩ := (opOf_waits i a).dry _ _ hop
  have hstart : (opStart a).inEnd = false := (opOf_waits i a).open_of_hold hop
  have hreplay : replayFrom (opStart a) c = opStart a := by
    rw [replayFrom_opStart hdry (hopen.trans hstart.symm), List.append_nil]
    rfl
  have hagain : coreStep (heldAt i (alone a r) c) = exec i (alone (replayFrom (opStart a) c) .pending) :=
    coreStep_heldAt i (alone a r) c c []
  have hallowed : allowed i (opStart a) = true := (allowed_of_view i rfl).trans ha
  have hsame : opOf i (opStart a) (opStart (opStart a)) = .error .hold c :=
    (congrFun (opOf_of_view i (b := a) rfl) _).trans hop
  rw [step_alone rfl, hagain, hreplay, exec_of_allowed (s := alone (opStart a) .pending) hallowed]
  exact runOp_hold hsame

/-- With nothing to come, the machine never leaves an operation that stops short: a hold stays a hold, and a hard error is the
end (R255). -/
theorem step_stops {a : Arch} {r : Response} {i : Instr} (hi : nextOperation a = some i) (ha : allowed i a = true)
    (hm : i ≠ .mainStep) (h : StopsShort (opOf i a) (opStart a)) : ∃ t, step (alone a r) = .next t ∧ Stuck t := by
  obtain ⟨e, c, hop, hphase⟩ := h
  have hp : a.phase ≠ .loop := fun hl => hm (by simpa [nextOperation, hl] using hi.symm)
  rw [step_alone rfl, coreStep_issues rfl hi, exec_of_allowed (s := alone a r) ha]
  cases e with
  | hold => exact ⟨_, runOp_hold hop, step_held ha hop, fun hl => hp (hphase.symm.trans hl)⟩
  | raise cause =>
    refine ⟨failed (alone a r) cause c, runOp_raise hop, ?_, nofun⟩
    rw [step_alone rfl]
    exact coreStep_stays rfl rfl nofun

theorem StopsShort.answerDone {op : Op Unit} {a : Arch} (h : StopsShort op a) : StopsShort (answerDone op) a := by
  obtain ⟨e, c, hop, hphase⟩ := h
  exact ⟨e, c, by rw [run_answerDone, hop, mapValue_error], hphase⟩

theorem answerDone_ok {op : Op Unit} {a b : Arch} (h : op a = .ok () b) : answerDone op a = .ok .done b := by
  rw [run_answerDone, h, mapValue_ok]

/-! ## The start sequence -/

/-- The state behind START in `a` and a header (R220, R221). -/
def afterHeader (d : Byte) (v : Word) (z : DWord) (rest : List Byte) (a : Arch) : Arch :=
  headerRead d v z rest (opStart (startDecode (opStart a)))

/-- The state at the top of the main loop, behind START in `a`, a header, a preamble and DEC.INIT (R226). -/
def decodeStarted (d : Byte) (v : Word) (z : DWord) (rest : List Byte) (b0 : Byte) (c : Word) (rest' : List Byte)
    (a : Arch) : Arch :=
  freshDecoder (newWindow (effectiveDictSize v) (opStart (preambleRead b0 c rest' (opStart (afterHeader d v z rest a)))))

/-- At the top of the main loop nothing is seen of the state before START but what is no state of the core: the source, the
parameters and the supply of arbitrary bytes (R43, R272). -/
theorem decodeStarted_seen (d : Byte) (v : Word) (z : DWord) (rest : List Byte) (b0 : Byte) (c : Word) (rest' : List Byte)
    {a a' : Arch} (hend : a.inEnd = a'.inEnd) (hparams : a.params = a'.params) (hfill : a.fillReads = a'.fillReads) :
    seen true false (decodeStarted d v z rest b0 c rest' a) = seen true false (decodeStarted d v z rest b0 c rest' a') := by
  by_cases hz : z = 0xFFFFFFFFFFFFFFFF#64 <;>
    simp [decodeStarted, afterHeader, seen, headerRead, preambleRead, freshDecoder, hz, hend, hparams, hfill]

theorem step_start {s : State} (h : s.events = [.cmd (.uop [0x18])]) :
    step s = .next (alone (startDecode (opStart s.arch)) .done) :=
  (startBeginsDecode.2 s [] h).trans (exec_start _)

/-- A machine that reaches the main loop has completed the operation it issued. -/
theorem not_stopsShort_of_loop {a : Arch} {r : Response} {i : Instr} {k : Nat} (hi : nextOperation a = some i)
    (ha : allowed i a = true) (hm : i ≠ .mainStep)
    (h : ∃ t, Host.Core.run core (k + 1) (alone a r) = .next t ∧ t.arch.phase = .loop) :
    ¬ StopsShort (opOf i a) (opStart a) := by
  intro hstops
  obtain ⟨t, hrun, ht⟩ := h
  obtain ⟨u, hu, hstuck⟩ := step_stops hi ha hm hstops
  rw [run_succ hu, hstuck.run] at hrun
  cases hrun
  exact hstuck.2 ht

/-- A machine that reaches the main loop in the four steps of the start sequence has read an accepted header and preamble, and
every machine with the same source and parameters reads them too (R226). -/
theorem start_reaches_loop {s : State} (he : s.events = [.cmd (.uop [0x18])])
    (h : ∃ t, Host.Core.run core 4 s = .next t ∧ t.arch.phase = .loop) :
    ∃ d v z rest b0 c rest', ∀ s' : State, s'.events = [.cmd (.uop [0x18])] → s'.arch.inBytes = s.arch.inBytes →
      s'.arch.params = s.arch.params → ∀ k, Host.Core.run core (k + 4) s' =
        Host.Core.run core k (alone (decodeStarted d v z rest b0 c rest' s'.arch) .done) := by
  rw [run_succ (step_start he)] at h
  have hstops := not_stopsShort_of_loop (i := .hdrParse) rfl rfl nofun h
  obtain ⟨d, v, z, rest, hok⟩ := (hdrParse_ends _).resolve_left fun hshort => hstops hshort.answerDone
  have hheader (a : Arch) (ha : a.inBytes = s.arch.inBytes) :
      step (alone (startDecode (opStart a)) .done) = .next (alone (afterHeader d v z rest a) .done) :=
    step_completes (i := .hdrParse) rfl rfl (answerDone_ok (hok _ ha))
  rw [run_succ (hheader _ rfl)] at h
  have hstops := not_stopsShort_of_loop (i := .rcInit) rfl rfl nofun h
  obtain ⟨b0, c, rest', hok⟩ := (rcInit_ends _).resolve_left fun hshort => hstops hshort.answerDone
  have hpreamble (a : Arch) : step (alone (afterHeader d v z rest a) .done) =
      .next (alone (preambleRead b0 c rest' (opStart (afterHeader d v z rest a))) .done) :=
    step_completes (i := .rcInit) rfl rfl (answerDone_ok (hok _ rfl))
  rw [run_succ (hpreamble _)] at h
  have hsize : decide (effectiveDictSize v ≠ 0#32) = true := decide_eq_true (effectiveDictSize_ne_zero v)
  have hstops := not_stopsShort_of_loop
    (a := preambleRead b0 c rest' (opStart (afterHeader d v z rest s.arch))) (i := .decInit) rfl hsize nofun h
  have hcap := (decInit_ends _).resolve_left fun hshort => hstops hshort.answerDone
  have hinit (a : Arch) (ha : a.params = s.arch.params) :
      step (alone (preambleRead b0 c rest' (opStart (afterHeader d v z rest a))) .done) =
        .next (alone (decodeStarted d v z rest b0 c rest' a) .done) := by
    have hcap' := (overCap_of_params ha (effectiveDictSize v)).trans hcap
    exact step_completes (i := .decInit) rfl hsize (answerDone_ok (decInit_ok hcap'))
  refine ⟨d, v, z, rest, b0, c, rest', fun s' he' hbytes hparams k => ?_⟩
  rw [run_succ (step_start he'), run_succ (hheader _ hbytes), run_succ (hpreamble _), run_succ (hinit _ hparams)]

/-! ## From the main loop on -/

/-- Any number of steps of two machines of which the same is seen. -/
theorem run_seen {flag budget : Bool} {s t : State} (h : seenState flag budget s = seenState flag budget t) (k : Nat) :
    sameUpTo (seenState flag budget) (Host.Core.run core k s) (Host.Core.run core k t) := by
  induction k generalizing s t with
  | zero => exact h
  | succ k ih =>
    have hstep : sameUpTo (seenState flag budget) (core.step s) (core.step t) := step_seen h
    simp only [Host.Core.run]
    cases hs : core.step s <;> cases ht : core.step t <;> rw [hs, ht] at hstep
    case next.next => exact ih hstep
    case fault.fault | refused.refused => exact hstep
    all_goals exact hstep.elim

/-- Settles O37: the start sequence writes every register and memory but a budget without a meaning, from the source and the
parameters alone, and two machines that differ in such a budget alone take the same steps. -/
theorem startForgetsThePast : Obligations.StartForgetsThePast := by
  intro s t k hs ht hbytes hend hparams hfill hloop
  obtain ⟨d, v, z, rest, b0, c, rest', hstart⟩ := start_reaches_loop hs hloop
  have hsame : seenState true false (alone (decodeStarted d v z rest b0 c rest' s.arch) .done) =
      seenState true false (alone (decodeStarted d v z rest b0 c rest' t.arch) .done) :=
    seenState_eq_iff.mpr ⟨decodeStarted_seen d v z rest b0 c rest' hend hparams hfill, rfl, rfl, rfl⟩
  rw [Nat.add_comm 4 k, hstart s hs rfl rfl, hstart t ht hbytes.symm hparams.symm, ← seenState_dropBudget]
  exact run_seen hsame k

end Sys2Proof.Machine
end

section
/-! SUPPORT. Hard errors (R240, R250, R254): an operation raises a cause of its own, never NONE or INTERNAL; it leaves `cause`
INTERNAL only where it was, and `status` ERROR only where it was; what makes an error of it is `takeError`. With it, O49; and,
for the end of a decode, O50. -/

namespace Sys2Proof.Machine

/-! ## The causes that are raised (R241, R250) -/

/-- What the operation raises is a cause a rule names. -/
def RaisesNamed (op : Op α) : Prop := ∀ a c b, op a = .error (.raise c) b → c ≠ .none ∧ c ≠ .internal

theorem RaisesNamed.of_ok {op : Op α} (h : ∀ a, ∃ r b, op a = .ok r b) : RaisesNamed op := by
  intro a c b hr
  obtain ⟨r, d, ho⟩ := h a
  rw [ho] at hr
  cases hr

theorem raisesNamed_closed : ClosedGet (fun {_} op => RaisesNamed op) where
  pure r := .of_ok fun a => ⟨r, a, rfl⟩
  bind hx hk a c b h := by
    rcases bind_error_iff.mp h with h | ⟨q, d, -, h⟩
    · exact hx a c b h
    · exact hk q d c b h
  getBind _ hk a := hk a a
  raise _ _ hnone hinternal _ _ _ h := by
    cases h
    exact ⟨hnone, hinternal⟩

/-- A read that finds no byte raises `TruncatedInput`, if it raises at all (R51). -/
theorem starvedStop_raise {a : Arch} {c : Cause} (h : starvedStop a = .raise c) : c = .truncatedInput := by
  unfold starvedStop at h
  split at h <;> cases h
  rfl

theorem inByte_raisesNamed : RaisesNamed inByte := by
  intro a c b h
  cases hb : a.inBytes with
  | nil =>
    rw [inByte_nil hb] at h
    injection h with hstop _
    cases starvedStop_raise hstop
    exact ⟨nofun, nofun⟩
  | cons x xs =>
    rw [inByte_cons hb] at h
    cases h

theorem rcNorm_raisesNamed : RaisesNamed rcNorm := by
  intro a c b h
  by_cases hn : needsByte a
  · rw [rcNorm_stop hn] at h
    injection h with hstop _
    cases starvedStop_raise hstop
    exact ⟨nofun, nofun⟩
  · rw [rcNorm_ok hn] at h
    cases h

/-- An operation that is a change of the state, then `x`, raises what `x` raises. -/
theorem RaisesNamed.after {x : Op α} {op : Op β} {g : Arch → Arch} {k : Arch → α → β} (hx : RaisesNamed x)
    (hop : ∀ a, op a = mapValue (k a) (x (g a))) : RaisesNamed op := by
  intro a c b h
  rw [hop] at h
  cases hr : x (g a) with
  | ok r d => rw [hr] at h; cases h
  | error e d =>
    rw [hr] at h
    cases h
    exact hx _ _ _ hr

theorem raisesNamed_primitives : Primitives (fun {_} op => RaisesNamed op) := by
  constructor
  case inByte => exact inByte_raisesNamed
  case rcNorm => exact rcNorm_raisesNamed
  case rcBit => exact fun k => rcNorm_raisesNamed.after (rcBit_run k)
  case directRound => exact rcNorm_raisesNamed.after rcDirectRound_run
  case dwGet => exact fun dist => .of_ok fun a => (dwGet_ok dist a).imp fun _ ⟨_, h, _⟩ => ⟨_, h⟩
  case dwPut => exact fun b => .of_ok fun a => ⟨_, _, dwPut_ok b a⟩
  all_goals
    intros
    exact .of_ok fun a => ⟨_, _, rfl⟩

theorem opOf_raisesNamed (i : Instr) (a : Arch) : RaisesNamed (opOf i a) :=
  opOf_closed raisesNamed_closed raisesNamed_primitives i a

/-! ## No operation reports INTERNAL (R250) -/

/-- No operation but START writes `cause`, and START clears it (R220). -/
theorem causeNotInternal_primitives :
    Primitives (fun {_} op => Preserves (fun a => a.cause ≠ .internal) op) := by
  constructor
  case inByte => exact (inByte_keeps fun _ _ _ => rfl : Keeps Arch.cause inByte).preserves (· ≠ .internal)
  case rcNorm => exact (rcNorm_keeps fun _ _ _ _ _ => rfl : Keeps Arch.cause rcNorm).preserves (· ≠ .internal)
  case rcBit =>
    exact fun k => (rcBit_keeps (fun _ _ _ _ _ _ => rfl) fun _ _ => rfl : Keeps Arch.cause (rcBit k)).preserves (· ≠ .internal)
  case directRound =>
    exact (rcDirectRound_keeps fun _ _ _ _ _ _ _ => rfl : Keeps Arch.cause rcDirectRound).preserves (· ≠ .internal)
  case dwPut =>
    exact fun b => (dwPut_keeps (fun _ _ _ _ _ _ _ => rfl) b : Keeps Arch.cause (dwPut b)).preserves (· ≠ .internal)
  case dwGet =>
    exact fun dist => (dwGet_keeps (fun _ _ => rfl) dist : Keeps Arch.cause (dwGet dist)).preserves (· ≠ .internal)
  case spendBudget | hdrSize => exact fun _ => .modify fun _ h => by split <;> exact h
  case startDecode => exact .modify fun _ _ => nofun
  all_goals
    intros
    exact .modify fun _ h => h

theorem opOf_preserves_causeNotInternal (i : Instr) (a : Arch) : Preserves (fun b => b.cause ≠ .internal) (opOf i a) :=
  opOf_closed (preserves_closed _) causeNotInternal_primitives i a

/-! ## No operation reports ERROR (R254) -/

/-- The decode has not ended in an error. -/
def notFailed (a : Arch) : Prop := a.status ≠ .error

theorem Keeps.preserves_notFailed {op : Op α} (h : Keeps Arch.status op) : Preserves notFailed op :=
  h.preserves (· ≠ .error)

theorem rcBit_preserves_notFailed (k : Nat) : Preserves notFailed (rcBit k) :=
  (rcBit_keeps (fun _ _ _ _ _ _ => rfl) fun _ _ => rfl : Keeps Arch.status (rcBit k)).preserves_notFailed

theorem directRound_preserves_notFailed : Preserves notFailed rcDirectRound :=
  (rcDirectRound_keeps fun _ _ _ _ _ _ _ => rfl : Keeps Arch.status rcDirectRound).preserves_notFailed

theorem inByte_preserves_notFailed : Preserves notFailed inByte :=
  (inByte_keeps fun _ _ _ => rfl : Keeps Arch.status inByte).preserves_notFailed

theorem dwGet_preserves_notFailed (dist : Nat) : Preserves notFailed (dwGet dist) :=
  (dwGet_keeps (fun _ _ => rfl) dist : Keeps Arch.status (dwGet dist)).preserves_notFailed

theorem dwPut_preserves_notFailed (b : Byte) : Preserves notFailed (dwPut b) :=
  (dwPut_keeps (fun _ _ _ _ _ _ _ => rfl) b : Keeps Arch.status (dwPut b)).preserves_notFailed

theorem spendBudget_preserves_notFailed (n : Nat) : Preserves notFailed (spendBudget n) :=
  .modify fun _ h => by split <;> exact h

theorem hdrSize_preserves_notFailed (v : DWord) : Preserves notFailed (hdrSize v) :=
  .modify fun _ h => by split <;> exact h

theorem litDec_preserves_notFailed : Preserves notFailed litDec :=
  litDec_closed (preserves_closed _) (fun k _ => rcBit_preserves_notFailed k) dwGet_preserves_notFailed dwPut_preserves_notFailed

theorem lenDec_preserves_notFailed (inst : LenInst) (ps : BitVec 4) : Preserves notFailed (lenDec inst ps) :=
  lenDec_closed (preserves_closed _).toClosed fun k _ => rcBit_preserves_notFailed k

theorem distTail_preserves_notFailed (slot : Nat) : Preserves notFailed (distTail slot) :=
  distTail_closed (preserves_closed _).toClosed (fun k _ => rcBit_preserves_notFailed k) directRound_preserves_notFailed

theorem distDec_preserves_notFailed (len : Nat) : Preserves notFailed (distDec len) :=
  distDec_closed (preserves_closed _).toClosed (fun k _ => rcBit_preserves_notFailed k) directRound_preserves_notFailed

theorem copyTail_preserves_notFailed (len : Nat) : Preserves notFailed (copyTail len) :=
  copyTail_closed (preserves_closed _) dwGet_preserves_notFailed dwPut_preserves_notFailed spendBudget_preserves_notFailed len

theorem symLit_preserves_notFailed : Preserves notFailed symLit :=
  symLit_closed (preserves_closed _) litDec_preserves_notFailed (.modify fun _ h => h) spendBudget_preserves_notFailed

theorem symShortrep_preserves_notFailed : Preserves notFailed symShortrep :=
  symShortrep_closed (preserves_closed _) (.modify fun _ h => h) dwGet_preserves_notFailed dwPut_preserves_notFailed
    spendBudget_preserves_notFailed

theorem repTail_preserves_notFailed (ps : BitVec 4) : Preserves notFailed (repTail ps) :=
  repTail_closed (preserves_closed _) (lenDec_preserves_notFailed .rep) (.modify fun _ h => h) copyTail_preserves_notFailed ps

theorem symRep1_preserves_notFailed (ps : BitVec 4) : Preserves notFailed (symRep1 ps) :=
  Preserves.bind (.modify fun _ h => h) fun _ => repTail_preserves_notFailed ps

theorem symRep2_preserves_notFailed (ps : BitVec 4) : Preserves notFailed (symRep2 ps) :=
  Preserves.bind (.modify fun _ h => h) fun _ => repTail_preserves_notFailed ps

theorem symRep3_preserves_notFailed (ps : BitVec 4) : Preserves notFailed (symRep3 ps) :=
  Preserves.bind (.modify fun _ h => h) fun _ => repTail_preserves_notFailed ps

/-- A decode is finished with another status than ERROR (R179, R180, R183). -/
theorem finish_preserves_notFailed {st : Status} (hst : st ≠ .error) : Preserves notFailed (finish st) := fun _ _ => hst

theorem symEos_preserves_notFailed : Preserves notFailed symEos :=
  Preserves.get.bind fun _ => (Preserves.raiseIf _ _).bind fun _ => (Preserves.raiseIf _ _).bind fun _ =>
    finish_preserves_notFailed nofun

theorem matchTail_preserves_notFailed (len : Nat) : Preserves notFailed (matchTail len) :=
  Preserves.get.bind fun _ => symEos_preserves_notFailed.ite
    ((budgetGuard_preserves _).bind fun _ => (Preserves.raiseIf _ _).bind fun _ => copyTail_preserves_notFailed len)

theorem symMatch_preserves_notFailed (ps : BitVec 4) : Preserves notFailed (symMatch ps) :=
  symMatch_closed (preserves_closed _) (.modify fun _ h => h) (lenDec_preserves_notFailed .len) (.modify fun _ h => h)
    distDec_preserves_notFailed (fun _ => .modify fun _ h => h) matchTail_preserves_notFailed ps

theorem decodeIteration_preserves_notFailed (st : Fin 12) (ps : BitVec 4) : Preserves notFailed (decodeIteration st ps) :=
  (rcBit_preserves_notFailed _).bind fun _ => Preserves.ite
    ((rcBit_preserves_notFailed _).bind fun _ => Preserves.ite
      (repFamily_closed (preserves_closed _) rcBit_preserves_notFailed ps (repTail_preserves_notFailed ps)
        (symRep1_preserves_notFailed ps) (symRep2_preserves_notFailed ps) (symRep3_preserves_notFailed ps)
        symShortrep_preserves_notFailed st)
      (symMatch_preserves_notFailed ps))
    symLit_preserves_notFailed

theorem endIteration_preserves_notFailed (o : StepOutcome) : Preserves notFailed (endIteration o) := by
  cases o
  · exact Preserves.bind (.modify fun _ h => h) fun _ => .pure _
  · exact .pure _

theorem mainStep_preserves_notFailed : Preserves notFailed mainStep := by
  intro a ha
  have hstart : notFailed (iterationStart a) := ha
  rw [mainStep_run]
  split
  · exact finish_preserves_notFailed (st := .finishedWithoutMarker) nofun _ hstart
  · exact (decodeIteration_preserves_notFailed _ _).bind endIteration_preserves_notFailed _ hstart

/-- No operation leaves ERROR in `status` where it was not: that is left to `takeError`. -/
theorem opOf_preserves_notFailed (i : Instr) (a : Arch) : Preserves notFailed (opOf i a) := by
  have c := preserves_closed notFailed
  have hbit := rcBit_preserves_notFailed
  have hset {g : Arch → Arch} (hg : ∀ b, (g b).status = b.status) : Preserves notFailed (modify g) :=
    (Keeps.modify hg : Keeps Arch.status _).preserves_notFailed
  cases i
  case rcInit =>
    exact (rcInit_closed c.toClosed inByte_preserves_notFailed (hset fun _ => rfl) (fun _ => hset fun _ => rfl)
      fun _ => hset fun _ => rfl).answerDone
  case rcNorm => exact ((rcNorm_keeps fun _ _ _ _ _ => rfl : Keeps Arch.status rcNorm).preserves_notFailed).answerDone
  case rcBit => exact (hbit _).answer
  case rcDirect => exact (rcDirect_closed c.toClosed directRound_preserves_notFailed _).answer
  case btFwd => exact (btFwd_closed c.toClosed fun k _ _ => hbit k).answer
  case btRev => exact (btRev_closed c.toClosed fun k _ _ => hbit k).answer
  case lenDec => exact (lenDec_preserves_notFailed _ _).answer
  case dwCreate => exact (dwCreate_closed c (hset fun _ => rfl)).answerDone
  case dwPut => exact (dwPut_preserves_notFailed _).answerDone
  case dwGet => exact (dwGet_preserves_notFailed _).answer
  case dwCopy => exact (dwCopy_closed c.toClosed (dwGet_preserves_notFailed _) dwPut_preserves_notFailed _).answerDone
  case litDec => exact litDec_preserves_notFailed.answer
  case distDec => exact (distDec_preserves_notFailed _).answer
  case hdrParse =>
    exact (hdrParse_closed c inByte_preserves_notFailed (fun _ _ _ => hset fun _ => rfl) (fun _ => hset fun _ => rfl)
      hdrSize_preserves_notFailed fun _ => hset fun _ => rfl).answerDone
  case decInit => exact (decInit_closed c (fun _ => hset fun _ => rfl) (hset fun _ => rfl)).answerDone
  case mainStep => exact mainStep_preserves_notFailed.answer
  case start => exact fun _ _ => nofun
  case fmtProps => exact (hdrProps_closed c (fun _ _ _ => hset fun _ => rfl) _).answerDone
  case fmtSize => exact (hdrSize_preserves_notFailed _).answerDone
  case symLit => exact symLit_preserves_notFailed.answer
  case symMatch => exact (symMatch_preserves_notFailed _).answer
  case symEos => exact symEos_preserves_notFailed.answer
  case symShortrep => exact symShortrep_preserves_notFailed.answer
  case symRep0 => exact (repTail_preserves_notFailed _).answer
  case symRep1 => exact (symRep1_preserves_notFailed _).answer
  case symRep2 => exact (symRep2_preserves_notFailed _).answer
  case symRep3 => exact (symRep3_preserves_notFailed _).answer
  case codeLengthLow => exact (lengthLow_closed c.toClosed fun k _ => hbit k).answer
  case codeLengthMid => exact (lengthMid_closed c.toClosed fun k _ => hbit k).answer
  case codeLengthHigh => exact (lengthHigh_closed c.toClosed fun k _ => hbit k).answer
  case rcFinok | dwChk | dwEmpty | dwFlush | stLit | stMatch | stRep | stShortrep | fmtDictSize | fmtRcpre =>
    exact fun _ h => h
  all_goals exact (distTail_preserves_notFailed _).answer

/-! ## Taking a hard error (R254) -/

/-- Whatever the instruction, a completed operation has another answer than `error` (R88's result column). -/
theorem opOf_ne_error (i : Instr) (a b c : Arch) : opOf i a b ≠ .ok .error c := by
  cases i <;>
  · intro h
    obtain ⟨_, -, hr⟩ := answer_eq_ok h
    cases hr

/-- What an instruction leaves: an error it raised and took, or, turned away, completed or holding, what it found or its
operation left. -/
theorem exec_next_leaves {i : Instr} {s t : State} (h : exec i s = .next t) :
    (∃ c b, opOf i s.arch (opStart s.arch) = .error (.raise c) b ∧ t = failed s c b) ∨
    (t.response ≠ .error ∧ (t.arch = s.arch ∨ t.arch = endState (opOf i s.arch (opStart s.arch)))) := by
  rcases exec_next_cases h with ⟨-, rfl⟩ | ⟨-, ⟨r, b, ho, rfl⟩ | ⟨b, ho, rfl⟩ | ⟨c, b, ho, rfl⟩⟩
  · exact .inr ⟨nofun, .inl rfl⟩
  · refine .inr ⟨fun hr => ?_, .inr (by rw [ho]; rfl)⟩
    cases (show r = .error from hr)
    exact opOf_ne_error i _ _ _ ho
  · exact .inr ⟨nofun, .inr (by rw [ho]; rfl)⟩
  · exact .inl ⟨c, b, ho, rfl⟩

/-- Settles O49: what raises is named and taken by `takeError`; nothing else writes INTERNAL or ERROR. -/
theorem hardErrorIsTerminal : Obligations.HardErrorIsTerminal := by
  intro i s t h
  rcases exec_next_leaves h with ⟨c, b, ho, rfl⟩ | ⟨hr, ht⟩
  · obtain ⟨hnone, hinternal⟩ := opOf_raisesNamed i _ _ _ _ ho
    exact ⟨fun _ => ⟨rfl, rfl, hnone, hinternal, rfl, rfl⟩, fun hc => absurd hc hinternal, fun _ _ => rfl⟩
  · refine ⟨fun he => absurd he hr, fun hc => ?_, fun he hs => ?_⟩
    · rcases ht with ht | ht <;> rw [ht] at hc
      · exact hc
      · exact Decidable.not_not.mp fun hs => opOf_preserves_causeNotInternal i s.arch (opStart s.arch) hs hc
    · rcases ht with ht | ht <;> rw [ht] at he
      · exact absurd he hs
      · exact absurd he (opOf_preserves_notFailed i s.arch (opStart s.arch) hs)

/-! ## The end of a decode (R255) -/

/-- Settles O50: with nothing held, P_DONE issues nothing, and the source writes its own two fields. -/
theorem doneUntilStart : Obligations.DoneUntilStart := by
  intro s e es hh hp he
  have hstays (u : State) (hu : u.held = none) (hd : u.arch.phase = .done) : coreStep u = .next u :=
    coreStep_stays hu (by simp only [nextOperation, hd]) (by simp [hd])
  refine ⟨fun hs => (step_alone hs).trans (hstays s hh hp), fun hs => ?_⟩
  rw [step_event hs]
  rcases he with rfl | rfl | rfl | ⟨b, rfl⟩
  · exact ⟨_, hstays _ hh hp, hh, rfl, rfl⟩
  · exact ⟨_, rfl, hh, rfl, rfl⟩
  · exact ⟨_, rfl, hh, rfl, rfl⟩
  · refine ⟨_, rfl, hh, rfl, ?_⟩
    show supplyByte b s.arch = _
    unfold supplyByte
    split <;> rfl

end Sys2Proof.Machine
end

section
/-! SUPPORT. Reset (R270, R271): its step and its state. With it, O5 and O55. -/

namespace Sys2Proof.Machine

theorem step_reset {s : State} {es : List Event} (h : s.events = .reset :: es) :
    step s = .next (resetState { s with events := es }) := step_event h

/-- Settles O5: power-on is the reset of some state too, and a reset leaves the registers of `Arch.reset`. -/
theorem resetSetsRegisters : Obligations.ResetSetsRegisters := by
  refine ⟨fun a ha => ?_, fun s es h => ⟨_, step_reset h, rfl, rfl, rfl, rfl, rfl⟩⟩
  obtain ⟨b, rfl⟩ : ∃ b, a = resetArch b := by
    rcases ha with rfl | ⟨s, t, es, he, hstep, rfl⟩
    · exact ⟨Arch.reset, rfl⟩
    · cases (step_reset he).symm.trans hstep
      exact ⟨s.arch, rfl⟩
  exact ⟨rfl, rfl, rfl, rfl, rfl, rfl, rfl, rfl, rfl, ⟨rfl, rfl, rfl, rfl⟩, rfl, rfl, rfl, rfl, ⟨rfl, rfl, rfl, rfl, rfl⟩,
    rfl, rfl, rfl⟩

/-- Settles O55: both memories are empty, there is no window, and nothing is held. -/
theorem resetIsOk : Obligations.ResetIsOk := ⟨rfl, rfl⟩

end Sys2Proof.Machine
end

section
/-! SUPPORT. What holds of the operations a symbol is made of holds of every symbol, and what holds of the operations besides those
that begin a window, a decode or an iteration holds of every instruction but those that do (R183, R220, R221, R225). -/

namespace Sys2Proof.Machine

variable {Q : ∀ {α : Type}, Op α → Prop}

/-- The property holds of every operation a symbol is made of (R167 to R183), but for the direct bits of a distance. -/
structure SymbolParts (Q : ∀ {α : Type}, Op α → Prop) : Prop where
  rcBit : ∀ k, Q (rcBit k)
  dwPut : ∀ b, Q (dwPut b)
  dwGet : ∀ d, Q (dwGet d)
  dwFlush : Q dwFlush
  stLit : Q stLit
  stMatch : Q stMatch
  stRep : Q stRep
  stShortrep : Q stShortrep
  rotateReps : Q rotateReps
  setRep0 : ∀ d, Q (setRep0 d)
  toFront1 : Q (modify fun a => { a with rep1 := a.rep0, rep0 := a.rep1 })
  toFront2 : Q (modify fun a => { a with rep2 := a.rep1, rep1 := a.rep0, rep0 := a.rep2 })
  toFront3 : Q (modify fun a => { a with rep3 := a.rep2, rep2 := a.rep1, rep1 := a.rep0, rep0 := a.rep3 })
  spendBudget : ∀ n, Q (spendBudget n)
  endLoop : ∀ st, Q (modify fun a => { a with status := st, phase := .done })

section

variable (c : ClosedGet Q) (p : SymbolParts Q)
include c p

theorem SymbolParts.lenDec (inst : LenInst) (ps : BitVec 4) : Q (lenDec inst ps) :=
  lenDec_closed c.toClosed fun k _ => p.rcBit k

theorem SymbolParts.distTail (hd : Q rcDirectRound) (slot : Nat) : Q (distTail slot) :=
  distTail_closed c.toClosed (fun k _ => p.rcBit k) hd

theorem SymbolParts.distDec (hd : Q rcDirectRound) (len : Nat) : Q (distDec len) :=
  distDec_closed c.toClosed (fun k _ => p.rcBit k) hd

theorem SymbolParts.litDec : Q litDec := litDec_closed c (fun k _ => p.rcBit k) p.dwGet p.dwPut

theorem SymbolParts.finish (st : Status) : Q (finish st) := finish_closed c.toClosed p.dwFlush p.endLoop st

theorem SymbolParts.copyTail (len : Nat) : Q (copyTail len) := copyTail_closed c p.dwGet p.dwPut p.spendBudget len

theorem SymbolParts.symLit : Q symLit := symLit_closed c (p.litDec c) p.stLit p.spendBudget

theorem SymbolParts.symEos : Q symEos := symEos_closed c (p.finish c)

theorem SymbolParts.symMatch (hd : Q rcDirectRound) (ps : BitVec 4) : Q (symMatch ps) :=
  symMatch_closed c p.rotateReps (p.lenDec c .len) p.stMatch (p.distDec c hd) p.setRep0
    (matchTail_closed c (p.finish c) (p.copyTail c)) ps

theorem SymbolParts.symShortrep : Q symShortrep :=
  symShortrep_closed c p.stShortrep p.dwGet p.dwPut p.spendBudget

theorem SymbolParts.repTail (ps : BitVec 4) : Q (repTail ps) := repTail_closed c (p.lenDec c .rep) p.stRep (p.copyTail c) ps

theorem SymbolParts.symRep1 (ps : BitVec 4) : Q (symRep1 ps) := c.bind p.toFront1 fun _ => p.repTail c ps

theorem SymbolParts.symRep2 (ps : BitVec 4) : Q (symRep2 ps) := c.bind p.toFront2 fun _ => p.repTail c ps

theorem SymbolParts.symRep3 (ps : BitVec 4) : Q (symRep3 ps) := c.bind p.toFront3 fun _ => p.repTail c ps

theorem SymbolParts.mainStep (hd : Q rcDirectRound) (hph : ∀ q, Q (setPhase q)) : Q mainStep :=
  mainStep_closed c p.rcBit hph p.dwFlush (p.finish c) (p.symLit c) (p.symMatch c hd) fun st ps =>
    repFamily_closed c p.rcBit ps (p.repTail c ps) (p.symRep1 c ps) (p.symRep2 c ps) (p.symRep3 c ps) (p.symShortrep c) st

end

/-- The property also holds of what reads and writes the input, the preamble and the header. -/
structure PlainParts (Q : ∀ {α : Type}, Op α → Prop) : Prop extends SymbolParts Q where
  directRound : Q rcDirectRound
  inByte : Q inByte
  rcNorm : Q rcNorm
  rcInitClear : Q rcInitClear
  shiftIn : ∀ b, Q (modify fun a => { a with code := shiftInByte a.code b })
  rcInitFlag : ∀ b, Q (rcInitFlag b)
  setCode : ∀ c, Q (modify fun a => { a with code := c })
  setProps : ∀ lc lp pb, Q (modify fun a => { a with lc := lc, lp := lp, pb := pb })
  hdrDictSize : ∀ v, Q (hdrDictSize v)
  hdrSize : ∀ v, Q (hdrSize v)

/-- The instructions that begin no window and no decode, and do not take the sequencer on. -/
def plainInstr (i : Instr) : Bool :=
  match i with
  | .dwCreate _ | .start | .hdrParse | .decInit | .mainStep => false
  | _ => true

/-- What holds of their parts holds of the plain instructions. -/
theorem PlainParts.opOf (c : ClosedGet Q) (p : PlainParts Q) {i : Instr} (hi : plainInstr i = true) (a : Arch) :
    Q (opOf i a) := by
  have k := c.toClosed
  have q := p.toSymbolParts
  have done : ∀ {op : Op Unit}, Q op → Q (answerDone op) := fun h => c.bind h fun _ => c.pure _
  have ans : ∀ {α : Type} {op : Op α} (f : α → Response), Q op → Q (answer f op) := fun f h => c.bind h fun _ => c.pure _
  have test : ∀ {f : Arch → Response}, Reads f → Q (answer f get) := fun hf =>
    c.getBind (fun a b h => by rw [hf a b h]) fun _ => c.pure _
  cases i
  case dwCreate | start | hdrParse | decInit | mainStep => cases hi
  case rcInit => exact done (rcInit_closed k p.inByte p.rcInitClear p.shiftIn p.rcInitFlag)
  case rcNorm => exact done p.rcNorm
  case rcBit => exact ans _ (p.rcBit _)
  case rcDirect => exact ans _ (rcDirect_closed k p.directRound _)
  case rcFinok => exact test fun a b h => by rw [view_finok h]
  case btFwd => exact ans _ (btFwd_closed k fun k _ _ => p.rcBit k)
  case btRev => exact ans _ (btRev_closed k fun k _ _ => p.rcBit k)
  case lenDec => exact ans _ (q.lenDec c _ _)
  case dwPut => exact done (p.dwPut _)
  case dwGet => exact ans _ (p.dwGet _)
  case dwCopy => exact done (dwCopy_closed k (p.dwGet _) p.dwPut _)
  case dwChk => exact test fun a b h => by rw [view_distanceOk h]
  case dwEmpty => exact test fun a b h => by rw [view_windowEmpty h]
  case dwFlush => exact done p.dwFlush
  case stLit => exact done p.stLit
  case stMatch => exact done p.stMatch
  case stRep => exact done p.stRep
  case stShortrep => exact done p.stShortrep
  case litDec => exact ans _ (q.litDec c)
  case distDec => exact ans _ (q.distDec c p.directRound _)
  case fmtProps => exact done (hdrProps_closed c p.setProps _)
  case fmtDictSize => exact done (p.hdrDictSize _)
  case fmtSize => exact done (p.hdrSize _)
  case fmtRcpre => exact done (rcPreamble_closed k p.rcInitClear p.setCode p.rcInitFlag _ _)
  case symLit => exact ans _ (q.symLit c)
  case symMatch => exact ans _ (q.symMatch c p.directRound _)
  case symEos => exact ans _ (q.symEos c)
  case symShortrep => exact ans _ (q.symShortrep c)
  case symRep0 => exact ans _ (q.repTail c _)
  case symRep1 => exact ans _ (q.symRep1 c _)
  case symRep2 => exact ans _ (q.symRep2 c _)
  case symRep3 => exact ans _ (q.symRep3 c _)
  case codeLengthLow => exact ans _ (lengthLow_closed k fun k _ => p.rcBit k)
  case codeLengthMid => exact ans _ (lengthMid_closed k fun k _ => p.rcBit k)
  case codeLengthHigh => exact ans _ (lengthHigh_closed k fun k _ => p.rcBit k)
  all_goals exact ans _ (q.distTail c p.directRound _)

end Sys2Proof.Machine
end

section
/-! SUPPORT. The invariant of every state (R26, R30, R31, R39, R42): every operation keeps the bounds of the memories and the cursor, and
only one that holds leaves P_SYMBOL. With it, O54. -/

namespace Sys2Proof.Machine

/-! ## The memories, the cursor and the flush pointer -/

theorem archOk_iff {a : Arch} : a.ok = true ↔
    DictMem.wf a.buf = true ∧ ProbMem.wf a.prob = true ∧ a.prob.inRange = true ∧
      DictMem.below a.size.toNat a.buf = true ∧ cursorOk a = true ∧ a.flushedPos = a.totalPos := by
  simp only [Arch.ok, Memory.wf, Bool.and_eq_true, decide_eq_true_eq, and_assoc]

theorem cursorOk_iff {a : Arch} : cursorOk a = true ↔ a.pos < a.size ∨ a.size = 0#32 := by
  simp only [cursorOk, Bool.or_eq_true, decide_eq_true_eq]

theorem cursorOk_putStep {b : Byte} {a : Arch} (h : cursorOk a = true) : cursorOk (putStep b a) = true := by
  rw [cursorOk_iff] at h ⊢
  rcases h with hp | hz
  · exact .inl (putStep_pos_toNat hp).2
  · exact .inr (by rwa [putStep_size])

theorem archOk_putStep {b : Byte} {a : Arch} (h : a.ok = true) : (putStep b a).ok = true := by
  obtain ⟨hd, hp, hr, hb, hc, -⟩ := archOk_iff.mp h
  refine archOk_iff.mpr ⟨?_, by rwa [putStep_prob], by rwa [putStep_prob], ?_, cursorOk_putStep hc, (putStep_totalPos b a).symm⟩ <;>
    simp only [putStep_buf, putStep_size, storedBuf] <;> split
  · exact dictWrite_wf hd _ _
  · exact hd
  · exact dictWrite_below hb (BitVec.lt_def.mp ‹_›) b
  · exact hb

theorem archOk_bitStep (k : Nat) {a : Arch} (h : a.ok = true) : (bitStep k a).ok = true := by
  obtain ⟨hd, hp, hr, hb, hc, hf⟩ := archOk_iff.mp h
  exact archOk_iff.mpr ⟨hd, probWrite_wf hp _ _, bitStep_inRange hr, hb, hc, hf⟩

theorem archOk_normalised {a : Arch} (h : a.ok = true) : (normalised a).ok = true := by
  unfold normalised
  split
  · split <;> exact h
  · exact h

theorem archOk_flushed {a : Arch} (h : a.ok = true) : (flushed a).ok = true := by
  obtain ⟨hd, hp, hr, hb, hc, -⟩ := archOk_iff.mp h
  exact archOk_iff.mpr ⟨hd, hp, hr, hb, hc, rfl⟩

theorem archOk_takeError (c : Cause) {a : Arch} (h : a.ok = true) : (takeError c a).ok = true :=
  (archOk_flushed h : (flushed a).ok = true)

theorem archOk_newWindow (n : Word) {a : Arch} (h : a.ok = true) : (newWindow n a).ok = true := by
  obtain ⟨-, hp, hr, -, -, -⟩ := archOk_iff.mp h
  have hn : 0#32 < n ∨ n = 0#32 := by bv_omega
  exact archOk_iff.mpr ⟨rfl, hp, hr, rfl, cursorOk_iff.mpr hn, rfl⟩

theorem archOk_freshDecoder {a : Arch} (h : a.ok = true) : (freshDecoder a).ok = true := by
  obtain ⟨hd, -, -, hb, hc, hf⟩ := archOk_iff.mp h
  exact archOk_iff.mpr ⟨hd, rfl, rfl, hb, hc, hf⟩

theorem archOk_primitives : Primitives (fun {_} op => Preserves (fun a => a.ok = true) op) where
  inByte := (inByte_keeps fun _ _ _ => rfl : Keeps Arch.ok inByte).preserves (· = true)
  rcNorm := (rcNorm_keeps fun _ _ _ _ _ => rfl : Keeps Arch.ok rcNorm).preserves (· = true)
  rcBit k := rcBit_preserves (fun _ => archOk_bitStep k) fun _ => archOk_normalised
  directRound := (rcDirectRound_keeps fun _ _ _ _ _ _ _ => rfl : Keeps Arch.ok _).preserves (· = true)
  rcInitClear := .modify fun _ h => h
  shiftIn _ := .modify fun _ h => h
  rcInitFlag _ := .modify fun _ h => h
  setCode _ := .modify fun _ h => h
  dwPut b a h := by rw [dwPut_ok]; exact archOk_putStep h
  dwGet d := (dwGet_keeps (fun _ _ => rfl) d : Keeps Arch.ok (dwGet d)).preserves (· = true)
  dwFlush := .modify fun _ => archOk_flushed
  newWindow n := .modify fun _ => archOk_newWindow n
  stLit := .modify fun _ h => h
  stMatch := .modify fun _ h => h
  stRep := .modify fun _ h => h
  stShortrep := .modify fun _ h => h
  rotateReps := .modify fun _ h => h
  setRep0 _ := .modify fun _ h => h
  toFront1 := .modify fun _ h => h
  toFront2 := .modify fun _ h => h
  toFront3 := .modify fun _ h => h
  spendBudget _ := .modify fun _ h => by split <;> exact h
  endLoop _ := .modify fun _ h => h
  setPhase _ := .modify fun _ h => h
  setProps _ _ _ := .modify fun _ h => h
  hdrDictSize _ := .modify fun _ h => h
  hdrSize _ := .modify fun _ h => by split <;> exact h
  freshDecoder := .modify fun _ => archOk_freshDecoder
  startDecode := .modify fun _ h => h

/-- Every operation of every instruction keeps both memories, the cursor and the flush pointer in order. -/
theorem opOf_preserves_archOk (i : Instr) (a : Arch) : Preserves (fun b => b.ok = true) (opOf i a) :=
  opOf_closed (preserves_closed _) archOk_primitives i a

/-! ## P_SYMBOL is left when an iteration completes (R39, R183) -/

/-- The sequencer is not inside an iteration. -/
def betweenOps (a : Arch) : Prop := a.phase ≠ .symbol

theorem Keeps.preserves_betweenOps {op : Op α} (h : Keeps Arch.phase op) : Preserves betweenOps op := h.preserves (· ≠ .symbol)

theorem betweenOps_parts : PlainParts (fun {_} op => Preserves betweenOps op) where
  rcBit k := (rcBit_keeps (fun _ _ _ _ _ _ => rfl) fun _ _ => rfl : Keeps Arch.phase (rcBit k)).preserves_betweenOps
  directRound := (rcDirectRound_keeps fun _ _ _ _ _ _ _ => rfl : Keeps Arch.phase _).preserves_betweenOps
  dwPut b := (dwPut_keeps (fun _ _ _ _ _ _ _ => rfl) b : Keeps Arch.phase (dwPut b)).preserves_betweenOps
  dwGet d := (dwGet_keeps (fun _ _ => rfl) d : Keeps Arch.phase (dwGet d)).preserves_betweenOps
  dwFlush := .modify fun _ h => h
  stLit := .modify fun _ h => h
  stMatch := .modify fun _ h => h
  stRep := .modify fun _ h => h
  stShortrep := .modify fun _ h => h
  rotateReps := .modify fun _ h => h
  setRep0 _ := .modify fun _ h => h
  toFront1 := .modify fun _ h => h
  toFront2 := .modify fun _ h => h
  toFront3 := .modify fun _ h => h
  spendBudget _ := .modify fun _ h => by split <;> exact h
  endLoop _ := .modify fun _ _ => nofun
  inByte := (inByte_keeps fun _ _ _ => rfl : Keeps Arch.phase inByte).preserves_betweenOps
  rcNorm := (rcNorm_keeps fun _ _ _ _ _ => rfl : Keeps Arch.phase rcNorm).preserves_betweenOps
  rcInitClear := .modify fun _ h => h
  shiftIn _ := .modify fun _ h => h
  rcInitFlag _ := .modify fun _ h => h
  setCode _ := .modify fun _ h => h
  setProps _ _ _ := .modify fun _ h => h
  hdrDictSize _ := .modify fun _ h => h
  hdrSize _ := .modify fun _ h => by split <;> exact h

theorem decodeOk_betweenOps {a : Arch} (h : decodeOk a = true) : betweenOps a := by
  intro hp
  simp only [decodeOk, hp] at h
  cases h

/-- What says `finished` has left the sequencer in P_DONE. -/
def doneIfFinished (o : StepOutcome) (a : Arch) : Prop := o = .finished → a.phase = .done

theorem Yields.last {P : Arch → Prop} {R : β → Arch → Prop} {x : Op α} {f : α → Op β}
    (hf : ∀ r, Yields (fun _ => True) (f r) R) : Yields P (x >>= f) R :=
  (Yields.trivial x).bind hf

theorem continue_doneIfFinished : Yields (fun _ => True) (pure .continue) doneIfFinished :=
  .pure fun _ _ => nofun

theorem finish_doneIfFinished (st : Status) : Yields (fun _ => True) (finish st) doneIfFinished :=
  (finish_done st).mono fun _ _ h _ => h.2

theorem symEos_doneIfFinished : Yields (fun _ => True) symEos doneIfFinished :=
  .last fun _ => .last fun _ => .last fun _ =>
    finish_doneIfFinished _

theorem copyTail_doneIfFinished (len : Nat) : Yields (fun _ => True) (copyTail len) doneIfFinished :=
  .last fun _ => .last fun _ => .last fun _ =>
    .last fun _ => continue_doneIfFinished

theorem symLit_doneIfFinished : Yields (fun _ => True) symLit doneIfFinished :=
  .last fun _ => .last fun _ => .last fun _ =>
    .last fun _ => continue_doneIfFinished

theorem matchTail_doneIfFinished (len : Nat) : Yields (fun _ => True) (matchTail len) doneIfFinished := by
  refine .last fun a => ?_
  split
  · exact symEos_doneIfFinished
  · exact .last fun _ => .last fun _ => copyTail_doneIfFinished len

theorem symMatch_doneIfFinished (ps : BitVec 4) : Yields (fun _ => True) (symMatch ps) doneIfFinished :=
  .last fun _ => .last fun len => .last fun _ =>
    .last fun _ => .last fun _ => matchTail_doneIfFinished len

theorem symShortrep_doneIfFinished : Yields (fun _ => True) symShortrep doneIfFinished :=
  .last fun _ => .last fun _ => .last fun _ =>
    .last fun _ => .last fun _ => continue_doneIfFinished

theorem repTail_doneIfFinished (ps : BitVec 4) : Yields (fun _ => True) (repTail ps) doneIfFinished :=
  .last fun len => .last fun _ => copyTail_doneIfFinished len

theorem reordered_repTail_doneIfFinished (f : Arch → Arch) (ps : BitVec 4) :
    Yields (fun _ => True) (modify f >>= fun _ => repTail ps) doneIfFinished :=
  .last fun _ => repTail_doneIfFinished ps

theorem repFamily_doneIfFinished (st : Fin 12) (ps : BitVec 4) :
    Yields (fun _ => True) (repFamily st ps) doneIfFinished := by
  refine .last fun _ => .last fun g0 => ?_
  cases g0
  · refine .last fun l => ?_
    cases l
    · exact symShortrep_doneIfFinished
    · exact repTail_doneIfFinished ps
  · refine .last fun g1 => ?_
    cases g1
    · exact reordered_repTail_doneIfFinished _ ps
    · refine .last fun g2 => ?_
      cases g2 <;> exact reordered_repTail_doneIfFinished _ ps

theorem decodeIteration_doneIfFinished (st : Fin 12) (ps : BitVec 4) :
    Yields (fun _ => True) (decodeIteration st ps) doneIfFinished := by
  refine .last fun m => ?_
  cases m
  · exact symLit_doneIfFinished
  · refine .last fun r => ?_
    cases r
    · exact symMatch_doneIfFinished ps
    · exact repFamily_doneIfFinished st ps

theorem endIteration_yields_betweenOps (o : StepOutcome) : Yields (doneIfFinished o) (endIteration o) fun _ => betweenOps := by
  rcases o with _ | _
  · intro a r b _ h
    cases (show EStateM.Result.ok StepOutcome.continue { a with phase := .loop } = .ok r b from h)
    exact nofun
  · refine .pure fun a h hp => ?_
    cases hp.symm.trans (h rfl)

theorem mainStep_yields_betweenOps : Yields (fun _ => True) mainStep fun _ => betweenOps := by
  intro a o b _ h
  rw [mainStep_run] at h
  split at h
  · rw [finish_ok] at h
    cases h
    exact nofun
  · exact ((decodeIteration_doneIfFinished _ _).bind endIteration_yields_betweenOps : Yields (fun _ => True) _ _) _ o b trivial h

/-- An instruction that completes leaves the sequencer between two operations if it was. -/
theorem opOf_yields_betweenOps (i : Instr) (a : Arch) : Yields betweenOps (opOf i a) fun _ => betweenOps := by
  by_cases hi : plainInstr i = true
  · exact (betweenOps_parts.opOf (preserves_closed _) hi a).yields
  · cases i
    case dwCreate => exact (dwCreate_closed (preserves_closed _) (.modify fun _ h => h)).answerDone.yields
    case start => exact (Preserves.modify fun _ _ => nofun).answerDone.yields
    case hdrParse => exact (hdrParse_yields.mono fun _ _ => decodeOk_betweenOps).answerDone
    case decInit =>
      have hop := decInit_closed (preserves_closed betweenOps) (fun _ => .modify fun _ h => h) (.modify fun _ _ => nofun)
      exact hop.answerDone.yields
    case mainStep => exact (mainStep_yields_betweenOps.weaken fun _ _ => trivial).answer
    all_goals exact absurd rfl hi

/-! ## A step -/

theorem stateOk_of_free {s : State} (hh : s.held = none) : s.ok = true ↔ s.arch.ok = true ∧ betweenOps s.arch := by
  simp only [State.ok, hh, betweenOps, Option.isSome_none, Bool.or_false, Bool.and_eq_true, bne_iff_ne, and_true]

theorem stateOk_of_held {s : State} {h : Held} (hh : s.held = some h) :
    s.ok = true ↔ s.arch.ok = true ∧ h.start.ok = true ∧ betweenOps h.start := by
  simp only [State.ok, hh, betweenOps, Option.isSome_some, Bool.or_true, Bool.and_eq_true, bne_iff_ne, and_true]

theorem stateOk_arch {s : State} (h : s.ok = true) : s.arch.ok = true := by
  simp only [State.ok, Bool.and_eq_true] at h
  exact h.1.1

/-- An instruction run from between two operations keeps the invariant, however it ends. -/
theorem exec_stateOk {i : Instr} {s t : State} (hh : s.held = none) (hs : s.ok = true) (h : exec i s = .next t) :
    t.ok = true := by
  obtain ⟨ha, hb⟩ := (stateOk_of_free hh).mp hs
  have hop := opOf_preserves_archOk i s.arch (opStart s.arch) ha
  rcases exec_next_cases h with ⟨-, rfl⟩ | ⟨-, ⟨r, b, ho, rfl⟩ | ⟨b, ho, rfl⟩ | ⟨c, b, ho, rfl⟩⟩
  · exact (stateOk_of_free hh).mpr ⟨ha, hb⟩
  · rw [ho] at hop
    exact (stateOk_of_free rfl).mpr ⟨hop, opOf_yields_betweenOps i s.arch (opStart s.arch) r b hb ho⟩
  · rw [ho] at hop
    exact (stateOk_of_held rfl).mpr ⟨hop, ha, hb⟩
  · rw [ho] at hop
    exact (stateOk_of_free rfl).mpr ⟨archOk_takeError c hop, nofun⟩

theorem coreStep_stateOk {s t : State} (hs : s.ok = true) (h : coreStep s = .next t) : t.ok = true := by
  unfold coreStep at h
  split at h
  next held hheld =>
    obtain ⟨-, ha, hb⟩ := (stateOk_of_held hheld).mp hs
    exact exec_stateOk rfl ((stateOk_of_free rfl).mpr ⟨ha, hb⟩) h
  next hheld =>
    split at h
    · exact exec_stateOk hheld hs h
    · split at h
      · cases h
      · cases h
        exact hs

theorem exec_start_stateOk {s t : State} (hs : s.ok = true) (h : exec .start s = .next t) : t.ok = true := by
  cases (exec_start s).symm.trans h
  exact (stateOk_of_free rfl).mpr ⟨(stateOk_arch hs : s.arch.ok = true), nofun⟩

theorem turnAway_stateOk {s t : State} (hs : s.ok = true) (h : turnAway s = .next t) : t.ok = true := by
  cases h
  exact hs

theorem runWord_stateOk {w : CmdWord} {s t : State} (hs : s.ok = true) (h : runWord w s = .next t) : t.ok = true := by
  unfold runWord at h
  split at h
  · split at h
    next i _ hacc =>
      simp only [accepts, Bool.or_eq_true, Option.isNone_iff_eq_none, decide_eq_true_eq] at hacc
      rcases hacc with hh | rfl
      · exact exec_stateOk hh hs h
      · exact exec_start_stateOk hs h
    · exact turnAway_stateOk hs h
  · exact turnAway_stateOk hs h

theorem deliver_stateOk {e : Event} {s t : State} (hs : s.ok = true) (h : deliver e s = .next t) : t.ok = true := by
  cases e with
  | cmd w => exact runWord_stateOk hs h
  | byte b =>
    cases h
    unfold supplyByte
    split <;> exact hs
  | endOfInput | attach =>
    cases h
    exact hs
  | reset =>
    cases h
    rfl
  | pass => exact coreStep_stateOk hs h

/-- Settles O54: every operation keeps the memories and the cursor in order, and none that completes is inside an iteration. -/
theorem stepKeepsStateOk : Obligations.StepKeepsStateOk := by
  intro s t hs h
  cases he : s.events with
  | nil => exact coreStep_stateOk hs ((step_alone he).symm.trans h)
  | cons e es => exact deliver_stateOk (s := { s with events := es }) hs ((step_event he).symm.trans h)

end Sys2Proof.Machine
end

section
/-! SUPPORT. What the symbols and an iteration of the main loop leave (R23, R24, R25, R35, R36). With it, O20. -/

namespace Sys2Proof.Machine

theorem Keeps.answer {g : Arch → γ} {f : α → Response} {op : Op α} (h : Keeps g op) : Keeps g (answer f op) :=
  h.bind fun _ => .pure _

theorem Keeps.answerDone {g : Arch → γ} {op : Op Unit} (h : Keeps g op) : Keeps g (answerDone op) := h.bind fun _ => .pure _

/-- What an instruction's operation keeps, the instruction does, where neither the empty log nor a hard error counts. -/
theorem exec_keeps {g : Arch → γ} {i : Instr} {s t : State} (hop : Keeps g (opOf i s.arch))
    (hstart : g (opStart s.arch) = g s.arch) (herr : ∀ c a, g (takeError c a) = g a) (h : exec i s = .next t) :
    g t.arch = g s.arch :=
  exec_leaves (P := fun a => g a = g s.arch) h (fun _ => rfl) (fun c a ha => (herr c a).trans ha) ((hop _).trans hstart)

/-! ## What every symbol keeps (R35, R36) -/

/-- What the header and DW.CREATE wrote, the parameters and the source's signal. -/
def header (a : Arch) : (Fin 9 × Fin 5 × Fin 5) × (Word × Word × Word) × (Bool × DWord) × Config.Params × Bool :=
  ((a.lc, a.lp, a.pb), (a.dictSizeInProperties, a.dictSize, a.size), (a.sizeDefined, a.declaredSize), a.params, a.inEnd)

theorem header_parts : SymbolParts (fun {_} op => Keeps header op) where
  rcBit _ := rcBit_keeps (fun _ _ _ _ _ _ => rfl) fun _ _ => rfl
  dwPut := dwPut_keeps fun _ _ _ _ _ _ _ => rfl
  dwGet := dwGet_keeps fun _ _ => rfl
  dwFlush := .modify fun _ => rfl
  stLit := .modify fun _ => rfl
  stMatch := .modify fun _ => rfl
  stRep := .modify fun _ => rfl
  stShortrep := .modify fun _ => rfl
  rotateReps := .modify fun _ => rfl
  setRep0 _ := .modify fun _ => rfl
  toFront1 := .modify fun _ => rfl
  toFront2 := .modify fun _ => rfl
  toFront3 := .modify fun _ => rfl
  spendBudget _ := .modify fun _ => by split <;> rfl
  endLoop _ := .modify fun _ => rfl

theorem directRound_keeps_header : Keeps header rcDirectRound := rcDirectRound_keeps fun _ _ _ _ _ _ _ => rfl

theorem mainStep_keeps_header : Keeps header mainStep :=
  header_parts.mainStep (keeps_closed _) directRound_keeps_header fun _ => .modify fun _ => rfl

/-- The symbols, the literal they share with the command bus, and the iteration. -/
theorem symbol_keeps_header {i : Instr}
    (hi : i = .symLit ∨ i = .symMatch ∨ i = .symEos ∨ i = .symShortrep ∨ i = .symRep0 ∨ i = .symRep1 ∨ i = .symRep2 ∨
      i = .symRep3 ∨ i = .litDec ∨ i = .mainStep) (a : Arch) : Keeps header (opOf i a) := by
  have c := keeps_closed header
  have p := header_parts
  rcases hi with rfl | rfl | rfl | rfl | rfl | rfl | rfl | rfl | rfl | rfl
  · exact (p.symLit c).answer
  · exact (p.symMatch c directRound_keeps_header _).answer
  · exact (p.symEos c).answer
  · exact (p.symShortrep c).answer
  · exact (p.repTail c _).answer
  · exact (p.symRep1 c _).answer
  · exact (p.symRep2 c _).answer
  · exact (p.symRep3 c _).answer
  · exact (p.litDec c).answer
  · exact mainStep_keeps_header.answer

/-! ## The reps and the state register (R24, R25) -/

/-- The four last distances. -/
def reps (a : Arch) : Word × Word × Word × Word := (a.rep0, a.rep1, a.rep2, a.rep3)

theorem rcBit_keeps_reps (k : Nat) : Keeps reps (rcBit k) := rcBit_keeps (fun _ _ _ _ _ _ => rfl) fun _ _ => rfl
theorem dwGet_keeps_reps (dist : Nat) : Keeps reps (dwGet dist) := dwGet_keeps (fun _ _ => rfl) dist
theorem dwPut_keeps_reps (b : Byte) : Keeps reps (dwPut b) := dwPut_keeps (fun _ _ _ _ _ _ _ => rfl) b
theorem spendBudget_keeps_reps (n : Nat) : Keeps reps (spendBudget n) := .modify fun _ => by split <;> rfl

theorem symEos_keeps_stateAndReps : Keeps stateAndReps symEos :=
  symEos_closed (keeps_closed _) (finish_closed (keeps_closed _).toClosed (.modify fun _ => rfl) fun _ => .modify fun _ => rfl)

theorem repTail_keeps_reps (ps : BitVec 4) : Keeps reps (repTail ps) :=
  repTail_closed (keeps_closed _) (fun _ => lenDec_closed (keeps_closed _).toClosed fun k _ => rcBit_keeps_reps k)
    (.modify fun _ => rfl) (copyTail_closed (keeps_closed _) dwGet_keeps_reps dwPut_keeps_reps spendBudget_keeps_reps) ps

theorem symbol_keeps_reps {i : Instr}
    (hi : i = .symLit ∨ i = .litDec ∨ i = .symEos ∨ i = .symShortrep ∨ i = .symRep0) (a : Arch) : Keeps reps (opOf i a) := by
  have c := keeps_closed reps
  have hlit : Keeps reps litDec := litDec_keeps_stateAndReps.comp Prod.snd
  rcases hi with rfl | rfl | rfl | rfl | rfl
  · exact (symLit_closed c hlit (.modify fun _ => rfl) spendBudget_keeps_reps).answer
  · exact hlit.answer
  · exact (symEos_keeps_stateAndReps.comp Prod.snd).answer
  · exact (symShortrep_closed c (.modify fun _ => rfl) dwGet_keeps_reps dwPut_keeps_reps spendBudget_keeps_reps).answer
  · exact (repTail_keeps_reps _).answer

theorem symbol_keeps_state {i : Instr} (hi : i = .litDec ∨ i = .symEos) (a : Arch) : Keeps Arch.state (opOf i a) := by
  rcases hi with rfl | rfl
  · exact (litDec_keeps_stateAndReps.comp Prod.fst).answer
  · exact (symEos_keeps_stateAndReps.comp Prod.fst).answer

/-! ## The advisory flag (R23) -/

theorem corrupted_parts : SymbolParts (fun {_} op => Keeps Arch.corrupted op) where
  rcBit _ := rcBit_keeps (fun _ _ _ _ _ _ => rfl) fun _ _ => rfl
  dwPut := dwPut_keeps fun _ _ _ _ _ _ _ => rfl
  dwGet := dwGet_keeps fun _ _ => rfl
  dwFlush := .modify fun _ => rfl
  stLit := .modify fun _ => rfl
  stMatch := .modify fun _ => rfl
  stRep := .modify fun _ => rfl
  stShortrep := .modify fun _ => rfl
  rotateReps := .modify fun _ => rfl
  setRep0 _ := .modify fun _ => rfl
  toFront1 := .modify fun _ => rfl
  toFront2 := .modify fun _ => rfl
  toFront3 := .modify fun _ => rfl
  spendBudget _ := .modify fun _ => by split <;> rfl
  endLoop _ := .modify fun _ => rfl

/-- Only a new match has direct bits. -/
theorem symbol_keeps_corrupted {i : Instr}
    (hi : i = .symLit ∨ i = .symMatch ∨ i = .symEos ∨ i = .symShortrep ∨ i = .symRep0 ∨ i = .symRep1 ∨ i = .symRep2 ∨
      i = .symRep3 ∨ i = .litDec ∨ i = .mainStep) (hm : i ≠ .symMatch) (hs : i ≠ .mainStep) (a : Arch) :
    Keeps Arch.corrupted (opOf i a) := by
  have c := keeps_closed Arch.corrupted
  have p := corrupted_parts
  rcases hi with rfl | rfl | rfl | rfl | rfl | rfl | rfl | rfl | rfl | rfl
  · exact (p.symLit c).answer
  · exact absurd rfl hm
  · exact (p.symEos c).answer
  · exact (p.symShortrep c).answer
  · exact (p.repTail c _).answer
  · exact (p.symRep1 c _).answer
  · exact (p.symRep2 c _).answer
  · exact (p.symRep3 c _).answer
  · exact (p.litDec c).answer
  · exact absurd rfl hs

/-- Settles O20: each part of the state is kept by the parts of those symbols, however they end. -/
theorem symbolFrame : Obligations.SymbolFrame := by
  intro i s t hi h
  refine ⟨?_, fun hr => ?_, fun hst => ?_, fun hm hs => ?_⟩
  · have hk : header t.arch = header s.arch := exec_keeps (symbol_keeps_header hi _) rfl (fun _ _ => rfl) h
    simp only [header, Prod.mk.injEq] at hk
    obtain ⟨⟨hlc, hlp, hpb⟩, ⟨hdp, hds, hsize⟩, ⟨hsd, hdecl⟩, hparams, hend⟩ := hk
    exact ⟨hlc, hlp, hpb, hdp, hds, hsize, hsd, hdecl, hparams, hend⟩
  · have hk : reps t.arch = reps s.arch := exec_keeps (symbol_keeps_reps hr _) rfl (fun _ _ => rfl) h
    simpa only [reps, Prod.mk.injEq] using hk
  · exact exec_keeps (symbol_keeps_state hst _) rfl (fun _ _ => rfl) h
  · exact exec_keeps (symbol_keeps_corrupted hi hm hs _) rfl (fun _ _ => rfl) h

end Sys2Proof.Machine
end

section
/-! SUPPORT. The symbols that complete, told by their operations (R169, R173, R178): the literal, the short repeat and the copy. -/

namespace Sys2Proof.Machine

theorem raiseIf_eq_ok {p : Bool} {c : Cause} {a b : Arch} {r : Unit} (h : raiseIf p c a = .ok r b) : p = false ∧ b = a := by
  rw [run_raiseIf] at h
  cases p <;> cases h
  exact ⟨rfl, rfl⟩

/-- A literal that completes found a budget that is not used up. -/
theorem symLit_eq_ok {a b : Arch} {o : StepOutcome} (h : symLit a = .ok o b) :
    o = .continue ∧ budgetSpent a = false ∧ ∃ v m, litDec a = .ok v m ∧
      b = { m with state := stateAfterLit m.state, leftToUnpack := budgetAfter 1 a } := by
  cases hb : budgetSpent a with
  | true => cases (symLit_budgetExhausted hb).symm.trans h
  | false =>
    have hguarded := h
    unfold symLit at hguarded
    rw [run_bind_ok (budgetGuard_ok hb)] at hguarded
    obtain ⟨v, m, hlit, -⟩ := bind_ok_iff.mp hguarded
    cases (symLit_ok hb hlit).symm.trans h
    exact ⟨rfl, rfl, v, m, hlit, rfl⟩

/-- A short repeat completes from every state, and copies one byte. -/
theorem symShortrep_eq_ok {a b : Arch} {o : StepOutcome} (h : symShortrep a = .ok o b) :
    o = .continue ∧ ∃ c, dwCopy (a.rep0.toNat + 1) 1 { a with state := stateAfterShortrep a.state } = .ok () c ∧
      b = { c with leftToUnpack := budgetAfter 1 a } := by
  obtain ⟨v, n, hget, -⟩ := dwGet_ok (a.rep0.toNat + 1) { a with state := stateAfterShortrep a.state }
  cases (symShortrep_ok hget).symm.trans h
  exact ⟨rfl, _, dwCopy_succ hget 0, rfl⟩

/-- A copy that completes found the length within the budget. -/
theorem copyTail_eq_ok {len : Nat} {a b : Arch} {o : StepOutcome} (h : copyTail len a = .ok o b) :
    o = .continue ∧ overruns a (len + 2) = false ∧ ∃ c, dwCopy (a.rep0.toNat + 1) (len + 2) a = .ok () c ∧
      b = { c with leftToUnpack := budgetAfter (len + 2) a } := by
  have h : copyRun (len + 2) a = .ok o b := h
  unfold copyRun at h
  rw [run_get_bind] at h
  obtain ⟨⟨⟩, c, hcopy, h⟩ := bind_ok_iff.mp h
  have hbudget : budget c = budget a := (dwCopy_keeps_budget _ _).ok_eq hcopy
  rw [run_bind_ok (spendBudget_ok hbudget _)] at h
  obtain ⟨_, d, hraise, h⟩ := bind_ok_iff.mp h
  obtain ⟨hover, rfl⟩ := raiseIf_eq_ok hraise
  have hn : clamped a (len + 2) = len + 2 := by rw [clamped, hover, if_neg nofun]
  rw [hn] at hcopy h
  cases h
  exact ⟨rfl, hover, c, hcopy, rfl⟩

/-- A copy appends as many bytes as it was asked for. -/
theorem dwCopy_appends {dist n : Nat} {a c : Arch} (h : dwCopy dist n a = .ok () c) :
    ∃ run : List Byte, run.length = n ∧ c.out = a.out ++ run := by
  obtain ⟨_, c', hc, -, -, -, -, hrun⟩ := dwCopy_completes dist n a (Nat.zero_le _)
  cases h.symm.trans hc
  exact hrun

/-- A budget that is not used up has a byte. -/
theorem overruns_one {a : Arch} (h : budgetSpent a = false) : overruns a 1 = false := by
  cases hd : a.sizeDefined with
  | false => simp [overruns, hd]
  | true =>
    have hl : a.leftToUnpack ≠ 0#64 := by simpa [budgetSpent, hd] using h
    simp only [overruns, hd, Bool.true_and, decide_eq_false_iff_not]
    bv_omega

/-! ## The codes of a match and of a repeat (R78, R79, R171, R174 to R177) -/

/-- The decisions of a length code that completes are the code of its value (R78). -/
theorem lenDec_decisions {inst : LenInst} {ps : BitVec 4} {a b : Arch} {n : Nat} (h : lenDec inst ps a = .ok n b) :
    b.decisions = a.decisions ++ encodeLength n := by
  unfold lenDec at h
  obtain ⟨c, a1, hc, h⟩ := bind_ok_iff.mp h
  cases c with
  | false =>
    have h : btFwd (lowTree inst ps) 3 a1 = .ok n b := h
    have hlt : n < 8 := (btFwd_eq_ok h).1
    rw [btFwd_decisions h, rcBit_decisions hc, encodeLength, if_pos hlt, List.append_assoc, List.singleton_append]
  | true =>
    obtain ⟨c2, a2, hc2, h⟩ := bind_ok_iff.mp h
    cases c2 with
    | false =>
      obtain ⟨v, b, hv, ⟨⟩⟩ := bind_ok_iff.mp h
      have hlt : v < 8 := (btFwd_eq_ok hv).1
      rw [btFwd_decisions hv, rcBit_decisions hc2, rcBit_decisions hc, encodeLength, if_neg (by omega), if_pos (by omega),
        Nat.add_sub_cancel_left]
      simp only [List.append_assoc, List.cons_append, List.nil_append]
    | true =>
      obtain ⟨v, b, hv, ⟨⟩⟩ := bind_ok_iff.mp h
      rw [btFwd_decisions hv, rcBit_decisions hc2, rcBit_decisions hc, encodeLength, if_neg (by omega), if_neg (by omega),
        Nat.add_sub_cancel_left]
      simp only [List.append_assoc, List.cons_append, List.nil_append]

/-- The decisions of a distance code that completes are the code of its value (R79). -/
theorem distDec_decisions {len : Nat} {a b : Arch} {d : Word} (h : distDec len a = .ok d b) :
    b.decisions = a.decisions ++ encodeDistance d.toNat := by
  unfold distDec at h
  obtain ⟨slot, m, hslot, h⟩ := bind_ok_iff.mp h
  obtain ⟨dist, b, hdist, ⟨⟩⟩ := bind_ok_iff.mp h
  have hlt : slot < 64 := (btFwd_eq_ok hslot).1
  obtain ⟨low, hlow, rfl, hlog⟩ := distTail_eq_ok hlt hdist
  rw [BitVec.toNat_ofNat, Nat.mod_eq_of_lt (slotBase_add_lt hlt hlow), encodeDistance_slotBase_add hlow, hlog,
    btFwd_decisions hslot, List.append_assoc]

/-- A new match that completes took a length and a distance, and ended as they say with the reps moved on. -/
theorem symMatch_eq_ok {ps : BitVec 4} {a b : Arch} {o : StepOutcome} (h : symMatch ps a = .ok o b) :
    ∃ len d c, len ≤ 271 ∧ c.decisions = a.decisions ++ (encodeLength len ++ encodeDistance d.toNat) ∧
      matchTail len { coderIn [] a c with
        rep3 := a.rep2, rep2 := a.rep1, rep1 := a.rep0, rep0 := d, state := stateAfterMatch a.state } = .ok o b := by
  unfold symMatch at h
  rw [rotateReps, run_modify_bind] at h
  obtain ⟨len, m, hlen, h⟩ := bind_ok_iff.mp h
  rw [stMatch, run_modify_bind] at h
  obtain ⟨d, c, hdist, h⟩ := bind_ok_iff.mp h
  rw [setRep0, run_modify_bind] at h
  have hm := (lenDec_decodes .len ps).frame hlen
  have hc := (distDec_decodes len).frame hdist
  have hlog := lenDec_decisions hlen
  refine ⟨len, d, c, lenDec_le hlen, ?_, ?_⟩
  · rw [distDec_decisions hdist, ← List.append_assoc]
    exact congrArg (· ++ encodeDistance d.toNat) hlog
  · rw [← hc, ← hm] at h
    exact h

/-- A long repeat that completes took a length, and copied as it says. -/
theorem repTail_eq_ok {ps : BitVec 4} {a b : Arch} {o : StepOutcome} (h : repTail ps a = .ok o b) :
    ∃ len c, len ≤ 271 ∧ c.decisions = a.decisions ++ encodeLength len ∧
      copyTail len { coderIn [] a c with state := stateAfterRep a.state } = .ok o b := by
  unfold repTail at h
  obtain ⟨len, c, hlen, h⟩ := bind_ok_iff.mp h
  rw [stRep, run_modify_bind] at h
  refine ⟨len, c, lenDec_le hlen, lenDec_decisions hlen, ?_⟩
  rw [← (lenDec_decodes .rep ps).frame hlen] at h
  exact h

/-- The repeats pass their guards (R172). -/
theorem repGuards_eq_ok {a b : Arch} {r : Unit} (h : repGuards a = .ok r b) : budgetSpent a = false ∧ b = a := by
  unfold repGuards budgetGuard at h
  obtain ⟨_, m, hguard, hempty⟩ := bind_ok_iff.mp h
  rw [run_get_bind] at hguard hempty
  obtain ⟨hb, rfl⟩ := raiseIf_eq_ok hguard
  obtain ⟨-, rfl⟩ := raiseIf_eq_ok hempty
  exact ⟨hb, rfl⟩

/-- The marker completes with nothing left to decode (R179). -/
theorem symEos_eq_ok {a b : Arch} {o : StepOutcome} (h : symEos a = .ok o b) :
    o = .finished ∧ a.code = 0#32 ∧ (a.sizeDefined = true → a.leftToUnpack = 0#64) ∧
      b = finishedAs .finishedWithMarker a := by
  by_cases hc : a.code = 0#32
  · by_cases hl : a.sizeDefined = true → a.leftToUnpack = 0#64
    · cases (symEos_finishes hc hl).symm.trans h
      exact ⟨rfl, hc, hl, rfl⟩
    · obtain ⟨hd, hl⟩ := Classical.not_imp.mp hl
      cases (symEos_sizeMismatch hc hd hl).symm.trans h
  · cases (symEos_badEndMarker hc).symm.trans h

/-- The end of a new match is the marker's or a copy's from a distance that is usable (R171). -/
theorem matchTail_eq_ok {len : Nat} {a b : Arch} {o : StepOutcome} (h : matchTail len a = .ok o b) :
    (a.rep0 = Config.kEndMarker ∧ symEos a = .ok o b) ∨
    (a.rep0 ≠ Config.kEndMarker ∧ newDistanceOk a = true ∧ copyTail len a = .ok o b) := by
  by_cases hm : a.rep0 = Config.kEndMarker
  · exact .inl ⟨hm, (matchTail_marker hm).symm.trans h⟩
  · cases hb : budgetSpent a with
    | true => cases (matchTail_budgetExhausted hm hb).symm.trans h
    | false =>
      cases hd : newDistanceOk a with
      | false => cases (matchTail_badDistance hm hb hd).symm.trans h
      | true => exact .inr ⟨hm, rfl, (matchTail_copies hm hb hd).symm.trans h⟩

/-! ## An iteration that completes (R76, R167, R183) -/

/-- The decisions that select a symbol, and its operation (R76). -/
inductive Selects (ps : BitVec 4) : List Bool → Op StepOutcome → Prop
  | lit : Selects ps [false] symLit
  | newMatch : Selects ps [true, false] (symMatch ps)
  | shortrep : Selects ps [true, true, false, false] symShortrep
  | rep0 : Selects ps [true, true, false, true] (symRep0 ps)
  | rep1 : Selects ps [true, true, true, false] (symRep1 ps)
  | rep2 : Selects ps [true, true, true, true, false] (symRep2 ps)
  | rep3 : Selects ps [true, true, true, true, true] (symRep3 ps)

/-- `m` is `a` after decoding `bits`: the range decoder, `PROB` and the input moved, and nothing else. -/
def Decoded (bits : List Bool) (a m : Arch) : Prop := coderIn [] a m = m ∧ m.decisions = a.decisions ++ bits

theorem Decoded.refl (a : Arch) : Decoded [] a a := ⟨rfl, (List.append_nil _).symm⟩

theorem Decoded.bit {bits : List Bool} {a m m' : Arch} {k : Nat} {bit : Bool} (h : Decoded bits a m)
    (hbit : rcBit k m = .ok bit m') : Decoded (bits ++ [bit]) a m' := by
  obtain ⟨hframe, hlog⟩ := h
  refine ⟨?_, by rw [rcBit_decisions hbit, hlog, List.append_assoc]⟩
  rw [← (rcBit_decodes k).frame hbit, ← hframe]
  rfl

theorem Decoded.budgetSpent {bits : List Bool} {a m : Arch} (h : Decoded bits a m) : budgetSpent m = budgetSpent a := by
  rw [← h.1]
  rfl

/-- A repeat that completes found a budget that is not used up, and is the symbol its last decisions select. -/
theorem repFamily_eq_ok {st : Fin 12} {ps : BitVec 4} {a b m : Arch} {o : StepOutcome}
    (hm : Decoded [true, true] a m) (h : repFamily st ps m = .ok o b) :
    budgetSpent a = false ∧ ∃ bits op m', Selects ps bits op ∧ Decoded bits a m' ∧ op m' = .ok o b := by
  unfold repFamily at h
  obtain ⟨_, m0, hguards, hdecisions⟩ := bind_ok_iff.mp h
  obtain ⟨hb, rfl⟩ := repGuards_eq_ok hguards
  refine ⟨hm.budgetSpent ▸ hb, ?_⟩
  obtain ⟨g0, m1, h0, h⟩ := bind_ok_iff.mp hdecisions
  cases g0 with
  | false =>
    obtain ⟨l, m2, hl, h⟩ := bind_ok_iff.mp h
    cases l with
    | false => exact ⟨_, _, m2, .shortrep, (hm.bit h0).bit hl, h⟩
    | true => exact ⟨_, _, m2, .rep0, (hm.bit h0).bit hl, h⟩
  | true =>
    obtain ⟨g1, m2, h1, h⟩ := bind_ok_iff.mp h
    cases g1 with
    | false => exact ⟨_, _, m2, .rep1, (hm.bit h0).bit h1, h⟩
    | true =>
      obtain ⟨g2, m3, h2, h⟩ := bind_ok_iff.mp h
      cases g2 with
      | false => exact ⟨_, _, m3, .rep2, ((hm.bit h0).bit h1).bit h2, h⟩
      | true => exact ⟨_, _, m3, .rep3, ((hm.bit h0).bit h1).bit h2, h⟩

/-- An iteration's symbol that completes is the one its decisions select; a repeat found a budget that is not used up. -/
theorem decodeIteration_eq_ok {st : Fin 12} {ps : BitVec 4} {a b : Arch} {o : StepOutcome}
    (h : decodeIteration st ps a = .ok o b) :
    ∃ bits op m, Selects ps bits op ∧ Decoded bits a m ∧ op m = .ok o b ∧
      (bits[1]? = some true → budgetSpent a = false) := by
  unfold decodeIteration at h
  obtain ⟨c, m, hc, h⟩ := bind_ok_iff.mp h
  cases c with
  | false => exact ⟨_, _, m, .lit, (Decoded.refl a).bit hc, h, nofun⟩
  | true =>
    obtain ⟨r, m', hr, h⟩ := bind_ok_iff.mp h
    cases r with
    | false => exact ⟨_, _, m', .newMatch, ((Decoded.refl a).bit hc).bit hr, h, nofun⟩
    | true =>
      obtain ⟨hb, bits, op, m'', hsel, hdec, hop⟩ := repFamily_eq_ok (((Decoded.refl a).bit hc).bit hr) h
      exact ⟨bits, op, m'', hsel, hdec, hop, fun _ => hb⟩

/-- Where an iteration leaves the sequencer: at the top of the loop when it goes on (R183). -/
def iterationEnd (o : StepOutcome) (a : Arch) : Arch :=
  match o with
  | .continue => { a with phase := .loop }
  | .finished => a

theorem endIteration_ok (o : StepOutcome) (a : Arch) : endIteration o a = .ok o (iterationEnd o a) := by
  cases o <;> rfl

/-- An iteration that completes and did not meet the end test is one symbol. -/
theorem mainStep_eq_ok {a b : Arch} {o : StepOutcome} (hn : finishesWithoutMarker a = false) (h : mainStep a = .ok o b) :
    ∃ m, decodeIteration a.state (posState a) (iterationStart a) = .ok o m ∧ b = iterationEnd o m := by
  rw [mainStep_run, hn, if_neg nofun] at h
  obtain ⟨o', m, hm, hend⟩ := bind_ok_iff.mp h
  rw [endIteration_ok] at hend
  cases hend
  exact ⟨m, hm, rfl⟩

/-- An iteration that goes on did not meet the end test. -/
theorem not_finishes_of_continue {a b : Arch} (h : mainStep a = .ok .continue b) : finishesWithoutMarker a = false := by
  cases hf : finishesWithoutMarker a with
  | false => rfl
  | true =>
    rw [mainStep_run, hf, if_pos rfl, finish_ok] at h
    cases h

theorem litDec_out {a b : Arch} {v : Byte} (h : litDec a = .ok v b) : b.out = a.out ++ [v] := by
  obtain ⟨prev, n, m, -, hsym, rfl⟩ := litDec_eq_ok h
  have hout := (litSymbol_keeps_outputAndCursor _).ok_eq hsym
  rw [putStep_out]
  exact congrArg (· ++ [v]) (congrArg Prod.fst hout)

end Sys2Proof.Machine
end

section
/-! SUPPORT. The invariants of the main loop (R45): the cells' range and the normal `range` (R26, R105), the window's counts, which
follow the output while the 64-bit counter does not wrap (R140), and the budget, which pays for every byte (R36, R181). With it, O56. -/

namespace Sys2Proof.Machine

/-! ## The cells' range, told by the reads (R26) -/

/-- In canonical form every entry can be read, so a memory whose cells all read in 31 to 2017 has its entries there. -/
theorem inRange_of_probRead {lo : Nat} {m : ProbMem} (h : probFrom lo m = true)
    (hr : ∀ k, 31 ≤ (probRead m k).toNat ∧ (probRead m k).toNat ≤ 2017) : m.inRange = true := by
  induction m generalizing lo with
  | nil => rfl
  | cons e m ih =>
    obtain ⟨k, v⟩ := e
    simp only [probFrom, Bool.and_eq_true, decide_eq_true_eq] at h
    have hk : 31 ≤ v.toNat ∧ v.toNat ≤ 2017 := by simpa [probRead] using hr k
    have htail : ∀ j, 31 ≤ (probRead m j).toNat ∧ (probRead m j).toNat ≤ 2017 := by
      intro j
      by_cases hj : j ≤ k
      · rw [probRead_of_lt h.2 (by omega)]
        decide
      · simpa [probRead, show j ≠ k by omega, show ¬ j < k by omega] using hr j
    simpa only [ProbMem.inRange, List.all_cons, Bool.and_eq_true, decide_eq_true_eq] using And.intro hk (ih h.2 htail)

/-! ## The window's counts (R140) -/

/-- Clauses (c) and (e) of R45: the cursor and the wrap flag follow `totalPos`, which counts the output. -/
def countsOutput (a : Arch) : Prop :=
  a.pos < a.size ∧ (a.isFull = false → a.pos.toNat = a.totalPos.toNat) ∧
    (a.isFull = true → a.size.toNat ≤ a.totalPos.toNat) ∧ a.out.length = a.totalPos.toNat

/-- The counts are right while 64 bits can count the output. -/
def countsWhileInRange (a : Arch) : Prop := a.out.length < 2 ^ 64 → countsOutput a

theorem countsOutput_putStep {b : Byte} {a : Arch} (h : countsOutput a) (hlt : a.out.length + 1 < 2 ^ 64) :
    countsOutput (putStep b a) := by
  obtain ⟨hpos, hopen, hfull, hlen⟩ := h
  obtain ⟨hnext, hpos'⟩ := putStep_pos_toNat (b := b) hpos
  have htotal : (putStep b a).totalPos.toNat = a.totalPos.toNat + 1 := by
    rw [putStep_totalPos, BitVec.toNat_add]
    exact Nat.mod_eq_of_lt (by simpa [hlen] using hlt)
  have hfull' : (putStep b a).isFull = (decide (a.pos.toNat + 1 = a.size.toNat) || a.isFull) := by
    rw [putStep_isFull]
    congr 2
    rw [BitVec.lt_def] at hpos
    rw [← BitVec.toNat_inj, BitVec.toNat_add]
    simp only [BitVec.toNat_ofNat, eq_iff_iff]
    omega
  rw [BitVec.lt_def] at hpos
  refine ⟨hpos', fun hf => ?_, fun hf => ?_, ?_⟩
  · rw [hfull', Bool.or_eq_false_iff, decide_eq_false_iff_not] at hf
    rw [hnext, htotal, Nat.mod_eq_of_lt (by omega), hopen hf.2]
  · rw [hfull', Bool.or_eq_true, decide_eq_true_eq] at hf
    rw [putStep_size, htotal]
    cases ha : a.isFull with
    | false =>
      have := hopen ha
      simp only [ha, Bool.false_eq_true, or_false] at hf
      omega
    | true =>
      have := hfull ha
      omega
  · rw [putStep_out, List.length_append, List.length_singleton, htotal, hlen]

theorem dwPut_preserves_counts (b : Byte) : Preserves countsWhileInRange (dwPut b) := by
  intro a h
  rw [dwPut_ok]
  intro hlt
  rw [endState_ok, putStep_out, List.length_append, List.length_singleton] at hlt
  exact countsOutput_putStep (h (by omega)) hlt

theorem counts_parts : SymbolParts (fun {_} op => Preserves countsWhileInRange op) where
  rcBit k := (rcBit_keeps (fun _ _ _ _ _ _ => rfl) fun _ _ => rfl : Keeps countsWhileInRange (rcBit k)).preserves id
  dwPut := dwPut_preserves_counts
  dwGet d := (dwGet_keeps (fun _ _ => rfl) d : Keeps countsWhileInRange (dwGet d)).preserves id
  dwFlush := .modify fun _ h => h
  stLit := .modify fun _ h => h
  stMatch := .modify fun _ h => h
  stRep := .modify fun _ h => h
  stShortrep := .modify fun _ h => h
  rotateReps := .modify fun _ h => h
  setRep0 _ := .modify fun _ h => h
  toFront1 := .modify fun _ h => h
  toFront2 := .modify fun _ h => h
  toFront3 := .modify fun _ h => h
  spendBudget _ := .modify fun _ h => by split <;> exact h
  endLoop _ := .modify fun _ h => h

theorem mainStep_preserves_counts : Preserves countsWhileInRange mainStep :=
  counts_parts.mainStep (preserves_closed _)
    ((rcDirectRound_keeps fun _ _ _ _ _ _ _ => rfl : Keeps countsWhileInRange _).preserves id) fun _ => .modify fun _ h => h

/-! ## The budget pays for the output (R36, R178, R181) -/

/-- The budget and how much output there is. -/
def ledger (a : Arch) : (Bool × DWord) × Nat := (budget a, a.out.length)

/-- From the ledger `l` as many bytes were produced as were taken off the budget, which had them. -/
def balanced (l : (Bool × DWord) × Nat) (a : Arch) : Prop :=
  a.sizeDefined = l.1.1 ∧ l.2 ≤ a.out.length ∧
    (l.1.1 = true → a.leftToUnpack.toNat + (a.out.length - l.2) = l.1.2.toNat)

/-- Decoding touches neither. -/
theorem Decoded.ledger {bits : List Bool} {a m : Arch} (h : Decoded bits a m) : ledger m = ledger a := by
  rw [← h.1]
  rfl

/-- Producing `n` bytes and taking them off a budget that has them balances. -/
theorem balanced_of_spent {a b : Arch} {n : Nat} (hb : budget b = budget a) (hn : overruns a n = false)
    (hout : b.out.length = a.out.length + n) : balanced (ledger a) { b with leftToUnpack := budgetAfter n a } := by
  obtain ⟨hsize, -⟩ := Prod.mk.inj hb
  refine ⟨hsize, ?_, fun hd => ?_⟩
  · show a.out.length ≤ b.out.length
    omega
  · have hd : a.sizeDefined = true := hd
    show (budgetAfter n a).toNat + (b.out.length - a.out.length) = a.leftToUnpack.toNat
    simp only [overruns, hd, Bool.true_and, decide_eq_false_iff_not, Nat.not_lt] at hn
    have hlt := a.leftToUnpack.isLt
    rw [budgetAfter, if_pos hd, BitVec.toNat_sub_of_le, BitVec.toNat_ofNat, Nat.mod_eq_of_lt (by omega)]
    · omega
    · rw [BitVec.le_def, BitVec.toNat_ofNat, Nat.mod_eq_of_lt (by omega)]
      exact hn

/-- What a copy that completes leaves, from any state with the ledger it starts from. -/
theorem copyTail_balanced {len : Nat} {a b : Arch} (h : copyTail len a = .ok .continue b) : balanced (ledger a) b := by
  obtain ⟨-, hover, c, hcopy, rfl⟩ := copyTail_eq_ok h
  obtain ⟨run, hlen, hout⟩ := dwCopy_appends hcopy
  exact balanced_of_spent ((dwCopy_keeps_budget _ _).ok_eq hcopy) hover (by rw [hout, List.length_append, hlen])

theorem repTail_balanced {ps : BitVec 4} {a b : Arch} (h : repTail ps a = .ok .continue b) : balanced (ledger a) b := by
  obtain ⟨len, c, -, -, hcopy⟩ := repTail_eq_ok h
  exact (copyTail_balanced hcopy :)

theorem symLit_balanced {a b : Arch} (h : symLit a = .ok .continue b) : balanced (ledger a) b := by
  obtain ⟨-, hb, v, m, hlit, rfl⟩ := symLit_eq_ok h
  have hbudget : budget { m with state := stateAfterLit m.state } = budget a := (litDec_keeps_budget.ok_eq hlit :)
  refine balanced_of_spent hbudget (overruns_one hb) ?_
  show m.out.length = _
  rw [litDec_out hlit, List.length_append, List.length_singleton]

theorem symMatch_balanced {ps : BitVec 4} {a b : Arch} (h : symMatch ps a = .ok .continue b) : balanced (ledger a) b := by
  obtain ⟨len, d, c, -, -, htail⟩ := symMatch_eq_ok h
  rcases matchTail_eq_ok htail with ⟨-, heos⟩ | ⟨-, -, hcopy⟩
  · cases (symEos_eq_ok heos).1
  · exact (copyTail_balanced hcopy :)

theorem symShortrep_balanced {a b : Arch} (hb : budgetSpent a = false) (h : symShortrep a = .ok .continue b) :
    balanced (ledger a) b := by
  obtain ⟨-, c, hcopy, rfl⟩ := symShortrep_eq_ok h
  obtain ⟨run, hlen, hout⟩ := dwCopy_appends hcopy
  have hbudget : budget c = budget a := ((dwCopy_keeps_budget _ _).ok_eq hcopy :)
  exact balanced_of_spent hbudget (overruns_one hb) (by rw [hout, List.length_append, hlen])

theorem decodeIteration_balanced {st : Fin 12} {ps : BitVec 4} {a b : Arch} (h : decodeIteration st ps a = .ok .continue b) :
    balanced (ledger a) b := by
  obtain ⟨bits, op, m, hsel, hdec, hop, hb⟩ := decodeIteration_eq_ok h
  rw [← hdec.ledger]
  cases hsel with
  | lit => exact symLit_balanced hop
  | newMatch => exact symMatch_balanced hop
  | shortrep => exact symShortrep_balanced (hdec.budgetSpent.trans (hb rfl)) hop
  | rep0 => exact repTail_balanced hop
  | rep1 => exact (repTail_balanced (a := { m with rep1 := m.rep0, rep0 := m.rep1 }) hop :)
  | rep2 => exact (repTail_balanced (a := { m with rep2 := m.rep1, rep1 := m.rep0, rep0 := m.rep2 }) hop :)
  | rep3 =>
    exact (repTail_balanced (a := { m with rep3 := m.rep2, rep2 := m.rep1, rep1 := m.rep0, rep0 := m.rep3 }) hop :)

theorem mainStep_balanced {a b : Arch} (h : mainStep a = .ok .continue b) : balanced (ledger a) b := by
  obtain ⟨m, hm, rfl⟩ := mainStep_eq_ok (not_finishes_of_continue h) h
  exact (decodeIteration_balanced hm :)

/-! ## The main loop (R45) -/

theorem mainStep_yields_range : Yields rangeNormal mainStep fun _ => rangeNormal := by
  intro a o b ha h
  have hop := opOf_closed (yields_closed rangeNormal) rangeNormal_primitives .mainStep a
  exact hop a (.step o) b ha (by rw [show opOf .mainStep a = answer .step mainStep from rfl, run_answer, h]; rfl)


/-- DEC.INIT makes an empty window, a fresh `PROB` and a budget of the whole declared size. -/
theorem loopInv_decInit {a : Arch} (hr : 0x01000000#32 ≤ a.range) (hin : 18 ≤ a.inPos.toNat) (hd : a.dictSize ≠ 0#32)
    (hb : a.sizeDefined = true → a.leftToUnpack = a.declaredSize) : loopInv (freshDecoder (newWindow a.dictSize a)) := by
  have hpos : 0#32 < a.dictSize := by bv_omega
  refine ⟨hr, fun _ => (by decide : 31 ≤ (1024#11).toNat ∧ (1024#11).toNat ≤ 2017), ⟨hpos, fun _ => rfl, nofun⟩,
    Nat.zero_le 11, rfl, fun h => ?_, hin⟩
  show a.leftToUnpack.toNat + 0 = a.declaredSize.toNat
  rw [hb h, Nat.add_zero]

/-- An iteration that goes on keeps the invariants while the counters do not wrap. -/
theorem loopInv_mainStep {a b : Arch} (hwf : ProbMem.wf a.prob = true) (h : loopInv a)
    (htotal : a.totalPos.toNat + 273 < 2 ^ 64) (hin : a.inPos.toNat + 48 < 2 ^ 64) (hm : mainStep a = .ok .continue b) :
    loopInv b := by
  obtain ⟨hrange, hcells, ⟨hpos, hopen, hfull⟩, -, hlen, hbudget, hread⟩ := h
  have htakes : Within 48 23 273 a b := by
    have ht := mainStep_takes a hwf
    rwa [hm] at ht
  obtain ⟨hprob', hrange'⟩ : rangeNormal b :=
    mainStep_yields_range a _ b ⟨inRange_of_probRead hwf hcells, hrange⟩ hm
  obtain ⟨hpos', hopen', hfull', hlen'⟩ : countsOutput b := by
    have hc := mainStep_preserves_counts a fun _ => ⟨hpos, hopen, hfull, hlen⟩
    rw [hm] at hc
    have hout := htakes.output
    exact hc (by rw [endState_ok]; omega)
  obtain ⟨hdefined, hmore, hpaid⟩ := mainStep_balanced hm
  have hdeclared : b.declaredSize = a.declaredSize :=
    congrArg (fun h => h.2.2.1.2) (mainStep_keeps_header.ok_eq hm)
  obtain ⟨n, hn, hinPos, -⟩ := htakes.input
  refine ⟨hrange', probRead_inRange hprob', ⟨hpos', hopen', hfull'⟩, by omega, hlen', fun hd => ?_, ?_⟩
  · have hd : a.sizeDefined = true := hdefined.symm.trans hd
    have hp : b.leftToUnpack.toNat + (b.out.length - a.out.length) = a.leftToUnpack.toNat := hpaid hd
    have hmore : a.out.length ≤ b.out.length := hmore
    have := hbudget hd
    rw [hdeclared]
    omega
  · rw [hinPos, BitVec.toNat_add, BitVec.toNat_ofNat, Nat.mod_eq_of_lt (by omega : n < 2 ^ 64), Nat.mod_eq_of_lt (by omega)]
    omega

/-- Settles O56: DEC.INIT sets every register the invariants speak of, and an iteration moves them together. -/
theorem loopInvariantHolds : Obligations.LoopInvariantHolds := by
  refine ⟨fun s t hr hin hb h hdone => ?_, fun s t hwf h htotal hin hstep hcont => ?_⟩
  · obtain ⟨hallowed, -, ⟨⟩, hinit, -⟩ := exec_answered (f := fun _ => Response.done) (op := decInit) rfl h hdone (by simp)
    cases hcap : overCap (opStart s.arch) (opStart s.arch).dictSize with
    | true => cases (decInit_raise hcap).symm.trans hinit
    | false =>
      obtain ⟨-, hleft⟩ := EStateM.Result.ok.inj ((decInit_ok hcap).symm.trans hinit)
      rw [← hleft]
      exact loopInv_decInit (a := opStart s.arch) hr hin (of_decide_eq_true hallowed) hb
  · obtain ⟨-, -, o, hmain, ho⟩ := exec_answered (f := Response.step) (op := mainStep) rfl hstep hcont (by simp)
    cases ho
    have hprob : ProbMem.wf s.arch.prob = true := by
      simp only [Memory.wf, Bool.and_eq_true] at hwf
      exact hwf.2
    exact loopInv_mainStep (a := opStart s.arch) hprob h htotal hin hmain

end Sys2Proof.Machine
end

section
/-! SUPPORT. What an iteration that completes has done (R76 to R82, R167 to R183): its decisions are the code of the symbol they select, and
the state after it is that symbol's. With it, O46. -/

namespace Sys2Proof.Machine

/-! ## The copy, seen on the output (R62, R144, R150) -/

/-- A window that is the end of the output holds the output. -/
theorem windowInv.holdsOutputFrom {a : Arch} (h : windowInv a) (p : Nat) : holdsOutputFrom p a := by
  intro d h1 h2 h3
  have hx := h.lookback_eq h1 h2 (by omega)
  obtain ⟨-, -, -, -, hcells, -⟩ := h
  exact ⟨_, hx, hcells _ (by omega) (by omega)⟩

/-- On a window that is the end of the output, a copy repeats the output at its distance from its first byte on. -/
theorem copies_of_dwCopy {dist n : Nat} {a c : Arch} (hw : windowInv a) (h1 : 1 ≤ dist) (h : dwCopy dist n a = .ok () c) :
    copies a c dist n := by
  obtain ⟨run, hlen, hout⟩ := dwCopy_appends h
  refine ⟨⟨run, hout.symm⟩, by rw [hout, List.length_append, hlen], fun j hj hlt hd hsize => ?_⟩
  have hstart : CopyInv (a.out.length - dist) dist a := {
    dist_pos := h1
    dist_le := hsize
    pos_lt := hw.pos_lt
    holds := hw.holdsOutputFrom _
    repeats := fun j hj hlt => by omega }
  exact (dwCopy_keeps_copyInv hstart h).repeats j (by omega) hlt

/-- What a copy leaves beside the window, the output and the budget. -/
def besideCopy (a : Arch) : (Fin 12 × Word × Word × Word × Word) × Status × List Bool := (stateAndReps a, a.status, a.decisions)

theorem dwCopy_keeps_besideCopy (dist n : Nat) : Keeps besideCopy (dwCopy dist n) :=
  dwCopy_closed (keeps_closed _).toClosed (dwGet_keeps (fun _ _ => rfl) dist) (dwPut_keeps fun _ _ _ _ _ _ _ => rfl) n

theorem spends_of_not_overruns {a b : Arch} {n : Nat} (h : overruns a n = false) (hb : b.leftToUnpack = budgetAfter n a) :
    spends a b n := by
  refine ⟨hb, fun hd => ?_⟩
  simpa [overruns, hd] using h

/-- `n` bytes copied from `dist` back and paid for, and nothing else of what a symbol does. -/
structure Copied (a b : Arch) (dist n : Nat) : Prop where
  copies : copies a b dist n
  spends : spends a b n
  beside : besideCopy b = besideCopy a

theorem copied_of_dwCopy {dist n : Nat} {a c : Arch} (hw : windowInv a) (h1 : 1 ≤ dist) (hn : overruns a n = false)
    (h : dwCopy dist n a = .ok () c) : Copied a { c with leftToUnpack := budgetAfter n a } dist n where
  copies := (copies_of_dwCopy hw h1 h :)
  spends := spends_of_not_overruns hn rfl
  beside := ((dwCopy_keeps_besideCopy dist n).ok_eq h :)

theorem copyTail_copied {len : Nat} {a b : Arch} {o : StepOutcome} (hw : windowInv a) (h : copyTail len a = .ok o b) :
    o = .continue ∧ Copied a b (a.rep0.toNat + 1) (len + 2) := by
  obtain ⟨ho, hn, c, hcopy, rfl⟩ := copyTail_eq_ok h
  exact ⟨ho, copied_of_dwCopy hw (by omega) hn hcopy⟩

/-! ## One symbol (R169 to R179) -/

/-- From `a`, where `bits` have been decoded, to `b`, where the iteration says `o`: one symbol whose code begins with `bits`. -/
def OneSymbol (bits : List Bool) (a : Arch) (o : StepOutcome) (b : Arch) : Prop :=
  ∃ (sym : Symbol) (rest : List Bool), sym.wf = true ∧ encodeSymbol sym = bits ++ rest ∧
    b.decisions = a.decisions ++ rest ∧ symbolEffect sym a (iterationEnd o b)

theorem litDec_decisions {a b : Arch} {v : Byte} (h : litDec a = .ok v b) :
    b.decisions = a.decisions ++ bitsMSB 8 v.toNat := by
  obtain ⟨prev, n, m, -, hsym, rfl⟩ := litDec_eq_ok h
  obtain ⟨w, hw, hlog⟩ := litSymbol_spells hsym
  rw [putStep_decisions, show v.toNat = w.toNat by omega]
  exact hlog

theorem symLit_oneSymbol {a b : Arch} {o : StepOutcome} (h : symLit a = .ok o b) : OneSymbol [false] a o b := by
  obtain ⟨rfl, hb, v, m, hlit, rfl⟩ := symLit_eq_ok h
  obtain ⟨hstate, hreps⟩ := Prod.mk.inj (litDec_keeps_stateAndReps.ok_eq hlit)
  simp only [Prod.mk.injEq] at hreps
  have hstatus : m.status = a.status :=
    (litDec_closed (keeps_closed _) (fun _ _ => rcBit_keeps (fun _ _ _ _ _ _ => rfl) fun _ _ => rfl)
      (dwGet_keeps fun _ _ => rfl) (dwPut_keeps fun _ _ _ _ _ _ _ => rfl) : Keeps Arch.status litDec).ok_eq hlit
  exact ⟨.lit v, bitsMSB 8 v.toNat, rfl, rfl, (litDec_decisions hlit :), congrArg stateAfterLit hstate, hreps,
    (litDec_out hlit :),
    spends_of_not_overruns (overruns_one hb) rfl, rfl, hstatus⟩

theorem symShortrep_oneSymbol {a b : Arch} {o : StepOutcome} (hw : windowInv a) (hb : budgetSpent a = false)
    (h : symShortrep a = .ok o b) : OneSymbol [true, true, false, false] a o b := by
  obtain ⟨rfl, c, hcopy, rfl⟩ := symShortrep_eq_ok h
  have hc := copied_of_dwCopy (a := { a with state := stateAfterShortrep a.state }) hw (by omega) (overruns_one hb) hcopy
  have hbeside := hc.beside
  simp only [besideCopy, stateAndReps, Prod.mk.injEq] at hbeside
  obtain ⟨⟨hstate, hreps⟩, hstatus, hlog⟩ := hbeside
  exact ⟨.shortrep, [], rfl, rfl, by rw [List.append_nil]; exact hlog, hstate, hreps, hc.copies, hc.spends, rfl, hstatus⟩

/-- What a long repeat that completes does once its reps are in order (R174 to R177). -/
theorem repTail_copied {ps : BitVec 4} {a b : Arch} {o : StepOutcome} (hw : windowInv a) (h : repTail ps a = .ok o b) :
    o = .continue ∧ ∃ len : Fin 272, b.decisions = a.decisions ++ encodeLength len ∧ b.state = stateAfterRep a.state ∧
      (b.rep0 = a.rep0 ∧ b.rep1 = a.rep1 ∧ b.rep2 = a.rep2 ∧ b.rep3 = a.rep3) ∧ b.status = a.status ∧
      copies a b (a.rep0.toNat + 1) (len + 2) ∧ spends a b (len + 2) := by
  obtain ⟨len, c, hle, hlog, hcopy⟩ := repTail_eq_ok h
  obtain ⟨ho, hc⟩ := copyTail_copied (a := { coderIn [] a c with state := stateAfterRep a.state }) hw hcopy
  have hbeside := hc.beside
  simp only [besideCopy, stateAndReps, Prod.mk.injEq] at hbeside
  obtain ⟨⟨hstate, hreps⟩, hstatus, hlog'⟩ := hbeside
  exact ⟨ho, ⟨len, by omega⟩, hlog'.trans hlog, hstate, hreps, hstatus, hc.copies, hc.spends⟩

theorem symRep0_oneSymbol {ps : BitVec 4} {a b : Arch} {o : StepOutcome} (hw : windowInv a) (h : symRep0 ps a = .ok o b) :
    OneSymbol [true, true, false, true] a o b := by
  obtain ⟨rfl, len, hlog, hstate, hreps, hstatus, hcopies, hspends⟩ := repTail_copied hw h
  exact ⟨.rep0 len, _, rfl, rfl, hlog, hstate, hreps, hcopies, hspends, rfl, hstatus⟩

theorem symRep1_oneSymbol {ps : BitVec 4} {a b : Arch} {o : StepOutcome} (hw : windowInv a) (h : symRep1 ps a = .ok o b) :
    OneSymbol [true, true, true, false] a o b := by
  obtain ⟨rfl, len, hlog, hstate, hreps, hstatus, hcopies, hspends⟩ :=
    repTail_copied (a := { a with rep1 := a.rep0, rep0 := a.rep1 }) hw h
  exact ⟨.rep1 len, _, rfl, rfl, hlog, hstate, hreps, hcopies, hspends, rfl, hstatus⟩

theorem symRep2_oneSymbol {ps : BitVec 4} {a b : Arch} {o : StepOutcome} (hw : windowInv a) (h : symRep2 ps a = .ok o b) :
    OneSymbol [true, true, true, true, false] a o b := by
  obtain ⟨rfl, len, hlog, hstate, hreps, hstatus, hcopies, hspends⟩ :=
    repTail_copied (a := { a with rep2 := a.rep1, rep1 := a.rep0, rep0 := a.rep2 }) hw h
  exact ⟨.rep2 len, _, rfl, rfl, hlog, hstate, hreps, hcopies, hspends, rfl, hstatus⟩

theorem symRep3_oneSymbol {ps : BitVec 4} {a b : Arch} {o : StepOutcome} (hw : windowInv a) (h : symRep3 ps a = .ok o b) :
    OneSymbol [true, true, true, true, true] a o b := by
  obtain ⟨rfl, len, hlog, hstate, hreps, hstatus, hcopies, hspends⟩ :=
    repTail_copied (a := { a with rep3 := a.rep2, rep2 := a.rep1, rep1 := a.rep0, rep0 := a.rep3 }) hw h
  exact ⟨.rep3 len, _, rfl, rfl, hlog, hstate, hreps, hcopies, hspends, rfl, hstatus⟩

/-- A new match whose distance is all ones is the marker; every other one copies. -/
theorem symMatch_oneSymbol {ps : BitVec 4} {a b : Arch} {o : StepOutcome} (hw : windowInv a) (h : symMatch ps a = .ok o b) :
    OneSymbol [true, false] a o b := by
  obtain ⟨len, d, c, hle, hlog, htail⟩ := symMatch_eq_ok h
  have hlen : len < 272 := by omega
  rcases matchTail_eq_ok htail with ⟨hm, heos⟩ | ⟨hm, hd, hcopy⟩
  · obtain ⟨rfl, hcode, hleft, rfl⟩ := symEos_eq_ok heos
    have hm : d = Config.kEndMarker := hm
    subst hm
    exact ⟨.eos ⟨len, hlen⟩, _, rfl, rfl, hlog, rfl, ⟨rfl, rfl, rfl, rfl⟩, hcode, rfl, hleft, rfl, rfl, rfl⟩
  · obtain ⟨rfl, hc⟩ := copyTail_copied (a := { coderIn [] a c with
      rep3 := a.rep2, rep2 := a.rep1, rep1 := a.rep0, rep0 := d, state := stateAfterMatch a.state }) hw hcopy
    have hbeside := hc.beside
    simp only [besideCopy, stateAndReps, Prod.mk.injEq] at hbeside
    obtain ⟨⟨hstate, hreps⟩, hstatus, hlog'⟩ := hbeside
    exact ⟨.newMatch ⟨len, hlen⟩ d, _, decide_eq_true hm, rfl, hlog'.trans hlog, hstate, hreps, newDistanceOk_iff.mp hd,
      hc.copies, hc.spends, rfl, hstatus⟩

/-! ## The iteration (R183) -/

/-- A symbol's effect is told from the state its iteration started in: decoding its selecting bits does not show. -/
theorem symbolEffect_coderIn (sym : Symbol) (a m b : Arch) :
    symbolEffect sym (coderIn [] (iterationStart (opStart a)) m) b = symbolEffect sym a b := by
  cases sym <;> rfl

theorem selects_oneSymbol {ps : BitVec 4} {bits : List Bool} {op : Op StepOutcome} {a b : Arch} {o : StepOutcome}
    (hsel : Selects ps bits op) (hw : windowInv a) (hb : bits[1]? = some true → budgetSpent a = false)
    (h : op a = .ok o b) : OneSymbol bits a o b := by
  cases hsel with
  | lit => exact symLit_oneSymbol h
  | newMatch => exact symMatch_oneSymbol hw h
  | shortrep => exact symShortrep_oneSymbol hw (hb rfl) h
  | rep0 => exact symRep0_oneSymbol hw h
  | rep1 => exact symRep1_oneSymbol hw h
  | rep2 => exact symRep2_oneSymbol hw h
  | rep3 => exact symRep3_oneSymbol hw h

/-- The iteration of an instruction, from its decisions to its symbol. -/
theorem mainStep_symbol {a b : Arch} {o : StepOutcome} (hw : windowInv a) (hn : finishesWithoutMarker a = false)
    (h : mainStep (opStart a) = .ok o b) :
    ∃ sym : Symbol, sym.wf = true ∧ b.decisions = encodeSymbol sym ∧ symbolEffect sym a b := by
  obtain ⟨c, hc, rfl⟩ := mainStep_eq_ok (a := opStart a) hn h
  obtain ⟨bits, op, m, hsel, ⟨hframe, hbits⟩, hop, hb⟩ := decodeIteration_eq_ok hc
  have hwm : windowInv m := by
    rw [← hframe]
    exact hw
  have hbm : budgetSpent m = budgetSpent (iterationStart (opStart a)) := Decoded.budgetSpent ⟨hframe, hbits⟩
  obtain ⟨sym, rest, hwf, hcode, hlog, heffect⟩ := selects_oneSymbol hsel hwm (fun h1 => hbm.trans (hb h1)) hop
  refine ⟨sym, hwf, ?_, ?_⟩
  · have hend : (iterationEnd o c).decisions = c.decisions := by cases o <;> rfl
    rw [hend, hlog, hbits, hcode]
    rfl
  · rwa [← hframe, symbolEffect_coderIn] at heffect

/-- Settles O46: the completed iteration took the code of the symbol its decisions select, and did what that symbol does. -/
theorem oneIterationIsOneSymbol : Obligations.OneIterationIsOneSymbol := by
  intro s t hw hn h hr
  have hne : t.response ≠ .refused ∧ t.response ≠ .pending ∧ t.response ≠ .error := by
    rcases hr with hr | hr <;> simp [hr]
  obtain ⟨-, -, o, hmain, -⟩ := exec_answered (f := Response.step) (op := mainStep) rfl h rfl hne
  refine mainStep_symbol hw ?_ hmain
  cases hf : finishesWithoutMarker s.arch with
  | false => rfl
  | true =>
    simp only [finishesWithoutMarker, Bool.and_eq_true, budgetSpent_iff, finok, decide_eq_true_eq] at hf
    exact absurd ⟨hf.1.1, hf.1.2, hf.2⟩ hn

end Sys2Proof.Machine
end

section
/-! SUPPORT. The words of the instructions (R70 to R79, R88): operand bytes are read back, so an instruction's word decodes to it; a
reserved code is refused. With it, O2, O3 and O58. -/

namespace Sys2Proof

/-! ## Operand bytes (R55) -/

/-- A byte put below the bits above it. -/
theorem extract_append_byteAt (w : BitVec m) (n k : Nat) :
    w.extractLsb' (8 * (k + 1)) n ++ byteAt w k = w.extractLsb' (8 * k) (n + 8) := by
  apply BitVec.eq_of_getLsbD_eq
  intro i hi
  simp only [byteAt, BitVec.getLsbD_append, BitVec.getLsbD_extractLsb']
  split
  · simp [*]
  · rw [show 8 * (k + 1) + (i - 8) = 8 * k + i by omega]
    simp [hi, show i - 8 < n by omega]

theorem byteAt_append_two (w : BitVec 16) : byteAt w 1 ++ byteAt w 0 = w :=
  (extract_append_byteAt w 8 0).trans BitVec.extractLsb'_eq_self

theorem byteAt_append_three (w : BitVec 24) : byteAt w 2 ++ byteAt w 1 ++ byteAt w 0 = w := by
  rw [show byteAt w 2 = w.extractLsb' (8 * (1 + 1)) 8 from rfl, extract_append_byteAt w 8 1, extract_append_byteAt w 16 0]
  exact BitVec.extractLsb'_eq_self

theorem leWord_byteAt (w : Word) : leWord (byteAt w 0) (byteAt w 1) (byteAt w 2) (byteAt w 3) = w := by
  rw [leWord, show byteAt w 3 = w.extractLsb' (8 * (2 + 1)) 8 from rfl, extract_append_byteAt w 8 2,
    extract_append_byteAt w 16 1, extract_append_byteAt w 24 0]
  exact BitVec.extractLsb'_eq_self

theorem leDWord_byteAt (w : DWord) :
    leDWord (byteAt w 0) (byteAt w 1) (byteAt w 2) (byteAt w 3) (byteAt w 4) (byteAt w 5) (byteAt w 6) (byteAt w 7) = w := by
  rw [leDWord, show byteAt w 7 = w.extractLsb' (8 * (6 + 1)) 8 from rfl, extract_append_byteAt w 8 6,
    extract_append_byteAt w 16 5, extract_append_byteAt w 24 4, extract_append_byteAt w 32 3, extract_append_byteAt w 40 2,
    extract_append_byteAt w 48 1, extract_append_byteAt w 56 0]
  exact BitVec.extractLsb'_eq_self

/-- The other byte order is the same bytes in the other order (R74). -/
theorem beWord_byteAt (w : Word) : beWord (byteAt w 3) (byteAt w 2) (byteAt w 1) (byteAt w 0) = w := leWord_byteAt w

/-! ## The operands of the command bus (R88) -/

theorem takeWord_bytesOfWord (w : Word) (bs : List Byte) : takeWord (bytesOfWord w ++ bs) = .ok (w, bs) :=
  congrArg (fun x => Except.ok (x, bs)) (leWord_byteAt w)

theorem arrOfCode_codeOfArr (arr : ProbArr) : arrOfCode (codeOfArr arr).toNat = some arr := by cases arr <;> rfl

theorem takeAddr_bytesOfAddr (a : ProbAddr) (bs : List Byte) : takeAddr (bytesOfAddr a ++ bs) = .ok (a, bs) := by
  simp only [takeAddr, bytesOfAddr, List.cons_append, List.nil_append, arrOfCode_codeOfArr, byteAt_append_three]

theorem takeLen_bytesOfLen (inst : LenInst) (ps : BitVec 4) (bs : List Byte) :
    takeLen (bytesOfLen inst ps ++ bs) = .ok ((inst, ps), bs) := by
  have hps : ps.toNat % 256 < 16 := by omega
  have hback : (ps.setWidth 8).setWidth 4 = ps := by
    apply BitVec.eq_of_toNat_eq
    simp only [BitVec.toNat_setWidth]
    omega
  cases inst <;> simp [bytesOfLen, takeLen, hps, hback]

/-! ## The words -/

/-- A word of the command bus is read by its code and its operands, with nothing after them. -/
theorem decode_uop_of_ok {bs rest : List Byte} {i : Instr} (h : decodeUop bs = .ok (i, rest)) : decode (.uop bs) = .ok i := by
  simp only [decode, h]

theorem decodeUop_rcBit (a : ProbAddr) : decodeUop (0x02 :: bytesOfAddr a) = .ok (.rcBit a, []) := by
  have h := takeAddr_bytesOfAddr a []
  rw [List.append_nil] at h
  show withOperand (takeAddr (bytesOfAddr a)) .rcBit = _
  rw [h]
  rfl

theorem decodeUop_btFwd (t : ProbAddr) (n : Byte) : decodeUop (0x05 :: (bytesOfAddr t ++ [n])) = .ok (.btFwd t n, []) := by
  show withOperandByte (takeAddr (bytesOfAddr t ++ [n])) .btFwd = _
  rw [takeAddr_bytesOfAddr]
  rfl

theorem decodeUop_btRev (t : ProbAddr) (n : Byte) : decodeUop (0x06 :: (bytesOfAddr t ++ [n])) = .ok (.btRev t n, []) := by
  show withOperandByte (takeAddr (bytesOfAddr t ++ [n])) .btRev = _
  rw [takeAddr_bytesOfAddr]
  rfl

theorem decodeUop_lenDec (inst : LenInst) (ps : BitVec 4) : decodeUop (0x07 :: bytesOfLen inst ps) = .ok (.lenDec inst ps, []) := by
  show withOperand (takeLen (bytesOfLen inst ps ++ [])) (fun (inst, ps) => .lenDec inst ps) = _
  rw [takeLen_bytesOfLen]
  rfl

/-- The operations with a 32-bit operand. -/
theorem withOperand_bytesOfWord (w : Word) (mk : Word → Instr) : withOperand (takeWord (bytesOfWord w)) mk = .ok (mk w, []) := by
  have h := takeWord_bytesOfWord w []
  rw [List.append_nil] at h
  rw [h]
  rfl

theorem decodeUop_dwCopy (dist len : Word) :
    decodeUop (0x0B :: (bytesOfWord dist ++ bytesOfWord len)) = .ok (.dwCopy dist len, []) := by
  simp [decodeUop, takeWord_bytesOfWord, withOperand_bytesOfWord]

/-- Settles O2: each word is decoded. -/
theorem specWordsDecode : Obligations.SpecWordsDecode := by
  unfold Obligations.SpecWordsDecode
  decide

/-- Settles O58: the operands of each word are read back, and the other words select their row. -/
theorem instructionRoundTrip : Obligations.InstructionRoundTrip := by
  intro i
  cases i
  case rcBit a => exact decode_uop_of_ok (decodeUop_rcBit a)
  case btFwd t n => exact decode_uop_of_ok (decodeUop_btFwd t n)
  case btRev t n => exact decode_uop_of_ok (decodeUop_btRev t n)
  case lenDec inst ps => exact decode_uop_of_ok (decodeUop_lenDec inst ps)
  case dwCreate n => exact decode_uop_of_ok (withOperand_bytesOfWord n .dwCreate)
  case dwGet dist => exact decode_uop_of_ok (withOperand_bytesOfWord dist .dwGet)
  case dwCopy dist len => exact decode_uop_of_ok (decodeUop_dwCopy dist len)
  case dwChk d => exact decode_uop_of_ok (withOperand_bytesOfWord d .dwChk)
  case distDec len => exact congrArg (fun w => Except.ok (Instr.distDec w)) (byteAt_append_two len)
  case fmtDictSize v => exact congrArg (fun w => Except.ok (Instr.fmtDictSize w)) (leWord_byteAt v)
  case fmtSize v => exact congrArg (fun w => Except.ok (Instr.fmtSize w)) (leDWord_byteAt v)
  case fmtRcpre z c => exact congrArg (fun w => Except.ok (Instr.fmtRcpre z w)) (beWord_byteAt c)
  case symEos => decide
  all_goals rfl

/-! ## The reserved codes (R88) -/

theorem decodeUop_reserved {c : Byte} (h1 : 0x19 ≤ c.toNat) (h2 : c.toNat ≤ 0x1F) (bs : List Byte) :
    decodeUop (c :: bs) = .error (.reservedOpcode c.toNat) := by
  have h : c = 0x19#8 ∨ c = 0x1A#8 ∨ c = 0x1B#8 ∨ c = 0x1C#8 ∨ c = 0x1D#8 ∨ c = 0x1E#8 ∨ c = 0x1F#8 := by bv_omega
  rcases h with rfl | rfl | rfl | rfl | rfl | rfl | rfl <;> rfl

end Sys2Proof

namespace Sys2Proof.Machine

/-- Settles O3: the word decodes to nothing, so the command interface turns it away. -/
theorem reservedCodesAreRefused : Obligations.ReservedCodesAreRefused := by
  intro s c operands es h1 h2 he
  have hword : decode (.uop (c :: operands)) = .error (.reservedOpcode c.toNat) := by
    simp only [decode, decodeUop_reserved h1 h2]
  rw [step_event he]
  exact runWord_refused (.inl ⟨_, hword⟩)

end Sys2Proof.Machine
end

section
/-! SUPPORT. The symbol code (R76 to R82): a fixed number of decisions is a number of as many bits, a length and a distance code decode to
what they encode, and decode nothing else. With it, O59. -/

namespace Sys2Proof

open Machine

/-! ## A fixed number of decisions (R82) -/

theorem takeBits_append {n : Nat} {front : List Bool} (h : front.length = n) (rest : List Bool) :
    takeBits n (front ++ rest) = some (front, rest) := by
  induction front generalizing n with
  | nil => subst h; rfl
  | cons d front ih => subst h; simp [takeBits, ih rfl]

theorem takeBits_eq_some {n : Nat} {ds front rest : List Bool} (h : takeBits n ds = some (front, rest)) :
    front.length = n ∧ ds = front ++ rest := by
  induction n generalizing ds front with
  | zero =>
    cases h
    exact ⟨rfl, rfl⟩
  | succ n ih =>
    cases ds with
    | nil => cases h
    | cons d ds =>
      unfold takeBits at h
      split at h
      · cases h
        obtain ⟨hlen, rfl⟩ := ih ‹_›
        exact ⟨congrArg (· + 1) hlen, rfl⟩
      · cases h

/-- The number of more decisions is that of the first ones, shifted up. -/
theorem ofBitsMSB_concat (ds : List Bool) (d : Bool) : ofBitsMSB (ds ++ [d]) = 2 * ofBitsMSB ds + d.toNat := by
  simp [ofBitsMSB, List.foldl_append]

theorem ofBitsMSB_lt (ds : List Bool) : ofBitsMSB ds < 2 ^ ds.length := by
  induction ds using List.reverseRecOn with
  | nil => exact Nat.one_pos
  | append_singleton ds d ih =>
    have hd := Bool.toNat_le d
    rw [ofBitsMSB_concat, List.length_append, List.length_singleton, Nat.pow_succ]
    omega

/-- The last of the bits of a number is its lowest. -/
theorem bitsMSB_succ_concat (n v : Nat) : bitsMSB (n + 1) v = bitsMSB n (v / 2) ++ [v.testBit 0] := by
  induction n generalizing v with
  | zero => rfl
  | succ n ih =>
    rw [bitsMSB, ih, bitsMSB, List.cons_append, Nat.testBit_div_two]

theorem bitsMSB_ofBitsMSB (ds : List Bool) : bitsMSB ds.length (ofBitsMSB ds) = ds := by
  induction ds using List.reverseRecOn with
  | nil => rfl
  | append_singleton ds d ih =>
    have hd := Bool.toNat_le d
    have hlast : (2 * ofBitsMSB ds + d.toNat).testBit 0 = d := by cases d <;> simp [Nat.testBit_zero]
    rw [ofBitsMSB_concat, List.length_append, List.length_singleton, bitsMSB_succ_concat, hlast,
      show (2 * ofBitsMSB ds + d.toNat) / 2 = ofBitsMSB ds by omega, ih]

theorem ofBitsMSB_bitsMSB {n v : Nat} (h : v < 2 ^ n) : ofBitsMSB (bitsMSB n v) = v := by
  induction n generalizing v with
  | zero =>
    rw [Nat.pow_zero] at h
    exact (Nat.lt_one_iff.mp h).symm
  | succ n ih =>
    rw [Nat.pow_succ] at h
    have hbit : (v.testBit 0).toNat = v % 2 := Nat.toNat_testBit v 0 ▸ by simp
    rw [bitsMSB_succ_concat, ofBitsMSB_concat, ih (by omega), hbit]
    omega

theorem bitsLSB_length (n v : Nat) : (bitsLSB n v).length = n := by
  induction n generalizing v with
  | zero => rfl
  | succ n ih => exact congrArg (· + 1) (ih _)

theorem ofBitsLSB_bitsLSB {n v : Nat} (h : v < 2 ^ n) : ofBitsLSB (bitsLSB n v) = v := by
  induction n generalizing v with
  | zero =>
    rw [Nat.pow_zero] at h
    exact (Nat.lt_one_iff.mp h).symm
  | succ n ih =>
    rw [Nat.pow_succ] at h
    have hbit : (v.testBit 0).toNat = v % 2 := Nat.toNat_testBit v 0 ▸ by simp
    rw [bitsLSB, ofBitsLSB, ih (by omega), hbit]
    omega

/-- `n` decisions read first bit first are the bits of a number of `n` bits. -/
theorem takeBits_eq_some_msb {n : Nat} {ds front rest : List Bool} (h : takeBits n ds = some (front, rest)) :
    ofBitsMSB front < 2 ^ n ∧ ds = bitsMSB n (ofBitsMSB front) ++ rest := by
  obtain ⟨rfl, rfl⟩ := takeBits_eq_some h
  exact ⟨ofBitsMSB_lt front, by rw [bitsMSB_ofBitsMSB]⟩

theorem takeBits_eq_some_lsb {n : Nat} {ds front rest : List Bool} (h : takeBits n ds = some (front, rest)) :
    ofBitsLSB front < 2 ^ n ∧ ds = bitsLSB n (ofBitsLSB front) ++ rest := by
  obtain ⟨rfl, rfl⟩ := takeBits_eq_some h
  exact ⟨ofBitsLSB_lt front, by rw [bitsLSB_ofBitsLSB]⟩

theorem takeBits_bitsMSB (n v : Nat) (rest : List Bool) : takeBits n (bitsMSB n v ++ rest) = some (bitsMSB n v, rest) :=
  takeBits_append (bitsMSB_length n v) rest

theorem takeBits_bitsLSB (n v : Nat) (rest : List Bool) : takeBits n (bitsLSB n v ++ rest) = some (bitsLSB n v, rest) :=
  takeBits_append (bitsLSB_length n v) rest

/-! ## The length code (R78) -/

theorem decodeLength_encodeLength {len : Nat} (h : len < 272) (rest : List Bool) :
    decodeLength (encodeLength len ++ rest) = some (len, rest) := by
  unfold encodeLength
  split
  · simp [decodeLength, takeBits_bitsMSB, ofBitsMSB_bitsMSB (n := 3) (v := len) (by omega)]
  · split
    · simp [decodeLength, takeBits_bitsMSB, ofBitsMSB_bitsMSB (n := 3) (v := len - 8) (by omega)]
      omega
    · simp [decodeLength, takeBits_bitsMSB, ofBitsMSB_bitsMSB (n := 8) (v := len - 16) (by omega)]
      omega

theorem decodeLength_eq_some {ds rest : List Bool} {len : Nat} (h : decodeLength ds = some (len, rest)) :
    len < 272 ∧ ds = encodeLength len ++ rest := by
  unfold decodeLength at h
  split at h
  · obtain ⟨⟨front, rest⟩, htake, ⟨⟩⟩ := Option.map_eq_some_iff.mp h
    obtain ⟨hlt, rfl⟩ := takeBits_eq_some_msb htake
    refine ⟨by omega, ?_⟩
    rw [encodeLength, if_pos (by omega), List.cons_append]
  · obtain ⟨⟨front, rest⟩, htake, ⟨⟩⟩ := Option.map_eq_some_iff.mp h
    obtain ⟨hlt, rfl⟩ := takeBits_eq_some_msb htake
    refine ⟨by omega, ?_⟩
    rw [encodeLength, if_neg (by omega), if_pos (by omega), Nat.add_sub_cancel_left]
    rfl
  · obtain ⟨⟨front, rest⟩, htake, ⟨⟩⟩ := Option.map_eq_some_iff.mp h
    obtain ⟨hlt, rfl⟩ := takeBits_eq_some_msb htake
    refine ⟨by omega, ?_⟩
    rw [encodeLength, if_neg (by omega), if_neg (by omega), Nat.add_sub_cancel_left]
    rfl
  · cases h

/-! ## The distance code (R79, R213) -/

/-- The ranges of R213 cover every distance: it lies above the base of its slot by the slot's bits. -/
theorem exists_slotBase_add {dist : Nat} (h : dist < 2 ^ 32) :
    ∃ slot low, slot < 64 ∧ low < 2 ^ slotDirectBits slot ∧ dist = slotBase slot + low := by
  by_cases h4 : dist < 4
  · exact ⟨dist, 0, by omega, Nat.two_pow_pos _, by rw [slotBase_of_lt_four h4, Nat.add_zero]⟩
  · obtain ⟨n, hn⟩ : ∃ n, Nat.log2 dist = n + 2 := by
      have h2 : 2 ≤ Nat.log2 dist := (Nat.le_log2 (by omega)).mpr (by omega)
      exact ⟨Nat.log2 dist - 2, by omega⟩
    obtain ⟨hge, hlt⟩ := (Nat.log2_eq_iff (show dist ≠ 0 by omega)).mp hn
    have hn32 : n + 2 < 32 := hn ▸ (Nat.log2_lt (by omega)).mpr h
    have hq1 : 2 ≤ dist / 2 ^ (n + 1) := (Nat.le_div_iff_mul_le (Nat.two_pow_pos _)).mpr (by rw [Nat.pow_succ] at hge; omega)
    have hq2 : dist / 2 ^ (n + 1) < 4 := (Nat.div_lt_iff_lt_mul (Nat.two_pow_pos _)).mpr (by
      rw [Nat.pow_succ, Nat.pow_succ] at hlt
      omega)
    let slot := 2 * n + 2 + dist / 2 ^ (n + 1)
    have hbits : slotDirectBits slot = n + 1 := by
      show slot / 2 - 1 = n + 1
      omega
    refine ⟨slot, dist % 2 ^ (n + 1), by omega, hbits ▸ Nat.mod_lt _ (Nat.two_pow_pos _), ?_⟩
    rw [slotBase_of_not_lt_four (by omega) hbits, show 2 + slot % 2 = dist / 2 ^ (n + 1) by omega, Nat.mul_comm]
    exact (Nat.div_add_mod dist (2 ^ (n + 1))).symm

/-- The slot and its low bits are read back (R212, R214, R215). -/
theorem decodeDistance_slot {slot low : Nat} (hslot : slot < 64) (hlow : low < 2 ^ slotDirectBits slot) (rest : List Bool) :
    decodeDistance (bitsMSB 6 slot ++ lowDecisions slot low ++ rest) = some (slotBase slot + low, rest) := by
  unfold decodeDistance
  rw [List.append_assoc, takeBits_bitsMSB]
  simp only [ofBitsMSB_bitsMSB (n := 6) hslot]
  by_cases h4 : slot < 4
  · rw [slotDirectBits_of_lt_four h4] at hlow
    rw [if_pos h4, lowDecisions_of_lt_four h4, slotBase_of_lt_four h4, Nat.lt_one_iff.mp hlow]
    rfl
  · rw [if_neg h4]
    by_cases h14 : slot < Config.kEndPosModelIndex
    · rw [if_pos h14, lowDecisions_of_lt_align h4 h14, takeBits_bitsLSB, Option.map_some, ofBitsLSB_bitsLSB hlow]
    · have hn := alignBits_le_slotDirectBits h14
      have hhi : low / 2 ^ Config.kNumAlignBits < 2 ^ (slotDirectBits slot - Config.kNumAlignBits) := by
        rw [Nat.div_lt_iff_lt_mul (Nat.two_pow_pos _), ← Nat.pow_add, Nat.sub_add_cancel hn]
        exact hlow
      have hlo := Nat.mod_lt low (Nat.two_pow_pos Config.kNumAlignBits)
      have hsum := Nat.div_add_mod' low (2 ^ Config.kNumAlignBits)
      rw [if_neg h14, ← hsum, lowDecisions_of_align h4 h14 _ hlo, List.append_assoc, takeBits_bitsMSB]
      simp only [takeBits_bitsLSB, Option.map_some, ofBitsMSB_bitsMSB hhi, ofBitsLSB_bitsLSB hlo, hsum, Nat.add_assoc]

theorem decodeDistance_encodeDistance {dist : Nat} (h : dist < 2 ^ 32) (rest : List Bool) :
    decodeDistance (encodeDistance dist ++ rest) = some (dist, rest) := by
  obtain ⟨slot, low, hslot, hlow, rfl⟩ := exists_slotBase_add h
  rw [encodeDistance_slotBase_add hlow]
  exact decodeDistance_slot hslot hlow rest

theorem decodeDistance_eq_some {ds rest : List Bool} {dist : Nat} (h : decodeDistance ds = some (dist, rest)) :
    dist < 2 ^ 32 ∧ ds = encodeDistance dist ++ rest := by
  suffices hs : ∃ slot low, slot < 64 ∧ low < 2 ^ slotDirectBits slot ∧ dist = slotBase slot + low ∧
      ds = bitsMSB 6 slot ++ lowDecisions slot low ++ rest by
    obtain ⟨slot, low, hslot, hlow, rfl, rfl⟩ := hs
    exact ⟨slotBase_add_lt hslot hlow, by rw [encodeDistance_slotBase_add hlow]⟩
  unfold decodeDistance at h
  split at h
  · cases h
  next s tail hs =>
    obtain ⟨hslot, rfl⟩ := takeBits_eq_some_msb hs
    obtain ⟨slot, hs⟩ : ∃ slot, ofBitsMSB s = slot := ⟨_, rfl⟩
    rw [hs] at hslot ⊢
    simp only [hs] at h
    by_cases h4 : slot < 4
    · rw [if_pos h4] at h
      cases h
      exact ⟨dist, 0, hslot, Nat.two_pow_pos _, by rw [slotBase_of_lt_four h4, Nat.add_zero],
        by rw [lowDecisions_of_lt_four h4, List.append_nil]⟩
    · rw [if_neg h4] at h
      by_cases h14 : slot < Config.kEndPosModelIndex
      · rw [if_pos h14] at h
        obtain ⟨⟨low, rest⟩, hlow, ⟨⟩⟩ := Option.map_eq_some_iff.mp h
        obtain ⟨hlt, rfl⟩ := takeBits_eq_some_lsb hlow
        exact ⟨slot, _, hslot, hlt, rfl, by rw [lowDecisions_of_lt_align h4 h14, List.append_assoc]⟩
      · rw [if_neg h14] at h
        split at h
        · cases h
        next hi tail' hhi =>
          obtain ⟨⟨lo, rest⟩, hlo, ⟨⟩⟩ := Option.map_eq_some_iff.mp h
          obtain ⟨hhilt, rfl⟩ := takeBits_eq_some_msb hhi
          obtain ⟨hlolt, rfl⟩ := takeBits_eq_some_lsb hlo
          have hn := alignBits_le_slotDirectBits h14
          have hlt := two_pow_mul_add_lt hhilt hlolt
          rw [Nat.sub_add_cancel hn, Nat.mul_comm] at hlt
          exact ⟨slot, _, hslot, hlt, (Nat.add_assoc _ _ _), by
            rw [lowDecisions_of_align h4 h14 _ hlolt, List.append_assoc, List.append_assoc]⟩

/-! ## The symbol code (R76 to R80) -/

theorem lengthCode_val (len : Fin 272) : lengthCode len.val = len := by
  apply Fin.ext
  exact Nat.mod_eq_of_lt len.isLt

theorem val_lengthCode {len : Nat} (h : len < 272) : (lengthCode len).val = len := Nat.mod_eq_of_lt h

/-- A symbol's code decodes to it, whatever follows. -/
theorem decodeSymbol_encodeSymbol {sym : Symbol} (h : sym.wf = true) (rest : List Bool) :
    decodeSymbol (encodeSymbol sym ++ rest) = some (sym, rest) := by
  cases sym with
  | lit b => simp [encodeSymbol, decodeSymbol, takeBits_bitsMSB, ofBitsMSB_bitsMSB (n := 8) b.isLt]
  | newMatch len dist =>
    have hd : dist ≠ Config.kEndMarker := of_decide_eq_true h
    simp [encodeSymbol, decodeSymbol, decodeLength_encodeLength len.isLt, decodeDistance_encodeDistance dist.isLt,
      lengthCode_val, Symbol.ofMatch, hd]
  | eos len =>
    simp [encodeSymbol, decodeSymbol, decodeLength_encodeLength len.isLt,
      decodeDistance_encodeDistance Config.kEndMarker.isLt, lengthCode_val, Symbol.ofMatch]
  | shortrep => rfl
  | rep0 len | rep1 len | rep2 len | rep3 len =>
    simp [encodeSymbol, decodeSymbol, decodeLength_encodeLength len.isLt, lengthCode_val]

/-- The code of a new match or of the marker, told by the values it carries (R80). -/
theorem encodeSymbol_ofMatch {len dist : Nat} (hlen : len < 272) (hdist : dist < 2 ^ 32) :
    (Symbol.ofMatch (lengthCode len) (BitVec.ofNat 32 dist)).wf = true ∧
    encodeSymbol (Symbol.ofMatch (lengthCode len) (BitVec.ofNat 32 dist)) =
      true :: false :: (encodeLength len ++ encodeDistance dist) := by
  have hd : (BitVec.ofNat 32 dist).toNat = dist := by rw [BitVec.toNat_ofNat, Nat.mod_eq_of_lt hdist]
  unfold Symbol.ofMatch
  split
  next hm => exact ⟨rfl, by rw [encodeSymbol, val_lengthCode hlen, ← hm, hd]⟩
  next hm => exact ⟨decide_eq_true hm, by rw [encodeSymbol, val_lengthCode hlen, hd]⟩

/-- What decodes begins with the code of what it decodes to. -/
theorem decodeSymbol_eq_some {ds rest : List Bool} {sym : Symbol} (h : decodeSymbol ds = some (sym, rest)) :
    sym.wf = true ∧ ds = encodeSymbol sym ++ rest := by
  unfold decodeSymbol at h
  split at h
  case h_1 ds =>
    obtain ⟨⟨b, rest⟩, htake, ⟨⟩⟩ := Option.map_eq_some_iff.mp h
    obtain ⟨hlt, rfl⟩ := takeBits_eq_some_msb htake
    exact ⟨rfl, by rw [encodeSymbol, BitVec.toNat_ofNat, Nat.mod_eq_of_lt hlt]; rfl⟩
  case h_2 ds =>
    split at h
    · cases h
    next len tail hlen =>
      obtain ⟨⟨dist, rest⟩, hdist, ⟨⟩⟩ := Option.map_eq_some_iff.mp h
      obtain ⟨hl, rfl⟩ := decodeLength_eq_some hlen
      obtain ⟨hd, rfl⟩ := decodeDistance_eq_some hdist
      obtain ⟨hwf, hcode⟩ := encodeSymbol_ofMatch hl hd
      exact ⟨hwf, by rw [hcode]; simp⟩
  case h_3 ds =>
    cases h
    exact ⟨rfl, rfl⟩
  case h_8 => cases h
  all_goals
    obtain ⟨⟨len, rest⟩, hlen, ⟨⟩⟩ := Option.map_eq_some_iff.mp h
    obtain ⟨hl, rfl⟩ := decodeLength_eq_some hlen
    exact ⟨rfl, by rw [encodeSymbol, val_lengthCode hl]; rfl⟩

/-- Settles O59: a code decodes to its symbol, and nothing else decodes to it. -/
theorem symbolCodeIsExact : Obligations.SymbolCodeIsExact := by
  refine fun ds rest sym => ⟨decodeSymbol_eq_some, ?_⟩
  rintro ⟨hwf, rfl⟩
  exact decodeSymbol_encodeSymbol hwf rest

end Sys2Proof
end

section
/-! SUPPORT. The header's fields as instructions (R71 to R74, R222 to R224), the start sequence on a whole header (R44, R226), and what the
host reads (R89, R90, R228). With it, O31, O32, O36 and O60. -/

namespace Sys2Proof.Machine

/-! ## The fields (R71 to R74) -/

/-- An instruction that completes without a result, told by its operation. -/
theorem exec_done {i : Instr} {s : State} {op : Op Unit} {b : Arch} (ha : allowed i s.arch = true)
    (hi : opOf i s.arch = answerDone op) (h : op (opStart s.arch) = .ok () b) : exec i s = .next (completed s b .done) :=
  exec_answer_ok (f := fun _ => .done) ha hi h

theorem propsByte_toNat (lc : Fin 9) (lp pb : Fin 5) :
    (BitVec.ofNat 8 (lc.val + 9 * lp.val + 45 * pb.val)).toNat = lc.val + 9 * lp.val + 45 * pb.val := by
  rw [BitVec.toNat_ofNat]
  omega

/-- The three digits of the mixed-radix number. -/
theorem props_of_propsByte (lc : Fin 9) (lp pb : Fin 5) (d : Byte) (hd : d.toNat = lc.val + 9 * lp.val + 45 * pb.val) :
    propsLc d = lc ∧ propsLp d = lp ∧ propsPb d = pb := by
  refine ⟨Fin.ext ?_, Fin.ext ?_, Fin.ext ?_⟩
  · show d.toNat % 9 = lc.val
    omega
  · show d.toNat / 9 % 5 = lp.val
    omega
  · show d.toNat / 9 / 5 % 5 = pb.val
    omega

/-- Settles O31: the digits of a number below 225 are the properties, and the bound is tested first. -/
theorem fmtPropsUnpacks : Obligations.FmtPropsUnpacks := by
  refine fun s => ⟨fun lc lp pb => ?_, fun d hd => ?_, fun d hd => ?_⟩
  · have hbyte := propsByte_toNat lc lp pb
    obtain ⟨hlc, hlp, hpb⟩ := props_of_propsByte lc lp pb _ hbyte
    have hrun := hdrProps_ok (d := BitVec.ofNat 8 (lc.val + 9 * lp.val + 45 * pb.val)) (by omega) (opStart s.arch)
    rw [hlc, hlp, hpb] at hrun
    exact exec_done rfl rfl hrun
  · refine ⟨propsLc d, propsLp d, propsPb d, props_spell hd, rfl, rfl, ?_⟩
    show d.toNat / 9 / 5 % 5 = d.toNat / 45
    omega
  · exact exec_answer_raise (f := fun _ => .done) rfl rfl (hdrProps_raise hd _)

theorem rcPreamble_ok (z : Byte) (c : Word) (a : Arch) : rcPreamble z c a = .ok () { a with
    range := 0xFFFFFFFF#32, code := c, corrupted := decide (z ≠ 0#8 ∨ c = 0xFFFFFFFF#32) } := by
  rw [← corruptedAtInit_eq]
  rfl

/-- Settles O32: each field is one update of the registers. -/
theorem headerFieldsSetRegisters : Obligations.HeaderFieldsSetRegisters := by
  refine fun s => ⟨fun v => ?_, ?_, fun v hv => ?_, fun z c => ?_⟩
  · exact ⟨effectiveDictSize v, effectiveDictSize_toNat v, exec_done rfl rfl rfl⟩
  · exact exec_done rfl rfl (hdrSize_run _ _)
  · have hrun := hdrSize_run v (opStart s.arch)
    rw [decide_eq_true hv, if_neg hv] at hrun
    exact exec_done rfl rfl hrun
  · exact exec_done rfl rfl (rcPreamble_ok z c _)

/-! ## The start sequence (R44, R226) -/

theorem hdrParse_ok {a : Arch} {d b1 b2 b3 b4 c0 c1 c2 c3 c4 c5 c6 c7 : Byte} {rest : List Byte}
    (h : a.inBytes = d :: b1 :: b2 :: b3 :: b4 :: c0 :: c1 :: c2 :: c3 :: c4 :: c5 :: c6 :: c7 :: rest)
    (hd : d.toNat < 225) :
    hdrParse a = .ok () (headerRead d (leWord b1 b2 b3 b4) (leDWord c0 c1 c2 c3 c4 c5 c6 c7) rest a) := by
  have hpos : a.inPos + 1#64 + 12#64 = a.inPos + 13#64 := BitVec.add_assoc ..
  rw [hdrParse_legal h hd, hdrSizes_ok rfl, headerRead, ← hpos]

/-- In P_HEADER a legal header is read (R226). -/
theorem step_header {a : Arch} {d b1 b2 b3 b4 c0 c1 c2 c3 c4 c5 c6 c7 : Byte} {rest : List Byte} (hp : a.phase = .header)
    (h : a.inBytes = d :: b1 :: b2 :: b3 :: b4 :: c0 :: c1 :: c2 :: c3 :: c4 :: c5 :: c6 :: c7 :: rest)
    (hd : d.toNat < 225) : step (alone a .done) =
      .next (alone (headerRead d (leWord b1 b2 b3 b4) (leDWord c0 c1 c2 c3 c4 c5 c6 c7) rest (opStart a)) .done) :=
  step_completes (i := .hdrParse) (by simp only [nextOperation, hp]) rfl (answerDone_ok (hdrParse_ok (a := opStart a) h hd))

/-- In P_RCINIT the preamble comes next while it is not consumed. -/
theorem step_preamble {a : Arch} {z p1 p2 p3 p4 : Byte} {rest : List Byte} (hp : a.phase = .rcInit) (hpos : a.inPos < 18#64)
    (h : a.inBytes = z :: p1 :: p2 :: p3 :: p4 :: rest) :
    step (alone a .done) = .next (alone (preambleRead z (p1 ++ p2 ++ p3 ++ p4) rest (opStart a)) .done) :=
  step_completes (i := .rcInit) (by simp only [nextOperation, hp, if_pos hpos]) rfl
    (answerDone_ok (rcInit_enough (a := opStart a) h))

/-- Behind the preamble comes DEC.INIT. -/
theorem step_decInit {a : Arch} (hp : a.phase = .rcInit) (hpos : ¬ a.inPos < 18#64) (hsize : a.dictSize ≠ 0#32)
    (hcap : a.params.dictCap = none) :
    step (alone a .done) = .next (alone (freshDecoder (newWindow a.dictSize (opStart a))) .done) := by
  have hnocap : overCap (opStart a) a.dictSize = false :=
    overCap_eq_false fun c hc => by cases hcap.symm.trans hc
  exact step_completes (i := .decInit) (by simp only [nextOperation, hp, if_neg hpos]) (decide_eq_true hsize)
    (answerDone_ok (decInit_ok hnocap))

/-- Four steps from START, with a legal header and a preamble at hand and no limit on the window. -/
theorem start_runs {s : State} {d b1 b2 b3 b4 c0 c1 c2 c3 c4 c5 c6 c7 z p1 p2 p3 p4 : Byte} {rest : List Byte}
    (he : s.events = [.cmd (.uop [0x18])])
    (hb : s.arch.inBytes = d :: b1 :: b2 :: b3 :: b4 :: c0 :: c1 :: c2 :: c3 :: c4 :: c5 :: c6 :: c7 :: z :: p1 :: p2 ::
      p3 :: p4 :: rest) (hd : d.toNat < 225) (hcap : s.arch.params.dictCap = none) :
    Host.Core.run core 4 s = .next (alone (decodeStarted d (leWord b1 b2 b3 b4) (leDWord c0 c1 c2 c3 c4 c5 c6 c7)
      (z :: p1 :: p2 :: p3 :: p4 :: rest) z (p1 ++ p2 ++ p3 ++ p4) rest s.arch) .done) :=
  calc Host.Core.run core 4 s
    _ = Host.Core.run core 3 (alone (startDecode (opStart s.arch)) .done) := run_succ (step_start he) 3
    _ = _ := run_succ (step_header (a := startDecode (opStart s.arch)) rfl hb hd) 2
    _ = _ := run_succ (step_preamble (a := afterHeader d (leWord b1 b2 b3 b4) (leDWord c0 c1 c2 c3 c4 c5 c6 c7)
        (z :: p1 :: p2 :: p3 :: p4 :: rest) s.arch) rfl (by decide : 13#64 < 18#64) rfl) 1
    _ = _ := run_succ (step_decInit (a := preambleRead z (p1 ++ p2 ++ p3 ++ p4) rest (opStart (afterHeader d
        (leWord b1 b2 b3 b4) (leDWord c0 c1 c2 c3 c4 c5 c6 c7) (z :: p1 :: p2 :: p3 :: p4 :: rest) s.arch)))
        rfl (by decide : ¬ 18#64 < 18#64) (effectiveDictSize_ne_zero _) hcap) 0

/-- Settles O36: the four steps complete (`start_runs`), and what they leave has every register of R44. -/
theorem startSequenceReachesLoop : Obligations.StartSequenceReachesLoop := by
  intro s d b1 b2 b3 b4 c0 c1 c2 c3 c4 c5 c6 c7 z p1 p2 p3 p4 rest he hb hd hcap
  refine ⟨_, start_runs he hb hd hcap, rfl, rfl, rfl, corruptedAtInit_eq _ _ _, rfl, ⟨rfl, rfl, rfl, rfl⟩, fun _ => rfl,
    fun _ => rfl, rfl, rfl, rfl, rfl, props_spell hd, rfl, effectiveDictSize_toNat _, rfl, rfl, fun hdef => ?_, rfl, rfl,
    rfl, rfl, rfl, rfl⟩
  exact if_neg (of_decide_eq_true hdef)

/-! ## The host's side (R89, R90, R228) -/

theorem stateCode_toNat (q : Fin 12) : (stateCode q).toNat = q.val := by
  rw [stateCode, BitVec.toNat_ofNat]
  omega

/-- Settles O60: the codes are the tables', and the view is made of the registers. -/
theorem hostReadsRegistersAndLevels : Obligations.HostReadsRegistersAndLevels := by
  refine ⟨stateCode_toNat, ⟨rfl, rfl, rfl, rfl, rfl, fun x => ?_⟩,
    ⟨rfl, rfl, rfl, rfl, rfl, rfl, rfl, rfl, rfl, rfl, rfl, fun x => ?_⟩, fun s => ?_⟩
  · cases x <;> decide
  · cases x <;> decide
  · refine ⟨⟨rfl, rfl, rfl, rfl, rfl, rfl, rfl, rfl, rfl, rfl, rfl⟩, ?_, decide_eq_true_iff⟩
    exact Option.isSome_iff_ne_none

end Sys2Proof.Machine
end

section
/-! SUPPORT. What the operations that only decode leave (R23, R102, R103, R121, R131, R216). With it, O18. -/

namespace Sys2Proof.Machine

variable {Q : ∀ {α : Type}, Op α → Prop}

/-! ## What an operation that only decodes is made of -/

/-- The property holds of a decision, of a normalisation and of a direct bit. -/
structure DecisionParts (Q : ∀ {α : Type}, Op α → Prop) : Prop where
  rcBit : ∀ k, Q (rcBit k)
  rcNorm : Q rcNorm

/-- The property also holds of what can set the advisory flag. -/
structure DecodingParts (Q : ∀ {α : Type}, Op α → Prop) : Prop extends DecisionParts Q where
  directRound : Q rcDirectRound
  inByte : Q inByte
  rcInitClear : Q rcInitClear
  shiftIn : ∀ b, Q (modify fun a => { a with code := shiftInByte a.code b })
  rcInitFlag : ∀ b, Q (rcInitFlag b)
  setCode : ∀ c, Q (modify fun a => { a with code := c })

/-- What holds of the decisions and the normalisation holds of the decoding operations that leave the flag alone (R23). -/
theorem DecisionParts.opOf (c : ClosedGet Q) (p : DecisionParts Q) {i : Instr} (hd : decodesOnly i = true)
    (ht : touchesCorrupted i = false) (a : Arch) : Q (opOf i a) := by
  have k := c.toClosed
  have ans : ∀ {α : Type} {op : Op α} (f : α → Response), Q op → Q (answer f op) := fun f h => c.bind h fun _ => c.pure _
  have hboth : (decodesOnly i && !touchesCorrupted i) = true := by rw [hd, ht]; rfl
  cases i
  case rcNorm => exact c.bind p.rcNorm fun _ => c.pure _
  case rcBit => exact ans _ (p.rcBit _)
  case rcFinok => exact c.getBind (fun a b h => congrArg (fun x => pure (Response.bool x)) (view_finok h)) fun _ => c.pure _
  case btFwd => exact ans _ (btFwd_closed k fun k _ _ => p.rcBit k)
  case btRev => exact ans _ (btRev_closed k fun k _ _ => p.rcBit k)
  case lenDec => exact ans _ (lenDec_closed k fun k _ => p.rcBit k)
  case codeLengthLow => exact ans _ (lengthLow_closed k fun k _ => p.rcBit k)
  case codeLengthMid => exact ans _ (lengthMid_closed k fun k _ => p.rcBit k)
  case codeLengthHigh => exact ans _ (lengthHigh_closed k fun k _ => p.rcBit k)
  all_goals cases hboth

/-- The decoding operations that can move the flag: the start of the coder and what has direct bits (R23). -/
theorem touchesCorrupted_cases {i : Instr} (h : touchesCorrupted i = true) :
    i = .rcInit ∨ (∃ n, i = .rcDirect n) ∨ (∃ len, i = .distDec len) ∨ (∃ z v, i = .fmtRcpre z v) ∨
      ∃ slot, rowSlot i = some slot := by
  cases i
  case rcInit => exact .inl rfl
  case rcDirect n => exact .inr (.inl ⟨n, rfl⟩)
  case distDec len => exact .inr (.inr (.inl ⟨len, rfl⟩))
  case fmtRcpre z v => exact .inr (.inr (.inr (.inl ⟨z, v, rfl⟩)))
  all_goals exact .inr (.inr (.inr (.inr (Option.isSome_iff_exists.mp h))))

/-- What holds of all the parts holds of every operation that only decodes. -/
theorem DecodingParts.opOf (c : ClosedGet Q) (p : DecodingParts Q) {i : Instr} (hd : decodesOnly i = true) (a : Arch) :
    Q (opOf i a) := by
  have k := c.toClosed
  cases ht : touchesCorrupted i with
  | false => exact p.toDecisionParts.opOf c hd ht a
  | true =>
    rcases touchesCorrupted_cases ht with rfl | ⟨n, rfl⟩ | ⟨len, rfl⟩ | ⟨z, v, rfl⟩ | ⟨slot, hslot⟩
    · exact c.bind (rcInit_closed k p.inByte p.rcInitClear p.shiftIn p.rcInitFlag) fun _ => c.pure _
    · exact c.bind (rcDirect_closed k p.directRound _) fun _ => c.pure _
    · exact c.bind (distDec_closed k (fun k _ => p.rcBit k) p.directRound) fun _ => c.pure _
    · exact c.bind (rcPreamble_closed k p.rcInitClear p.setCode p.rcInitFlag _ _) fun _ => c.pure _
    · rw [(op_of_rowSlot hslot a).2]
      exact c.bind (distTail_closed k (fun k _ => p.rcBit k) p.directRound) fun _ => c.pure _

/-! ## What they keep -/

/-- The state without the range decoder, `PROB`, the input, the log and what a hard error writes. -/
def besidesDecoding (a : Arch) : Arch :=
  { a with
    range := 0#32, code := 0#32, corrupted := false, prob := [], inPos := 0#64, inBytes := [], decisions := [],
    flushedPos := 0#64, status := .idle, cause := .none, phase := .idle }

/-- What a hard error writes (R240). -/
def errorFields (a : Arch) : DWord × Status × Cause × Phase := (a.flushedPos, a.status, a.cause, a.phase)

theorem besidesDecoding_parts : DecodingParts (fun {_} op => Keeps besidesDecoding op) where
  rcBit _ := rcBit_keeps (fun _ _ _ _ _ _ => rfl) fun _ _ => rfl
  rcNorm := rcNorm_keeps fun _ _ _ _ _ => rfl
  directRound := rcDirectRound_keeps fun _ _ _ _ _ _ _ => rfl
  inByte := inByte_keeps fun _ _ _ => rfl
  rcInitClear := .modify fun _ => rfl
  shiftIn _ := .modify fun _ => rfl
  rcInitFlag _ := .modify fun _ => rfl
  setCode _ := .modify fun _ => rfl

theorem errorFields_parts : DecodingParts (fun {_} op => Keeps errorFields op) where
  rcBit _ := rcBit_keeps (fun _ _ _ _ _ _ => rfl) fun _ _ => rfl
  rcNorm := rcNorm_keeps fun _ _ _ _ _ => rfl
  directRound := rcDirectRound_keeps fun _ _ _ _ _ _ _ => rfl
  inByte := inByte_keeps fun _ _ _ => rfl
  rcInitClear := .modify fun _ => rfl
  shiftIn _ := .modify fun _ => rfl
  rcInitFlag _ := .modify fun _ => rfl
  setCode _ := .modify fun _ => rfl

theorem corrupted_decisionParts : DecisionParts (fun {_} op => Keeps Arch.corrupted op) where
  rcBit := corrupted_parts.rcBit
  rcNorm := rcNorm_keeps fun _ _ _ _ _ => rfl

/-- What is besides the fields of decoding tells a state from those fields. -/
theorem eq_of_besidesDecoding {a b : Arch} (h : besidesDecoding b = besidesDecoding a) :
    b = { a with
      range := b.range, code := b.code, corrupted := b.corrupted, prob := b.prob, inPos := b.inPos, inBytes := b.inBytes,
      decisions := b.decisions, flushedPos := b.flushedPos, status := b.status, cause := b.cause, phase := b.phase } :=
  congrArg (fun x : Arch => { x with
    range := b.range, code := b.code, corrupted := b.corrupted, prob := b.prob, inPos := b.inPos, inBytes := b.inBytes,
    decisions := b.decisions, flushedPos := b.flushedPos, status := b.status, cause := b.cause, phase := b.phase }) h

theorem exec_events {i : Instr} {s t : State} (h : exec i s = .next t) : t.events = s.events := by
  rcases exec_next_cases h with ⟨-, rfl⟩ | ⟨-, ⟨r, b, -, rfl⟩ | ⟨b, -, rfl⟩ | ⟨c, b, -, rfl⟩⟩ <;> rfl

/-- Without a hard error, an instruction keeps what its operation keeps. -/
theorem exec_keeps_of_no_error {g : Arch → γ} {i : Instr} {s t : State} (hop : Keeps g (opOf i s.arch))
    (hstart : g (opStart s.arch) = g s.arch) (h : exec i s = .next t) (hr : t.response ≠ .error) :
    g t.arch = g s.arch := by
  rcases exec_next_leaves h with ⟨c, b, -, rfl⟩ | ⟨-, ht | ht⟩
  · exact absurd rfl hr
  · rw [ht]
  · rw [ht]
    exact (hop _).trans hstart

/-- Settles O18: each part of the state is kept by the parts of the decoding operations, however they end. -/
theorem decodeFrame : Obligations.DecodeFrame := by
  intro i s t hi h
  refine ⟨?_, fun hr => ?_, fun ht => ?_, exec_events h⟩
  · exact eq_of_besidesDecoding
      (exec_keeps (besidesDecoding_parts.opOf (keeps_closed _) hi _) rfl (fun _ _ => rfl) h)
  · have hk : errorFields t.arch = errorFields s.arch :=
      exec_keeps_of_no_error (errorFields_parts.opOf (keeps_closed _) hi _) rfl h hr
    simpa only [errorFields, Prod.mk.injEq] using hk
  · exact exec_keeps (corrupted_decisionParts.opOf (keeps_closed _) hi ht _) rfl (fun _ _ => rfl) h

end Sys2Proof.Machine
end

section
/-! SUPPORT. Output is append-only, one cell of DICT for each byte (R30, R41, R53). With it, O19. -/

namespace Sys2Proof.Machine

/-! ## What a put does to the window -/

/-- The output and the window: everything a byte of output changes, but for the counters. -/
structure Window where
  out : List Byte
  size : Word
  pos : Word
  buf : DictMem

def windowOf (a : Arch) : Window := ⟨a.out, a.size, a.pos, a.buf⟩

/-- The bytes of `run` went from the cursor of `w` on around the window, and nothing else changed on the way to `v`. -/
structure AppendedRun (w : Window) (run : List Byte) (v : Window) : Prop where
  out : v.out = w.out ++ run
  size : v.size = w.size
  cursor : w.size ≠ 0#32 → v.pos < v.size ∧ v.pos.toNat = (w.pos.toNat + run.length) % w.size.toNat
  other : ∀ x, (∀ j, j < run.length → x ≠ (w.pos.toNat + j) % w.size.toNat) → dictRead v.buf x = dictRead w.buf x

/-- Some run went from `w` to `v`. -/
def AppendedTo (w v : Window) : Prop := ∃ run, AppendedRun w run v

theorem AppendedTo.refl {a : Arch} (h : cursorOk a = true) : AppendedTo (windowOf a) (windowOf a) := by
  refine ⟨[], (List.append_nil _).symm, rfl, fun hs => ?_, fun _ _ => rfl⟩
  have hp : a.pos < a.size := (cursorOk_iff.mp h).resolve_right hs
  exact ⟨hp, (Nat.mod_eq_of_lt (BitVec.lt_def.mp hp)).symm⟩

theorem dictRead_storedBuf_other {b : Byte} {a : Arch} {x : Nat} (h : a.pos < a.size → x ≠ a.pos.toNat) :
    dictRead (storedBuf b a) x = dictRead a.buf x := by
  unfold storedBuf
  split
  next hp => exact dictRead_dictWrite_other _ (h hp) b
  · rfl

/-- One byte more. -/
theorem AppendedRun.putStep {w : Window} {run : List Byte} {a : Arch} (b : Byte) (h : AppendedRun w run (windowOf a)) :
    AppendedRun w (run ++ [b]) (windowOf (putStep b a)) := by
  have hlen : (run ++ [b]).length = run.length + 1 := List.length_append
  have hsize : a.size = w.size := h.size
  have hcursor : w.size ≠ 0#32 → a.pos < a.size ∧ a.pos.toNat = (w.pos.toNat + run.length) % w.size.toNat := h.cursor
  refine ⟨?_, (putStep_size b a).trans hsize, fun hs => ?_, fun x hx => ?_⟩
  · show a.out ++ [b] = w.out ++ (run ++ [b])
    rw [← List.append_assoc, ← h.out]
    rfl
  · obtain ⟨hp, hpos⟩ := hcursor hs
    obtain ⟨hnext, hin⟩ := putStep_pos_toNat (b := b) hp
    refine ⟨hin, hnext.trans ?_⟩
    rw [hlen, hsize, hpos, Nat.mod_add_mod, Nat.add_assoc]
  · refine (congrArg (dictRead · x) (putStep_buf b a)).trans ((dictRead_storedBuf_other fun hp => ?_).trans
      (h.other x fun j hj => hx j (by omega)))
    have hs : w.size ≠ 0#32 := fun hz => by rw [hsize, hz] at hp; exact absurd hp (by bv_omega)
    rw [(hcursor hs).2]
    exact hx run.length (by omega)

/-! ## What only appends -/

/-- The state's window is one to which bytes were appended from `w`. -/
def appends (w : Window) (a : Arch) : Prop := AppendedTo w (windowOf a)

theorem Keeps.preserves_appends {w : Window} {op : Op α} (h : Keeps windowOf op) : Preserves (appends w) op :=
  h.preserves (AppendedTo w)

theorem appends_parts (w : Window) : PlainParts (fun {_} op => Preserves (appends w) op) where
  rcBit k := (rcBit_keeps (fun _ _ _ _ _ _ => rfl) fun _ _ => rfl : Keeps windowOf (rcBit k)).preserves_appends
  directRound := (rcDirectRound_keeps fun _ _ _ _ _ _ _ => rfl : Keeps windowOf _).preserves_appends
  dwPut b a h := by
    obtain ⟨run, hrun⟩ := h
    rw [dwPut_ok]
    exact ⟨_, hrun.putStep b⟩
  dwGet d := (dwGet_keeps (fun _ _ => rfl) d : Keeps windowOf (dwGet d)).preserves_appends
  dwFlush := .modify fun _ h => h
  stLit := .modify fun _ h => h
  stMatch := .modify fun _ h => h
  stRep := .modify fun _ h => h
  stShortrep := .modify fun _ h => h
  rotateReps := .modify fun _ h => h
  setRep0 _ := .modify fun _ h => h
  toFront1 := .modify fun _ h => h
  toFront2 := .modify fun _ h => h
  toFront3 := .modify fun _ h => h
  spendBudget _ := .modify fun _ h => by split <;> exact h
  endLoop _ := .modify fun _ h => h
  inByte := (inByte_keeps fun _ _ _ => rfl : Keeps windowOf inByte).preserves_appends
  rcNorm := (rcNorm_keeps fun _ _ _ _ _ => rfl : Keeps windowOf rcNorm).preserves_appends
  rcInitClear := .modify fun _ h => h
  shiftIn _ := .modify fun _ h => h
  rcInitFlag _ := .modify fun _ h => h
  setCode _ := .modify fun _ h => h
  setProps _ _ _ := .modify fun _ h => h
  hdrDictSize _ := .modify fun _ h => h
  hdrSize _ := .modify fun _ h => by split <;> exact h

/-- Every instruction but those that begin anew only appends. -/
theorem opOf_preserves_appends (w : Window) {i : Instr} (hi : beginsAnew i = false) (a : Arch) :
    Preserves (appends w) (opOf i a) := by
  have c := preserves_closed (appends w)
  have p := appends_parts w
  have hphase (q : Phase) : Preserves (appends w) (setPhase q) := .modify fun _ h => h
  by_cases hplain : plainInstr i = true
  · exact p.opOf c hplain a
  · cases i
    case start | dwCreate | decInit => cases hi
    case hdrParse => exact (hdrParse_closed c p.inByte p.setProps p.hdrDictSize p.hdrSize hphase).answerDone
    case mainStep => exact c.bind (p.toSymbolParts.mainStep c p.directRound hphase) fun _ => c.pure _
    all_goals exact absurd rfl hplain

/-- Settles O19: the parts of every such instruction append the bytes they put at the cursor. -/
theorem dictFrame : Obligations.DictFrame := by
  intro i s t hc hi h
  have hstart : appends (windowOf s.arch) (opStart s.arch) := AppendedTo.refl hc
  obtain ⟨run, hrun⟩ : appends (windowOf s.arch) t.arch :=
    exec_leaves h (fun _ => AppendedTo.refl hc) (fun _ _ ha => ha)
      (opOf_preserves_appends _ hi _ _ hstart)
  have hout : t.arch.out = s.arch.out ++ run := hrun.out
  refine ⟨⟨run, hout.symm⟩, fun x hx => hrun.other x fun j hj => hx j ?_⟩
  rw [hout, List.length_append]
  omega

end Sys2Proof.Machine
end

section
/-! SUPPORT. The rows of the length code (R78, R131), and LEN.DEC as its choices and the row they select. With it, O14. -/

namespace Sys2Proof.Machine

/-- An instruction that answers, and neither holds nor fails, says how its operation ended. -/
theorem exec_answer_completed {f : α → Response} {op : Op α} {i : Instr} {s u : State} (ha : allowed i s.arch = true)
    (hi : opOf i s.arch = answer f op) (h : exec i s = .next u) (hheld : u.held = none) (herr : u.response ≠ .error) :
    ∃ x, op (opStart s.arch) = .ok x u.arch ∧ u = completed s u.arch (f x) := by
  rcases exec_next_cases h with ⟨hn, -⟩ | ⟨-, ⟨r, b, ho, rfl⟩ | ⟨b, -, rfl⟩ | ⟨c, b, -, rfl⟩⟩
  · cases hn.symm.trans ha
  · obtain ⟨x, hx, rfl⟩ := answer_eq_ok (hi ▸ ho)
    exact ⟨x, hx, rfl⟩
  · cases hheld
  · exact absurd rfl herr

/-! ## The rows after their decisions (R78) -/

section

variable {inst : LenInst} {ps : BitVec 4} {a b c d : Arch} {v : Nat}

theorem lengthLow_decodes (inst : LenInst) (ps : BitVec 4) : Decodes (lengthLow inst ps) :=
  fun ds w => lengthLow_closed (commutes_closed _) fun k _ => rcBit_decodes k ds w

theorem lengthMid_decodes (inst : LenInst) (ps : BitVec 4) : Decodes (lengthMid inst ps) :=
  fun ds w => lengthMid_closed (commutes_closed _) fun k _ => rcBit_decodes k ds w

theorem lengthHigh_decodes (inst : LenInst) : Decodes (lengthHigh inst) :=
  fun ds w => lengthHigh_closed (commutes_closed _) fun k _ => rcBit_decodes k ds w

/-- The first choice and then the low row, each begun with an empty log, are the length code with the two logs joined. -/
theorem lenDec_low_ok (h1 : rcBit (choiceCell inst) a = .ok false b) (hrow : lengthLow inst ps (opStart b) = .ok v c) :
    lenDec inst ps a = .ok v (logAfter b.decisions c) := by
  unfold lenDec
  rw [run_bind_ok h1]
  exact (lengthLow_decodes inst ps).resume hrow

/-- The two choices and what follows them, each begun with an empty log, with the three logs joined. -/
theorem lenDec_choices_ok {bit : Bool} {op : Op Nat} (hop : Decodes op)
    (hsel : op = if bit then lengthHigh inst else lengthMid inst ps) (h1 : rcBit (choiceCell inst) a = .ok true b)
    (h2 : rcBit (choice2Cell inst) (opStart b) = .ok bit c) (hrow : op (opStart c) = .ok v d) :
    lenDec inst ps a = .ok v (logAfter (b.decisions ++ c.decisions) d) := by
  unfold lenDec
  rw [run_bind_ok h1, if_pos rfl, run_bind_ok ((rcBit_decodes _).resume h2), ← hsel]
  exact hop.resume (a := logAfter b.decisions c) hrow

end

/-! ## The instructions -/

theorem rcBit_opStart_decisions {k : Nat} {a b : Arch} {bit : Bool} (h : rcBit k (opStart a) = .ok bit b) :
    b.decisions = [bit] :=
  rcBit_decisions h

theorem completed_of_rcBit {c : ProbAddr} {s t : State} {bit : Bool} (h : exec (.rcBit c) s = .next t)
    (hb : t.response = .bit bit) : t = completed s t.arch (.bit bit) :=
  (exec_answered (f := .bit) rfl h hb (by simp)).2.1

/-- Both choices decided, and then the row they select. -/
theorem exec_lenDec_row {inst : LenInst} {ps : BitVec 4} {choice choice2 : ProbAddr} {i : Instr} {bit : Bool} {op : Op Nat}
    {s t t' u : State} (hc1 : cellOf choice = choiceCell inst) (hc2 : cellOf choice2 = choice2Cell inst) (hop : Decodes op)
    (hsel : op = if bit then lengthHigh inst else lengthMid inst ps) (ha : allowed i t'.arch = true)
    (hi : opOf i t'.arch = answer valueOf op)
    (h1 : exec (.rcBit choice) s = .next t) (hb1 : t.response = .bit true)
    (h2 : exec (.rcBit choice2) t = .next t') (hb2 : t'.response = .bit bit)
    (hu : exec i t' = .next u) (hheld : u.held = none) (herr : u.response ≠ .error) :
    exec (.lenDec inst ps) s =
      .next { u with arch := { u.arch with decisions := true :: bit :: u.arch.decisions } } := by
  have hr1 := rcBit_of_exec h1 hb1
  have hr2 := rcBit_of_exec h2 hb2
  obtain ⟨v, hrow, hend⟩ := exec_answer_completed ha hi hu hheld herr
  have hrun := lenDec_choices_ok hop hsel (hc1 ▸ hr1) (hc2 ▸ hr2) hrow
  rw [rcBit_opStart_decisions hr1, rcBit_opStart_decisions hr2] at hrun
  rw [exec_answer_ok (f := valueOf) rfl rfl hrun, hend, completed_of_rcBit h2 hb2, completed_of_rcBit h1 hb1]
  rfl

/-- Settles O14: a row is its tree and an offset, and the length code goes on where its choices stopped. -/
theorem lengthCodeSelectsRow : Obligations.LengthCodeSelectsRow := by
  intro inst ps s low mid high choice choice2
  have hps := ps.isLt
  have hidx : (BitVec.ofNat 24 (8 * ps.toNat)).toNat = 8 * ps.toNat := by
    rw [BitVec.toNat_ofNat]
    omega
  have hbound : (BitVec.ofNat 24 (8 * ps.toNat)).toNat + 2 ^ 3 ≤ 128 := by omega
  obtain ⟨hlow, hmid, hhigh, hchoice, hchoice2⟩ : cellOf low = lowTree inst ps ∧ cellOf mid = midTree inst ps ∧
      cellOf high = highTree inst ∧ cellOf choice = choiceCell inst ∧ cellOf choice2 = choice2Cell inst := by
    cases inst <;> exact ⟨congrArg (cell _) hidx, congrArg (cell _) hidx, rfl, rfl, rfl⟩
  obtain ⟨hlowWf, hmidWf, hhighWf⟩ : low.treeWf 3#8 = true ∧ mid.treeWf 3#8 = true ∧ high.treeWf 8#8 = true := by
    cases inst <;> exact ⟨decide_eq_true hbound, decide_eq_true hbound, rfl⟩
  refine ⟨fun hn => ?_, fun hn => ?_, fun hn => ?_, fun hn => ?_, fun t u h1 hb1 hu hheld herr => ?_,
    fun t t' u h1 hb1 h2 hb2 => ?_, fun t t' u h1 hb1 h2 hb2 => ?_⟩
  · obtain ⟨v, c, hop, hv, hfwd⟩ := exec_btFwd hlowWf hn
    rw [hlow] at hop
    exact ⟨completed s c (valueOf v), v, hv, hfwd, rfl, exec_answer_ok (op := lengthLow inst ps) rfl rfl hop⟩
  · obtain ⟨v, c, hop, hv, hfwd⟩ := exec_btFwd hmidWf hn
    rw [hmid] at hop
    exact ⟨completed s c (valueOf v), v, hv, hfwd, rfl,
      exec_answer_ok (op := lengthMid inst ps) (f := valueOf) rfl rfl (run_bind_ok hop)⟩
  · obtain ⟨v, c, hop, hv, hfwd⟩ := exec_btFwd hhighWf hn
    rw [hhigh] at hop
    exact ⟨completed s c (valueOf v), v, hv, hfwd, rfl,
      exec_answer_ok (op := lengthHigh inst) (f := valueOf) rfl rfl (run_bind_ok hop)⟩
  · obtain ⟨len, c, hop, -, hlen⟩ := lenDec_completes inst ps (opStart s.arch) hn
    exact ⟨completed s c (valueOf len), len, exec_answer_ok rfl rfl hop, rfl, hlen, rfl, lenDec_decisions hop⟩
  · have hr1 := rcBit_of_exec h1 hb1
    obtain ⟨v, hrow, hend⟩ := exec_answer_completed (f := valueOf) (op := lengthLow inst ps) rfl rfl hu hheld herr
    have hrun := lenDec_low_ok (hchoice ▸ hr1) hrow
    rw [rcBit_opStart_decisions hr1] at hrun
    rw [exec_answer_ok (f := valueOf) rfl rfl hrun, hend, completed_of_rcBit h1 hb1]
    rfl
  · exact exec_lenDec_row hchoice hchoice2 (lengthMid_decodes inst ps) rfl rfl rfl h1 hb1 h2 hb2
  · exact exec_lenDec_row (ps := ps) hchoice hchoice2 (lengthHigh_decodes inst) rfl rfl rfl h1 hb1 h2 hb2

end Sys2Proof.Machine
end

section
/-! SUPPORT. The rows of the 64 slots (R79, R212 to R215): the slot itself, a reverse tree, or direct bits and the align tree. With it,
O15. -/

namespace Sys2Proof.Machine

theorem distTail_of_lt_four {slot : Nat} (h : slot < 4) : distTail slot = pure slot := if_pos h

theorem distTail_special {slot v : Nat} {a c : Arch} (h4 : ¬ slot < 4) (h14 : slot < Config.kEndPosModelIndex)
    (h : btRev (specialTree slot) (slotDirectBits slot) a = .ok v c) : distTail slot a = .ok (slotBase slot + v) c := by
  unfold distTail
  rw [if_neg h4, if_pos h14, run_bind_ok h]
  rfl

theorem btRev_decodes (T n : Nat) : Decodes (btRev T n) :=
  fun ds w => btRev_closed (commutes_closed _) fun k _ _ => rcBit_decodes k ds w

/-- The direct bits and the align tree, each begun with an empty log, are the row with the two logs joined. -/
theorem distTail_align {slot lo : Nat} {hi : Word} {a b c : Arch} (h14 : ¬ slot < Config.kEndPosModelIndex)
    (hhi : rcDirect (slotDirectBits slot - Config.kNumAlignBits) a = .ok hi b)
    (hlo : btRev alignTree Config.kNumAlignBits (opStart b) = .ok lo c) :
    distTail slot a = .ok (slotBase slot + hi.toNat * 2 ^ Config.kNumAlignBits + lo) (logAfter b.decisions c) := by
  unfold distTail
  rw [if_neg fun h4 => h14 (Nat.lt_trans h4 (by decide)), if_neg h14, run_bind_ok hhi, run_bind_ok ((btRev_decodes _ _).resume hlo)]
  rfl

/-- BT.REV with its bytes at hand. -/
theorem exec_btRev {T : ProbAddr} {n : Byte} {s : State} (hT : T.treeWf n = true) (hn : n.toNat ≤ s.arch.inBytes.length) :
    ∃ v c, btRev (cellOf T) n.toNat (opStart s.arch) = .ok v c ∧ v < 2 ^ n.toNat ∧
      exec (.btRev T n) s = .next (completed s c (valueOf v)) := by
  obtain ⟨v, c, hop, -, -⟩ := btRevWalk_completes (cellOf T) n.toNat 0 1 0 (opStart s.arch) hn
  exact ⟨v, c, hop, (btRev_eq_ok hop).1, exec_answer_ok hT rfl hop⟩

/-- RC.DIRECT with its bytes at hand. -/
theorem exec_rcDirect {n : Byte} {s : State} (h1 : 1 ≤ n.toNat) (h2 : n.toNat ≤ 26) (hn : n.toNat ≤ s.arch.inBytes.length) :
    ∃ v c, rcDirect n.toNat (opStart s.arch) = .ok v c ∧ v.toNat < 2 ^ n.toNat ∧
      s.arch.inBytes.length ≤ c.inBytes.length + n.toNat ∧
      exec (.rcDirect n) s = .next (completed s c (.value v)) := by
  obtain ⟨v, c, hop, hused, -⟩ := rcDirectRounds_completes n.toNat 0#32 (opStart s.arch) hn
  exact ⟨v, c, hop, (rcDirect_eq_ok (by omega) hop).1, hused, exec_rcDirect_ok h1 h2 hop⟩

/-- The tree of a slot from 4 to 13 by its address, with its bound (R28, R214). -/
theorem specialTree_addr {slot : Nat} (h4 : 4 ≤ slot) (h14 : slot < 14) :
    cellOf ⟨.posSpecial, BitVec.ofNat 24 (slotBase slot - slot)⟩ = specialTree slot ∧
      (ProbAddr.mk .posSpecial (BitVec.ofNat 24 (slotBase slot - slot))).treeWf (BitVec.ofNat 8 (slotDirectBits slot)) = true :=
  (by decide : ∀ k : Fin 14, 4 ≤ k.val →
    cellOf ⟨.posSpecial, BitVec.ofNat 24 (slotBase k.val - k.val)⟩ = specialTree k.val ∧
      (ProbAddr.mk .posSpecial (BitVec.ofNat 24 (slotBase k.val - k.val))).treeWf
        (BitVec.ofNat 8 (slotDirectBits k.val)) = true) ⟨slot, h14⟩ h4

theorem toNat_byte {n : Nat} (h : n ≤ 30) : (BitVec.ofNat 8 n).toNat = n := by
  rw [BitVec.toNat_ofNat]
  omega

/-- Settles O15: below slot 4 there is nothing to decode, below 14 a reverse tree, and above it the align tree goes on where
the direct bits stopped. -/
theorem slotRowsDecodeLowBits : Obligations.SlotRowsDecodeLowBits := by
  intro slot s n base hslot hbytes hn hbase
  have hbits : slotDirectBits slot = n := hn.symm
  refine ⟨fun h4 => ?_, fun h4 h14 => ?_, fun h14 => ?_⟩
  · exact exec_slotRow_ok hslot (by rw [distTail_of_lt_four h4]; rfl)
  · have hbase' : base = slotBase slot := hbase.trans (slotBase_of_not_lt_four (by omega) hbits).symm
    obtain ⟨hcell, hwf⟩ := specialTree_addr h4 h14
    have hsmall : (BitVec.ofNat 8 n).toNat = n := toNat_byte (by omega)
    rw [hbits] at hwf
    obtain ⟨v, c, hop, hv, hrev⟩ := exec_btRev (s := s) hwf (by omega)
    rw [hcell, hsmall, ← hbits] at hop
    rw [hsmall] at hv
    rw [hbase']
    exact ⟨completed s c (valueOf v), v, hv, hrev, rfl, exec_slotRow_ok hslot (distTail_special (by omega) h14 hop)⟩
  · have hbase' : base = slotBase slot := hbase.trans (slotBase_of_not_lt_four (by omega) hbits).symm
    have hsmall : (BitVec.ofNat 8 (n - 4)).toNat = n - 4 := toNat_byte (by omega)
    obtain ⟨hi, b, hdirect, hhi, hused, hexec⟩ := exec_rcDirect (n := BitVec.ofNat 8 (n - 4)) (s := s) (by omega) (by omega)
      (by omega)
    rw [hsmall] at hdirect hhi hused
    obtain ⟨lo, c, hlow, hlo, hrev⟩ := exec_btRev (T := ⟨.align, 0#24⟩) (n := 4#8) (s := completed s b (.value hi)) rfl
      (show 4 ≤ b.inBytes.length by omega)
    have hsum : hi.toNat * 16 + lo < 2 ^ slotDirectBits slot := by
      have hlt := two_pow_mul_add_lt (m := n - 4) (n := 4) hhi hlo
      rw [Nat.sub_add_cancel (by omega), Nat.mul_comm] at hlt
      rwa [hbits]
    have hrow := distTail_align (slot := slot) (Nat.not_lt.mpr h14) (hbits ▸ hdirect) hlow
    have hfit := slotBase_add_lt hslot hsum
    rw [← Nat.add_assoc] at hfit
    rw [hbase']
    exact ⟨completed s b (.value hi), completed _ c (valueOf lo), hi.toNat, lo, hhi, hlo, hexec,
      congrArg Response.value (BitVec.ofNat_toNat 32 hi ▸ BitVec.setWidth_eq hi).symm, hrev, rfl, hfit, exec_slotRow_ok hslot hrow⟩

end Sys2Proof.Machine
end

section
/-! SUPPORT. An operation goes on from a log that is not empty, and from a flush pointer that was moved, as it would without: the
symbols inside an iteration and by themselves (R183). -/

namespace Sys2Proof.Machine

/-! ## After other decisions -/

/-- `a` after the decisions `ds`, with the flush pointer at `f`. -/
def resumed (ds : List Bool) (f : DWord) (a : Arch) : Arch := { logAfter ds a with flushedPos := f }

/-- A decoding operation passes through a change of the log and of fields besides the range decoder's. -/
theorem Decodes.commutes {op : Op α} (hop : Decodes op) {ds : List Bool} {w : Arch → Arch}
    (hw : ∀ a b, coderIn ds (w (coderIn [] a b)) b = coderIn ds (w a) b) : Commutes (fun a => coderIn ds (w a) a) op := by
  intro a
  have hframe : op a = mapState (coderIn [] a) (op a) := hop [] a a
  rw [hop ds (w a) a]
  cases hr : op a with
  | ok r b =>
    rw [hr] at hframe
    injection hframe with _ hb
    exact congrArg (EStateM.Result.ok r) (by rw [← hw a b, ← hb])
  | error e b =>
    rw [hr] at hframe
    injection hframe with _ hb
    exact congrArg (EStateM.Result.error e) (by rw [← hw a b, ← hb])

theorem Decodes.commutes_logAfter {op : Op α} (hop : Decodes op) (ds : List Bool) : Commutes (logAfter ds) op :=
  hop.commutes (w := id) fun _ _ => rfl

theorem Decodes.commutes_resumed {op : Op α} (hop : Decodes op) (ds : List Bool) (f : DWord) : Commutes (resumed ds f) op :=
  hop.commutes (w := fun a => { a with flushedPos := f }) fun _ _ => rfl

/-- An operation that neither reads nor writes the log passes through decisions before it. -/
theorem commutes_logAfter_of_withLog {op : Op α} (h : ∀ l, Commutes (withLog l) op) (hk : Keeps Arch.decisions op)
    (ds : List Bool) : Commutes (logAfter ds) op := by
  intro a
  refine (h (ds ++ a.decisions) a).trans ?_
  have hlog := hk a
  cases hr : op a with
  | ok r b =>
    rw [hr] at hlog
    exact congrArg (fun l => EStateM.Result.ok r (withLog (ds ++ l) b)) hlog.symm
  | error e b =>
    rw [hr] at hlog
    exact congrArg (fun l => EStateM.Result.error e (withLog (ds ++ l) b)) hlog.symm

/-- The view leaves the log out. -/
theorem commutes_logAfter_closed (ds : List Bool) : ClosedGet (fun {_} op => Commutes (logAfter ds) op) where
  pure := Commutes.pure
  bind := Commutes.bind
  getBind hr hf := Commutes.getBind (fun _ => hr _ _ rfl) hf
  raise _ _ _ _ := Commutes.throw _

theorem logAfter_parts (ds : List Bool) : SymbolParts (fun {_} op => Commutes (logAfter ds) op) where
  rcBit k := (rcBit_decodes k).commutes_logAfter ds
  dwPut b := commutes_logAfter_of_withLog (fun l => dwPut_withLog l b) (dwPut_keeps (fun _ _ _ _ _ _ _ => rfl) b) ds
  dwGet d := commutes_logAfter_of_withLog (fun l => dwGet_withLog l d) (dwGet_keeps (fun _ _ => rfl) d) ds
  dwFlush := .modify fun _ => rfl
  stLit := .modify fun _ => rfl
  stMatch := .modify fun _ => rfl
  stRep := .modify fun _ => rfl
  stShortrep := .modify fun _ => rfl
  rotateReps := .modify fun _ => rfl
  setRep0 _ := .modify fun _ => rfl
  toFront1 := .modify fun _ => rfl
  toFront2 := .modify fun _ => rfl
  toFront3 := .modify fun _ => rfl
  spendBudget n := .modify fun a => by cases hd : a.sizeDefined <;> simp [logAfter, hd]
  endLoop _ := .modify fun _ => rfl

/-! ## The symbols of an iteration -/

/-- The operation of a symbol's instruction under `posState = ps` (R76). -/
def symbolOp (ps : BitVec 4) (i : Instr) : Op StepOutcome :=
  match i with
  | .symLit => symLit
  | .symMatch => symMatch ps
  | .symShortrep => symShortrep
  | .symRep0 => symRep0 ps
  | .symRep1 => symRep1 ps
  | .symRep2 => symRep2 ps
  | .symRep3 => symRep3 ps
  | _ => pure .continue

/-- The symbols that an iteration selects by their own row. -/
theorem selectable_cases {i : Instr} (hi : i = .symLit ∨ i = .symMatch ∨ inRepeatFamily i = true) :
    i = .symLit ∨ i = .symMatch ∨ i = .symShortrep ∨ i = .symRep0 ∨ i = .symRep1 ∨ i = .symRep2 ∨ i = .symRep3 := by
  rcases hi with rfl | rfl | hi
  · exact .inl rfl
  · exact .inr (.inl rfl)
  · cases i <;> cases hi <;> simp

theorem opOf_symbol {i : Instr} (hi : i = .symLit ∨ i = .symMatch ∨ inRepeatFamily i = true) (a : Arch) :
    allowed i a = true ∧ opOf i a = answer .step (symbolOp (posState a) i) := by
  rcases selectable_cases hi with rfl | rfl | rfl | rfl | rfl | rfl | rfl <;> exact ⟨rfl, rfl⟩

theorem symbolOp_logAfter {i : Instr} (hi : i = .symLit ∨ i = .symMatch ∨ inRepeatFamily i = true) (ps : BitVec 4)
    (ds : List Bool) : Commutes (logAfter ds) (symbolOp ps i) := by
  have c := commutes_logAfter_closed ds
  have p := logAfter_parts ds
  rcases selectable_cases hi with rfl | rfl | rfl | rfl | rfl | rfl | rfl
  · exact p.symLit c
  · exact p.symMatch c (rcDirectRound_logAfter ds) ps
  · exact p.symShortrep c
  · exact p.repTail c ps
  · exact p.symRep1 c ps
  · exact p.symRep2 c ps
  · exact p.symRep3 c ps

/-! ## Where the budget is used up -/

/-- The two ends are one operation's, by itself and after `ds`: the flush pointer can differ after an error, which flushes. -/
inductive EndsAfter (ds : List Bool) : Ended α → Ended α → Prop
  | ok (r : α) (b : Arch) : EndsAfter ds (.ok r b) (.ok r (logAfter ds b))
  | error (e : Stop) (b : Arch) (f : DWord) : EndsAfter ds (.error e b) (.error e (resumed ds f b))

theorem EndsAfter.ok_eq {ds : List Bool} {r : α} {b : Arch} {y : Ended α} (h : EndsAfter ds (.ok r b) y) :
    y = .ok r (logAfter ds b) := by
  cases h
  rfl

theorem EndsAfter.error_eq {ds : List Bool} {e : Stop} {b : Arch} {y : Ended α} (h : EndsAfter ds (.error e b) y) :
    ∃ f, y = .error e (resumed ds f b) := by
  cases h
  exact ⟨_, rfl⟩

section

variable {ds : List Bool} {f : DWord} {a : Arch}

theorem Commutes.endsAfter {op : Op α} (h : Commutes (logAfter ds) op) (a : Arch) :
    EndsAfter ds (op a) (op (logAfter ds a)) := by
  rw [h a]
  cases op a with
  | ok r b => exact .ok r b
  | error e b => exact .error e b b.flushedPos

/-- The marker flushes, and so does an error. -/
theorem symEos_endsAfter : EndsAfter ds (symEos a) (symEos (resumed ds f a)) := by
  by_cases hc : a.code = 0#32
  · by_cases hl : a.sizeDefined = true → a.leftToUnpack = 0#64
    · rw [symEos_finishes hc hl, symEos_finishes (a := resumed ds f a) hc hl]
      exact .ok _ _
    · obtain ⟨hd, hl⟩ := Classical.not_imp.mp hl
      rw [symEos_sizeMismatch hc hd hl, symEos_sizeMismatch (a := resumed ds f a) hc hd hl]
      exact .error _ _ _
  · rw [symEos_badEndMarker hc, symEos_badEndMarker (a := resumed ds f a) hc]
    exact .error _ _ _

theorem matchTail_endsAfter {len : Nat} (hb : budgetSpent a = true) :
    EndsAfter ds (matchTail len a) (matchTail len (resumed ds f a)) := by
  by_cases hm : a.rep0 = 0xFFFFFFFF#32
  · rw [matchTail_marker hm, matchTail_marker (a := resumed ds f a) hm]
    exact symEos_endsAfter
  · rw [matchTail_budgetExhausted hm hb, matchTail_budgetExhausted (a := resumed ds f a) hm hb]
    exact .error _ _ _

theorem symLit_endsAfter (hb : budgetSpent a = true) : EndsAfter ds (symLit a) (symLit (resumed ds f a)) := by
  rw [symLit_budgetExhausted hb, symLit_budgetExhausted (a := resumed ds f a) hb]
  exact .error _ _ _

/-- A new match up to its distance (R171). -/
def matchCodes (ps : BitVec 4) : Op Nat := do
  rotateReps
  let len ← lenDec .len ps
  stMatch
  let d ← distDec len
  setRep0 d
  pure len

theorem symMatch_eq_matchCodes (ps : BitVec 4) : symMatch ps = matchCodes ps >>= matchTail := by
  simp only [symMatch, matchCodes, bind_assoc, pure_bind]

theorem matchCodes_resumed (ds : List Bool) (f : DWord) (ps : BitVec 4) : Commutes (resumed ds f) (matchCodes ps) :=
  .bind (.modify fun _ => rfl) fun _ => .bind ((lenDec_decodes .len ps).commutes_resumed ds f) fun len =>
    .bind (.modify fun _ => rfl) fun _ => .bind ((distDec_decodes len).commutes_resumed ds f) fun _ =>
      .bind (.modify fun _ => rfl) fun _ => .pure _

theorem matchCodes_keeps_budgetSpent (ps : BitVec 4) : Keeps budgetSpent (matchCodes ps) := by
  have hbit (k : Nat) : Keeps budgetSpent (rcBit k) := rcBit_keeps (fun _ _ _ _ _ _ => rfl) fun _ _ => rfl
  have hdirect : Keeps budgetSpent rcDirectRound := rcDirectRound_keeps fun _ _ _ _ _ _ _ => rfl
  have c := (keeps_closed budgetSpent).toClosed
  exact .bind (.modify fun _ => rfl) fun _ => .bind (lenDec_closed c fun k _ => hbit k) fun len =>
    .bind (.modify fun _ => rfl) fun _ => .bind (distDec_closed c (fun k _ => hbit k) hdirect) fun _ =>
      .bind (.modify fun _ => rfl) fun _ => .pure _

theorem symMatch_endsAfter (ps : BitVec 4) (hb : budgetSpent a = true) :
    EndsAfter ds (symMatch ps a) (symMatch ps (resumed ds f a)) := by
  have hkeep := matchCodes_keeps_budgetSpent ps a
  rw [symMatch_eq_matchCodes, run_bind, run_bind, matchCodes_resumed ds f ps a]
  cases hr : matchCodes ps a with
  | ok len b =>
    rw [hr] at hkeep
    exact matchTail_endsAfter (hkeep.trans hb)
  | error e b => exact .error e b f

end

/-- The flush pointer behind the end test (R180). -/
def testedFlush (a : Arch) : DWord := if budgetSpent a then a.totalPos else a.flushedPos

/-- A symbol inside an iteration ends as by itself: the flush of the end test is made up for where the budget is used up. -/
theorem symbolOp_endsAfter {i : Instr} {a : Arch} (hi : i = .symLit ∨ i = .symMatch ∨ inRepeatFamily i = true)
    (hr : inRepeatFamily i = true → budgetSpent a = false) (ps : BitVec 4) (ds : List Bool) :
    EndsAfter ds (symbolOp ps i a) (symbolOp ps i (resumed ds (testedFlush a) a)) := by
  cases hb : budgetSpent a with
  | false =>
    have hflush : testedFlush a = a.flushedPos := by rw [testedFlush, hb, if_neg nofun]
    rw [hflush]
    exact (symbolOp_logAfter hi ps ds).endsAfter a
  | true =>
    rcases hi with rfl | rfl | hi
    · exact symLit_endsAfter hb
    · exact symMatch_endsAfter ps hb
    · cases hb.symm.trans (hr hi)

end Sys2Proof.Machine
end

section
/-! SUPPORT. The decisions that select a symbol, and the symbol behind them (R76, R167, R172, R183). With it, O44. -/

namespace Sys2Proof.Machine

/-! ## The decisions inside an iteration -/

/-- From `a`, one decision after another on the listed cells gives the listed values and leaves `b`. -/
def takes : List (ProbAddr × Bool) → Arch → Arch → Prop
  | [], a, b => b = a
  | (c, bit) :: rest, a, b => ∃ m, rcBit (cellOf c) a = .ok bit m ∧ takes rest m b

/-- RC.BIT one after another, each with a log of its own, takes the decisions that one operation would. -/
theorem takes_of_decides {l : List (ProbAddr × Bool)} {s t : State} (h : decides l s t) (ds : List Bool) (f : DWord) :
    takes l (resumed ds f (opStart s.arch)) (resumed (ds ++ l.map (·.2)) f (opStart t.arch)) := by
  induction l generalizing ds s with
  | nil =>
    cases h
    rw [List.map_nil, List.append_nil]
    rfl
  | cons p rest ih =>
    obtain ⟨c, bit⟩ := p
    obtain ⟨u, hbit, hrest⟩ := rcBit_of_decides h
    have hlog : resumed ds f u.arch = resumed (ds ++ [bit]) f (opStart u.arch) := by
      unfold resumed logAfter
      rw [rcBit_opStart_decisions hbit, opStart_decisions, List.append_nil]
      rfl
    have hrun := (rcBit_decodes (cellOf c)).commutes_resumed ds f (opStart s.arch)
    rw [hbit, mapState_ok, hlog] at hrun
    have htail := ih hrest (ds ++ [bit])
    rw [List.append_assoc] at htail
    exact ⟨_, hrun, htail⟩

/-- What the guards, the trees' contexts and the end test read. -/
def selectionGround (a : Arch) : Bool × Bool × BitVec 4 × DWord := (budgetSpent a, windowEmpty a, posState a, testedFlush a)

theorem decides_leaves {l : List (ProbAddr × Bool)} {s t : State} (h : decides l s t) :
    selectionGround t.arch = selectionGround s.arch ∧ t.events = s.events := by
  induction l generalizing s with
  | nil =>
    cases h
    exact ⟨rfl, rfl⟩
  | cons p rest ih =>
    obtain ⟨u, hu, hresp, hrest⟩ := h
    obtain ⟨hground, hevents⟩ := ih hrest
    have hbit : Keeps selectionGround (opOf (.rcBit p.1) s.arch) :=
      (rcBit_keeps (fun _ _ _ _ _ _ => rfl) fun _ _ => rfl : Keeps selectionGround (rcBit _)).answer
    exact ⟨hground.trans (exec_keeps_of_no_error hbit rfl hu (by simp [hresp])), hevents.trans (exec_events hu)⟩

/-! ## The symbol they select -/

theorem repGuards_ok {a : Arch} (hb : budgetSpent a = false) (he : windowEmpty a = false) : repGuards a = .ok () a := by
  unfold repGuards
  rw [run_bind_ok (budgetGuard_ok hb), run_get_bind, raiseIf_ok he]

theorem rcBit_keeps_ground {k : Nat} {a b : Arch} {bit : Bool} (h : rcBit k a = .ok bit b) :
    selectionGround b = selectionGround a :=
  (rcBit_keeps (fun _ _ _ _ _ _ => rfl) fun _ _ => rfl : Keeps selectionGround (rcBit k)).ok_eq h

/-- The repeat family past its guards: the decisions that select the symbol (R172). -/
def repSelection (st : Fin 12) (ps : BitVec 4) : Op StepOutcome := do
  let g0 ← rcBit (cell .isRepG0 st.val)
  if g0 then do
    let g1 ← rcBit (cell .isRepG1 st.val)
    if g1 then do
      let g2 ← rcBit (cell .isRepG2 st.val)
      if g2 then symRep3 ps else symRep2 ps
    else symRep1 ps
  else do
    let l ← rcBit (cell .isRep0Long (statePos st ps))
    if l then symRep0 ps else symShortrep

theorem repFamily_eq_repSelection (st : Fin 12) (ps : BitVec 4) :
    repFamily st ps = repGuards >>= fun _ => repSelection st ps := rfl

/-- Behind its two decisions, and past guards that the state before them meets, the repeat family selects. -/
theorem decodeIteration_repSelection {st : Fin 12} {ps : BitVec 4} {a b c : Arch}
    (hguards : budgetSpent a = false ∧ windowEmpty a = false)
    (hm : rcBit (cell .isMatch (statePos st ps)) a = .ok true b) (hr : rcBit (cell .isRep st.val) b = .ok true c) :
    decodeIteration st ps a = repSelection st ps c := by
  have hground : selectionGround c = selectionGround a := (rcBit_keeps_ground hr).trans (rcBit_keeps_ground hm)
  simp only [selectionGround, Prod.mk.injEq] at hground
  obtain ⟨hbudget, hwindow, -, -⟩ := hground
  rw [decodeIteration_repeat hm hr, repFamily_eq_repSelection,
    run_bind_ok (repGuards_ok (hbudget.trans hguards.1) (hwindow.trans hguards.2))]

/-- The iteration whose decisions are a symbol's selectors is that symbol behind them. -/
theorem decodeIteration_of_takes {i : Instr} {st : Fin 12} {ps : BitVec 4} {a b : Arch}
    (hi : i = .symLit ∨ i = .symMatch ∨ inRepeatFamily i = true)
    (hguards : inRepeatFamily i = true → budgetSpent a = false ∧ windowEmpty a = false)
    (h : takes (selectors st ps i) a b) : decodeIteration st ps a = symbolOp ps i b := by
  have hst : st.val < 2 ^ 24 := by omega
  have hsp : st.val * 16 + ps.toNat < 2 ^ 24 := by
    have hps := ps.isLt
    omega
  rcases selectable_cases hi with rfl | rfl | rfl | rfl | rfl | rfl | rfl <;>
    simp only [selectors, takes, cellOf_ofNat hst, cellOf_ofNat hsp] at h
  · obtain ⟨m, hmatch, rfl⟩ := h
    exact run_bind_ok hmatch
  · obtain ⟨m, hmatch, m', hrep, rfl⟩ := h
    exact (run_bind_ok hmatch).trans (run_bind_ok hrep)
  · obtain ⟨m, hmatch, m', hrep, m0, h0, m1, hlong, rfl⟩ := h
    exact (decodeIteration_repSelection (hguards rfl) hmatch hrep).trans ((run_bind_ok h0).trans (run_bind_ok hlong))
  · obtain ⟨m, hmatch, m', hrep, m0, h0, m1, hlong, rfl⟩ := h
    exact (decodeIteration_repSelection (hguards rfl) hmatch hrep).trans ((run_bind_ok h0).trans (run_bind_ok hlong))
  · obtain ⟨m, hmatch, m', hrep, m0, h0, m1, h1, rfl⟩ := h
    exact (decodeIteration_repSelection (hguards rfl) hmatch hrep).trans ((run_bind_ok h0).trans (run_bind_ok h1))
  · obtain ⟨m, hmatch, m', hrep, m0, h0, m1, h1, m2, h2, rfl⟩ := h
    exact (decodeIteration_repSelection (hguards rfl) hmatch hrep).trans
      ((run_bind_ok h0).trans ((run_bind_ok h1).trans (run_bind_ok h2)))
  · obtain ⟨m, hmatch, m', hrep, m0, h0, m1, h1, m2, h2, rfl⟩ := h
    exact (decodeIteration_repSelection (hguards rfl) hmatch hrep).trans
      ((run_bind_ok h0).trans ((run_bind_ok h1).trans (run_bind_ok h2)))

/-- MAIN.STEP that does not meet the end test, with a symbol's selectors decided, is that symbol and the end of the iteration. -/
theorem mainStep_selected {i : Instr} {s t : State} (hi : i = .symLit ∨ i = .symMatch ∨ inRepeatFamily i = true)
    (hend : finishesWithoutMarker s.arch = false)
    (hguards : inRepeatFamily i = true → budgetSpent s.arch = false ∧ windowEmpty s.arch = false)
    (h : decides (selectors s.arch.state (posState s.arch) i) { s with arch := { s.arch with phase := .symbol } } t) :
    mainStep (opStart s.arch) = (symbolOp (posState s.arch) i >>= endIteration)
      (resumed ((selectors s.arch.state (posState s.arch) i).map (·.2)) (testedFlush s.arch) (opStart t.arch)) := by
  have hstart : finishesWithoutMarker (opStart s.arch) = false := hend
  have htakes := takes_of_decides h [] (testedFlush s.arch)
  rw [mainStep_run, hstart, if_neg nofun]
  exact run_bind_congr (decodeIteration_of_takes (a := iterationStart (opStart s.arch)) hi hguards htakes) endIteration

/-! ## The symbol by itself and the iteration -/

theorem answer_eq_error {f : α → Response} {op : Op α} {a b : Arch} {e : Stop} (h : answer f op a = .error e b) :
    op a = .error e b := by
  rw [run_answer] at h
  cases ho : op a <;> rw [ho] at h <;> cases h
  rfl

section

variable {s : State} {op : Op StepOutcome} {ds : List Bool} {b w : Arch}
variable (hrun : mainStep (opStart s.arch) = (op >>= endIteration) w)
include hrun

theorem exec_mainStep_of_ok {o : StepOutcome} (h : EndsAfter ds (.ok o b) (op w)) :
    exec .mainStep s = .next (completed s (iterationEnd o (logAfter ds b)) (.step o)) :=
  exec_answer_ok (f := .step) rfl rfl (hrun.trans ((run_bind_ok h.ok_eq).trans (endIteration_ok o _)))

theorem exec_mainStep_of_raise {c : Cause} (h : EndsAfter ds (.error (.raise c) b) (op w)) :
    exec .mainStep s = .next (failed s c (logAfter ds b)) := by
  obtain ⟨f, hf⟩ := h.error_eq
  have hflushed : takeError c (resumed ds f b) = takeError c (logAfter ds b) := rfl
  rw [failed, ← hflushed]
  exact exec_answer_raise (f := .step) rfl rfl (hrun.trans (run_bind_error hf))

end

/-- Settles O44: the decisions of the selectors are the iteration's (`mainStep_selected`), and behind them the symbol ends as it
does by itself (`symbolOp_endsAfter`). -/
theorem mainStepRunsSelectedSymbol : Obligations.MainStepRunsSelectedSymbol := by
  intro i s t u hi hn hrep hdec hu log
  have hend : finishesWithoutMarker s.arch = false := by
    simpa [finishesWithoutMarker, budgetSpent, finok, and_assoc] using hn
  have hguards : inRepeatFamily i = true → budgetSpent s.arch = false ∧ windowEmpty s.arch = false := by
    simpa [budgetSpent, windowEmpty] using hrep
  obtain ⟨(hground : selectionGround t.arch = selectionGround s.arch), (hevents : t.events = s.events)⟩ :=
    decides_leaves hdec
  simp only [selectionGround, Prod.mk.injEq] at hground
  obtain ⟨hbudget, -, hps, hflush⟩ := hground
  have hrun := mainStep_selected hi hend hguards hdec
  have hends := symbolOp_endsAfter (a := opStart t.arch) hi (fun h => hbudget.trans (hguards h).1) (posState s.arch)
    ((selectors s.arch.state (posState s.arch) i).map (·.2))
  rw [show testedFlush (opStart t.arch) = testedFlush s.arch from hflush] at hends
  obtain ⟨hallow, hop⟩ := opOf_symbol hi t.arch
  rw [hps] at hop
  rcases exec_next_cases hu with ⟨hno, -⟩ | ⟨-, ⟨r, b, ho, rfl⟩ | ⟨b, -, rfl⟩ | ⟨c, b, ho, rfl⟩⟩
  · cases hno.symm.trans hallow
  · obtain ⟨o, hsym, rfl⟩ := answer_eq_ok (hop ▸ ho)
    rw [exec_mainStep_of_ok hrun (hsym ▸ hends), completed, completed, hevents]
    rcases o with _ | _
    · exact ⟨fun _ => rfl, by simp⟩
    · exact ⟨by simp, fun _ => rfl⟩
  · exact ⟨nofun, by simp [heldAt]⟩
  · have hsym := answer_eq_error (hop ▸ ho)
    rw [exec_mainStep_of_raise hrun (hsym ▸ hends), failed, failed, completed, completed, hevents]
    exact ⟨nofun, fun _ => rfl⟩

end Sys2Proof.Machine
end
